-- ==== Sys2Proof/Word.lean ====
section
/-!
DEFINITION. The words of the block: a byte of a frame or message, a Time Base value, a mask of 64 positions and a link mask.
-/

namespace Sys2Proof

/-- One byte of a port frame or of a link message (section 11.5). -/
abbrev Byte := BitVec 8

/-- A time value (R150): a number from 0 to 16,777,215 whose sums and differences are taken modulo 16,777,216. -/
abbrev Time := BitVec 24

/-- A mask of instances or store sections: bit n stands for item n (00_scope section 6, section 11.5). -/
abbrev Mask := BitVec 64

/-- A mask of repair links: bit n stands for link n (section 11.5). -/
abbrev LinkMask := BitVec 4

end Sys2Proof
end

