-- ==== Sys2Proof/Syntax.lean ====
section
/-!
DEFINITION. The commands of the block: one constructor of `Instr` for each row of spec/opcode_table.json, in the table's
order, with the operands the spec's text gives it (the table itself gives no bits).

A number that a port frame carries stays a natural number here, as wide as the wire lets it be, because the spec
answers a bad one with a status; a field of a device message or of an event of the part is typed, because a bad one
there is the row MALFORMED or no event at all.
-/

namespace Sys2Proof

/-- The two management ports (R168). -/
inductive Port where
  | card
  | chassis
deriving DecidableEq, Repr

/-- The two deadline compares (R151). -/
inductive DeadlineName where
  | card
  | chassis
deriving DecidableEq, Repr

/-- The descriptor fields as a DEFINE frame carries them (R2, section 11.5), before the range checks.
Kind and verify are the coded bytes. -/
structure RawDescriptor where
  link : Nat
  memId : Nat
  kind : Nat
  rows : Nat
  columns : Nat
  width : Nat
  spareRows : Nat
  spareColumns : Nat
  defaultSequence : Nat
  priority : Nat
  verify : Nat
  signature : Nat
deriving DecidableEq, Repr

/-- One element record of a LOAD_ELEMENTS frame (section 11.5): coded bytes, before the range checks of R47.
`operations` are the six operation bytes, of which the first `operationCount` are used. -/
structure RawElement where
  kind : Nat
  direction : Nat
  operationCount : Nat
  operations : List Nat
  background : Nat
  walkOffset : Nat
  holdTime : Nat
  skipSet : Nat
  margin : Nat
deriving DecidableEq, Repr

/-- One directory record of a LOAD_DIRECTORY frame (section 11.5). In the kind mask bit 0 is SRAM, 1 DRAM, 2 CAM. -/
structure RawDirectoryEntry where
  first : Nat
  count : Nat
  kindMask : Nat
deriving DecidableEq, Repr

/-- One entry of a RESULT's mismatch list (R103): a failing column and, unless the burst was a read-check, the
mismatch vector, bit offset 0 (the MSB) first. -/
structure Mismatch where
  column : Nat
  vector : Option (List Bool)
deriving DecidableEq, Repr

/-- The outcome of a RESULT (R100). -/
inductive ResultOutcome where
  | pass
  | fail
deriving DecidableEq, Repr

/-- The commands: requests of the two ports, messages of the devices, the reset pin, events of the Time Base, and
the steps the part takes itself. `port` is the port a request arrives at, `inst` an instance index. -/
inductive Instr where
  | define (port : Port) (inst : Nat) (desc : RawDescriptor)
  | retire (port : Port) (inst : Nat)
  | requalify (port : Port)
  | test (port : Port) (inst : Nat) (sequence : Option Nat) (urgency : Nat)
  | stop (port : Port) (inst : Nat)
  | guard (port : Port) (inst first last : Nat)
  | unguard (port : Port) (inst first last : Nat)
  | claim (port : Port) (mask : Mask) (mode : Nat)
  | release (port : Port) (mask : Mask)
  | breakClaim (port : Port) (mask : Mask)
  | loadElements (port : Port) (start : Nat) (records : List RawElement)
  | loadDirectory (port : Port) (start : Nat) (records : List RawDirectoryEntry)
  | budget (port : Port) (duration : Nat)
  | cap (port : Port) (duration : Nat)
  | commit (port : Port) (mask : Mask)
  | clearStore (port : Port) (mask : Mask)
  | status (port : Port) (inst : Nat)
  | fails (port : Port) (inst start : Nat)
  | map (port : Port) (inst : Nat)
  | queue (port : Port)
  | engines (port : Port)
  | links (port : Port)
  | library (port : Port) (selector first count : Nat)
  | time (port : Port)
  | takeNotice (port : Port) (kind : Nat)
  | noticeMask (port : Port) (mask : Byte)
  | badFrame (port : Port) (bytes : List Byte)
  | result (link : Fin 4) (tag : Fin 8) (outcome : ResultOutcome) (entries : List Mismatch)
  | loadDone (link : Fin 4) (memId : Fin 256)
  | ready (link : Fin 4)
  | resetNotice (link : Fin 4)
  | pull (link : Fin 4) (memId : Fin 256)
  | inService (link : Fin 4) (memId : Fin 256)
  | outOfService (link : Fin 4) (memId : Fin 256)
  | deviceGuard (link : Fin 4) (memId : Fin 256) (first last : Nat) (set : Bool)
  | malformed (link : Fin 4) (bytes : List Byte)
  | partReset (pins : Fin 4)
  | wrap
  | deadlineExpiry (which : DeadlineName)
  | wake (inst : Fin 64)
  | burstTimeout (link : Fin 4)
  | loadTimeout (link : Fin 4)
  | dispatch
  | preemption
  | resume (engine : Fin 6)
  | burstIssue (engine : Fin 6)
  | elementEnd (engine : Fin 6)
  | drainEnd (engine : Fin 6)
  | analysisBegin
  | analysisComplete
  | commitWriteEnd (verified : Bool)
  | clearWriteEnd (verified : Bool)
  | timeBaseAdvance
deriving DecidableEq, Repr

end Sys2Proof
end

