-- ==== Sys2Proof/Config.lean ====
section
/-!
DEFINITION. The constants the spec fixes for the part. It leaves no value to the implementation, so there is no free
value here (INVENTORY.md, "What the manual leaves open").
-/

namespace Sys2Proof.Config

/-- R119: the Fail Pool holds 1024 fail records. -/
def poolSize : Nat := 1024
/-- R118: a fail log holds at most 48 records. -/
def logCapacity : Nat := 48
/-- R117, R8: a hit count and the absorbed count stop at 255. -/
def counterTop : Nat := 255
/-- R106: a burst or a map load is timed out 50 ms after its stamp. -/
def linkTimeout : Time := 50
/-- R68: each link has 3 test slots. -/
def slotsPerLink : Nat := 3
/-- R88: an engine has at most 4 bursts in flight. -/
def burstsPerEngine : Nat := 4
/-- R69: an engine whose Resume Stack holds 3 instances is no candidate. -/
def stackDepth : Nat := 3
/-- R30: an instance holds at most 4 guard ranges. -/
def guardCapacity : Nat := 4
/-- R85: a chunk is 64 columns. -/
def chunkColumns : Nat := 64
/-- R152: the longest duration BUDGET and CAP take, in milliseconds. -/
def maxDuration : Nat := 600000
/-- R147: one job has at most three runs. -/
def runLimit : Nat := 3
/-- R40: the first loadable element. -/
def firstLoadableElement : Nat := 33
/-- R45: the first loadable directory entry. -/
def firstLoadableEntry : Nat := 6
/-- R174: the chassis port answers target address 56 plus the pins' value. -/
def chassisAddressBase : BitVec 7 := 56

end Sys2Proof.Config
end

