-- ==== Sys2Proof/Machine/Types.lean ====
section
/-!
DEFINITION. The types of the parts of State and of what the block sends out, each as the rule named gives it.
-/

namespace Sys2Proof.Machine

open Sys2Proof

/-! ### The Instance Table (R1) -/

/-- Memory kinds (R2). -/
inductive MemKind where
  | sram
  | dram
  | cam
deriving DecidableEq, Repr

/-- An accepted descriptor (R2). Its numeric ranges are those of R2, checked by DEFINE. -/
structure Descriptor where
  link : Fin 4
  memId : Fin 256
  kind : MemKind
  rows : Nat
  columns : Nat
  width : Nat
  spareRows : Nat
  spareColumns : Nat
  defaultSequence : Fin 32
  priority : Nat
  verify : Bool
  signature : Nat
deriving DecidableEq, Repr

/-- The thirteen states of R4. -/
inductive InstState where
  | vacant
  | defined
  | queued
  | running
  | suspended
  | parked
  | analysing
  | clean
  | repaired
  | abandoned
  | unrepairable
  | retired
  | faulted
deriving DecidableEq, Repr

/-- The owner field (R24). -/
inductive Owner where
  | none
  | card
  | chassis
deriving DecidableEq, Repr

/-- The four flags (R5). -/
structure InstFlags where
  storeLost : Bool
  signatureMismatch : Bool
  untested : Bool
  partialRun : Bool
deriving DecidableEq, Repr

/-- The five cut-short reasons (section 1.7). -/
inductive CutReason where
  | stop
  | deadline
  | pool
  | overflow
  | spares
deriving DecidableEq, Repr

/-- The verdict reasons (R1's table, R6). -/
inductive VerdictReason where
  | none
  | spares
  | overflow
  | verifyLimit
  | stop
  | deadline
  | pool
deriving DecidableEq, Repr

/-- The run classes (R7). -/
inductive RunClass where
  | normal
  | urgent
  | verify
deriving DecidableEq, Repr

/-- The urgency a TEST asks for, and the class of a follow-up (R8). -/
inductive Urgency where
  | normal
  | urgent
deriving DecidableEq, Repr

/-- The position mark (R81). -/
inductive PosMark where
  | loadPending
  | inElement
  | elementEnd
deriving DecidableEq, Repr

/-- Element ordinal, row cursor, column-chunk cursor and mark (R7, R81). -/
structure Position where
  ordinal : Nat
  row : Nat
  chunk : Nat
  mark : PosMark
deriving DecidableEq, Repr

/-- The run context (R7). -/
structure RunContext where
  jobSequence : Option (Fin 32)
  runClass : Option RunClass
  runCount : Nat
  position : Position
deriving DecidableEq, Repr

/-- A follow-up (R8). -/
structure FollowUp where
  sequence : Fin 32
  urgency : Urgency
  requester : Port
deriving DecidableEq, Repr

/-- A spare's state (R10). -/
inductive SpareState where
  | free
  | used
  | bad
deriving DecidableEq, Repr

/-- A guard range (R30). -/
structure GuardRange where
  first : Nat
  last : Nat
deriving DecidableEq, Repr

/-- Rows and columns: the kind of a repair record and of a spare (R133). -/
inductive LineKind where
  | row
  | column
deriving DecidableEq, Repr

/-- Where a repair came from (R133). -/
inductive Origin where
  | stored
  | found
deriving DecidableEq, Repr

/-- A repair record (R133); `verified` is its check field. -/
structure RepairRecord where
  kind : LineKind
  line : Nat
  spare : Nat
  origin : Origin
  verified : Bool
  guardTouched : Bool
deriving DecidableEq, Repr

/-- What a fail record is about: a cell or a must-repair line (R117). -/
inductive FailPlace where
  | cell (row column : Nat)
  | rowLine (row : Nat)
  | columnLine (column : Nat)
deriving DecidableEq, Repr

/-- First failing bit and failing bit count (R117, R123). -/
structure FailBits where
  first : Nat
  count : Nat
deriving DecidableEq, Repr

/-- Attribution of a fail (R124). -/
inductive Attribution where
  | uncovered
  | spareRow (spare : Nat)
  | spareColumn (spare : Nat)
deriving DecidableEq, Repr

/-- A fail record (R117). `bits` is absent for a line and for a read-check; `guarded` is absent for a COLUMN_LINE. -/
structure FailRecord where
  place : FailPlace
  bits : Option FailBits
  hits : Nat
  firstSeen : Time
  ordinal : Nat
  attribution : Attribution
  guarded : Option Bool
deriving DecidableEq, Repr

/-- An entry of the Instance Table (R1), with the repair map and the fail log kept alongside it. `settledReason` is the verdict reason of the
job that a follow-up displaced at settling, for STATUS to show (R148, notes/assumptions/27.md). -/
structure Entry where
  descriptor : Option Descriptor
  state : InstState
  owner : Owner
  live : Bool
  flags : InstFlags
  reason : VerdictReason
  run : RunContext
  followUp : Option FollowUp
  absorbed : Nat
  startStamp : Option Time
  endStamp : Option Time
  rowSpares : List SpareState
  columnSpares : List SpareState
  guards : List GuardRange
  suspending : Option (Fin 6)
  repairMap : List RepairRecord
  failLog : List FailRecord
  settledReason : VerdictReason
deriving DecidableEq, Repr

/-! ### The Sequence Library (R40 to R46) -/

/-- An operation of a MARCH element (R43). -/
inductive Operation where
  | write
  | writeInv
  | read
  | readInv
deriving DecidableEq, Repr

/-- A background (R42); WALK carries its walk offset (R41). -/
inductive Background where
  | solid
  | checker
  | rowStripe
  | columnStripe
  | walk (offset : Nat)
deriving DecidableEq, Repr

/-- A MARCH element's direction (R41). -/
inductive Direction where
  | up
  | down
deriving DecidableEq, Repr

/-- The fields of an element record that depend on its kind (R41). -/
inductive ElementBody where
  | march (direction : Direction) (operations : List Operation) (background : Background)
  | hold (time : Nat)
deriving DecidableEq, Repr

/-- The skip conditions of an element; `short` is SKIP_IF_SHORT with its margin, which is present only with it (R41). -/
structure SkipSet where
  notDram : Bool
  stored : Bool
  short : Option Nat
  fails : Bool
deriving DecidableEq, Repr

/-- An element record (R41). -/
structure Element where
  body : ElementBody
  skip : SkipSet
deriving DecidableEq, Repr

/-- A kind mask (R45). -/
structure KindMask where
  sram : Bool
  dram : Bool
  cam : Bool
deriving DecidableEq, Repr

/-- A directory entry that is not EMPTY (R45). -/
structure DirectoryEntry where
  first : Nat
  count : Nat
  kinds : KindMask
deriving DecidableEq, Repr

/-! ### Work Queue, Parking List, Analysis Queue -/

/-- The class of a Work Queue entry (R57). -/
inductive EntryClass where
  | wake
  | urgent
  | verify
  | normal
deriving DecidableEq, Repr

/-- The requester of a Work Queue entry (R57). -/
inductive Requester where
  | card
  | chassis
  | part
deriving DecidableEq, Repr

/-- A Work Queue entry (R57). -/
structure QueueEntry where
  inst : Fin 64
  sequence : Fin 32
  cls : EntryClass
  requester : Requester
  arrival : Time
  reserved : Option (Fin 6)
deriving DecidableEq, Repr

/-- A Parking List entry (R75). -/
structure ParkEntry where
  inst : Fin 64
  wake : Time
deriving DecidableEq, Repr

/-- An Analysis Queue entry (R135), with what R137 makes of how it came there: fresh or closing. -/
structure AnalysisEntry where
  inst : Fin 64
  fresh : Bool
deriving DecidableEq, Repr

/-! ### Sections of the Repair Store (R161) -/

/-- A stored record (R161). -/
structure StoredRecord where
  kind : LineKind
  line : Nat
  spare : Nat
deriving DecidableEq, Repr

/-- What a WRITTEN section and a commit's snapshot entry hold (R161, R163). -/
structure StoredMap where
  signature : Nat
  records : List StoredRecord
deriving DecidableEq, Repr

/-- A store section (R161): `written` is absent while its state is EMPTY; `intact` says that its check value matches
its contents (notes/assumptions/10.md). -/
structure StoreSection where
  written : Option StoredMap
  intact : Bool
deriving DecidableEq, Repr

/-! ### Engines (R79) -/

/-- The states of an engine (R79). -/
inductive EngineState where
  | idle
  | loading
  | walking
  | draining
  | waitingSlot
deriving DecidableEq, Repr

/-- A drain's reason (R79): PREEMPT, a cut-short reason, RETIRE or REQUALIFY. -/
inductive DrainReason where
  | preempt
  | cut (reason : CutReason)
  | retire
  | requalify
deriving DecidableEq, Repr

/-- A burst in flight (R79). -/
structure Burst where
  tag : Fin 8
  row : Nat
  chunk : Nat
  ordinal : Nat
  readCheck : Bool
deriving DecidableEq, Repr

/-- An engine (R79). `reload` is the model's own field (notes/assumptions/26.md): while the engine drains for REQUALIFY, the store
section of its instance as it stood when the REQUALIFY was taken, which the reset at the drain's end loads (R162). `given` is the tag that
the tag arbiter has given the engine and that it has not issued a burst with yet (R88, notes/assumptions/5.md). -/
structure Engine where
  state : EngineState
  current : Option (Fin 64)
  position : Option Position
  inFlight : List Burst
  loadOutstanding : Bool
  dispatchStamp : Option Time
  preemptible : Bool
  drainReason : Option DrainReason
  held : Option CutReason
  waitingLink : Option (Fin 4)
  stack : List (Fin 64)
  reload : Option StoreSection
  given : Option (Fin 8)
deriving DecidableEq, Repr

/-! ### Links (R98) -/

/-- Why a link is DOWN (R98). -/
inductive DownReason where
  | neverUp
  | reset
  | timeout
  | malformed
deriving DecidableEq, Repr

/-- A tag in use (R98). -/
structure TagUse where
  tag : Fin 8
  engine : Fin 6
  issued : Time
deriving DecidableEq, Repr

/-- A load outstanding (R98). -/
structure LoadUse where
  engine : Fin 6
  memId : Fin 256
  sentAt : Time
deriving DecidableEq, Repr

/-- Who holds a test slot (R68): a RUNNING instance or a reserved Work Queue entry, named by its instance. -/
inductive SlotHolder where
  | running (inst : Fin 64)
  | reserved (inst : Fin 64)
deriving DecidableEq, Repr

/-- The verdict a MAP_OFFER names (R99). -/
inductive OfferVerdict where
  | clean
  | repaired
  | abandoned
  | unrepairable
  | unknown
deriving DecidableEq, Repr

/-- The reasons of a REJECT (R116). -/
inductive RejectReason where
  | unknown
  | wrongState
  | busy
  | badRange
  | guardFull
deriving DecidableEq, Repr

/-- The messages the part sends to a device (R99). -/
inductive LinkMsg where
  | burst (tag : Fin 8) (memId : Fin 256) (row firstColumn columns : Nat) (operations : List Operation)
      (background : Background) (readCheck : Bool)
  | mapLoad (memId : Fin 256) (records : List RepairRecord)
  | mapOffer (memId : Fin 256) (verdict : OfferVerdict) (provisional : Bool) (records : Option (List RepairRecord))
  | fence (memId : Fin 256)
  | reject (memId : Fin 256) (reason : RejectReason)
deriving DecidableEq, Repr

/-- A link record (R98). `down` is the down reason, absent exactly while the link is UP. `sent` is the model's record of
the messages sent on the link since the part's last reset, oldest first (notes/assumptions/11.md). -/
structure Link where
  down : Option DownReason
  tags : List TagUse
  loads : List LoadUse
  slots : List SlotHolder
  pulls : List (Fin 64)
  sent : List LinkMsg
deriving DecidableEq, Repr

/-! ### The store operation (R161) -/

/-- One section of a store operation and what it is written with: a snapshot entry (commit) or EMPTY (clear). -/
structure SectionWrite where
  index : Fin 64
  content : Option StoredMap
deriving DecidableEq, Repr

/-- A commit or a clear (R161). -/
inductive StoreOpKind where
  | commit
  | clear
deriving DecidableEq, Repr

/-- The store operation in progress (R161): the section being written, those still to write, and the failed mask. -/
structure StoreOp where
  kind : StoreOpKind
  writing : SectionWrite
  todo : List SectionWrite
  failed : Mask
deriving DecidableEq, Repr

/-! ### Ports (R168, R171, R173) -/

/-- The names a DEADLINE notice carries (R171). -/
structure DeadlineNames where
  card : Bool
  chassis : Bool
deriving DecidableEq, Repr

/-- A port's notice set: at most one notice of each of the seven kinds (R171). -/
structure NoticeSet where
  verdict : Option Mask
  deadline : Option DeadlineNames
  claimLost : Option Mask
  link : Option LinkMask
  fault : Option Mask
  wrap : Bool
  store : Option Mask
deriving DecidableEq, Repr

/-- A notice with its content (R171): what is raised, and what TAKE_NOTICE returns. -/
inductive Notice where
  | verdict (instances : Mask)
  | deadline (names : DeadlineNames)
  | claimLost (instances : Mask)
  | link (links : LinkMask)
  | fault (instances : Mask)
  | wrap
  | store (failed : Mask)
deriving DecidableEq, Repr

/-- The seven notice kinds (R171). -/
inductive NoticeKind where
  | verdict
  | deadline
  | claimLost
  | link
  | fault
  | wrap
  | store
deriving DecidableEq, Repr

/-- The status codes of section 11.5. -/
inductive Status where
  | ok
  | badFrame
  | badRequest
  | badIndex
  | badRange
  | notOwner
  | privilege
  | busy
  | live
  | wrongState
  | noDescriptor
  | linkDown
  | badSequence
  | libraryBusy
  | guardFull
  | storeBusy
deriving DecidableEq, Repr

/-- The store outcome a DEFINE reports (R14, R162). -/
inductive StoreOutcome where
  | empty
  | storeLost
  | signatureMismatch
  | loaded (count : Nat)
deriving DecidableEq, Repr

/-- RETIRE's disposition (R17). -/
inductive RetireDisposition where
  | retired
  | draining
deriving DecidableEq, Repr

/-- TEST's disposition (R59). -/
inductive TestDisposition where
  | queued
  | merged
  | followUp
deriving DecidableEq, Repr

/-- STOP's disposition (R77). -/
inductive StopDisposition where
  | cutShort
  | draining
  | followUpCleared
deriving DecidableEq, Repr

/-- CLAIM's result (R25): GRANTED, PARTIAL, REFUSED. -/
inductive ClaimResult where
  | granted
  | partGranted
  | refused
deriving DecidableEq, Repr

/-- What an ENGINES read reports of one engine (R79). -/
structure EngineReport where
  state : EngineState
  current : Option (Fin 64)
  inFlight : Nat
  loadOutstanding : Bool
  drainReason : Option DrainReason
  held : Option CutReason
  waitingLink : Option (Fin 4)
  stack : List (Fin 64)
deriving DecidableEq, Repr

/-- What a LINKS read reports of one link (R98). -/
structure LinkReport where
  down : Option DownReason
  tags : Nat
  slots : Nat
  pulls : List (Fin 64)
deriving DecidableEq, Repr

/-- What a STATUS read reports (R170). -/
structure StatusReport where
  descriptor : Option Descriptor
  state : InstState
  owner : Owner
  live : Bool
  flags : InstFlags
  reason : VerdictReason
  run : RunContext
  followUp : Option FollowUp
  absorbed : Nat
  startStamp : Option Time
  endStamp : Option Time
  rowSpares : List SpareState
  columnSpares : List SpareState
  guards : List GuardRange
  suspending : Option (Fin 6)
deriving DecidableEq, Repr

/-- The payload of a response: the items the request's rule names, in its order. -/
inductive Payload where
  | empty
  | define (outcome : StoreOutcome)
  | retire (disposition : RetireDisposition)
  | requalify (requalified skipped : Mask)
  | test (disposition : TestDisposition)
  | stop (disposition : StopDisposition)
  | guards (ranges : List GuardRange)
  | claim (result : ClaimResult) (held : Mask)
  | mask (mask : Mask)
  | written (count : Nat)
  | deadline (value : Option Time) (now : Time)
  | commit (committed skipped : Mask)
  | status (report : StatusReport)
  | fails (records : List FailRecord) (total free : Nat)
  | map (records : List RepairRecord) (rowSpares columnSpares : List SpareState)
  | queue (entries : List QueueEntry)
  | engines (reports : List EngineReport)
  | links (reports : List LinkReport)
  | directoryEntry (entry : Option DirectoryEntry) (referenced : Bool)
  | elements (records : List (Element × Bool))
  | time (now : Time) (card chassis : Option Time)
  | notice (content : Option Notice)
  | noticeMask (mask : Byte) (kinds : Byte) (line : Bool)
deriving DecidableEq, Repr

/-- A response frame before it is laid out in bytes (R168): response code, status and payload. -/
structure Response where
  code : Byte
  status : Status
  payload : Payload
deriving DecidableEq, Repr

/-- A port (R168, R171, R173). -/
structure PortState where
  response : Option Response
  notices : NoticeSet
  mask : Byte
deriving DecidableEq, Repr

end Sys2Proof.Machine
end

