-- ==== Sys2Proof/Machine/Builtin.lean ====
section
/-!
DEFINITION. What the Sequence Library holds after every part reset (R40, R45, R46): the 33 built-in elements, the six
built-in directory entries, and the content of the loadable regions.
-/

namespace Sys2Proof.Machine

open Sys2Proof

/-- The empty skip set (R41). -/
def SkipSet.nothing : SkipSet := ⟨false, false, none, false⟩

/-- A MARCH element with no skip condition. -/
def plainMarch (d : Direction) (ops : List Operation) (b : Background) : Element := ⟨.march d ops b, .nothing⟩

/-- R40: the record every loadable element holds after part reset. -/
def defaultElement : Element := plainMarch .up [.write] .solid

/-- R46: elements 0 to 8, the sequences QUICK and FULL. -/
def builtinQuickFull : List Element :=
  [ plainMarch .up [.write] .solid,
    plainMarch .up [.read, .writeInv] .solid,
    plainMarch .down [.readInv] .solid,
    plainMarch .up [.write] .solid,
    plainMarch .up [.read, .writeInv] .solid,
    plainMarch .up [.readInv, .write] .solid,
    ⟨.march .down [.read, .writeInv] .solid, { SkipSet.nothing with short := some 2000 }⟩,
    ⟨.march .down [.readInv, .write] .solid, { SkipSet.nothing with short := some 2000 }⟩,
    plainMarch .down [.read] .solid ]

/-- R46: elements 9 to 18, the sequences CHECKER and STRIPES. -/
def builtinCheckerStripes : List Element :=
  [ plainMarch .up [.write] .checker,
    plainMarch .up [.read, .writeInv] .checker,
    plainMarch .down [.readInv, .write] .checker,
    plainMarch .down [.read] .checker,
    plainMarch .up [.write] .rowStripe,
    plainMarch .up [.read, .writeInv] .rowStripe,
    plainMarch .down [.readInv] .rowStripe,
    plainMarch .up [.write] .columnStripe,
    plainMarch .up [.read, .writeInv] .columnStripe,
    plainMarch .down [.readInv] .columnStripe ]

/-- R46: elements 19 to 24, the sequence RETAIN. -/
def builtinRetain : List Element :=
  [ plainMarch .up [.write] .solid,
    ⟨.hold 64, { SkipSet.nothing with notDram := true }⟩,
    plainMarch .up [.read, .writeInv] .solid,
    ⟨.hold 64, { SkipSet.nothing with notDram := true }⟩,
    plainMarch .up [.readInv] .solid,
    plainMarch .up [.write] .solid ]

/-- R46: elements 25 to 32, the sequence WALK. -/
def builtinWalk : List Element :=
  [ plainMarch .up [.write] (.walk 0), plainMarch .up [.read] (.walk 0),
    plainMarch .up [.write] (.walk 1), plainMarch .up [.read] (.walk 1),
    plainMarch .up [.write] (.walk 2), plainMarch .up [.read] (.walk 2),
    plainMarch .up [.write] (.walk 3), plainMarch .up [.read] (.walk 3) ]

/-- R46: elements 0 to 32. -/
def builtinElements : List Element := builtinQuickFull ++ builtinCheckerStripes ++ builtinRetain ++ builtinWalk

/-- The built-in elements are 0 to 32 (section 3.3: the six counts sum to 33). -/
theorem builtinElements_length : builtinElements.length = 33 := rfl

/-- R40: the Element Store after part reset. -/
def resetElements : Vector Element 256 := 
  ⟨(builtinElements ++ List.replicate 223 defaultElement).toArray, by
    rw [List.size_toArray, List.length_append, List.length_replicate, builtinElements_length]⟩

/-- R46: all three kinds. -/
def KindMask.all : KindMask := ⟨true, true, true⟩

/-- R46: directory entries 0 to 5. -/
def builtinDirectory : List (Option DirectoryEntry) :=
  [ some ⟨0, 3, .all⟩, some ⟨3, 6, .all⟩, some ⟨9, 4, .all⟩, some ⟨13, 6, .all⟩,
    some ⟨19, 6, ⟨false, true, false⟩⟩, some ⟨25, 8, .all⟩ ]

/-- R45: the Sequence Directory after part reset. -/
def resetDirectory : Vector (Option DirectoryEntry) 32 := ⟨(builtinDirectory ++ List.replicate 26 none).toArray, rfl⟩

end Sys2Proof.Machine
end

