-- ==== Sys2Proof/Machine/State.lean ====
section
/-!
DEFINITION. The state of the block: every piece of state the spec gives the part, the queue of waiting commands, the
reasons a step could stop, and the state right after a part reset.
-/

namespace Sys2Proof.Machine

open Sys2Proof

/-- The state of the block. The rules that name the parts stand in INVENTORY.md. -/
structure State where
  /-- The Instance Table (R1). -/
  table : Vector Entry 64
  /-- The number of free records in the Fail Pool (R119). -/
  poolFree : Nat
  /-- The Element Store (R40). -/
  elements : Vector Element 256
  /-- The Sequence Directory (R45); an absent entry is EMPTY. -/
  directory : Vector (Option DirectoryEntry) 32
  /-- The Work Queue (R57), in the order the entries joined. -/
  workQueue : List QueueEntry
  /-- The Parking List (R75), soonest wake first. -/
  parking : List ParkEntry
  /-- The Analysis Queue (R135), head first. -/
  analysisQueue : List AnalysisEntry
  /-- R135: the analyser is analysing the head of the queue (it is idle otherwise). -/
  analysing : Bool
  /-- TE0 to TE5 (R79). -/
  engineTable : Vector Engine 6
  /-- The records of RL0 to RL3 (R98). -/
  linkTable : Vector Link 4
  /-- The Time Base (R149). -/
  now : Time
  /-- The CARD compare (R151), absent while disarmed. -/
  cardDeadline : Option Time
  /-- The CHASSIS compare (R151), absent while disarmed. -/
  chassisDeadline : Option Time
  /-- The sections of the Repair Store (R161). -/
  sections : Vector StoreSection 64
  /-- The store operation (R161), absent while idle. -/
  storeOp : Option StoreOp
  /-- The card port (R168). -/
  cardPort : PortState
  /-- The chassis port (R168). -/
  chassisPort : PortState
  /-- The I2C target address the chassis port answers (R174). -/
  chassisAddress : BitVec 7
  /-- The commands that wait, first in first out (the model's own field). -/
  pending : List Instr
deriving DecidableEq, Repr

/-- Why the block could stop with a fault: for no reason. The spec describes no stop of the part: it answers every bad
request, message and event with a status, a REJECT, a link going DOWN or a notice, and those are effects on the state.
So there is no constructor, nobody raises a fault, and nothing safe or unsafe follows from one. -/
inductive Fault where
deriving DecidableEq, Repr

/-- Why the block could refuse a command. -/
inductive Refusal where
  /-- Raised by an arm of `exec` for a command that has no meaning in this model yet (safe: the model stops where the
  part goes on). No arm raises it. -/
  | notModelled (mnemonic : String)
deriving DecidableEq, Repr

/-- R7, R81: the run context's position after part reset. -/
def Position.zero : Position := ⟨0, 0, 0, .loadPending⟩

/-- R23: the run context after part reset. -/
def RunContext.reset : RunContext := ⟨none, none, 0, .zero⟩

/-- R23: no flag set. -/
def InstFlags.clear : InstFlags := ⟨false, false, false, false⟩

/-- R23: an entry of the Instance Table after part reset. -/
def Entry.reset : Entry where
  descriptor := none
  state := .vacant
  owner := .none
  live := false
  flags := .clear
  reason := .none
  run := .reset
  followUp := none
  absorbed := 0
  startStamp := none
  endStamp := none
  rowSpares := []
  columnSpares := []
  guards := []
  suspending := none
  repairMap := []
  failLog := []
  settledReason := .none

/-- R79: an engine after part reset. -/
def Engine.reset : Engine where
  state := .idle
  current := none
  position := none
  inFlight := []
  loadOutstanding := false
  dispatchStamp := none
  preemptible := false
  drainReason := none
  held := none
  waitingLink := none
  stack := []
  reload := none
  given := none

/-- R98: a link record after part reset. -/
def Link.reset : Link where
  down := some .neverUp
  tags := []
  loads := []
  slots := []
  pulls := []
  sent := []

/-- R171: the empty notice set. -/
def NoticeSet.empty : NoticeSet := ⟨none, none, none, none, none, false, none⟩

/-- R174: a port after part reset. -/
def PortState.reset : PortState := ⟨none, .empty, 0⟩

/-- R161: a section that has never been written counts as EMPTY. -/
def StoreSection.blank : StoreSection := ⟨none, true⟩

/-- The block right after its first part reset: every value as R23, R40, R45, R57, R75, R79, R98, R119, R135, R149,
R151, R161 and R174 give it. The store's sections (non-volatile, here never written) and the address pins (here 0) are
the model's choice: notes/assumptions/9.md and 8.md. -/
def State.reset : State where
  table := Vector.replicate 64 .reset
  poolFree := Config.poolSize
  elements := resetElements
  directory := resetDirectory
  workQueue := []
  parking := []
  analysisQueue := []
  analysing := false
  engineTable := Vector.replicate 6 .reset
  linkTable := Vector.replicate 4 .reset
  now := 0
  cardDeadline := none
  chassisDeadline := none
  sections := Vector.replicate 64 .blank
  storeOp := none
  cardPort := .reset
  chassisPort := .reset
  chassisAddress := Config.chassisAddressBase
  pending := []

end Sys2Proof.Machine
end

