-- ==== Sys2Proof/Machine/Ops.lean ====
section
/-!
DEFINITION. The named operations over the state's parts: reading and writing one entry, engine, link or port, time
differences, masks, looking an instance up, sending a message, and the test slots of R68.
-/

namespace Sys2Proof.Machine

open Sys2Proof

/-! ### Parts of the state -/

namespace State

/-- The Instance Table's entry of instance `i` (R1). -/
def entry (s : State) (i : Fin 64) : Entry := s.table[i]

/-- Write the entry of instance `i`. -/
def setEntry (s : State) (i : Fin 64) (e : Entry) : State := { s with table := s.table.set i e }

/-- Change the entry of instance `i`. -/
def modEntry (s : State) (i : Fin 64) (f : Entry → Entry) : State := s.setEntry i (f (s.entry i))

/-- Engine `e` (R79). -/
def engine (s : State) (e : Fin 6) : Engine := s.engineTable[e]

/-- Write engine `e`. -/
def setEngine (s : State) (e : Fin 6) (en : Engine) : State := { s with engineTable := s.engineTable.set e en }

/-- Change engine `e`. -/
def modEngine (s : State) (e : Fin 6) (f : Engine → Engine) : State := s.setEngine e (f (s.engine e))

/-- The record of link `l` (R98). -/
def link (s : State) (l : Fin 4) : Link := s.linkTable[l]

/-- Write the record of link `l`. -/
def setLink (s : State) (l : Fin 4) (k : Link) : State := { s with linkTable := s.linkTable.set l k }

/-- Change the record of link `l`. -/
def modLink (s : State) (l : Fin 4) (f : Link → Link) : State := s.setLink l (f (s.link l))

/-- The port `p` (R168). -/
def port (s : State) : Port → PortState
  | .card => s.cardPort
  | .chassis => s.chassisPort

/-- Write port `p`. -/
def setPort (s : State) (p : Port) (q : PortState) : State :=
  match p with
  | .card => { s with cardPort := q }
  | .chassis => { s with chassisPort := q }

/-- Change port `p`. -/
def modPort (s : State) (p : Port) (f : PortState → PortState) : State := s.setPort p (f (s.port p))

/-- A deadline compare (R151). -/
def deadline (s : State) : DeadlineName → Option Time
  | .card => s.cardDeadline
  | .chassis => s.chassisDeadline

/-- Write a deadline compare. -/
def setDeadline (s : State) (d : DeadlineName) (v : Option Time) : State :=
  match d with
  | .card => { s with cardDeadline := v }
  | .chassis => { s with chassisDeadline := v }

/-- Section `n` of the Repair Store (R161). -/
def storeSection (s : State) (n : Fin 64) : StoreSection := s.sections[n]

/-- Write section `n`. -/
def setSection (s : State) (n : Fin 64) (c : StoreSection) : State := { s with sections := s.sections.set n c }

/-- Element record `k` (R40); an index outside the store reads as the default record. -/
def element (s : State) (k : Nat) : Element := if h : k < 256 then s.elements[k] else defaultElement

/-- Directory entry `k` (R45). -/
def directoryEntry (s : State) (k : Fin 32) : Option DirectoryEntry := s.directory[k]

end State

/-! ### Lists of indices, masks and time -/

/-- The instance indices in ascending order. -/
def allInsts : List (Fin 64) := List.finRange 64

/-- The engine numbers in ascending order. -/
def allEngines : List (Fin 6) := List.finRange 6

/-- The link numbers in ascending order. -/
def allLinks : List (Fin 4) := List.finRange 4

/-- The index a port request carries, when it is one of 0 to 63 (R1). -/
def instIndex (n : Nat) : Option (Fin 64) := if h : n < 64 then some ⟨n, h⟩ else none

/-- Position `i` of a mask (00_scope section 6). -/
def inMask (m : Mask) (i : Fin 64) : Bool := m.getLsbD i.val

/-- The mask with one position set. -/
def maskBit (i : Fin 64) : Mask := 1#64 <<< i.val

/-- The mask with a position for each instance that meets `p`. -/
def maskOf (p : Fin 64 → Bool) : Mask := allInsts.foldl (fun m i => if p i then m ||| maskBit i else m) 0

/-- The link mask with one position set. -/
def linkBit (l : Fin 4) : LinkMask := 1#4 <<< l.val

/-- The age of a stamp (R65): the current value less the stamp, modulo 16,777,216. -/
def age (now stamp : Time) : Nat := (now - stamp).toNat

/-- The time remaining to a value (R75, R159): the value less the current one, modulo 16,777,216. -/
def remaining (value now : Time) : Nat := (value - now).toNat

/-- A count that stops at 255 (R8, R117). -/
def countUp (n : Nat) : Nat := min Config.counterTop (n + 1)

/-! ### Instances and their links -/

namespace State

/-- The link of instance `i`'s device, when `i` is defined. -/
def linkOf (s : State) (i : Fin 64) : Option (Fin 4) := (s.entry i).descriptor.map Descriptor.link

/-- Link `l` is UP (R98). -/
def linkUp (s : State) (l : Fin 4) : Bool := (s.link l).down.isNone

/-- The link of instance `i` is UP. -/
def instLinkUp (s : State) (i : Fin 64) : Bool := (s.linkOf i).any s.linkUp

/-- The instance a device's memory id names on link `l`, in any state but VACANT (R3, R33, R36, R112). -/
def lookup (s : State) (l : Fin 4) (m : Fin 256) : Option (Fin 64) :=
  allInsts.find? fun i =>
    (s.entry i).state != .vacant && (s.entry i).descriptor.any fun d => d.link == l && d.memId == m

/-- Send a message on link `l`: only while it is UP (R99). -/
def send (s : State) (l : Fin 4) (m : LinkMsg) : State :=
  if s.linkUp l then s.modLink l fun k => { k with sent := k.sent ++ [m] } else s

/-- The engine whose current instance is `i`. -/
def engineOf (s : State) (i : Fin 64) : Option (Fin 6) := allEngines.find? fun e => (s.engine e).current == some i

/-- Return the records of instance `i`'s fail log to the Fail Pool (R120). -/
def emptyLog (s : State) (i : Fin 64) : State :=
  { s with poolFree := s.poolFree + (s.entry i).failLog.length }.modEntry i fun e => { e with failLog := [] }

end State

/-! ### The states of R4 by group -/

/-- R4: the settled states. -/
def InstState.settled : InstState → Bool
  | .clean | .repaired | .abandoned | .unrepairable | .retired => true
  | _ => false

/-- R4: the usable states. -/
def InstState.usable : InstState → Bool
  | .clean | .repaired | .abandoned => true
  | _ => false

/-- The states with a job: QUEUED, RUNNING, SUSPENDED, PARKED or ANALYSING (R12, R31, R49). -/
def InstState.busy : InstState → Bool
  | .queued | .running | .suspended | .parked | .analysing => true
  | _ => false

/-! ### Spares (R10) -/

/-- The number of FREE spares. -/
def freeCount (l : List SpareState) : Nat := l.countP (· == .free)

/-- The spares with spare `k` in a new state. -/
def setSpare (l : List SpareState) (k : Nat) (v : SpareState) : List SpareState := l.set k v

/-! ### Test slots (R68) -/

/-- The instance a slot is held for. -/
def SlotHolder.inst : SlotHolder → Fin 64
  | .running i => i
  | .reserved i => i

namespace State

/-- The engines in WAITING_SLOT for link `l`. -/
def waiters (s : State) (l : Fin 4) : List (Fin 6) :=
  allEngines.filter fun e => (s.engine e).state == .waitingSlot && (s.engine e).waitingLink == some l

/-- Link `l` has a slot nobody holds. -/
def slotOpen (s : State) (l : Fin 4) : Bool := (s.link l).slots.length < Config.slotsPerLink

/-- R68: link `l` has a free slot. A slot an engine waits for is given to that engine and does not become free. -/
def slotFree (s : State) (l : Fin 4) : Bool := s.slotOpen l && (s.waiters l).isEmpty

/-- R68: the slot arbiter gives an open slot of link `l` to engine `e`: no lower-numbered engine waits for the link at this moment. That
an engine which begins to wait between a slot's release and a RESUME counts too is the model's choice: notes/assumptions/4.md. -/
def slotGranted (s : State) (e : Fin 6) (l : Fin 4) : Bool :=
  s.slotOpen l && (s.waiters l).all fun w => e.val ≤ w.val

/-- Instance `i`, becoming RUNNING, takes a slot of its link: the one its reservation holds, else a new one. -/
def takeSlot (s : State) (i : Fin 64) : State :=
  match s.linkOf i with
  | none => s
  | some l => s.modLink l fun k => { k with slots := k.slots.filter (· != .reserved i) ++ [.running i] }

/-- A reserved entry of instance `i` takes a slot of its link (R70). -/
def reserveSlot (s : State) (i : Fin 64) : State :=
  match s.linkOf i with
  | none => s
  | some l => s.modLink l fun k => { k with slots := k.slots ++ [.reserved i] }

/-- The slot held by or for instance `i` is released (R68). -/
def releaseSlot (s : State) (i : Fin 64) : State :=
  match s.linkOf i with
  | none => s
  | some l => s.modLink l fun k => { k with slots := k.slots.filter fun h => h.inst != i }

end State

end Sys2Proof.Machine
end

