-- ==== Sys2Proof/Machine/Flags.lean ====
section
/-!
DEFINITION. The notice sets, notice masks and lines of the two ports (R171 to R173), the pending response (R168), and
the codes of section 11.5 for statuses and notice kinds.
-/

namespace Sys2Proof.Machine

open Sys2Proof

/-! ### Notices (R171) -/

/-- Join a raised mask to the mask a notice holds: union, or the raised mask when the kind is absent. -/
def joinMask {w : Nat} (old : Option (BitVec w)) (new : BitVec w) : Option (BitVec w) :=
  match old with
  | none => some new
  | some m => some (m ||| new)

/-- Join raised deadline names to those a notice holds. -/
def joinNames (old : Option DeadlineNames) (new : DeadlineNames) : Option DeadlineNames :=
  match old with
  | none => some new
  | some n => some ⟨n.card || new.card, n.chassis || new.chassis⟩

/-- R171: what raising a notice makes of a notice set. -/
def NoticeSet.raise (ns : NoticeSet) : Notice → NoticeSet
  | .verdict m => { ns with verdict := joinMask ns.verdict m }
  | .deadline n => { ns with deadline := joinNames ns.deadline n }
  | .claimLost m => { ns with claimLost := joinMask ns.claimLost m }
  | .link m => { ns with link := joinMask ns.link m }
  | .fault m => { ns with fault := joinMask ns.fault m }
  | .wrap => { ns with wrap := true }
  | .store m => { ns with store := joinMask ns.store m }

/-- The notice of one kind in a set, when present (R172). -/
def NoticeSet.get (ns : NoticeSet) : NoticeKind → Option Notice
  | .verdict => ns.verdict.map .verdict
  | .deadline => ns.deadline.map .deadline
  | .claimLost => ns.claimLost.map .claimLost
  | .link => ns.link.map .link
  | .fault => ns.fault.map .fault
  | .wrap => if ns.wrap then some .wrap else none
  | .store => ns.store.map .store

/-- Remove the notice of one kind (R172). -/
def NoticeSet.remove (ns : NoticeSet) : NoticeKind → NoticeSet
  | .verdict => { ns with verdict := none }
  | .deadline => { ns with deadline := none }
  | .claimLost => { ns with claimLost := none }
  | .link => { ns with link := none }
  | .fault => { ns with fault := none }
  | .wrap => { ns with wrap := false }
  | .store => { ns with store := none }

/-- Section 11.5: the notice kind codes. -/
def NoticeKind.code : NoticeKind → Nat
  | .verdict => 1
  | .deadline => 2
  | .claimLost => 3
  | .link => 4
  | .fault => 5
  | .wrap => 6
  | .store => 7

/-- The seven kinds. -/
def noticeKinds : List NoticeKind := [.verdict, .deadline, .claimLost, .link, .fault, .wrap, .store]

/-- The kind a code names (R172). -/
def noticeKindOf (n : Nat) : Option NoticeKind := noticeKinds.find? fun k => k.code == n

/-- The kinds present in a set, kind n at bit n (section 11.5). -/
def NoticeSet.kinds (ns : NoticeSet) : Byte :=
  noticeKinds.foldl (fun m k => if (ns.get k).isSome then m ||| (1#8 <<< k.code) else m) 0

/-- R173: a port's line is asserted while its notice set holds at least one kind that its mask enables. -/
def PortState.line (q : PortState) : Bool := noticeKinds.any fun k => (q.notices.get k).isSome && q.mask.getLsbD k.code

namespace State

/-- Raise a notice at one port (R171). -/
def raise (s : State) (p : Port) (n : Notice) : State :=
  s.modPort p fun q => { q with notices := q.notices.raise n }

/-- Raise a notice on both ports (R171). -/
def raiseBoth (s : State) (n : Notice) : State := (s.raise .card n).raise .chassis n

end State

/-! ### Responses (R168, section 11.5) -/

/-- The request codes of section 11.5. -/
inductive RequestKind where
  | define | retire | requalify | test | stop | guard | unguard
  | claim | release | breakClaim
  | loadElements | loadDirectory
  | budget | cap
  | commit | clearStore
  | status | fails | map | queue | engines | links | library | time
  | takeNotice | noticeMask
deriving DecidableEq, Repr

/-- The code of a request (section 11.5). -/
def RequestKind.code : RequestKind → Byte
  | .define => 16
  | .retire => 17
  | .requalify => 18
  | .test => 19
  | .stop => 20
  | .guard => 21
  | .unguard => 22
  | .claim => 32
  | .release => 33
  | .breakClaim => 34
  | .loadElements => 48
  | .loadDirectory => 49
  | .budget => 64
  | .cap => 65
  | .commit => 80
  | .clearStore => 81
  | .status => 96
  | .fails => 97
  | .map => 98
  | .queue => 99
  | .engines => 100
  | .links => 101
  | .library => 102
  | .time => 103
  | .takeNotice => 112
  | .noticeMask => 113

/-- Every request. -/
def requestKinds : List RequestKind :=
  [.define, .retire, .requalify, .test, .stop, .guard, .unguard, .claim, .release, .breakClaim, .loadElements,
    .loadDirectory, .budget, .cap, .commit, .clearStore, .status, .fails, .map, .queue, .engines, .links, .library,
    .time, .takeNotice, .noticeMask]

/-- The request a code names (R169). -/
def requestOf (b : Byte) : Option RequestKind := requestKinds.find? fun k => k.code == b

/-- Section 11.5: the status codes. -/
def Status.code : Status → Byte
  | .ok => 0
  | .badFrame => 1
  | .badRequest => 2
  | .badIndex => 3
  | .badRange => 4
  | .notOwner => 5
  | .privilege => 6
  | .busy => 7
  | .live => 8
  | .wrongState => 9
  | .noDescriptor => 10
  | .linkDown => 11
  | .badSequence => 12
  | .libraryBusy => 13
  | .guardFull => 14
  | .storeBusy => 15

namespace State

/-- R168: the response of the request just taken becomes the port's pending response, in place of any other. -/
def answer (s : State) (p : Port) (k : RequestKind) (st : Status) (pl : Payload) : State :=
  s.modPort p fun q => { q with response := some ⟨k.code, st, pl⟩ }

/-- R169: a status that is not OK carries an empty payload, and the request changes nothing else. -/
def refuse (s : State) (p : Port) (k : RequestKind) (st : Status) : State := s.answer p k st .empty

/-- An OK response. -/
def ok (s : State) (p : Port) (k : RequestKind) (pl : Payload) : State := s.answer p k .ok pl

end State

end Sys2Proof.Machine
end

