-- ==== Sys2Proof/Machine/Operands.lean ====
section
/-!
DEFINITION. What a request's operands mean and the checks made of them: coded bytes (section 11.5), a descriptor's ranges
(R2), element and directory records (R41, R47, R48), and the index and ownership checks of R29.
-/

namespace Sys2Proof.Machine

open Sys2Proof

/-! ### Coded bytes (section 11.5) -/

/-- Kind: SRAM 0, DRAM 1, CAM 2. -/
def memKindOf : Nat → Option MemKind
  | 0 => some .sram
  | 1 => some .dram
  | 2 => some .cam
  | _ => none

/-- Verify: OFF 0, ON 1. -/
def verifyOf : Nat → Option Bool
  | 0 => some false
  | 1 => some true
  | _ => none

/-- Urgency: NORMAL 0, URGENT 1. -/
def urgencyOf : Nat → Option Urgency
  | 0 => some .normal
  | 1 => some .urgent
  | _ => none

/-- CLAIM's mode: STRICT 0, GREEDY 1; true is GREEDY. -/
def greedyOf : Nat → Option Bool
  | 0 => some false
  | 1 => some true
  | _ => none

/-- An operation as in BURST: WRITE 0, WRITE-INV 1, READ 2, READ-INV 3. -/
def operationOf : Nat → Option Operation
  | 0 => some .write
  | 1 => some .writeInv
  | 2 => some .read
  | 3 => some .readInv
  | _ => none

/-- A background as in BURST, with the walk offset that WALK needs, 0 to 143 (R41). -/
def backgroundOf (code offset : Nat) : Option Background :=
  match code with
  | 0 => some .solid
  | 1 => some .checker
  | 2 => some .rowStripe
  | 3 => some .columnStripe
  | 4 => if offset ≤ 143 then some (.walk offset) else none
  | _ => none

/-- Direction: UP 0, DOWN 1. -/
def directionOf : Nat → Option Direction
  | 0 => some .up
  | 1 => some .down
  | _ => none

/-! ### Descriptors (R2) -/

/-- The legal ranges of R2 for the plain numbers of a descriptor. -/
def legalNumbers (d : RawDescriptor) : Bool :=
  (1 ≤ d.rows && d.rows ≤ 1048576) && (1 ≤ d.columns && d.columns ≤ 4096) && (8 ≤ d.width && d.width ≤ 144) &&
    d.spareRows ≤ 16 && d.spareColumns ≤ 8 && d.priority ≤ 3 && d.signature ≤ 65535

/-- R2: the descriptor a DEFINE carries, when every field lies in its legal range. -/
def checkDescriptor (d : RawDescriptor) : Option Descriptor :=
  if hl : d.link < 4 then
    if hm : d.memId < 256 then
      if hs : d.defaultSequence < 32 then
        match memKindOf d.kind, verifyOf d.verify with
        | some kind, some verify =>
          if legalNumbers d then
            some { link := ⟨d.link, hl⟩, memId := ⟨d.memId, hm⟩, kind, rows := d.rows, columns := d.columns,
                   width := d.width, spareRows := d.spareRows, spareColumns := d.spareColumns,
                   defaultSequence := ⟨d.defaultSequence, hs⟩, priority := d.priority, verify, signature := d.signature }
          else none
        | _, _ => none
      else none
    else none
  else none

/-! ### Library records (R41, R47, R48) -/

/-- The operations of a MARCH record: 1 to 6 of them, the first `operationCount` of the six bytes. -/
def rawOperations (e : RawElement) : Option (List Operation) :=
  if 1 ≤ e.operationCount ∧ e.operationCount ≤ 6 then (e.operations.take e.operationCount).mapM operationOf else none

/-- The skip conditions and, with SKIP_IF_SHORT, the margin 0 to 60,000 (R41); a bit above 3 is no listed condition. -/
def rawSkip (e : RawElement) : Option SkipSet :=
  if e.skipSet < 16 then
    if e.skipSet.testBit 2 then
      if e.margin ≤ 60000 then
        some ⟨e.skipSet.testBit 0, e.skipSet.testBit 1, some e.margin, e.skipSet.testBit 3⟩
      else none
    else some ⟨e.skipSet.testBit 0, e.skipSet.testBit 1, none, e.skipSet.testBit 3⟩
  else none

/-- The fields that the record's kind has (R41): MARCH 0, HOLD 1 with a hold time of 1 to 10,000. -/
def rawBody (e : RawElement) : Option ElementBody :=
  match e.kind with
  | 0 =>
    match directionOf e.direction, rawOperations e, backgroundOf e.background e.walkOffset with
    | some d, some ops, some b => some (.march d ops b)
    | _, _, _ => none
  | 1 => if 1 ≤ e.holdTime ∧ e.holdTime ≤ 10000 then some (.hold e.holdTime) else none
  | _ => none

/-- R47: the element record to store, when every field that applies is legal; fields that do not apply are ignored. -/
def checkElement (e : RawElement) : Option Element :=
  match rawBody e, rawSkip e with
  | some b, some k => some ⟨b, k⟩
  | _, _ => none

/-- The kinds a kind mask names; bits 7 to 3 are ignored (section 11.5). -/
def kindMaskOf (n : Nat) : KindMask := ⟨n.testBit 0, n.testBit 1, n.testBit 2⟩

/-- A kind mask names no kind. -/
def KindMask.isEmpty (k : KindMask) : Bool := !(k.sram || k.dram || k.cam)

/-- A kind mask includes a kind. -/
def KindMask.has (k : KindMask) : MemKind → Bool
  | .sram => k.sram
  | .dram => k.dram
  | .cam => k.cam

/-- R48: the directory entry to store: EMPTY for an empty kind mask, refused when its run of elements is illegal. -/
def checkDirectoryEntry (d : RawDirectoryEntry) : Option (Option DirectoryEntry) :=
  let kinds := kindMaskOf d.kindMask
  if kinds.isEmpty then some none
  else if d.first ≤ 255 ∧ 1 ≤ d.count ∧ d.count ≤ 32 ∧ d.first + d.count - 1 ≤ 255 then some (some ⟨d.first, d.count, kinds⟩)
  else none

/-! ### Ownership and the gates of R29 -/

/-- The owner a port is (R24). -/
def portOwner : Port → Owner
  | .card => .card
  | .chassis => .chassis

/-- The other port's owner name (R25). -/
def otherPort : Port → Port
  | .card => .chassis
  | .chassis => .card

/-- The requester a port is (R57). -/
def portRequester : Port → Requester
  | .card => .card
  | .chassis => .chassis

namespace State

/-- R24: port `p` owns instance `i`. -/
def owns (s : State) (p : Port) (i : Fin 64) : Bool := (s.entry i).owner == portOwner p

/-- R29: the index check and then the ownership check of a request that names one instance. -/
def gateOwned (s : State) (p : Port) (k : RequestKind) (inst : Nat) (act : Fin 64 → State) : State :=
  match instIndex inst with
  | none => s.refuse p k .badIndex
  | some i => if s.owns p i then act i else s.refuse p k .notOwner

/-- R29, R170: the index check of a read that names one instance. -/
def gateIndex (s : State) (p : Port) (k : RequestKind) (inst : Nat) (act : Fin 64 → State) : State :=
  match instIndex inst with
  | none => s.refuse p k .badIndex
  | some i => act i

/-- R29: the privilege check of a request only one port may send. -/
def gatePort (s : State) (allowed p : Port) (k : RequestKind) (act : State) : State :=
  if p = allowed then act else s.refuse p k .privilege

end State

end Sys2Proof.Machine
end

