-- ==== Sys2Proof/Machine/Guards.lean ====
section
/-!
DEFINITION. Guard ranges (R30 to R35): GUARD and UNGUARD from the card port, GUARD from a device.
-/

namespace Sys2Proof.Machine

open Sys2Proof

/-- R30: row `r` is guarded: it lies in one of the ranges. -/
def guarded (gs : List GuardRange) (r : Nat) : Bool := gs.any fun g => g.first ≤ r && r ≤ g.last

/-- Two ranges overlap or are adjacent (R30). -/
def GuardRange.touches (a b : GuardRange) : Bool := a.first ≤ b.last + 1 && b.first ≤ a.last + 1

/-- Put a range into a list sorted by first row. -/
def insertRange (g : GuardRange) : List GuardRange → List GuardRange
  | [] => [g]
  | h :: t => if g.first ≤ h.first then g :: h :: t else h :: insertRange g t

/-- R31: the single range that the new rows make with every range they touch. -/
def mergedRange (gs : List GuardRange) (g : GuardRange) : GuardRange :=
  (gs.filter g.touches).foldl (fun m h => ⟨min m.first h.first, max m.last h.last⟩) g

/-- R31: the ranges after the rows of `g` are guarded. -/
def addRange (gs : List GuardRange) (g : GuardRange) : List GuardRange :=
  insertRange (mergedRange gs g) (gs.filter fun h => !g.touches h)

/-- R32: what removing rows `a` to `b` leaves of one range. -/
def cutRange (a b : Nat) (g : GuardRange) : List GuardRange :=
  if b < g.first ∨ g.last < a then [g]
  else (if g.first < a then [⟨g.first, a - 1⟩] else []) ++ (if b < g.last then [⟨b + 1, g.last⟩] else [])

/-- R32: the ranges after rows `a` to `b` are no longer guarded. -/
def removeRange (gs : List GuardRange) (a b : Nat) : List GuardRange := gs.flatMap (cutRange a b)

/-- R31, R32: a change of the guarded rows, GUARD (set) or UNGUARD (clear). -/
def changedRanges (gs : List GuardRange) (a b : Nat) (set : Bool) : List GuardRange :=
  if set then addRange gs ⟨a, b⟩ else removeRange gs a b

/-- R31: the checks of GUARD and UNGUARD in their order: the ranges after the change, or the status of the first failure. -/
def guardCheck (e : Entry) (a b : Nat) (set : Bool) : Except Status (List GuardRange) :=
  match e.descriptor with
  | none => .error .noDescriptor
  | some d =>
    if e.state = .vacant then .error .noDescriptor
    else if e.state.busy then .error .busy
    else if b < a ∨ d.rows ≤ b then .error .badRange
    else
      let after := changedRanges e.guards a b set
      if after.length ≤ Config.guardCapacity then .ok after else .error .guardFull

/-- GUARD and UNGUARD at a port: accepted, or refused with the status of the first check that fails (R31, R32). -/
def State.guardRequest (s : State) (p : Port) (k : RequestKind) (set : Bool) (a b : Nat) (i : Fin 64) : State :=
  match guardCheck (s.entry i) a b set with
  | .error st => s.refuse p k st
  | .ok after => (s.modEntry i fun e => { e with guards := after }).ok p k (.guards after)

/-- GUARD (R31). -/
def execGuard (p : Port) (inst first last : Nat) (s : State) : Host.Outcome State Fault Refusal :=
  .next (s.gatePort .card p .guard (s.gateOwned p .guard inst (s.guardRequest p .guard true first last)))

/-- UNGUARD (R32). -/
def execUnguard (p : Port) (inst first last : Nat) (s : State) : Host.Outcome State Fault Refusal :=
  .next (s.gatePort .card p .unguard (s.gateOwned p .unguard inst (s.guardRequest p .unguard false first last)))

/-- R33: the REJECT reason of a status GUARD gives; the others do not arise from step 2 of R31 onward. -/
def rejectOf : Status → RejectReason
  | .busy => .busy
  | .badRange => .badRange
  | .guardFull => .guardFull
  | _ => .unknown

/-- The device's GUARD message (R33): as GUARD or UNGUARD on the instance it names, with no ownership check; a refusal is
answered with REJECT, an accepted one with nothing; on a DOWN link it is discarded (R100). -/
def execDeviceGuard (l : Fin 4) (m : Fin 256) (first last : Nat) (set : Bool) (s : State) :
    Host.Outcome State Fault Refusal :=
  .next <|
    if s.linkUp l then
      match s.lookup l m with
      | none => s.send l (.reject m .unknown)
      | some i =>
        match guardCheck (s.entry i) first last set with
        | .error st => s.send l (.reject m (rejectOf st))
        | .ok after => s.modEntry i fun e => { e with guards := after }
    else s

end Sys2Proof.Machine
end

