-- ==== Sys2Proof/Machine/Library.lean ====
section
/-!
DEFINITION. The Sequence Library (R40 to R56): backgrounds, references, the two load requests, the LIBRARY read, the
choice of a job's sequence, and the skip conditions.
-/

namespace Sys2Proof.Machine

open Sys2Proof

/-! ### Backgrounds (R42) -/

/-- R42: the background word at row `r`, column `c` of a memory of width `w`, offset 0 (the MSB) first. The device builds
it; no step of the part needs it. -/
def Background.word (b : Background) (w r c : Nat) : List Bool :=
  match b with
  | .solid => List.replicate w false
  | .checker => List.replicate w ((r + c) % 2 == 1)
  | .rowStripe => List.replicate w (r % 2 == 1)
  | .columnStripe => List.replicate w (c % 2 == 1)
  | .walk offset => (List.range w).map fun k => k == offset % w

/-- R42: the complement is the bitwise inverse. -/
def Background.complement (b : Background) (w r c : Nat) : List Bool := (b.word w r c).map not

/-- R43: READ and READ-INV read the memory. -/
def Operation.reads : Operation → Bool
  | .read | .readInv => true
  | .write | .writeInv => false

/-! ### References (R49) -/

namespace State

/-- The sequences a busy instance's job and follow-up name (R49). -/
def heldSequences (s : State) (i : Fin 64) : List (Fin 32) :=
  let e := s.entry i
  if e.state.busy then e.run.jobSequence.toList ++ (e.followUp.map FollowUp.sequence).toList else []

/-- R49: instance `i` makes directory entry `k` referenced. -/
def holdsEntry (s : State) (i : Fin 64) (k : Nat) : Bool := (s.heldSequences i).any fun q => q.val == k

/-- R49: instance `i` makes element `k` referenced. -/
def holdsElement (s : State) (i : Fin 64) (k : Nat) : Bool :=
  (s.heldSequences i).any fun q => (s.directoryEntry q).any fun d => d.first ≤ k && k < d.first + d.count

/-- R49: directory entry `k` is referenced. -/
def entryReferenced (s : State) (k : Nat) : Bool := allInsts.any fun i => s.holdsEntry i k

/-- R49: element `k` is referenced. -/
def elementReferenced (s : State) (k : Nat) : Bool := allInsts.any fun i => s.holdsElement i k

/-- R47: write the records of a list into consecutive elements. -/
def writeElements (s : State) (start : Nat) : List Element → State
  | [] => s
  | e :: es =>
    let t := if h : start < 256 then { s with elements := s.elements.set start e } else s
    t.writeElements (start + 1) es

/-- R48: write the records of a list into consecutive directory entries. -/
def writeDirectory (s : State) (start : Nat) : List (Option DirectoryEntry) → State
  | [] => s
  | e :: es =>
    let t := if h : start < 32 then { s with directory := s.directory.set start e } else s
    t.writeDirectory (start + 1) es

end State

/-- The indices from `start`, `n` of them. -/
def indexRun (start n : Nat) : List Nat := (List.range n).map (start + ·)

/-- LOAD_ELEMENTS (R47). -/
def execLoadElements (p : Port) (start : Nat) (records : List RawElement) (s : State) :
    Host.Outcome State Fault Refusal :=
  .next <|
    s.gatePort .card p .loadElements <|
      let n := records.length
      if n = 0 ∨ 16 < n then s.refuse p .loadElements .badRange
      else if start < Config.firstLoadableElement ∨ 255 < start + n - 1 then s.refuse p .loadElements .badRange
      else
        match records.mapM checkElement with
        | none => s.refuse p .loadElements .badRange
        | some es =>
          let holders := maskOf fun i => (indexRun start n).any (s.holdsElement i)
          if holders = 0 then (s.writeElements start es).ok p .loadElements (.written n)
          else s.answer p .loadElements .libraryBusy (.mask holders)

/-- LOAD_DIRECTORY (R48). -/
def execLoadDirectory (p : Port) (start : Nat) (records : List RawDirectoryEntry) (s : State) :
    Host.Outcome State Fault Refusal :=
  .next <|
    s.gatePort .card p .loadDirectory <|
      let n := records.length
      if n = 0 ∨ 8 < n then s.refuse p .loadDirectory .badRange
      else if start < Config.firstLoadableEntry ∨ 31 < start + n - 1 then s.refuse p .loadDirectory .badRange
      else
        match records.mapM checkDirectoryEntry with
        | none => s.refuse p .loadDirectory .badRange
        | some es =>
          let holders := maskOf fun i => (indexRun start n).any (s.holdsEntry i)
          if holders = 0 then (s.writeDirectory start es).ok p .loadDirectory (.written n)
          else s.answer p .loadDirectory .libraryBusy (.mask holders)

/-- LIBRARY (R55): selector 0 reads a directory entry, selector 1 an element range; the element count is ignored in a read
of a directory entry (section 11.5). -/
def execLibrary (p : Port) (selector first count : Nat) (s : State) : Host.Outcome State Fault Refusal :=
  .next <|
    match selector with
    | 0 =>
      if h : first < 32 then
        s.ok p .library (.directoryEntry (s.directoryEntry ⟨first, h⟩) (s.entryReferenced first))
      else s.refuse p .library .badRange
    | 1 =>
      if count = 0 ∨ 16 < count ∨ 255 < first + count - 1 then s.refuse p .library .badRange
      else s.ok p .library (.elements ((indexRun first count).map fun k => (s.element k, s.elementReferenced k)))
    | _ => s.refuse p .library .badRange

/-! ### The sequence of a job (R50) -/

/-- R3, R50: directory entry `q` may be run on a memory of kind `k`: it is not EMPTY and its kind mask includes the kind. -/
def State.sequenceFits (s : State) (q : Fin 32) (k : MemKind) : Bool := (s.directoryEntry q).any fun d => d.kinds.has k

/-- R50: the sequence a TEST names, or the descriptor's default, or the status that refuses it. -/
def State.chooseSequence (s : State) (d : Descriptor) (named : Option Nat) : Except Status (Fin 32) :=
  let fits (q : Fin 32) : Except Status (Fin 32) := if s.sequenceFits q d.kind then .ok q else .error .badSequence
  match named with
  | none => fits d.defaultSequence
  | some n => if h : n < 32 then fits ⟨n, h⟩ else .error .badRange

/-! ### Skip conditions (R51, R52) -/

/-- R52, R159: the time remaining to the earliest armed deadline, when one is armed. At the compare's own value, before its expiry is
taken, it is 0, a moment R54 admits and R159 leaves out: the model's choice, notes/assumptions/28.md. -/
def State.earliestRemaining (s : State) : Option Nat :=
  match s.cardDeadline, s.chassisDeadline with
  | none, none => none
  | some v, none => some (remaining v s.now)
  | none, some v => some (remaining v s.now)
  | some v, some w => some (min (remaining v s.now) (remaining w s.now))

/-- R51: SKIP_IF_SHORT with this margin holds. -/
def State.shortOf (s : State) (margin : Nat) : Bool := s.earliestRemaining.any fun r => r < margin

/-- R51: the element is skipped for instance `i` at this moment: some condition of its skip set holds. -/
def State.skips (s : State) (i : Fin 64) (k : SkipSet) : Bool :=
  let e := s.entry i
  (k.notDram && e.descriptor.any fun d => d.kind != .dram) || (k.stored && e.repairMap.any fun r => r.origin == .stored) ||
    k.short.any s.shortOf || (k.fails && !e.failLog.isEmpty)

end Sys2Proof.Machine
end

