-- ==== Sys2Proof/Machine/Jobs.lean ====
section
/-!
DEFINITION. What happens to one instance, whichever command brings it about: the store load, the reset of an entry, a new
job, a follow-up taken, leaving a holder, entering ANALYSING, becoming RETIRED or FAULTED, and the answer to a pull.
-/

namespace Sys2Proof.Machine

open Sys2Proof

/-! ### The repair map in order, and the store load (R134, R162) -/

/-- R134: a record's place: ROW records before COLUMN records, each in ascending spare index. -/
def RepairRecord.before (a b : RepairRecord) : Bool :=
  match a.kind, b.kind with
  | .row, .column => true
  | .column, .row => false
  | _, _ => a.spare ≤ b.spare

/-- Put a record into a list in map order. -/
def insertRecord (r : RepairRecord) : List RepairRecord → List RepairRecord
  | [] => [r]
  | h :: t => if r.before h then r :: h :: t else h :: insertRecord r t

/-- R134: the records in map order. -/
def orderMap (rs : List RepairRecord) : List RepairRecord := rs.foldr insertRecord []

/-- The spare states of one kind with the spares that records of that kind name made USED (R10). -/
def markUsed (kind : LineKind) (rs : List RepairRecord) (spares : List SpareState) : List SpareState :=
  rs.foldl (fun l r => if r.kind == kind then setSpare l r.spare .used else l) spares

/-- R162: a stored record fits a descriptor: its line and its spare exist. -/
def StoredRecord.fits (d : Descriptor) (r : StoredRecord) : Bool :=
  match r.kind with
  | .row => r.line < d.rows && r.spare < d.spareRows
  | .column => r.line < d.columns && r.spare < d.spareColumns

/-- R162: two stored records name the same spare of the same kind, or the same kind and line. -/
def StoredRecord.clashes (a b : StoredRecord) : Bool := a.kind == b.kind && (a.spare == b.spare || a.line == b.line)

/-- R162: no two records of a section clash. -/
def noClash : List StoredRecord → Bool
  | [] => true
  | r :: rs => !rs.any r.clashes && noClash rs

/-- R162: the outcome of loading a section against a descriptor. A section whose check value does not match is
check-failed even when it was being written EMPTY (R165, notes/assumptions/17.md). -/
def storeOutcome (c : StoreSection) (d : Descriptor) : StoreOutcome :=
  if !c.intact then .storeLost
  else
    match c.written with
    | none => .empty
    | some m =>
      if !(m.records.all (StoredRecord.fits d) && noClash m.records) then .storeLost
      else if m.signature ≠ d.signature then .signatureMismatch
      else .loaded m.records.length

/-- R162: the map a section gives: each stored record STORED, UNVERIFIED, GUARD_TOUCHED absent, in map order. -/
def loadedMap (c : StoreSection) : List RepairRecord :=
  match c.written with
  | none => []
  | some m => orderMap (m.records.map fun r => ⟨r.kind, r.line, r.spare, .stored, false, false⟩)

/-- R13, R21: the entry with its map, spares, guards, flags, reason, stamps and run context reset against a descriptor, and
the section loaded. Descriptor, state, owner, live flag, follow-up, absorbed count and fail log are kept. -/
def Entry.cleared (e : Entry) (d : Descriptor) (c : StoreSection) : Entry :=
  let base : Entry :=
    { e with
      repairMap := []
      rowSpares := List.replicate d.spareRows .free
      columnSpares := List.replicate d.spareColumns .free
      guards := []
      flags := .clear
      reason := .none
      startStamp := none
      endStamp := none
      run := .reset
      suspending := none
      settledReason := .none }
  match storeOutcome c d with
  | .empty => base
  | .storeLost => { base with flags := { InstFlags.clear with storeLost := true } }
  | .signatureMismatch => { base with flags := { InstFlags.clear with signatureMismatch := true } }
  | .loaded _ =>
    { base with
      repairMap := loadedMap c
      rowSpares := markUsed .row (loadedMap c) base.rowSpares
      columnSpares := markUsed .column (loadedMap c) base.columnSpares }

namespace State

/-- R21: the reset of a requalified instance, which becomes DEFINED: fail log emptied, entry cleared, section `c` loaded. -/
def requalifyReset (s : State) (i : Fin 64) (c : StoreSection) : State :=
  match (s.entry i).descriptor with
  | none => s
  | some d => (s.emptyLog i).modEntry i fun e => { e.cleared d c with state := .defined }

/-! ### Jobs (R61, R64) -/

/-- An entry joins the Work Queue (R58). -/
def enqueue (s : State) (i : Fin 64) (q : Fin 32) (c : EntryClass) (r : Requester) (arrival : Time) : State :=
  { s with workQueue := s.workQueue ++ [⟨i, q, c, r, arrival, none⟩] }

/-- The class of a Work Queue entry made by a TEST or a follow-up (R58). -/
def urgencyClass : Urgency → EntryClass
  | .normal => .normal
  | .urgent => .urgent

/-- R61: a new job begins: the run context, flags and reason of a new job, and a Work Queue entry. -/
def newJob (s : State) (i : Fin 64) (q : Fin 32) (u : Urgency) (r : Requester) : State :=
  (s.modEntry i fun e =>
    { e with
      state := .queued
      run := { e.run with jobSequence := some q, runCount := 0, runClass := none }
      flags := { e.flags with partialRun := false, untested := false }
      reason := .none
      settledReason := .none }).enqueue i q (urgencyClass u) r s.now

/-- R64: the follow-up slot, when it holds a request, is emptied: a new job with the link UP, discarded with the link DOWN. The new job's
verdict reason is none (R61), and the reason it displaces stays for STATUS to show (R148, notes/assumptions/27.md). -/
def takeFollowUp (s : State) (i : Fin 64) : State :=
  match (s.entry i).followUp with
  | none => s
  | some f =>
    let t := s.modEntry i fun e => { e with followUp := none }
    if s.instLinkUp i then
      (t.newJob i f.sequence f.urgency (portRequester f.requester)).modEntry i fun e =>
        { e with settledReason := (s.entry i).reason }
    else t

/-- Empty the follow-up slot (R8). -/
def dropFollowUp (s : State) (i : Fin 64) : State := s.modEntry i fun e => { e with followUp := none }

/-! ### Leaving a holder and entering ANALYSING (R4, R15) -/

/-- The Work Queue entry of instance `i` (R57). -/
def queueEntry (s : State) (i : Fin 64) : Option QueueEntry := s.workQueue.find? fun q => q.inst == i

/-- Instance `i` leaves the Work Queue; its reservation ends and a slot held for it is released (R72, R78). -/
def leaveQueue (s : State) (i : Fin 64) : State :=
  { s with workQueue := s.workQueue.filter fun q => q.inst != i }.releaseSlot i

/-- Instance `i` leaves the Resume Stack it lies on; its suspending engine becomes absent (R74, R11). -/
def leaveStack (s : State) (i : Fin 64) : State :=
  match (s.entry i).suspending with
  | none => s
  | some e =>
    (s.modEngine e fun en => { en with stack := en.stack.filter (· != i) }).modEntry i fun x => { x with suspending := none }

/-- Instance `i` leaves the Parking List (R75). -/
def leaveParking (s : State) (i : Fin 64) : State := { s with parking := s.parking.filter fun p => p.inst != i }

/-- Instance `i` leaves the Analysis Queue; an analysis of it in progress is discarded (R136). -/
def leaveAnalysis (s : State) (i : Fin 64) : State :=
  { s with
    analysisQueue := s.analysisQueue.filter fun a => a.inst != i
    analysing := s.analysing && !(s.analysisQueue.head?.any fun a => a.inst == i) }

/-- Instance `i` leaves the holder its state gives it (R4), but for an engine, which gives its run up by itself. -/
def detach (s : State) (i : Fin 64) : State :=
  match (s.entry i).state with
  | .queued => s.leaveQueue i
  | .suspended => s.leaveStack i
  | .parked => s.leaveParking i
  | .analysing => s.leaveAnalysis i
  | _ => s

end State

/-- The verdict reason a cut short gives (R6). -/
def CutReason.verdict : CutReason → VerdictReason
  | .stop => .stop
  | .deadline => .deadline
  | .pool => .pool
  | .overflow => .overflow
  | .spares => .spares

/-- R8, R15: a cut short for STOP or DEADLINE empties the follow-up slot. -/
def CutReason.dropsFollowUp : CutReason → Bool
  | .stop | .deadline => true
  | .pool | .overflow | .spares => false

namespace State

/-- Instance `i` becomes ANALYSING at the tail of the Analysis Queue: after a complete run, or cut short with PARTIAL set and
the cut-short reason as verdict reason (R15, R16, R92). -/
def enterAnalysis (s : State) (i : Fin 64) (fresh : Bool) (cut : Option CutReason) : State :=
  let t : State := { s with analysisQueue := s.analysisQueue ++ [⟨i, fresh⟩] }
  t.modEntry i fun e =>
    match cut with
    | none => { e with state := .analysing }
    | some r => { e with state := .analysing, flags := { e.flags with partialRun := true }, reason := r.verdict }

/-- R137: an analysis of instance `i`, cut short now, is fresh: it is SUSPENDED, PARKED, or QUEUED with a WAKE entry. -/
def freshIfCut (s : State) (i : Fin 64) : Bool :=
  match (s.entry i).state with
  | .suspended | .parked | .running => true
  | .queued => (s.queueEntry i).any fun q => q.cls == .wake
  | _ => false

/-- R5, R15: UNTESTED is set too: cut short by DEADLINE while DEFINED, or QUEUED with run count 0. -/
def untestedIfCut (s : State) (i : Fin 64) (r : CutReason) : Bool :=
  r == .deadline &&
    ((s.entry i).state == .defined || ((s.entry i).state == .queued && (s.entry i).run.runCount == 0))

/-- R15: instance `i`, DEFINED, QUEUED, SUSPENDED or PARKED, is cut short and enters ANALYSING at once. -/
def cutShort (s : State) (i : Fin 64) (r : CutReason) : State :=
  let t := (s.detach i).modEntry i fun e =>
    { e with
      flags := { e.flags with untested := e.flags.untested || s.untestedIfCut i r }
      followUp := if r.dropsFollowUp then none else e.followUp }
  t.enterAnalysis i (s.freshIfCut i) (some r)

/-! ### Retirement (R19) and faulting (R108) -/

/-- R19: instance `i`, already out of its holder, becomes RETIRED: with its link UP one FENCE is sent, which also answers a
pending pull, and a VERDICT notice is raised on both ports. -/
def becomeRetired (s : State) (i : Fin 64) : State :=
  let t := s.modEntry i fun e =>
    { e with state := .retired, followUp := none, suspending := none, reason := .none, endStamp := some s.now }
  let u :=
    match (s.entry i).descriptor with
    | none => t
    | some d =>
      if t.linkUp d.link then
        (t.send d.link (.fence d.memId)).modLink d.link fun k => { k with pulls := k.pulls.filter (· != i) }
      else t
  u.raiseBoth (.verdict (maskBit i))

/-- R108 step 5: instance `i`, already out of its holder, becomes FAULTED. -/
def becomeFaulted (s : State) (i : Fin 64) : State :=
  s.modEntry i fun e =>
    { e with state := .faulted, followUp := none, suspending := none, run := { e.run with position := .zero } }

/-! ### Answers to pulls (R115) -/

/-- R115: answer a pull of the settled instance `i` on its link. -/
def answerPull (s : State) (i : Fin 64) : State :=
  let e := s.entry i
  match e.descriptor with
  | none => s
  | some d =>
    match e.state with
    | .clean => s.send d.link (.mapOffer d.memId .clean false (some e.repairMap))
    | .repaired => s.send d.link (.mapOffer d.memId .repaired false (some e.repairMap))
    | .abandoned => s.send d.link (.mapOffer d.memId .abandoned true (some e.repairMap))
    | .unrepairable =>
      (s.send d.link (.mapOffer d.memId .unrepairable false none)).send d.link (.fence d.memId)
    | .retired => s.send d.link (.fence d.memId)
    | _ => s

/-- R112, R113: a pull of the defined instance `i` on link `l`: answered at once when it is settled, else placed on the
Pending Pull List, where a repeated pull merges. -/
def takePull (s : State) (l : Fin 4) (i : Fin 64) : State :=
  if (s.entry i).state.settled then s.answerPull i
  else if (s.link l).pulls.contains i then s
  else s.modLink l fun k => { k with pulls := k.pulls ++ [i] }

end State

end Sys2Proof.Machine
end

