-- ==== Sys2Proof/Machine/Analysis.lean ====
section
/-!
DEFINITION. The Repair Analyser (R135 to R148): spare health, allocation, verdicts, settling and verification runs; and the MAP
read.
-/

namespace Sys2Proof.Machine

open Sys2Proof

/-! ### Spare health (R139) -/

/-- R139: the log holds a record attributed to the spare of this map record. -/
def faultySpare (log : List FailRecord) (r : RepairRecord) : Bool :=
  log.any fun x =>
    match r.kind with
    | .row => x.attribution == .spareRow r.spare
    | .column => x.attribution == .spareColumn r.spare

/-- R139: the map records whose spare is found faulty. -/
def faultyRecords (rs : List RepairRecord) (log : List FailRecord) : List RepairRecord := rs.filter (faultySpare log)

/-- R139: the map records that stay. -/
def survivors (rs : List RepairRecord) (log : List FailRecord) : List RepairRecord :=
  rs.filter fun r => !faultySpare log r

/-- R139: the spares of one kind with those that faulty records name made BAD. -/
def markBad (kind : LineKind) (rs : List RepairRecord) (spares : List SpareState) : List SpareState :=
  rs.foldl (fun l r => if r.kind == kind then setSpare l r.spare .bad else l) spares

/-! ### Allocation (R140 to R142) -/

/-- Put a line number into an ascending list without repeats. -/
def insertLine (n : Nat) : List Nat → List Nat
  | [] => [n]
  | h :: t => if n < h then n :: h :: t else if n = h then h :: t else h :: insertLine n t

/-- The line numbers of a list, ascending, each once (R140). -/
def lineSet (l : List Nat) : List Nat := l.foldr insertLine []

/-- The rows of a log's ROW_LINE records (R140). -/
def rowLines (log : List FailRecord) : List Nat :=
  log.filterMap fun r =>
    match r.place with
    | .rowLine n => some n
    | _ => none

/-- The columns of a log's COLUMN_LINE records (R140). -/
def columnLines (log : List FailRecord) : List Nat :=
  log.filterMap fun r =>
    match r.place with
    | .columnLine n => some n
    | _ => none

/-- The lines of the records of one kind. -/
def linesOf (kind : LineKind) (rs : List RepairRecord) : List Nat :=
  (rs.filter fun r => r.kind == kind).map RepairRecord.line

/-- The spares and the records given out so far in an allocation. -/
structure Allocation where
  rowSpares : List SpareState
  columnSpares : List SpareState
  added : List RepairRecord
deriving DecidableEq, Repr

/-- The spares of one kind. -/
def Allocation.spares (a : Allocation) : LineKind → List SpareState
  | .row => a.rowSpares
  | .column => a.columnSpares

/-- Section 8.5: the spare scan: the first FREE spare of a kind in ascending index. -/
def Allocation.scan (a : Allocation) (k : LineKind) : Option Nat := (a.spares k).findIdx? (· == .free)

/-- R140, R141: a line takes the spare the scan returns, which becomes USED, with a FOUND, UNVERIFIED record. -/
def Allocation.give (a : Allocation) (k : LineKind) (line : Nat) : Option Allocation :=
  match a.scan k with
  | none => none
  | some n =>
    let r : RepairRecord := ⟨k, line, n, .found, false, false⟩
    match k with
    | .row => some { a with rowSpares := setSpare a.rowSpares n .used, added := a.added ++ [r] }
    | .column => some { a with columnSpares := setSpare a.columnSpares n .used, added := a.added ++ [r] }

/-- R140: each of some lines of a kind takes a spare, in order. -/
def Allocation.giveAll (k : LineKind) : List Nat → Allocation → Option Allocation
  | [], a => some a
  | n :: t, a =>
    match a.give k n with
    | none => none
    | some b => Allocation.giveAll k t b

/-- R140: the required lines take spares, unless either count is above its FREE spares. -/
def allocateRequired (rows columns : List Nat) (a : Allocation) : Option Allocation :=
  if freeCount a.rowSpares < rows.length ∨ freeCount a.columnSpares < columns.length then none
  else
    match Allocation.giveAll .row rows a with
    | none => none
    | some b => Allocation.giveAll .column columns b

/-- R141: the UNCOVERED CELL records of a log that no record of a map covers, as (row, column). -/
def remainingCells (log : List FailRecord) (rs : List RepairRecord) : List (Nat × Nat) :=
  log.filterMap fun x =>
    match x.place with
    | .cell r c =>
      if x.attribution = .uncovered ∧ r ∉ linesOf .row rs ∧ c ∉ linesOf .column rs then some (r, c) else none
    | _ => none

/-- R141: the line of a cell. -/
def cellLine (k : LineKind) (c : Nat × Nat) : Nat :=
  match k with
  | .row => c.1
  | .column => c.2

/-- R141: the number of remaining cells in a line. -/
def cellCount (k : LineKind) (cells : List (Nat × Nat)) (line : Nat) : Nat := cells.countP fun c => cellLine k c == line

/-- R141: the better of two (count, line) pairs of one kind: more cells, then the lower number. -/
def betterLine (a b : Nat × Nat) : Nat × Nat :=
  if a.1 < b.1 then b else if b.1 < a.1 then a else if b.2 < a.2 then b else a

/-- R141: the line of a kind with the most remaining cells, with its count. -/
def bestLine (k : LineKind) (cells : List (Nat × Nat)) : Option (Nat × Nat) :=
  (cells.map fun c => (cellCount k cells (cellLine k c), cellLine k c)).foldl
    (fun best x => match best with
      | none => some x
      | some b => some (betterLine b x)) none

/-- R141: the line to take next, among the kinds that still have a FREE spare; a tie goes to the row. -/
def chooseLine (a : Allocation) (cells : List (Nat × Nat)) : Option (LineKind × Nat) :=
  let row := if (a.scan .row).isSome then bestLine .row cells else none
  let column := if (a.scan .column).isSome then bestLine .column cells else none
  match row, column with
  | none, none => none
  | some r, none => some (.row, r.2)
  | none, some c => some (.column, c.2)
  | some r, some c => if r.1 < c.1 then some (.column, c.2) else some (.row, r.2)

/-- R141: lines take spares until no remaining cell is left; none when the spares run out first. Each turn covers at least one
cell, so as many turns as there are cells suffice. -/
def coverCells : Nat → List (Nat × Nat) → Allocation → Option Allocation
  | _, [], a => some a
  | 0, _ :: _, _ => none
  | n + 1, c :: cs, a =>
    match chooseLine a (c :: cs) with
    | none => none
    | some (k, line) =>
      match a.give k line with
      | none => none
      | some b => coverCells n ((c :: cs).filter fun x => cellLine k x != line) b

/-- R35, R142: GUARD_TOUCHED of a new record: a ROW record of a guarded row, or a COLUMN record while there is any range. -/
def touchRecord (gs : List GuardRange) (r : RepairRecord) : RepairRecord :=
  { r with
    guardTouched :=
      match r.kind with
      | .row => guarded gs r.line
      | .column => !gs.isEmpty }

/-! ### The outcome of an analysis (R137 to R146) -/

/-- What an analysis comes to: a verdict with its reason, or a VERIFY entry. -/
inductive Finding where
  | settle (state : InstState) (reason : VerdictReason)
  | verifyRun
deriving DecidableEq, Repr

/-- What the completion of an analysis applies (R136). -/
structure AnalysisResult where
  repairMap : List RepairRecord
  rowSpares : List SpareState
  columnSpares : List SpareState
  finding : Finding
deriving DecidableEq, Repr

/-- R140, R141: the allocation for an entry whose spares R139 has judged. -/
def allocate (e : Entry) (faulty kept : List RepairRecord) : Option Allocation :=
  let rows := lineSet (linesOf .row faulty ++ rowLines e.failLog)
  let columns := lineSet (linesOf .column faulty ++ columnLines e.failLog)
  let start : Allocation := ⟨markBad .row faulty e.rowSpares, markBad .column faulty e.columnSpares, []⟩
  match allocateRequired rows columns start with
  | none => none
  | some a =>
    let cells := remainingCells e.failLog (kept ++ a.added)
    coverCells cells.length cells a

/-- R144, R145: the outcome of a complete run that added records. -/
def addedFinding (verify : Bool) (runCount : Nat) (linkUp : Bool) : Finding :=
  if !verify then .settle .repaired .none
  else if Config.runLimit ≤ runCount then .settle .unrepairable .verifyLimit
  else if linkUp then .verifyRun
  else .settle .repaired .none

/-- R146: the verdict of a complete run that found nothing new. -/
def cleanFinding (rs : List RepairRecord) : Finding :=
  if rs.any fun r => r.origin == .found then .settle .repaired .none else .settle .clean .none

/-- R137 to R146: what an analysis of an entry comes to. -/
def analyse (e : Entry) (verify fresh linkUp : Bool) : AnalysisResult :=
  if !fresh then ⟨e.repairMap, e.rowSpares, e.columnSpares, .settle .abandoned e.reason⟩
  else if e.reason = .overflow then ⟨e.repairMap, e.rowSpares, e.columnSpares, .settle .unrepairable .overflow⟩
  else
    let faulty := faultyRecords e.repairMap e.failLog
    let kept := survivors e.repairMap e.failLog
    match allocate e faulty kept with
    | none =>
      ⟨kept, markBad .row faulty e.rowSpares, markBad .column faulty e.columnSpares, .settle .unrepairable .spares⟩
    | some a =>
      let joined := orderMap (kept ++ a.added.map (touchRecord e.guards))
      if e.flags.partialRun then ⟨joined, a.rowSpares, a.columnSpares, .settle .abandoned e.reason⟩
      else if a.added.isEmpty then
        ⟨joined.map fun r => { r with verified := true }, a.rowSpares, a.columnSpares, cleanFinding joined⟩
      else ⟨joined, a.rowSpares, a.columnSpares, addedFinding verify e.run.runCount linkUp⟩

namespace State

/-- R148 step 3, R114: a pending pull of the instance just settled is answered and removed. -/
def answerPending (s : State) (i : Fin 64) : State :=
  match s.linkOf i with
  | none => s
  | some l =>
    if s.linkUp l && (s.link l).pulls.contains i then
      (s.answerPull i).modLink l fun k => { k with pulls := k.pulls.filter (· != i) }
    else s

/-- R148: instance `i` settles at a verdict. -/
def settleVerdict (s : State) (i : Fin 64) (st : InstState) (r : VerdictReason) : State :=
  let t := s.modEntry i fun e => { e with state := st, reason := r, endStamp := some s.now }
  ((t.answerPending i).raiseBoth (.verdict (maskBit i))).takeFollowUp i

/-- R147: analysis orders a VERIFY entry for instance `i`. -/
def orderVerify (s : State) (i : Fin 64) : State :=
  (s.modEntry i fun e => { e with state := .queued }).enqueue i ((s.entry i).run.jobSequence.getD 0) .verify .part s.now

/-- R136: the analysis of the head entry completes: all its changes in one step. -/
def completeAnalysis (s : State) (a : AnalysisEntry) (rest : List AnalysisEntry) : State :=
  let i := a.inst
  let e := s.entry i
  let r := analyse e (e.descriptor.any Descriptor.verify) a.fresh (s.instLinkUp i)
  let u : State := { s with analysisQueue := rest, analysing := false }
  let t := u.modEntry i fun x =>
    { x with repairMap := r.repairMap, rowSpares := r.rowSpares, columnSpares := r.columnSpares }
  match r.finding with
  | .settle st reason => t.settleVerdict i st reason
  | .verifyRun => t.orderVerify i

end State

/-- ANALYSIS_BEGIN (R135): the idle analyser begins with the head of the queue; no event without one. -/
def execAnalysisBegin (s : State) : Host.Outcome State Fault Refusal :=
  .next (if s.analysing || s.analysisQueue.isEmpty then s else { s with analysing := true })

/-- ANALYSIS_COMPLETE (R136); no event while the analyser is idle. -/
def execAnalysisComplete (s : State) : Host.Outcome State Fault Refusal :=
  .next <|
    match s.analysisQueue with
    | [] => s
    | a :: rest => if s.analysing then s.completeAnalysis a rest else s

/-- MAP (R134). -/
def execMap (p : Port) (inst : Nat) (s : State) : Host.Outcome State Fault Refusal :=
  .next <|
    s.gateIndex p .map inst fun i =>
      let e := s.entry i
      s.ok p .map (.map e.repairMap e.rowSpares e.columnSpares)

end Sys2Proof.Machine
end

