-- ==== Sys2Proof/Machine/Claims.lean ====
section
/-!
DEFINITION. The Claim Unit (R24 to R29): CLAIM, RELEASE and BREAK.
-/

namespace Sys2Proof.Machine

open Sys2Proof

namespace State

/-- Set the owner of every instance that meets `p`; each CLAIM, RELEASE and BREAK is taken whole (R24). -/
def setOwners (s : State) (p : Fin 64 → Bool) (o : Owner) : State :=
  allInsts.foldl (fun t i => if p i then t.modEntry i fun e => { e with owner := o } else t) s

/-- R25: the masked instances owned by the other port. -/
def heldMask (s : State) (p : Port) (m : Mask) : Mask := maskOf fun i => inMask m i && s.owns (otherPort p) i

end State

/-- R25: the result of a CLAIM from what is held: GRANTED when nothing is, REFUSED when everything masked is, else PARTIAL. -/
def claimResult (mask held : Mask) : ClaimResult :=
  if held = 0 then .granted else if held = mask then .refused else .partGranted

/-- CLAIM (R25). STRICT takes all or nothing; GREEDY takes every free masked instance. -/
def execClaim (p : Port) (mask : Mask) (mode : Nat) (s : State) : Host.Outcome State Fault Refusal :=
  .next <|
    match greedyOf mode with
    | none => s.refuse p .claim .badRange
    | some greedy =>
      if mask = 0 then s.refuse p .claim .badRange
      else
        let held := s.heldMask p mask
        let taken := if held = 0 || greedy then s.setOwners (fun i => inMask mask i && !inMask held i) (portOwner p) else s
        taken.ok p .claim (.claim (claimResult mask held) held)

/-- RELEASE (R27): every masked instance the sending port owns becomes NONE. -/
def execRelease (p : Port) (mask : Mask) (s : State) : Host.Outcome State Fault Refusal :=
  let released := maskOf fun i => inMask mask i && s.owns p i
  .next ((s.setOwners (inMask released) .none).ok p .release (.mask released))

/-- BREAK (R28): every masked instance becomes CHASSIS; the instances the card lost are named in a CLAIM_LOST notice. -/
def execBreakClaim (p : Port) (mask : Mask) (s : State) : Host.Outcome State Fault Refusal :=
  .next <|
    s.gatePort .chassis p .breakClaim <|
      if mask = 0 then s.refuse p .breakClaim .badRange
      else
        let broken := maskOf fun i => inMask mask i && s.owns .card i
        let taken := s.setOwners (inMask mask) .chassis
        let told := if broken = 0 then taken else taken.raise .card (.claimLost broken)
        told.ok p .breakClaim (.mask broken)

end Sys2Proof.Machine
end

