-- ==== Sys2Proof/Machine/Walk.lean ====
section
/-!
DEFINITION. What an engine does, whichever command brings it about: the address walk (R85 to R87), reaching an element
(R53), starting and resuming a run (R67, R73, R82, R84), giving a run up (R80), turning to its reservation or its Resume
Stack (R71, R73, R74), and drains (R93 to R96).
-/

namespace Sys2Proof.Machine

open Sys2Proof

/-! ### The address walk (R85 to R87) -/

/-- R85: the number of chunks of 64 columns. -/
def chunkCount (columns : Nat) : Nat := (columns + (Config.chunkColumns - 1)) / Config.chunkColumns

/-- R85: the number of columns of chunk `k`. -/
def chunkWidth (columns k : Nat) : Nat := min Config.chunkColumns (columns - Config.chunkColumns * k)

/-- R85: the first position of an element, (row, chunk). -/
def firstPosition (dir : Direction) (rows chunks : Nat) : Nat × Nat :=
  match dir with
  | .up => (0, 0)
  | .down => (rows - 1, chunks - 1)

/-- R85: the last position of an element. -/
def lastPosition (dir : Direction) (rows chunks : Nat) : Nat × Nat :=
  match dir with
  | .up => (rows - 1, chunks - 1)
  | .down => (0, 0)

/-- R85: the position after (row, chunk), none after the last. -/
def nextPosition (dir : Direction) (rows chunks : Nat) (p : Nat × Nat) : Option (Nat × Nat) :=
  match dir with
  | .up => if p.2 + 1 < chunks then some (p.1, p.2 + 1) else if p.1 + 1 < rows then some (p.1 + 1, 0) else none
  | .down => if 0 < p.2 then some (p.1, p.2 - 1) else if 0 < p.1 then some (p.1 - 1, chunks - 1) else none

/-- R34, R86: the operations of a burst in a guarded row: the reads alone, in their order. -/
def burstOperations (isGuarded : Bool) (ops : List Operation) : List Operation :=
  if isGuarded then ops.filter Operation.reads else ops

/-- R87: positions of guarded rows whose bursts would carry no operation are passed, a guard range at a time. Each range is
left for good, so as many turns as there are ranges suffice. -/
def passGuarded (gs : List GuardRange) (dir : Direction) (rows chunks : Nat) : Nat → Nat × Nat → Option (Nat × Nat)
  | 0, p => some p
  | n + 1, p =>
    match gs.find? fun g => g.first ≤ p.1 && p.1 ≤ g.last with
    | none => some p
    | some g =>
      match dir with
      | .up => if g.last + 1 < rows then passGuarded gs dir rows chunks n (g.last + 1, 0) else none
      | .down => if g.first = 0 then none else passGuarded gs dir rows chunks n (g.first - 1, chunks - 1)

/-- R87: the first position from `p` on whose burst carries an operation; none when the element passes its last position. -/
def issuable (gs : List GuardRange) (dir : Direction) (ops : List Operation) (rows chunks : Nat) (p : Nat × Nat) :
    Option (Nat × Nat) :=
  if ops.any Operation.reads then some p else passGuarded gs dir rows chunks (gs.length + 1) p

/-! ### Reaching an element (R53) -/

/-- What reaching an element comes to (R53): a MARCH to walk, a HOLD to park for, or the run's completion. -/
inductive Reached where
  | walk (ordinal row chunk : Nat)
  | hold (ordinal row chunk time : Nat)
  | done (row chunk : Nat)
deriving DecidableEq, Repr

/-- R53: reach element ordinal `k` of a sequence that begins at element `first`, with `n` ordinals left. A skipped element, and
a MARCH element that passes every position (R87), lets the next be reached on the same occasion. `p` is where the cursors
stand. -/
def scan (s : State) (i : Fin 64) (d : Descriptor) (first : Nat) : Nat → Nat → Nat × Nat → Reached
  | 0, _, p => .done p.1 p.2
  | n + 1, k, p =>
    let el := s.element (first + k)
    if s.skips i el.skip then scan s i d first n (k + 1) p
    else
      match el.body with
      | .hold t => .hold k p.1 p.2 t
      | .march dir ops _ =>
        let chunks := chunkCount d.columns
        match issuable (s.entry i).guards dir ops d.rows chunks (firstPosition dir d.rows chunks) with
        | some q => .walk k q.1 q.2
        | none => scan s i d first n (k + 1) (lastPosition dir d.rows chunks)

/-- R75: a Parking List entry goes before another: less time remains to its wake, or as much and a lower index. -/
def ParkEntry.before (now : Time) (a b : ParkEntry) : Bool :=
  remaining a.wake now < remaining b.wake now || (remaining a.wake now == remaining b.wake now && a.inst ≤ b.inst)

/-- R75: put an entry into the Parking List in its order. -/
def insertPark (now : Time) (a : ParkEntry) : List ParkEntry → List ParkEntry
  | [] => [a]
  | b :: t => if a.before now b then a :: b :: t else b :: insertPark now a t

/-- R67: a run dispatched from an entry of this class is preemptible. -/
def EntryClass.preemptible : EntryClass → Bool
  | .normal | .verify => true
  | .urgent | .wake => false

/-- R80: an engine that has given up its current instance; the Resume Stack is kept. -/
def Engine.vacated (en : Engine) : Engine := { Engine.reset with stack := en.stack }

namespace State

/-- The directory entry of instance `i`'s job sequence; R49 keeps it from being EMPTY while the job lasts. -/
def jobEntry (s : State) (i : Fin 64) : DirectoryEntry :=
  ((s.entry i).run.jobSequence.bind s.directoryEntry).getD ⟨0, 0, ⟨false, false, false⟩⟩

/-- Engine `e` gives up its current instance (R80). -/
def vacate (s : State) (e : Fin 6) : State := s.modEngine e Engine.vacated

/-- The engine writes a position into the entry of instance `i` (R81). -/
def writePosition (s : State) (i : Fin 64) (p : Position) : State :=
  s.modEntry i fun x => { x with run := { x.run with position := p } }

/-- R91, R75: the run of instance `i` on engine `e` parks until `wake`. -/
def parkRun (s : State) (e : Fin 6) (i : Fin 64) (p : Position) (wake : Time) : State :=
  let t := ((s.writePosition i p).modEntry i fun x => { x with state := .parked }).releaseSlot i
  let u : State := { t with parking := insertPark s.now ⟨i, wake⟩ t.parking }
  u.vacate e

/-- R92: the run of instance `i` on engine `e` completes. -/
def completeRun (s : State) (e : Fin 6) (i : Fin 64) (p : Position) : State :=
  (((s.writePosition i p).releaseSlot i).enterAnalysis i true none).vacate e

/-- Engine `e` reaches element ordinal `k` of its current run, the cursors standing at (row, chunk) `p` (R53). The second
part says that the run left the engine, which has still to turn to its reservation or its stack. -/
def reach (s : State) (e : Fin 6) (k : Nat) (p : Nat × Nat) : State × Bool :=
  match (s.engine e).current with
  | none => (s, false)
  | some i =>
    match (s.entry i).descriptor with
    | none => (s, false)
    | some d =>
      let j := s.jobEntry i
      match scan s i d j.first (j.count - k) k p with
      | .walk o r c =>
        (s.modEngine e fun en => { en with state := .walking, position := some ⟨o, r, c, .inElement⟩ }, false)
      | .hold o r c t => (s.parkRun e i ⟨o, r, c, .elementEnd⟩ (s.now + BitVec.ofNat 24 t), true)
      | .done r c => (s.completeRun e i ⟨j.count - 1, r, c, .elementEnd⟩, true)

/-! ### Starting and resuming a run -/

/-- R82, R104: engine `e` sends the map of instance `i` and enters LOADING. -/
def beginLoad (s : State) (e : Fin 6) (i : Fin 64) : State :=
  match (s.entry i).descriptor with
  | none => s
  | some d =>
    ((s.send d.link (.mapLoad d.memId (s.entry i).repairMap)).modLink d.link fun k =>
      { k with loads := k.loads ++ [⟨e, d.memId, s.now⟩] }).modEngine e fun en =>
        { en with state := .loading, loadOutstanding := true, position := some (s.entry i).run.position }

/-- R67 step 3: what dispatch does to the entry of a run's first or verification run. -/
def dispatchedEntry (now : Time) (c : EntryClass) (x : Entry) : Entry :=
  match c with
  | .wake => { x with state := .running }
  | .verify =>
    { x with
      state := .running
      run := { x.run with runCount := x.run.runCount + 1, runClass := some .verify, position := .zero } }
  | .urgent =>
    { x with
      state := .running
      startStamp := some now
      endStamp := none
      run := { x.run with runCount := 1, runClass := some .urgent, position := .zero } }
  | .normal =>
    { x with
      state := .running
      startStamp := some now
      endStamp := none
      run := { x.run with runCount := 1, runClass := some .normal, position := .zero } }

/-- R67: entry `q` is dispatched to engine `e`. The second part is as for `reach`. -/
def dispatchRun (s : State) (e : Fin 6) (q : QueueEntry) : State × Bool :=
  let i := q.inst
  let w : State := { s with workQueue := s.workQueue.filter fun x => x.inst != i }
  let t := (w.takeSlot i).modEngine e fun en =>
    { en with current := some i, dispatchStamp := some s.now, preemptible := q.cls.preemptible }
  match q.cls with
  | .wake =>
    let p := (t.entry i).run.position
    let u := (t.modEntry i (dispatchedEntry s.now .wake)).modEngine e fun en =>
      { en with state := .walking, position := some p }
    u.reach e (p.ordinal + 1) (p.row, p.chunk)
  | c => (((t.emptyLog i).modEntry i (dispatchedEntry s.now c)).beginLoad e i, false)

/-- R73, R84: engine `e` resumes instance `i`, the top of its Resume Stack. The second part is as for `reach`. -/
def resumeRun (s : State) (e : Fin 6) (i : Fin 64) : State × Bool :=
  let p := (s.entry i).run.position
  let t := ((s.takeSlot i).modEntry i fun x => { x with state := .running, suspending := none }).modEngine e fun en =>
    { en with
      state := .walking
      current := some i
      position := some p
      dispatchStamp := some s.now
      preemptible := true
      waitingLink := none
      stack := en.stack.tail }
  match p.mark with
  | .loadPending => (t.beginLoad e i, false)
  | .inElement => (t, false)
  | .elementEnd => t.reach e (p.ordinal + 1) (p.row, p.chunk)

/-! ### Turning to the reservation or the Resume Stack (R71, R73, R74) -/

/-- The Work Queue entry reserved for engine `e` (R70). -/
def reservedFor (s : State) (e : Fin 6) : Option QueueEntry := s.workQueue.find? fun q => q.reserved == some e

/-- R73: engine `e` enters WAITING_SLOT for the link of its top instance `i` and, when the slot arbiter gives it a slot there,
resumes in the same step. -/
def waitFor (s : State) (e : Fin 6) (i : Fin 64) : State × Bool :=
  let t := s.modEngine e fun en => { en with state := .waitingSlot, waitingLink := s.linkOf i }
  if (s.linkOf i).any (t.slotGranted e) then t.resumeRun e i else (t, false)

/-- What engine `e` does once: an engine without a run takes its reserved entry (R71), else turns to its stack (R73); a
WAITING_SLOT engine whose top has changed turns to the new top (R74). The second part is as for `reach`. -/
def turnOnce (s : State) (e : Fin 6) : State × Bool :=
  let en := s.engine e
  match en.state with
  | .idle =>
    match s.reservedFor e with
    | some q => s.dispatchRun e q
    | none =>
      match en.stack with
      | [] => (s, false)
      | i :: _ => s.waitFor e i
  | .waitingSlot =>
    match en.stack with
    | [] => (s.vacate e, false)
    | i :: _ => if s.linkOf i = en.waitingLink then (s, false) else s.waitFor e i
  | _ => (s, false)

/-- Turn engine `e` until it has a run, waits or is free: a run that parks or completes as it comes back leaves the engine to
turn again. Each turn uses up a reserved entry or a place of the stack, so `n` of them suffice. -/
def turnFor (e : Fin 6) : Nat → State → State
  | 0, s => s
  | n + 1, s => if (s.turnOnce e).2 then turnFor e n (s.turnOnce e).1 else (s.turnOnce e).1

/-- Engine `e` acts on its reservation and its stack (R71, R73, R74). -/
def turn (s : State) (e : Fin 6) : State := turnFor e ((s.engine e).stack.length + s.workQueue.length + 1) s

/-- A step that gave engine `e` work: when the run left the engine again, the engine turns. -/
def settle (e : Fin 6) (r : State × Bool) : State := if r.2 then r.1.turn e else r.1

/-- Every engine acts once, in ascending number (R78, R108). An engine with a run, and one that waits for its top's link, does
nothing. -/
def turnAll (s : State) : State := allEngines.foldl turn s

/-- The engine an instance was suspended on, when there is one, acts on its stack (R74). -/
def turnSuspender (s : State) : Option (Fin 6) → State
  | none => s
  | some e => s.turn e

/-! ### Drains (R93 to R96) -/

/-- R96: engine `e` is draining with nothing in flight and no load outstanding. -/
def drainDone (s : State) (e : Fin 6) : Bool :=
  (s.engine e).state == .draining && (s.engine e).inFlight.isEmpty && !(s.engine e).loadOutstanding

end State

/-- R95: what a drain request makes of an engine that is already draining. -/
def Engine.redrain (en : Engine) (r : DrainReason) : Engine :=
  match en.drainReason, r with
  | some .preempt, .cut c => { en with held := some (en.held.getD c) }
  | some .retire, _ => en
  | _, .retire => { en with drainReason := some .retire, held := none }
  | some .requalify, _ => en
  | _, .requalify => { en with drainReason := some .requalify, held := none }
  | _, _ => en

/-- R93, R95: what a drain request makes of an engine. The position is frozen where it stands, and a tag given to the engine and not yet
used is no longer its own. -/
def Engine.drainRequested (en : Engine) (r : DrainReason) : Engine :=
  match en.state with
  | .loading | .walking => { en with state := .draining, drainReason := some r, given := none }
  | .draining => en.redrain r
  | .idle | .waitingSlot => en

namespace State

/-- A drain is requested of engine `e` (R93, R95). -/
def requestDrain (s : State) (e : Fin 6) (r : DrainReason) : State := s.modEngine e fun en => en.drainRequested r

/-- R162: the REQUALIFY that drains engine `e` was taken now: the section its instance `i` will load is kept, unless an earlier
REQUALIFY drains it already (notes/assumptions/26.md). -/
def saveSection (s : State) (e : Fin 6) (i : Fin 64) : State :=
  s.modEngine e fun en =>
    if en.state = .draining ∧ en.drainReason = some .requalify then en else { en with reload := some (s.storeSection i) }

/-- R162: the section that the reset of instance `i` at the end of the drain of engine `e` loads. -/
def reloadSection (s : State) (e : Fin 6) (i : Fin 64) : StoreSection := (s.engine e).reload.getD (s.storeSection i)

/-- R96: the fate of instance `i`, by the drain reason as it stands at the end of the drain of engine `e`. -/
def disposeDrained (s : State) (e : Fin 6) (i : Fin 64) : State :=
  match (s.engine e).drainReason with
  | some .preempt =>
    let t := (s.modEntry i fun x => { x with state := .suspended, suspending := some e }).modEngine e fun en =>
      { en with stack := i :: en.stack }
    match (s.engine e).held with
    | none => t
    | some c => (t.leaveStack i).enterAnalysis i true (some c)
  | some (.cut c) => s.enterAnalysis i true (some c)
  | some .retire => s.becomeRetired i
  | some .requalify => (s.requalifyReset i (s.reloadSection e i)).takeFollowUp i
  | none => s

/-- R96: the drain of engine `e` ends: the frozen position is written back, the instance disposed of, its slot given up and
the engine left without a run. A reservation that waits on the slot takes it as the engine turns (R71). -/
def finishDrain (s : State) (e : Fin 6) : State :=
  match (s.engine e).current with
  | none => s.vacate e
  | some i =>
    let t :=
      match (s.engine e).position with
      | none => s
      | some p => s.writePosition i p
    ((t.releaseSlot i).disposeDrained e i).vacate e

/-- R96: the drain of engine `e` ends, and the engine turns to its reservation or its stack. -/
def drainEnd (s : State) (e : Fin 6) : State := (s.finishDrain e).turn e

/-- R93: the drain requested in going from `s` to `t` had nothing to await, so it ends at that moment. -/
def drainEndsAtOnce (s t : State) (e : Fin 6) : Bool := (s.engine e).state != .draining && t.drainDone e

/-- Engine `e` drains for this reason (R93). -/
def drainingFor (s : State) (e : Fin 6) (r : DrainReason) : Bool :=
  (s.engine e).state == .draining && (s.engine e).drainReason == some r

/-- R89, R94, R97: engine `e` drains for RETIRE or REQUALIFY: its results are discarded, and its run is not FAULTED by a link loss. -/
def drainsAway (s : State) (e : Fin 6) : Bool := s.drainingFor e .retire || s.drainingFor e .requalify

/-- R90: the element of engine `e` has ended: WALKING, mark ELEMENT_END, nothing in flight. -/
def elementEnded (s : State) (e : Fin 6) : Bool :=
  (s.engine e).state == .walking && ((s.engine e).position.any fun p => p.mark == .elementEnd) &&
    (s.engine e).inFlight.isEmpty

/-- R90: the element of engine `e` ends: the engine reaches the next. -/
def endElement (s : State) (e : Fin 6) : State :=
  match (s.engine e).position with
  | none => s
  | some p => settle e (s.reach e (p.ordinal + 1) (p.row, p.chunk))

/-- R89: engine `e` checks for the end of its drain (R96) and for the end of its element (R90). -/
def checkEnd (s : State) (e : Fin 6) : State :=
  if s.drainDone e then s.drainEnd e else if s.elementEnded e then s.endElement e else s

/-- R93: a drain is requested of engine `e`, and ends in the same step when nothing is outstanding. -/
def drainFor (s : State) (e : Fin 6) (r : DrainReason) : State :=
  let t := s.requestDrain e r
  if s.drainEndsAtOnce t e then t.drainEnd e else t

/-- As `drainFor`, in a command that acts on several instances: the engine turns when all of them have been acted on. -/
def drainAmong (s : State) (e : Fin 6) (r : DrainReason) : State :=
  let t := s.requestDrain e r
  if s.drainEndsAtOnce t e then t.finishDrain e else t

end State

end Sys2Proof.Machine
end

