-- ==== Sys2Proof/Machine/Engines.lean ====
section
/-!
DEFINITION. The engines' own steps (R88, R90, R96): the tag arbiter, issuing a burst, the end of an element, the end of a drain; and
the ENGINES read.
-/

namespace Sys2Proof.Machine

open Sys2Proof

namespace State

/-- The tags of link `l` that are free (R88). -/
def freeTags (s : State) (l : Fin 4) : List (Fin 8) :=
  (List.finRange 8).filter fun t => !(s.link l).tags.any fun u => u.tag == t

/-- R88: engine `e` meets every condition for issuing but the free tag, on link `l`. -/
def wantsTag (s : State) (l : Fin 4) (e : Fin 6) : Bool :=
  (s.engine e).state == .walking && ((s.engine e).position.any fun p => p.mark == .inElement) &&
    (s.engine e).inFlight.length < Config.burstsPerEngine && (s.engine e).current.any fun i => s.linkOf i == some l

/-- The free tags of link `l` that are not given to an engine. -/
def openTags (s : State) (l : Fin 4) : List (Fin 8) :=
  (s.freeTags l).filter fun t =>
    !allEngines.any fun e => (s.engine e).given == some t && (s.engine e).current.any fun i => s.linkOf i == some l

/-- The engines that wait for a tag of link `l` to be freed: they meet every other condition and have been given none. -/
def tagWaiters (s : State) (l : Fin 4) : List (Fin 6) := allEngines.filter fun e => s.wantsTag l e && (s.engine e).given.isNone

/-- R88: the tag arbiter prefers engine `a` to engine `b`: fewest bursts in flight, then lowest number. -/
def tagBefore (s : State) (a b : Fin 6) : Bool :=
  if (s.engine a).inFlight.length ≠ (s.engine b).inFlight.length then
    (s.engine a).inFlight.length < (s.engine b).inFlight.length
  else a ≤ b

/-- R88: tag `t` of link `l` has been freed. When the link has no other tag to take, the arbiter gives it to the engine it prefers of
those that wait; with another, or with none that waits, it stays open (notes/assumptions/5.md). -/
def giveTag (s : State) (l : Fin 4) (t : Fin 8) : State :=
  if s.openTags l = [t] then
    match (s.tagWaiters l).find? fun e => (s.tagWaiters l).all (s.tagBefore e) with
    | none => s
    | some e => s.modEngine e fun en => { en with given := some t }
  else s

/-- R88: the tag engine `e` issues its next burst on link `l` with: the one given to it, else the lowest-numbered open one. -/
def tagFor (s : State) (l : Fin 4) (e : Fin 6) : Option (Fin 8) :=
  match (s.engine e).given with
  | some t => some t
  | none => (s.openTags l).head?

/-- The element that engine `e`'s position names (R45). -/
def currentElement (s : State) (i : Fin 64) (p : Position) : Element := s.element ((s.jobEntry i).first + p.ordinal)

/-- R85, R87: the position of an engine after the cursor has moved on from position `q` of a MARCH element. -/
def advance (s : State) (i : Fin 64) (d : Descriptor) (dir : Direction) (ops : List Operation) (ordinal : Nat)
    (q : Nat × Nat) : Position :=
  let chunks := chunkCount d.columns
  let last := lastPosition dir d.rows chunks
  match nextPosition dir d.rows chunks q with
  | none => ⟨ordinal, q.1, q.2, .elementEnd⟩
  | some n =>
    match issuable (s.entry i).guards dir ops d.rows chunks n with
    | some c => ⟨ordinal, c.1, c.2, .inElement⟩
    | none => ⟨ordinal, last.1, last.2, .elementEnd⟩

/-- R86, R88, R102: engine `e` issues the burst at position `q` with tag `t`. -/
def sendBurst (s : State) (e : Fin 6) (i : Fin 64) (d : Descriptor) (p : Position) (dir : Direction)
    (ops : List Operation) (bg : Background) (t : Fin 8) (q : Nat × Nat) : State :=
  let isGuarded := guarded (s.entry i).guards q.1
  let msg : LinkMsg :=
    .burst t d.memId q.1 (Config.chunkColumns * q.2) (chunkWidth d.columns q.2) (burstOperations isGuarded ops) bg isGuarded
  ((s.send d.link msg).modLink d.link fun k => { k with tags := k.tags ++ [⟨t, e, s.now⟩] }).modEngine e fun en =>
    { en with
      inFlight := en.inFlight ++ [⟨t, q.1, q.2, p.ordinal, isGuarded⟩]
      position := some (s.advance i d dir ops p.ordinal q)
      given := none }

/-- R88: engine `e`, which meets the conditions, issues the burst at its cursor with tag `t`; with no position left to issue, the element
may end (R90). -/
def issueBurst (s : State) (e : Fin 6) (i : Fin 64) (d : Descriptor) (p : Position) (t : Fin 8) : State :=
  match (s.currentElement i p).body with
  | .hold _ => s
  | .march dir ops bg =>
    let chunks := chunkCount d.columns
    match issuable (s.entry i).guards dir ops d.rows chunks (p.row, p.chunk) with
    | some q => s.sendBurst e i d p dir ops bg t q
    | none =>
      let last := lastPosition dir d.rows chunks
      (s.modEngine e fun en => { en with position := some ⟨p.ordinal, last.1, last.2, .elementEnd⟩, given := none }).checkEnd e

end State

/-- BURST_ISSUE (R88): the burst at the engine's cursor; no event when a condition fails. -/
def execBurstIssue (e : Fin 6) (s : State) : Host.Outcome State Fault Refusal :=
  .next <|
    match (s.engine e).current, (s.engine e).position with
    | some i, some p =>
      match (s.entry i).descriptor with
      | none => s
      | some d =>
        match s.tagFor d.link e with
        | none => s
        | some t => if s.wantsTag d.link e then s.issueBurst e i d p t else s
    | _, _ => s

/-- ELEMENT_END (R90): the engine reaches the next element; no event when the element has not ended. The element end that a RESULT
brings about belongs to the RESULT's own step (R89). -/
def execElementEnd (e : Fin 6) (s : State) : Host.Outcome State Fault Refusal :=
  .next (if s.elementEnded e then s.endElement e else s)

/-- DRAIN_END (R96); no event while the engine is not draining or has something outstanding. The drain's end that a RESULT, a LOAD_DONE
or the request itself brings about belongs to that step (R89, R93). -/
def execDrainEnd (e : Fin 6) (s : State) : Host.Outcome State Fault Refusal :=
  .next (if s.drainDone e then s.drainEnd e else s)

/-- What ENGINES reports of one engine (R79). -/
def engineReport (en : Engine) : EngineReport :=
  ⟨en.state, en.current, en.inFlight.length, en.loadOutstanding, en.drainReason, en.held, en.waitingLink, en.stack⟩

/-- ENGINES (R79). -/
def execEngines (p : Port) (s : State) : Host.Outcome State Fault Refusal :=
  .next (s.ok p .engines (.engines (allEngines.map fun e => engineReport (s.engine e))))

end Sys2Proof.Machine
end

