-- ==== Sys2Proof/Machine/Capture.lean ====
section
/-!
DEFINITION. Fail Capture (R117 to R132): from a mismatch entry to a fail, its attribution, its place in the fail log, the
must-repair collapse, and the cut shorts of exhaustion and of spares.
-/

namespace Sys2Proof.Machine

open Sys2Proof

/-! ### From an entry to a fail (R122 to R124) -/

/-- R123: the fail locator. The first offset from the MSB holding a 1 and the number of offsets holding a 1; none for a
vector with no 1. -/
def locate (v : List Bool) : Option FailBits :=
  let n := v.countP id
  if n = 0 then none else some ⟨v.findIdx id, n⟩

/-- A fail (R122): its cell, its bits (absent for a read-check) and its attribution. -/
structure Fail where
  row : Nat
  column : Nat
  bits : Option FailBits
  attribution : Attribution
deriving DecidableEq, Repr

/-- R124: a COLUMN record of the fail's column first, then a ROW record of its row. -/
def attributionOf (rs : List RepairRecord) (row column : Nat) : Attribution :=
  match rs.find? fun r => r.kind == .column && r.line == column with
  | some r => .spareColumn r.spare
  | none =>
    match rs.find? fun r => r.kind == .row && r.line == row with
    | some r => .spareRow r.spare
    | none => .uncovered

/-- R122, R123: the fail of one entry: none when its vector holds no 1; no bits when the burst was a read-check. -/
def failOf (rs : List RepairRecord) (row : Nat) (m : Mismatch) : Option Fail :=
  match m.vector with
  | none => some ⟨row, m.column, none, attributionOf rs row m.column⟩
  | some v => (locate v).map fun b => ⟨row, m.column, some b, attributionOf rs row m.column⟩

/-! ### Placing a fail in the log (R125 to R131) -/

/-- What Fail Capture reads while it places the fails of one result: the time and ordinal to stamp, the guard ranges, and
the FREE spares of each kind. -/
structure CaptureContext where
  now : Time
  ordinal : Nat
  guards : List GuardRange
  freeRows : Nat
  freeColumns : Nat
deriving DecidableEq, Repr

/-- A fail log, the pool's free count, and the cut short raised, if any. -/
structure Placed where
  log : List FailRecord
  pool : Nat
  cut : Option CutReason
deriving DecidableEq, Repr

/-- Change the first record that meets `p`. -/
def updateFirst (p : FailRecord → Bool) (f : FailRecord → FailRecord) : List FailRecord → List FailRecord
  | [] => []
  | r :: t => if p r then f r :: t else r :: updateFirst p f t

/-- R126: the bits of a cell after a fail merges into it. -/
def mergeBits (old new : Option FailBits) : Option FailBits :=
  match old, new with
  | some a, some b => some ⟨min a.first b.first, max a.count b.count⟩
  | none, some b => some b
  | a, none => a

/-- R125: a hit more. -/
def FailRecord.hit (r : FailRecord) : FailRecord := { r with hits := countUp r.hits }

/-- R126: a fail merged into a cell. -/
def FailRecord.merge (r : FailRecord) (bits : Option FailBits) : FailRecord := { r.hit with bits := mergeBits r.bits bits }

/-- R127: an UNCOVERED CELL of row `row`. -/
def FailRecord.uncoveredInRow (row : Nat) (r : FailRecord) : Bool :=
  r.attribution == .uncovered &&
    match r.place with
    | .cell a _ => a == row
    | _ => false

/-- R128: an UNCOVERED CELL of column `column`. -/
def FailRecord.uncoveredInColumn (column : Nat) (r : FailRecord) : Bool :=
  r.attribution == .uncovered &&
    match r.place with
    | .cell _ b => b == column
    | _ => false

/-- A ROW_LINE. -/
def FailRecord.isRowLine (r : FailRecord) : Bool :=
  match r.place with
  | .rowLine _ => true
  | _ => false

/-- A COLUMN_LINE. -/
def FailRecord.isColumnLine (r : FailRecord) : Bool :=
  match r.place with
  | .columnLine _ => true
  | _ => false

/-- R129: the first record of a list that meets `p` becomes a line; every other one that meets it leaves. -/
def gather (p : FailRecord → Bool) (make : FailRecord → FailRecord) : List FailRecord → List FailRecord
  | [] => []
  | r :: t => if p r then make r :: t.filter fun x => !p x else r :: gather p make t

/-- R130: a record of its own is taken from the pool for the tail of the log, unless the log or the pool is exhausted. -/
def addRecord (log : List FailRecord) (pool : Nat) (r : FailRecord) : Placed :=
  if Config.logCapacity ≤ log.length then ⟨log, pool, some .overflow⟩
  else if pool = 0 then ⟨log, pool, some .pool⟩
  else ⟨log ++ [r], pool - 1, none⟩

/-- R131: the must-repair lines of a log outnumber the FREE spares of their kind. -/
def linesOutnumber (cx : CaptureContext) (log : List FailRecord) : Bool :=
  cx.freeRows < log.countP FailRecord.isRowLine || cx.freeColumns < log.countP FailRecord.isColumnLine

/-- R131: the SPARES check after a collapse that was recorded. -/
def sparesCheck (cx : CaptureContext) (r : Placed) : Placed :=
  match r.cut with
  | some _ => r
  | none => if linesOutnumber cx r.log then { r with cut := some .spares } else r

/-- R129, R130: every record that meets `p`, and the new fail, become one line at `place`: in the place of the earliest, or,
when none is gathered, as a new record. -/
def collapse (cx : CaptureContext) (log : List FailRecord) (pool : Nat) (p : FailRecord → Bool) (place : FailPlace)
    (mark : Option Bool) : Placed :=
  let gathered := log.filter p
  match gathered with
  | [] => sparesCheck cx (addRecord log pool ⟨place, none, 1, cx.now, cx.ordinal, .uncovered, mark⟩)
  | _ :: _ =>
    let hits := min Config.counterTop ((gathered.map FailRecord.hits).sum + 1)
    let make (r : FailRecord) : FailRecord := ⟨place, none, hits, r.firstSeen, r.ordinal, .uncovered, mark⟩
    sparesCheck cx ⟨gather p make log, pool + (gathered.length - 1), none⟩

/-- R117: the CELL record of a fail. -/
def cellRecord (cx : CaptureContext) (f : Fail) : FailRecord :=
  ⟨.cell f.row f.column, f.bits, 1, cx.now, cx.ordinal, f.attribution, some (guarded cx.guards f.row)⟩

/-- R127, R128, R130: a new distinct UNCOVERED CELL: the row check, then the column check, then a record of its own. -/
def placeUncovered (cx : CaptureContext) (log : List FailRecord) (pool : Nat) (f : Fail) : Placed :=
  if cx.freeColumns < log.countP (FailRecord.uncoveredInRow f.row) + 1 then
    collapse cx log pool (FailRecord.uncoveredInRow f.row) (.rowLine f.row) (some (guarded cx.guards f.row))
  else if cx.freeRows < log.countP (FailRecord.uncoveredInColumn f.column) + 1 then
    collapse cx log pool (FailRecord.uncoveredInColumn f.column) (.columnLine f.column) none
  else addRecord log pool (cellRecord cx f)

/-- R125: a fail is placed by the first test that applies. -/
def placeFail (cx : CaptureContext) (log : List FailRecord) (pool : Nat) (f : Fail) : Placed :=
  let inRowLine (r : FailRecord) : Bool := r.place == .rowLine f.row
  let inColumnLine (r : FailRecord) : Bool := r.place == .columnLine f.column
  let inCell (r : FailRecord) : Bool := r.place == .cell f.row f.column
  let uncovered := f.attribution == .uncovered
  if uncovered && log.any inRowLine then ⟨updateFirst inRowLine FailRecord.hit log, pool, none⟩
  else if uncovered && log.any inColumnLine then ⟨updateFirst inColumnLine FailRecord.hit log, pool, none⟩
  else if log.any inCell then ⟨updateFirst inCell (fun r => r.merge f.bits) log, pool, none⟩
  else if uncovered then placeUncovered cx log pool f
  else addRecord log pool (cellRecord cx f)

/-! ### The fails of a result (R122, R132) -/

namespace State

/-- What Fail Capture reads of instance `i` for a burst (R122). -/
def captureContext (s : State) (i : Fin 64) (b : Burst) : CaptureContext :=
  let x := s.entry i
  ⟨s.now, b.ordinal, x.guards, freeCount x.rowSpares, freeCount x.columnSpares⟩

/-- R122, R132: one entry of a recorded FAIL result of instance `i` on engine `e`; a cut short raised reaches the engine. -/
def captureEntry (s : State) (e : Fin 6) (i : Fin 64) (b : Burst) (m : Mismatch) : State :=
  match failOf (s.entry i).repairMap b.row m with
  | none => s
  | some f =>
    let r := placeFail (s.captureContext i b) (s.entry i).failLog s.poolFree f
    let p : State := { s with poolFree := r.pool }
    let t := p.modEntry i fun x => { x with failLog := r.log }
    match r.cut with
    | none => t
    | some c => t.requestDrain e (.cut c)

/-- R122: the entries are taken in list order, each whole. -/
def captureResult (s : State) (e : Fin 6) (i : Fin 64) (b : Burst) (ms : List Mismatch) : State :=
  ms.foldl (fun t m => t.captureEntry e i b m) s

end State

end Sys2Proof.Machine
end

