-- ==== Sys2Proof/Machine/Links.lean ====
section
/-!
DEFINITION. The repair links (R98 to R116): link loss, the messages of the devices, and the link timeouts.
-/

namespace Sys2Proof.Machine

open Sys2Proof

namespace State

/-! ### Link loss and return (R108 to R111) -/

/-- R108 step 5: instance `i` becomes FAULTED when its link goes DOWN. -/
def faultsOnLoss (s : State) (i : Fin 64) : Bool :=
  match (s.entry i).state with
  | .queued | .suspended | .parked => true
  | .running => !(s.engineOf i).any s.drainsAway
  | _ => false

/-- R109: the instances that the loss of link `l` makes FAULTED. -/
def faultMask (s : State) (l : Fin 4) : Mask := maskOf fun i => s.linkOf i == some l && s.faultsOnLoss i

/-- R97: what the loss of its link makes of the RUNNING instance `i` on engine `e`. Where it becomes RETIRED its position is zeroed too:
R81 zeroes the entry of every run that leaves because its link goes DOWN. -/
def loseRun (s : State) (e : Fin 6) (i : Fin 64) : State :=
  let t :=
    if s.drainingFor e .retire then (s.writePosition i .zero).becomeRetired i
    else if s.drainingFor e .requalify then (s.dropFollowUp i).requalifyReset i (s.reloadSection e i)
    else s.becomeFaulted i
  t.vacate e

/-- R108 steps 4 and 5 for one instance of the link: the live flag is cleared, and work under way is lost. -/
def loseInst (s : State) (i : Fin 64) : State :=
  let t := s.modEntry i fun x => { x with live := false }
  match (s.entry i).state with
  | .queued | .suspended | .parked => (t.detach i).becomeFaulted i
  | .running =>
    match s.engineOf i with
    | some e => t.loseRun e i
    | none => t.becomeFaulted i
  | _ => t

/-- R108, R109: link `l` goes DOWN, in one step. -/
def linkDown (s : State) (l : Fin 4) (r : DownReason) : State :=
  let cutOff := s.modLink l fun k => { k with down := some r, tags := [], loads := [], pulls := [], slots := [] }
  let lost := allInsts.foldl (fun t i => if s.linkOf i = some l then t.loseInst i else t) cutOff
  ((lost.turnAll).raiseBoth (.link (linkBit l))).raiseBoth (.fault (s.faultMask l))

/-- R110 step 2: the FAULTED instances of link `l` become DEFINED. -/
def clearFaults (s : State) (l : Fin 4) : State :=
  allInsts.foldl
    (fun t i =>
      if s.linkOf i = some l ∧ (s.entry i).state = .faulted then t.modEntry i fun x => { x with state := .defined } else t)
    s

/-- R110 step 3: a pull is recorded for every defined instance of link `l`, in ascending index order. -/
def recordPulls (s : State) (l : Fin 4) : State :=
  allInsts.foldl (fun t i => if s.linkOf i = some l ∧ (s.entry i).state ≠ .vacant then t.takePull l i else t) s

/-- R110: a READY taken on the DOWN link `l`. -/
def linkReady (s : State) (l : Fin 4) : State :=
  let up := s.modLink l fun k => { k with down := none }
  (((up.clearFaults l).recordPulls l)).raiseBoth (.link (linkBit l))

/-! ### Results and loads (R103, R104) -/

/-- R103: the burst a RESULT's tag names: the tag is at the head of the link's list, and the engine recorded for it holds
the burst for its current instance. -/
def resultBurst (s : State) (l : Fin 4) (tag : Fin 8) : Option (Fin 6 × Fin 64 × Descriptor × Burst) :=
  match (s.link l).tags with
  | [] => none
  | u :: _ =>
    if u.tag = tag then
      match (s.engine u.engine).current, (s.engine u.engine).inFlight.find? fun b => b.tag == tag with
      | some i, some b => (s.entry i).descriptor.map fun d => (u.engine, i, d, b)
      | _, _ => none
    else none

end State

/-- R103 checks 2 to 4: the mismatch list agrees with the outcome, the burst's columns, its read-check flag and W. -/
def resultFits (d : Descriptor) (b : Burst) (o : ResultOutcome) (ms : List Mismatch) : Bool :=
  let base := Config.chunkColumns * b.chunk
  let width := chunkWidth d.columns b.chunk
  match o with
  | .pass => ms.isEmpty
  | .fail =>
    1 ≤ ms.length && ms.length ≤ 64 && ms.length ≤ width && decide ((ms.map Mismatch.column).Nodup) &&
      ms.all fun m =>
        base ≤ m.column && m.column < base + width &&
          match m.vector with
          | none => b.readCheck
          | some v => !b.readCheck && v.length == d.width

namespace State

/-- R103: a RESULT is well formed. -/
def resultWellFormed (s : State) (l : Fin 4) (tag : Fin 8) (o : ResultOutcome) (ms : List Mismatch) : Bool :=
  (s.resultBurst l tag).any fun (_, _, d, b) => resultFits d b o ms

/-- R89, R103: a well-formed RESULT leaves the tags in use and the engine's list and, unless discarded, is recorded. The tag arbiter then
gives the freed tag (R88), before the engine checks for the end of its element or its drain (R90, R96), also of a drain that Fail Capture
has just requested (R93, R132). -/
def takeResult (s : State) (l : Fin 4) (e : Fin 6) (i : Fin 64) (b : Burst) (o : ResultOutcome) (ms : List Mismatch) :
    State :=
  let freed := (s.modLink l fun k => { k with tags := k.tags.tail }).modEngine e fun en =>
    { en with inFlight := en.inFlight.filter fun x => x.tag != b.tag }
  let recorded :=
    match o with
    | .pass => freed
    | .fail => if s.drainsAway e then freed else freed.captureResult e i b ms
  (recorded.giveTag l b.tag).checkEnd e

/-- R104: the load outstanding that a LOAD_DONE of this memory id answers. -/
def loadFor (s : State) (l : Fin 4) (m : Fin 256) : Option LoadUse := (s.link l).loads.find? fun u => u.memId == m

/-- R83: the LOAD_DONE of engine `e`'s load: in LOADING the run starts and element 0 is reached; in DRAINING none is, and the drain ends
when nothing else is outstanding (R96). -/
def takeLoadDone (s : State) (l : Fin 4) (m : Fin 256) (e : Fin 6) : State :=
  let t := (s.modLink l fun k => { k with loads := k.loads.filter fun u => u.memId != m }).modEngine e fun en =>
    { en with loadOutstanding := false }
  if (s.engine e).state = .loading then settle e (t.reach e 0 (0, 0)) else t.checkEnd e

end State

/-! ### Messages of the devices (R100) -/

/-- RESULT (R103): delivered when well formed, else the link goes DOWN MALFORMED; discarded on a DOWN link. -/
def execResult (l : Fin 4) (tag : Fin 8) (o : ResultOutcome) (ms : List Mismatch) (s : State) :
    Host.Outcome State Fault Refusal :=
  .next <|
    if s.linkUp l then
      match s.resultBurst l tag with
      | none => s.linkDown l .malformed
      | some (e, i, d, b) =>
        if resultFits d b o ms then s.takeResult l e i b o ms else s.linkDown l .malformed
    else s

/-- LOAD_DONE (R104): matched against the outstanding loads, else the link goes DOWN MALFORMED; discarded on a DOWN link. -/
def execLoadDone (l : Fin 4) (m : Fin 256) (s : State) : Host.Outcome State Fault Refusal :=
  .next <|
    if s.linkUp l then
      match s.loadFor l m with
      | none => s.linkDown l .malformed
      | some u => s.takeLoadDone l m u.engine
    else s

/-- READY (R110); on an UP link the device has reset unannounced, and the link goes DOWN RESET first (R111). -/
def execReady (l : Fin 4) (s : State) : Host.Outcome State Fault Refusal :=
  .next (if s.linkUp l then (s.linkDown l .reset).linkReady l else s.linkReady l)

/-- RESET_NOTICE (R107); discarded on a DOWN link. -/
def execResetNotice (l : Fin 4) (s : State) : Host.Outcome State Fault Refusal :=
  .next (if s.linkUp l then s.linkDown l .reset else s)

/-- PULL (R112); discarded on a DOWN link. -/
def execPull (l : Fin 4) (m : Fin 256) (s : State) : Host.Outcome State Fault Refusal :=
  .next <|
    if s.linkUp l then
      match s.lookup l m with
      | none => s.send l (.mapOffer m .unknown false none)
      | some i => s.takePull l i
    else s

/-- IN_SERVICE (R36); discarded on a DOWN link. -/
def execInService (l : Fin 4) (m : Fin 256) (s : State) : Host.Outcome State Fault Refusal :=
  .next <|
    if s.linkUp l then
      match s.lookup l m with
      | none => s.send l (.reject m .unknown)
      | some i =>
        if (s.entry i).state.usable then s.modEntry i fun x => { x with live := true }
        else s.send l (.reject m .wrongState)
    else s

/-- OUT_OF_SERVICE (R37); discarded on a DOWN link. -/
def execOutOfService (l : Fin 4) (m : Fin 256) (s : State) : Host.Outcome State Fault Refusal :=
  .next <|
    if s.linkUp l then
      match s.lookup l m with
      | none => s.send l (.reject m .unknown)
      | some i => s.modEntry i fun x => { x with live := false }
    else s

/-! ### Timeouts (R106) -/

/-- R106: a burst of link `l` is due: the Time Base has reached its issue stamp plus 50 and its tag is still in use. -/
def State.burstDue (s : State) (l : Fin 4) : Bool :=
  s.linkUp l && (s.link l).tags.any fun u => u.issued + Config.linkTimeout == s.now

/-- R106: a map load of link `l` is due. -/
def State.loadDue (s : State) (l : Fin 4) : Bool :=
  s.linkUp l && (s.link l).loads.any fun u => u.sentAt + Config.linkTimeout == s.now

/-- A burst's timeout, when one is due (R106). -/
def State.burstTimeout (s : State) (l : Fin 4) : State := if s.burstDue l then s.linkDown l .timeout else s

/-- A map load's timeout, when one is due (R106). -/
def State.loadTimeout (s : State) (l : Fin 4) : State := if s.loadDue l then s.linkDown l .timeout else s

/-- BURST_TIMEOUT (R106): takes the link DOWN; no event when no burst of the link is due. -/
def execBurstTimeout (l : Fin 4) (s : State) : Host.Outcome State Fault Refusal := .next (s.burstTimeout l)

/-- LOAD_TIMEOUT (R106): takes the link DOWN; no event when no load of the link is due. -/
def execLoadTimeout (l : Fin 4) (s : State) : Host.Outcome State Fault Refusal := .next (s.loadTimeout l)

end Sys2Proof.Machine
end

