-- ==== Sys2Proof/Machine/Wire.lean ====
section
/-!
DEFINITION. The bytes the part sends (section 11.5): the CRC-16 of R169, field encodings, response frames and the idle frame,
and the messages to the devices. Encodings that section 11.5 leaves open are listed in notes/assumptions/12.md.
-/

namespace Sys2Proof.Machine

open Sys2Proof

/-! ### Numbers and the check -/

/-- The `k` bytes of a number, most significant first. -/
def bytesOf : Nat → Nat → List Byte
  | 0, _ => []
  | k + 1, n => BitVec.ofNat 8 (n / 256 ^ k) :: bytesOf k n

/-- The number some bytes spell, most significant first. -/
def numberOf (l : List Byte) : Nat := l.foldl (fun n b => 256 * n + b.toNat) 0

/-- R169: the CRC-16 after one more bit, generator x^16 + x^12 + x^5 + 1. -/
def crcBit (c : BitVec 16) (b : Bool) : BitVec 16 := if c.msb != b then (c <<< 1) ^^^ 4129#16 else c <<< 1

/-- R169: the CRC-16 after one more byte, most significant bit first. -/
def crcByte (c : BitVec 16) (b : Byte) : BitVec 16 :=
  [7, 6, 5, 4, 3, 2, 1, 0].foldl (fun x k => crcBit x (b.getLsbD k)) c

/-- R169: the CRC-16 of some bytes, from 65535. -/
def crc16 (l : List Byte) : BitVec 16 := l.foldl crcByte 65535

/-- The two bytes of a check field. -/
def crcBytes (l : List Byte) : List Byte := bytesOf 2 (crc16 l).toNat

/-! ### Field encodings -/

/-- A one-byte number or code. -/
def byte (n : Nat) : List Byte := [BitVec.ofNat 8 n]

/-- A flag or an indication by itself: 1 when set. -/
def flagByte (b : Bool) : List Byte := byte b.toNat

/-- A field of `k` bytes that may be absent: its presence byte, then its bytes, which are 0 when it is absent. -/
def optField {α : Type} (k : Nat) (f : α → List Byte) : Option α → List Byte
  | none => byte 0 ++ List.replicate k 0
  | some a => byte 1 ++ f a

/-- A list: the count of its items, then the items. -/
def listField {α : Type} (f : α → List Byte) (l : List α) : List Byte := byte l.length ++ l.flatMap f

/-- A mask of instances or sections. -/
def maskField (m : Mask) : List Byte := bytesOf 8 m.toNat

/-- A Time Base value. -/
def timeField (t : Time) : List Byte := bytesOf 3 t.toNat

/-- A set of flags or conditions: bit n stands for the n-th. -/
def setField (l : List Bool) : List Byte := byte (l.foldr (fun b n => 2 * n + b.toNat) 0)

/-! ### Codes of enumerated values: positions in the lists that define them -/

/-- Kind (section 11.5). -/
def MemKind.code : MemKind → Nat
  | .sram => 0
  | .dram => 1
  | .cam => 2

/-- R4. -/
def InstState.code : InstState → Nat
  | .vacant => 0
  | .defined => 1
  | .queued => 2
  | .running => 3
  | .suspended => 4
  | .parked => 5
  | .analysing => 6
  | .clean => 7
  | .repaired => 8
  | .abandoned => 9
  | .unrepairable => 10
  | .retired => 11
  | .faulted => 12

/-- R24. -/
def Owner.code : Owner → Nat
  | .none => 0
  | .card => 1
  | .chassis => 2

/-- R1's table. -/
def VerdictReason.code : VerdictReason → Nat
  | .none => 0
  | .spares => 1
  | .overflow => 2
  | .verifyLimit => 3
  | .stop => 4
  | .deadline => 5
  | .pool => 6

/-- R7. -/
def RunClass.code : RunClass → Nat
  | .normal => 0
  | .urgent => 1
  | .verify => 2

/-- Urgency (section 11.5). -/
def Urgency.code : Urgency → Nat
  | .normal => 0
  | .urgent => 1

/-- R8: the requester of a follow-up. -/
def portCode : Port → Nat
  | .card => 0
  | .chassis => 1

/-- R81. -/
def PosMark.code : PosMark → Nat
  | .loadPending => 0
  | .inElement => 1
  | .elementEnd => 2

/-- R10. -/
def SpareState.code : SpareState → Nat
  | .free => 0
  | .used => 1
  | .bad => 2

/-- R57. -/
def EntryClass.code : EntryClass → Nat
  | .wake => 0
  | .urgent => 1
  | .verify => 2
  | .normal => 3

/-- R57. -/
def Requester.code : Requester → Nat
  | .card => 0
  | .chassis => 1
  | .part => 2

/-- R79. -/
def EngineState.code : EngineState → Nat
  | .idle => 0
  | .loading => 1
  | .walking => 2
  | .draining => 3
  | .waitingSlot => 4

/-- R79: the held cut-short reason. -/
def CutReason.code : CutReason → Nat
  | .stop => 0
  | .deadline => 1
  | .pool => 2
  | .overflow => 3
  | .spares => 4

/-- R79: the drain reason. -/
def DrainReason.code : DrainReason → Nat
  | .preempt => 0
  | .cut c => c.code + 1
  | .retire => 6
  | .requalify => 7

/-- R98. -/
def DownReason.code : DownReason → Nat
  | .neverUp => 0
  | .reset => 1
  | .timeout => 2
  | .malformed => 3

/-- R17. -/
def RetireDisposition.code : RetireDisposition → Nat
  | .retired => 0
  | .draining => 1

/-- R59. -/
def TestDisposition.code : TestDisposition → Nat
  | .queued => 0
  | .merged => 1
  | .followUp => 2

/-- R77's table. -/
def StopDisposition.code : StopDisposition → Nat
  | .cutShort => 0
  | .draining => 1
  | .followUpCleared => 2

/-- R25's table. -/
def ClaimResult.code : ClaimResult → Nat
  | .granted => 0
  | .partGranted => 1
  | .refused => 2

/-- R41. -/
def Direction.code : Direction → Nat
  | .up => 0
  | .down => 1

/-- Operations as in BURST (section 11.5). -/
def Operation.code : Operation → Nat
  | .write => 0
  | .writeInv => 1
  | .read => 2
  | .readInv => 3

/-- Backgrounds as in BURST (section 11.5). -/
def Background.code : Background → Nat
  | .solid => 0
  | .checker => 1
  | .rowStripe => 2
  | .columnStripe => 3
  | .walk _ => 4

/-- The walk offset of a background, present with WALK alone. -/
def Background.offset : Background → Option Nat
  | .walk n => some n
  | _ => none

/-! ### Records -/

/-- A repair record on the wire: 4 bytes (section 11.5). -/
def recordBytes (r : RepairRecord) : List Byte :=
  byte ((if r.kind = .column then 128 else 0) + (if r.origin = .found then 64 else 0) +
    (if r.verified then 32 else 0) + (if r.guardTouched then 16 else 0) + r.spare) ++ bytesOf 3 r.line

/-- A descriptor in R2's order, as DEFINE carries it. -/
def descriptorBytes (d : Descriptor) : List Byte :=
  byte d.link.val ++ byte d.memId.val ++ byte d.kind.code ++ bytesOf 3 d.rows ++ bytesOf 2 d.columns ++ byte d.width ++
    byte d.spareRows ++ byte d.spareColumns ++ byte d.defaultSequence.val ++ byte d.priority ++ flagByte d.verify ++
    bytesOf 2 d.signature

/-- The four flags in the order of R1's table, not R5's (the model's choice: notes/assumptions/12.md). -/
def flagsByte (f : InstFlags) : List Byte := setField [f.storeLost, f.signatureMismatch, f.untested, f.partialRun]

/-- The run context in R170's order. -/
def runBytes (r : RunContext) : List Byte :=
  optField 1 (fun q : Fin 32 => byte q.val) r.jobSequence ++ optField 1 (fun c : RunClass => byte c.code) r.runClass ++
    byte r.runCount ++ byte r.position.ordinal ++ bytesOf 3 r.position.row ++ byte r.position.chunk ++
    byte r.position.mark.code

/-- A follow-up (R8). -/
def followUpBytes (f : FollowUp) : List Byte := byte f.sequence.val ++ byte f.urgency.code ++ byte (portCode f.requester)

/-- A guard range (R30). -/
def rangeBytes (g : GuardRange) : List Byte := bytesOf 3 g.first ++ bytesOf 3 g.last

/-- A list of spare states (R10). -/
def sparesField (l : List SpareState) : List Byte := listField (fun x => byte x.code) l

/-- A STATUS report (R170). -/
def statusBytes (r : StatusReport) : List Byte :=
  optField 16 descriptorBytes r.descriptor ++ byte r.state.code ++ byte r.owner.code ++ flagByte r.live ++
    flagsByte r.flags ++ byte r.reason.code ++ runBytes r.run ++ optField 3 followUpBytes r.followUp ++
    byte r.absorbed ++ optField 3 timeField r.startStamp ++ optField 3 timeField r.endStamp ++
    sparesField r.rowSpares ++ sparesField r.columnSpares ++ listField rangeBytes r.guards ++
    optField 1 (fun e : Fin 6 => byte e.val) r.suspending

/-- The kind, row and column of a fail record (R117). -/
def placeBytes : FailPlace → List Byte
  | .cell r c => byte 0 ++ optField 3 (bytesOf 3) (some r) ++ optField 2 (bytesOf 2) (some c)
  | .rowLine r => byte 1 ++ optField 3 (bytesOf 3) (some r) ++ optField 2 (bytesOf 2) none
  | .columnLine c => byte 2 ++ optField 3 (bytesOf 3) none ++ optField 2 (bytesOf 2) (some c)

/-- An attribution (R117) and its spare index. -/
def attributionBytes : Attribution → List Byte
  | .uncovered => byte 0 ++ optField 1 byte none
  | .spareRow n => byte 1 ++ optField 1 byte (some n)
  | .spareColumn n => byte 2 ++ optField 1 byte (some n)

/-- A fail record (R117). -/
def failBytes (r : FailRecord) : List Byte :=
  placeBytes r.place ++ optField 1 byte (r.bits.map FailBits.first) ++ optField 1 byte (r.bits.map FailBits.count) ++
    byte r.hits ++ timeField r.firstSeen ++ byte r.ordinal ++ attributionBytes r.attribution ++
    optField 1 flagByte r.guarded

/-- A Work Queue entry (R57). -/
def queueEntryBytes (q : QueueEntry) : List Byte :=
  byte q.inst.val ++ byte q.sequence.val ++ byte q.cls.code ++ byte q.requester.code ++ timeField q.arrival ++
    optField 1 (fun e : Fin 6 => byte e.val) q.reserved

/-- An ENGINES report of one engine (R79). -/
def engineBytes (r : EngineReport) : List Byte :=
  byte r.state.code ++ optField 1 (fun i : Fin 64 => byte i.val) r.current ++ byte r.inFlight ++
    flagByte r.loadOutstanding ++ optField 1 (fun d : DrainReason => byte d.code) r.drainReason ++
    optField 1 (fun c : CutReason => byte c.code) r.held ++ optField 1 (fun l : Fin 4 => byte l.val) r.waitingLink ++
    listField (fun i : Fin 64 => byte i.val) r.stack

/-- A LINKS report of one link (R98): DOWN 0, UP 1. -/
def linkBytes (r : LinkReport) : List Byte :=
  flagByte r.down.isNone ++ optField 1 (fun d : DownReason => byte d.code) r.down ++ byte r.tags ++ byte r.slots ++
    listField (fun i : Fin 64 => byte i.val) r.pulls

/-- A directory entry (R45). -/
def directoryBytes (d : DirectoryEntry) : List Byte :=
  byte d.first ++ byte d.count ++ setField [d.kinds.sram, d.kinds.dram, d.kinds.cam]

/-- The fields of R41 that depend on the kind, absent where they do not apply. An absent operations list is presence 0 and count 0
(the model's choice: notes/assumptions/12.md). -/
def bodyBytes : ElementBody → List Byte
  | .march d ops b =>
    byte 0 ++ optField 1 byte (some d.code) ++ byte 1 ++ listField (fun o : Operation => byte o.code) ops ++
      optField 1 byte (some b.code) ++ optField 1 byte b.offset ++ optField 2 (bytesOf 2) none
  | .hold t =>
    byte 1 ++ optField 1 byte none ++ byte 0 ++ byte 0 ++ optField 1 byte none ++ optField 1 byte none ++
      optField 2 (bytesOf 2) (some t)

/-- An element record with its referenced indication (R41, R55); that the indication follows its own record is the model's choice
(notes/assumptions/12.md). -/
def elementBytes (x : Element × Bool) : List Byte :=
  bodyBytes x.1.body ++ setField [x.1.skip.notDram, x.1.skip.stored, x.1.skip.short.isSome, x.1.skip.fails] ++
    optField 2 (bytesOf 2) x.1.skip.short ++ flagByte x.2

/-- The store outcome of a DEFINE (R14, R162). -/
def outcomeBytes : StoreOutcome → List Byte
  | .empty => byte 0 ++ optField 1 byte none
  | .storeLost => byte 1 ++ optField 1 byte none
  | .signatureMismatch => byte 2 ++ optField 1 byte none
  | .loaded n => byte 3 ++ optField 1 byte (some n)

/-- The content of a notice (R171). -/
def noticeBytes : Notice → List Byte
  | .verdict m => maskField m
  | .deadline n => setField [n.card, n.chassis]
  | .claimLost m => maskField m
  | .link m => byte m.toNat
  | .fault m => maskField m
  | .wrap => []
  | .store m => byte 0 ++ maskField m

/-- The payload of a response. -/
def Payload.bytes : Payload → List Byte
  | .empty => []
  | .define o => outcomeBytes o
  | .retire d => byte d.code
  | .requalify a b => maskField a ++ maskField b
  | .test d => byte d.code
  | .stop d => byte d.code
  | .guards l => listField rangeBytes l
  | .claim r m => byte r.code ++ maskField m
  | .mask m => maskField m
  | .written n => byte n
  | .deadline v t => optField 3 timeField v ++ timeField t
  | .commit a b => maskField a ++ maskField b
  | .status r => statusBytes r
  | .fails l n free => listField failBytes l ++ byte n ++ bytesOf 2 free
  | .map l r c => listField recordBytes l ++ sparesField r ++ sparesField c
  | .queue l => listField queueEntryBytes l
  | .engines l => listField engineBytes l
  | .links l => listField linkBytes l
  | .directoryEntry d r => optField 3 directoryBytes d ++ flagByte r
  | .elements l => listField elementBytes l
  | .time t a b => timeField t ++ optField 3 timeField a ++ optField 3 timeField b
  | .notice n => optField 0 noticeBytes n
  | .noticeMask m k line => [m, k] ++ flagByte line

/-! ### Response frames (R168, section 11.5) -/

/-- A response frame: code, status, length, payload, check. -/
def responseFrame (code : Byte) (status : Status) (payload : List Byte) : List Byte :=
  let body := [code, status.code] ++ bytesOf 2 payload.length ++ payload
  body ++ crcBytes body

/-- R168: the idle frame: response code 0, status 0 and an empty payload. -/
def idleFrame : List Byte := responseFrame 0 .ok []

/-- R168: the bytes a master reads at a port: the pending response, or the idle frame while none is pending. -/
def PortState.readBytes (q : PortState) : List Byte :=
  match q.response with
  | none => idleFrame
  | some r => responseFrame r.code r.status r.payload.bytes

/-! ### Messages to the devices (section 11.5) -/

/-- The operations of a burst: 2 bits each from bit 15 down. -/
def operationsField (ops : List Operation) : Nat :=
  (List.range 8).foldl (fun n k => 4 * n + ((ops[k]?).elim 0 Operation.code)) 0

/-- A MAP_OFFER's verdict byte. -/
def OfferVerdict.code : OfferVerdict → Nat
  | .clean => 1
  | .repaired => 2
  | .abandoned => 3
  | .unrepairable => 4
  | .unknown => 5

/-- A REJECT's reason byte. -/
def RejectReason.code : RejectReason → Nat
  | .unknown => 1
  | .wrongState => 2
  | .busy => 3
  | .badRange => 4
  | .guardFull => 5

/-- A message to a device, laid out in bytes. -/
def LinkMsg.bytes : LinkMsg → List Byte
  | .burst tag m row column columns ops bg rc =>
    byte 1 ++ byte tag.val ++ byte m.val ++ bytesOf 3 row ++ bytesOf 2 column ++ byte columns ++
      byte (32 * ops.length + 16 * rc.toNat + bg.code) ++ bytesOf 2 (operationsField ops) ++ bg.offset.elim [] byte
  | .mapLoad m rs => byte 2 ++ byte m.val ++ listField recordBytes rs
  | .mapOffer m v prov rs =>
    byte 3 ++ byte m.val ++ byte v.code ++ setField [prov, rs.isSome] ++ listField recordBytes (rs.getD [])
  | .fence m => byte 4 ++ byte m.val
  | .reject m r => byte 5 ++ byte m.val ++ byte r.code

end Sys2Proof.Machine
end

