-- ==== Sys2Proof/Machine/Frames.lean ====
section
/-!
DEFINITION. The bytes the part takes (R105, R168, R169, R175, section 11.5): the checks of a request frame, the command a
frame or a device message spells, and the two commands that carry raw bytes, BAD_FRAME and MALFORMED.
-/

namespace Sys2Proof.Machine

open Sys2Proof

/-! ### Request frames -/

/-- The number at some bytes of a payload. -/
def numberAt (l : List Byte) (off n : Nat) : Nat := numberOf ((l.drop off).take n)

/-- The mask at some byte of a payload. -/
def maskAt (l : List Byte) (off : Nat) : Mask := BitVec.ofNat 64 (numberAt l off 8)

/-- Section 11.5: the request admits a payload of this length. -/
def admits (k : RequestKind) (payload : List Byte) : Bool :=
  match k with
  | .define => payload.length == 17
  | .retire | .stop | .status | .map | .takeNotice | .noticeMask => payload.length == 1
  | .requalify | .queue | .engines | .links | .time => payload.length == 0
  | .test => payload.length == 4
  | .guard | .unguard => payload.length == 7
  | .claim => payload.length == 9
  | .release | .breakClaim | .commit | .clearStore => payload.length == 8
  | .loadElements => 2 ≤ payload.length && payload.length == 2 + 16 * numberAt payload 1 1
  | .loadDirectory => 2 ≤ payload.length && payload.length == 2 + 3 * numberAt payload 1 1
  | .budget | .cap | .library => payload.length == 3
  | .fails => payload.length == 2

/-- What the checks of R169 make of a frame: a status that refuses it, or a request with its payload. -/
inductive FrameCheck where
  | refused (status : Status)
  | taken (kind : RequestKind) (payload : List Byte)
deriving DecidableEq, Repr

/-- R169: the frame's length and its check field are right. -/
def frameIntact (bs : List Byte) : Bool :=
  let n := numberAt bs 1 2
  5 ≤ bs.length && n ≤ 1024 && bs.length == n + 5 &&
    crc16 (bs.take (bs.length - 2)) == BitVec.ofNat 16 (numberAt bs (bs.length - 2) 2)

/-- R169: the four checks of a taken frame, in their order. -/
def checkFrame (bs : List Byte) : FrameCheck :=
  if !frameIntact bs then .refused .badFrame
  else
    match requestOf (bs.headD 0) with
    | none => .refused .badRequest
    | some k =>
      let payload := (bs.drop 3).take (numberAt bs 1 2)
      if admits k payload then .taken k payload else .refused .badFrame

/-- A DEFINE payload's descriptor (section 11.5). -/
def rawDescriptorOf (l : List Byte) : RawDescriptor where
  link := numberAt l 1 1
  memId := numberAt l 2 1
  kind := numberAt l 3 1
  rows := numberAt l 4 3
  columns := numberAt l 7 2
  width := numberAt l 9 1
  spareRows := numberAt l 10 1
  spareColumns := numberAt l 11 1
  defaultSequence := numberAt l 12 1
  priority := numberAt l 13 1
  verify := numberAt l 14 1
  signature := numberAt l 15 2

/-- An element record of 16 bytes (section 11.5). -/
def rawElementOf (l : List Byte) : RawElement where
  kind := numberAt l 0 1
  direction := numberAt l 1 1
  operationCount := numberAt l 2 1
  operations := ((l.drop 3).take 6).map BitVec.toNat
  background := numberAt l 9 1
  walkOffset := numberAt l 10 1
  holdTime := numberAt l 11 2
  skipSet := numberAt l 13 1
  margin := numberAt l 14 2

/-- A directory record of 3 bytes (section 11.5). -/
def rawDirectoryOf (l : List Byte) : RawDirectoryEntry := ⟨numberAt l 0 1, numberAt l 1 1, numberAt l 2 1⟩

/-- The `n` records of `k` bytes each from byte `off` of a payload. -/
def recordsAt {α : Type} (f : List Byte → α) (l : List Byte) (off k n : Nat) : List α :=
  (List.range n).map fun j => f ((l.drop (off + k * j)).take k)

/-- The command a request of kind `k` with this payload spells at port `p` (section 11.5). TEST's sequence is absent when its
presence byte is 0. -/
def requestCommand (p : Port) (k : RequestKind) (l : List Byte) : Instr :=
  let n (off len : Nat) : Nat := numberAt l off len
  match k with
  | .define => .define p (n 0 1) (rawDescriptorOf l)
  | .retire => .retire p (n 0 1)
  | .requalify => .requalify p
  | .test => .test p (n 0 1) (if n 1 1 = 0 then none else some (n 2 1)) (n 3 1)
  | .stop => .stop p (n 0 1)
  | .guard => .guard p (n 0 1) (n 1 3) (n 4 3)
  | .unguard => .unguard p (n 0 1) (n 1 3) (n 4 3)
  | .claim => .claim p (maskAt l 0) (n 8 1)
  | .release => .release p (maskAt l 0)
  | .breakClaim => .breakClaim p (maskAt l 0)
  | .loadElements => .loadElements p (n 0 1) (recordsAt rawElementOf l 2 16 (n 1 1))
  | .loadDirectory => .loadDirectory p (n 0 1) (recordsAt rawDirectoryOf l 2 3 (n 1 1))
  | .budget => .budget p (n 0 3)
  | .cap => .cap p (n 0 3)
  | .commit => .commit p (maskAt l 0)
  | .clearStore => .clearStore p (maskAt l 0)
  | .status => .status p (n 0 1)
  | .fails => .fails p (n 0 1) (n 1 1)
  | .map => .map p (n 0 1)
  | .queue => .queue p
  | .engines => .engines p
  | .links => .links p
  | .library => .library p (n 0 1) (n 1 1) (n 2 1)
  | .time => .time p
  | .takeNotice => .takeNotice p (n 0 1)
  | .noticeMask => .noticeMask p (BitVec.ofNat 8 (n 0 1))

/-- R168: on the card port, a transfer in which no byte is written, or whose first byte is 0, is a read transfer. -/
def readTransfer (p : Port) (bs : List Byte) : Bool :=
  match p with
  | .card => bs.headD 0 == 0
  | .chassis => false

/-- R168, R169: the command that the bytes written at a port spell: none for a read transfer, BAD_FRAME for a frame that the
checks refuse, else the request. -/
def frameCommand (p : Port) (bs : List Byte) : Option Instr :=
  if readTransfer p bs then none
  else
    match checkFrame bs with
    | .refused _ => some (.badFrame p bs)
    | .taken k l => some (requestCommand p k l)

/-! ### The frame of a request -/

/-- The port a request command arrives at and its request (R168); none for a command that is no request of a port. -/
def requestKindOf : Instr → Option (Port × RequestKind)
  | .define p _ _ => some (p, .define)
  | .retire p _ => some (p, .retire)
  | .requalify p => some (p, .requalify)
  | .test p _ _ _ => some (p, .test)
  | .stop p _ => some (p, .stop)
  | .guard p _ _ _ => some (p, .guard)
  | .unguard p _ _ _ => some (p, .unguard)
  | .claim p _ _ => some (p, .claim)
  | .release p _ => some (p, .release)
  | .breakClaim p _ => some (p, .breakClaim)
  | .loadElements p _ _ => some (p, .loadElements)
  | .loadDirectory p _ _ => some (p, .loadDirectory)
  | .budget p _ => some (p, .budget)
  | .cap p _ => some (p, .cap)
  | .commit p _ => some (p, .commit)
  | .clearStore p _ => some (p, .clearStore)
  | .status p _ => some (p, .status)
  | .fails p _ _ => some (p, .fails)
  | .map p _ => some (p, .map)
  | .queue p => some (p, .queue)
  | .engines p => some (p, .engines)
  | .links p => some (p, .links)
  | .library p _ _ _ => some (p, .library)
  | .time p => some (p, .time)
  | .takeNotice p _ => some (p, .takeNotice)
  | .noticeMask p _ => some (p, .noticeMask)
  | _ => none

/-- A DEFINE payload's descriptor bytes (section 11.5). -/
def rawDescriptorBytes (d : RawDescriptor) : List Byte :=
  byte d.link ++ byte d.memId ++ byte d.kind ++ bytesOf 3 d.rows ++ bytesOf 2 d.columns ++ byte d.width ++
    byte d.spareRows ++ byte d.spareColumns ++ byte d.defaultSequence ++ byte d.priority ++ byte d.verify ++
    bytesOf 2 d.signature

/-- An element record's 16 bytes (section 11.5). -/
def rawElementBytes (e : RawElement) : List Byte :=
  byte e.kind ++ byte e.direction ++ byte e.operationCount ++ e.operations.map (BitVec.ofNat 8) ++ byte e.background ++
    byte e.walkOffset ++ bytesOf 2 e.holdTime ++ byte e.skipSet ++ bytesOf 2 e.margin

/-- A directory record's 3 bytes (section 11.5). -/
def rawDirectoryBytes (d : RawDirectoryEntry) : List Byte := byte d.first ++ byte d.count ++ byte d.kindMask

/-- The payload of a request (section 11.5). -/
def payloadOf : Instr → List Byte
  | .define _ i d => byte i ++ rawDescriptorBytes d
  | .retire _ i => byte i
  | .test _ i q u => byte i ++ optField 1 byte q ++ byte u
  | .stop _ i => byte i
  | .guard _ i a b => byte i ++ bytesOf 3 a ++ bytesOf 3 b
  | .unguard _ i a b => byte i ++ bytesOf 3 a ++ bytesOf 3 b
  | .claim _ m mode => maskField m ++ byte mode
  | .release _ m => maskField m
  | .breakClaim _ m => maskField m
  | .loadElements _ a rs => byte a ++ byte rs.length ++ rs.flatMap rawElementBytes
  | .loadDirectory _ a rs => byte a ++ byte rs.length ++ rs.flatMap rawDirectoryBytes
  | .budget _ d => bytesOf 3 d
  | .cap _ d => bytesOf 3 d
  | .commit _ m => maskField m
  | .clearStore _ m => maskField m
  | .status _ i => byte i
  | .fails _ i a => byte i ++ byte a
  | .map _ i => byte i
  | .library _ a b c => byte a ++ byte b ++ byte c
  | .takeNotice _ k => byte k
  | .noticeMask _ m => [m]
  | _ => []

/-- A request frame (section 11.5): request code, length, payload, check. -/
def requestFrame (k : RequestKind) (payload : List Byte) : List Byte :=
  let body := [k.code] ++ bytesOf 2 payload.length ++ payload
  body ++ crcBytes body

/-! ### BAD_FRAME -/

/-- R169: a refused frame is answered under its request code as received, which is 0 when it holds no byte. -/
def State.refuseFrame (s : State) (p : Port) (bs : List Byte) (st : Status) : State :=
  s.modPort p fun q => { q with response := some ⟨bs.headD 0, st, .empty⟩ }

/-- BAD_FRAME (R169): the frame is answered with the status of the check it fails, and nothing is acted on; no event for a
read transfer or for a frame that passes the checks. -/
def execBadFrame (p : Port) (bs : List Byte) (s : State) : Host.Outcome State Fault Refusal :=
  .next <|
    if readTransfer p bs then s
    else
      match checkFrame bs with
      | .refused st => s.refuseFrame p bs st
      | .taken _ _ => s

/-! ### Messages of the devices (R175) -/

/-- The bits of some bytes, each byte's bit 7 first. -/
def bitsOf (l : List Byte) : List Bool := l.flatMap fun b => [7, 6, 5, 4, 3, 2, 1, 0].map b.getLsbD

/-- The bytes of a mismatch vector of `w` bits. -/
def vectorBytes (w : Nat) : Nat := (w + 7) / 8

/-- R175: the mismatch vector of `w` bits that some bytes spell, none when an unused bit is set. -/
def vectorOf (w : Nat) (l : List Byte) : Option (List Bool) :=
  let bits := bitsOf l
  if (bits.drop w).any id then none else some (bits.take w)

/-- The entry of a RESULT's list that some bytes spell, for a burst with this read-check flag and width. -/
def mismatchOf (readCheck : Bool) (w : Nat) (l : List Byte) : Option Mismatch :=
  if readCheck then some ⟨numberAt l 0 2, none⟩ else (vectorOf w (l.drop 2)).map fun v => ⟨numberAt l 0 2, some v⟩

/-- The bytes of one entry of a RESULT's list. -/
def mismatchBytes (readCheck : Bool) (w : Nat) : Nat := if readCheck then 2 else 2 + vectorBytes w

/-- The entries of a RESULT, none when its length or an unused bit is wrong. -/
def mismatchesOf (readCheck : Bool) (w : Nat) (l : List Byte) : Option (List Mismatch) :=
  let m := numberAt l 3 1
  let k := mismatchBytes readCheck w
  if m ≤ 64 ∧ l.length = 4 + k * m then
    (List.range m).mapM fun j => mismatchOf readCheck w ((l.drop (4 + k * j)).take k)
  else none

/-- The outcome a byte codes: PASS 0, FAIL 1. -/
def outcomeOf (n : Nat) : Option ResultOutcome :=
  match n with
  | 0 => some .pass
  | 1 => some .fail
  | _ => none

/-- A RESULT's command on link `l`, read against the burst its tag names; none when it is malformed. -/
def State.resultCommand (s : State) (l : Fin 4) (bs : List Byte) : Option Instr :=
  if h : numberAt bs 1 1 < 8 then
    match outcomeOf (numberAt bs 2 1), s.resultBurst l ⟨numberAt bs 1 1, h⟩ with
    | some o, some (_, _, d, b) =>
      (mismatchesOf b.readCheck d.width bs).map fun ms => .result l ⟨numberAt bs 1 1, h⟩ o ms
    | _, _ => none
  else none

/-- The memory id of a message. -/
def memIdAt (bs : List Byte) : Fin 256 := (bs.getD 1 0).toFin

/-- R175: the command that a device message of link `l` spells; none when it cannot be parsed. -/
def State.deviceCommand (s : State) (l : Fin 4) (bs : List Byte) : Option Instr :=
  match numberAt bs 0 1, bs.length with
  | 17, n => if 4 ≤ n then s.resultCommand l bs else none
  | 18, 2 => some (.loadDone l (memIdAt bs))
  | 19, 1 => some (.ready l)
  | 20, 1 => some (.resetNotice l)
  | 21, 2 => some (.pull l (memIdAt bs))
  | 22, 2 => some (.inService l (memIdAt bs))
  | 23, 2 => some (.outOfService l (memIdAt bs))
  | 24, 9 =>
    if numberAt bs 8 1 ≤ 1 then
      some (.deviceGuard l (memIdAt bs) (numberAt bs 2 3) (numberAt bs 5 3) (numberAt bs 8 1 == 1))
    else none
  | _, _ => none

/-- R105: the bytes taken on the UP link `l` are no message it can take: they do not parse, or are a RESULT that fails R103 or a
LOAD_DONE that matches no load. -/
def State.isMalformed (s : State) (l : Fin 4) (bs : List Byte) : Bool :=
  match s.deviceCommand l bs with
  | none => true
  | some (.result _ tag o ms) => !s.resultWellFormed l tag o ms
  | some (.loadDone _ m) => (s.loadFor l m).isNone
  | some _ => false

/-- MALFORMED (R105): the link goes DOWN MALFORMED; discarded on a DOWN link (R100); no event for bytes that are a message the
link can take. -/
def execMalformed (l : Fin 4) (bs : List Byte) (s : State) : Host.Outcome State Fault Refusal :=
  .next (if s.linkUp l && s.isMalformed l bs then s.linkDown l .malformed else s)

end Sys2Proof.Machine
end

