-- ==== Sys2Proof/Machine/LifeCycle.lean ====
section
/-!
DEFINITION. The requests that act on an instance as a whole (R12 to R22): DEFINE, RETIRE and REQUALIFY.
-/

namespace Sys2Proof.Machine

open Sys2Proof

namespace State

/-! ### DEFINE (R12 to R14) -/

/-- R3: another defined instance has the descriptor's link and memory id. -/
def duplicatePair (s : State) (i : Fin 64) (d : Descriptor) : Bool :=
  allInsts.any fun j =>
    j != i && (s.entry j).state != .vacant && (s.entry j).descriptor.any fun x => x.link == d.link && x.memId == d.memId

/-- R12: the checks of DEFINE from the fourth on: the descriptor it is taken with, or the status that refuses it. -/
def defineCheck (s : State) (i : Fin 64) (raw : RawDescriptor) : Except Status Descriptor :=
  if (s.entry i).state.busy then .error .busy
  else if (s.entry i).live then .error .live
  else
    match checkDescriptor raw with
    | none => .error .badRange
    | some d =>
      if !s.sequenceFits d.defaultSequence d.kind then .error .badSequence
      else if s.duplicatePair i d then .error .badRange
      else .ok d

/-- R13, R114: a pending pull of instance `i` whose link or memory id the descriptor `d` changes is removed and answered with
MAP_OFFER UNKNOWN on the link it stood on. -/
def dropRenamedPull (s : State) (i : Fin 64) (d : Descriptor) : State :=
  match (s.entry i).descriptor with
  | none => s
  | some old =>
    if (s.link old.link).pulls.contains i && !(old.link == d.link && old.memId == d.memId) then
      (s.send old.link (.mapOffer old.memId .unknown false none)).modLink old.link fun k =>
        { k with pulls := k.pulls.filter (· != i) }
    else s

/-- R13: what an accepted DEFINE makes of instance `i`. -/
def define (s : State) (i : Fin 64) (d : Descriptor) : State :=
  ((s.dropRenamedPull i d).emptyLog i).modEntry i fun e =>
    { e.cleared d (s.storeSection i) with descriptor := some d, state := .defined, followUp := none, absorbed := 0 }

/-- DEFINE on instance `i` by its owner (R12): the OK response carries the store outcome (R14). -/
def defineRequest (s : State) (p : Port) (raw : RawDescriptor) (i : Fin 64) : State :=
  match s.defineCheck i raw with
  | .error st => s.refuse p .define st
  | .ok d => (s.define i d).ok p .define (.define (storeOutcome (s.storeSection i) d))

/-! ### RETIRE (R17 to R19) -/

/-- R18: what an accepted RETIRE does to instance `i` by its state; RUNNING drains, every other state is RETIRED at once. -/
def retire (s : State) (i : Fin 64) : State :=
  let t := s.modEntry i fun e => { e with followUp := none, live := false }
  match (s.entry i).state with
  | .running =>
    match s.engineOf i with
    | none => t
    | some e => t.drainFor e .retire
  | .suspended => ((t.detach i).becomeRetired i).turnSuspender (s.entry i).suspending
  | _ => (t.detach i).becomeRetired i

/-- R17: the disposition: RETIRED when the instance became RETIRED at acceptance, DRAINING when an engine must drain. -/
def retireDisposition (s : State) (i : Fin 64) : RetireDisposition :=
  if (s.entry i).state = .retired then .retired else .draining

/-- R17: RETIRE after the index and ownership checks. -/
def retireRequest (s : State) (p : Port) (i : Fin 64) : State :=
  if (s.entry i).state = .vacant then s.refuse p .retire .noDescriptor
  else if p = .card ∧ (s.entry i).live then s.refuse p .retire .live
  else (s.retire i).ok p .retire (.retire ((s.retire i).retireDisposition i))

/-! ### REQUALIFY (R20 to R22) -/

/-- R20: the RUNNING instance `i` is being drained for RETIRE. -/
def retiring (s : State) (i : Fin 64) : Bool :=
  (s.entry i).state == .running && (s.engineOf i).any fun e => s.drainingFor e .retire

/-- R20: REQUALIFY acts on instance `i`: not VACANT, not RETIRED, not being drained for RETIRE, and not live. -/
def requalifies (s : State) (i : Fin 64) : Bool :=
  (s.entry i).state != .vacant && (s.entry i).state != .retired && !(s.entry i).live && !s.retiring i

/-- R21: what REQUALIFY does to instance `i`. The engines it affects turn when every instance has been acted on. -/
def requalifyInst (s : State) (i : Fin 64) : State :=
  let t := s.dropFollowUp i
  match (s.entry i).state with
  | .running =>
    match s.engineOf i with
    | none => t
    | some e => (t.saveSection e i).drainAmong e .requalify
  | _ => (t.detach i).requalifyReset i (s.storeSection i)

/-- R20, R21: REQUALIFY acts on every instance that it requalifies, as they stand when it is taken. -/
def requalifyAll (s : State) : State :=
  (allInsts.foldl (fun t i => if s.requalifies i then t.requalifyInst i else t) s).turnAll

end State

/-- DEFINE (R12). -/
def execDefine (p : Port) (inst : Nat) (raw : RawDescriptor) (s : State) : Host.Outcome State Fault Refusal :=
  .next (s.gatePort .card p .define (s.gateOwned p .define inst (s.defineRequest p raw)))

/-- RETIRE (R17): from the card port it needs ownership, from the chassis port it does not. -/
def execRetire (p : Port) (inst : Nat) (s : State) : Host.Outcome State Fault Refusal :=
  .next <|
    match p with
    | .card => s.gateOwned .card .retire inst (s.retireRequest .card)
    | .chassis => s.gateIndex .chassis .retire inst (s.retireRequest .chassis)

/-- REQUALIFY (R20): the response carries the requalified mask, and the skipped mask of the live instances passed over. -/
def execRequalify (p : Port) (s : State) : Host.Outcome State Fault Refusal :=
  .next <|
    s.gatePort .chassis p .requalify <|
      s.requalifyAll.ok p .requalify (.requalify (maskOf s.requalifies) (maskOf fun i => (s.entry i).live))

end Sys2Proof.Machine
end

