-- ==== Sys2Proof/Machine/Store.lean ====
section
/-!
DEFINITION. The Repair Store's operation (R161 to R167): COMMIT, CLEAR_STORE, the ends of their section writes, and what a part
reset leaves of the store.
-/

namespace Sys2Proof.Machine

open Sys2Proof

/-- R163: instance in a state that COMMIT snapshots. -/
def committable (e : Entry) : Bool := e.state == .clean || e.state == .repaired

/-- R163: the snapshot of an entry: its descriptor's signature and each map record's kind, line and spare, in map order. -/
def snapshot (e : Entry) : StoredMap :=
  ⟨e.descriptor.elim 0 Descriptor.signature, e.repairMap.map fun r => ⟨r.kind, r.line, r.spare⟩⟩

namespace State

/-- R164, R165: a store operation completes: it is idle, and a STORE notice with the failed mask is raised on both ports. -/
def completeStore (s : State) (failed : Mask) : State :=
  { s with storeOp := none }.raiseBoth (.store failed)

/-- R163, R165: a store operation starts writing a list of sections; with nothing to write it completes at once. -/
def startStore (s : State) (k : StoreOpKind) (writes : List SectionWrite) : State :=
  match writes with
  | [] => s.completeStore 0
  | w :: t => { s with storeOp := some ⟨k, w, t, 0⟩ }

/-- The sections of a mask in ascending number, each with what it is written with (R163, R165). -/
def sectionWrites (m : Mask) (content : Fin 64 → Option StoredMap) : List SectionWrite :=
  (allInsts.filter (inMask m)).map fun i => ⟨i, content i⟩

/-- R164, R165: what the section being written holds at the end of its write, by whether it read back as written. -/
def writtenSection (w : SectionWrite) (verified : Bool) : StoreSection := ⟨w.content, verified⟩

/-- R164, R165: the end of a section's write: a section that fails its read-back joins the failed mask; the next write
begins, or the operation completes. -/
def endWrite (s : State) (op : StoreOp) (verified : Bool) : State :=
  let t := s.setSection op.writing.index (writtenSection op.writing verified)
  let failed := if verified then op.failed else op.failed ||| maskBit op.writing.index
  match op.todo with
  | [] => t.completeStore failed
  | w :: rest => { t with storeOp := some { op with writing := w, todo := rest, failed := failed } }

/-- R164, R165: the end of the write of an operation of kind `k`, when one is in progress. -/
def endWriteOf (s : State) (k : StoreOpKind) (verified : Bool) : State :=
  match s.storeOp with
  | none => s
  | some op => if op.kind = k then s.endWrite op verified else s

/-- R167: the sections that a part reset leaves: the one being written is check-failed. -/
def sectionsAfterReset (s : State) : Vector StoreSection 64 :=
  match s.storeOp with
  | none => s.sections
  | some op => (s.setSection op.writing.index { s.storeSection op.writing.index with intact := false }).sections

end State

/-- COMMIT (R163): the committed mask lists the snapshot, the skipped mask the other masked instances. -/
def execCommit (p : Port) (mask : Mask) (s : State) : Host.Outcome State Fault Refusal :=
  .next <|
    if mask = 0 then s.refuse p .commit .badRange
    else if !allInsts.all fun i => !inMask mask i || s.owns p i then s.refuse p .commit .notOwner
    else if s.storeOp.isSome then s.refuse p .commit .storeBusy
    else
      let committed := maskOf fun i => inMask mask i && committable (s.entry i)
      let skipped := maskOf fun i => inMask mask i && !committable (s.entry i)
      (s.startStore .commit (State.sectionWrites committed fun i => some (snapshot (s.entry i)))).ok p .commit
        (.commit committed skipped)

/-- CLEAR_STORE (R165). -/
def execClearStore (p : Port) (mask : Mask) (s : State) : Host.Outcome State Fault Refusal :=
  .next <|
    s.gatePort .chassis p .clearStore <|
      if mask = 0 then s.refuse p .clearStore .badRange
      else if s.storeOp.isSome then s.refuse p .clearStore .storeBusy
      else (s.startStore .clear (State.sectionWrites mask fun _ => none)).ok p .clearStore (.mask mask)

/-- COMMIT_WRITE_END (R164): `verified` says that the section read back with its check verified; no event without a commit in
progress. -/
def execCommitWriteEnd (verified : Bool) (s : State) : Host.Outcome State Fault Refusal :=
  .next (s.endWriteOf .commit verified)

/-- CLEAR_WRITE_END (R165): `verified` says that the section read back as EMPTY; no event without a clear in progress. -/
def execClearWriteEnd (verified : Bool) (s : State) : Host.Outcome State Fault Refusal :=
  .next (s.endWriteOf .clear verified)

end Sys2Proof.Machine
end

