-- ==== Sys2Proof/Machine/Ports.lean ====
section
/-!
DEFINITION. The ports' own commands (R168 to R174): the STATUS, FAILS and LINKS reads, TAKE_NOTICE, NOTICE_MASK, and the part
reset.
-/

namespace Sys2Proof.Machine

open Sys2Proof

/-! ### Reads (R170) -/

/-- R7, R81, R170: the run context a STATUS reports: a RUNNING instance's position is its engine's working copy. -/
def State.reportedRun (s : State) (i : Fin 64) : RunContext :=
  let e := s.entry i
  match e.state with
  | .running =>
    match (s.engineOf i).bind fun n => (s.engine n).position with
    | some p => { e.run with position := p }
    | none => e.run
  | _ => e.run

/-- R148: the verdict reason a STATUS read shows: that of the settled job while the follow-up taken at its settling waits for its first
dispatch, else the entry's (R6; the reading of the two rules together: notes/assumptions/27.md). -/
def Entry.shownReason (e : Entry) : VerdictReason := if e.state = .queued ∧ e.run.runCount = 0 then e.settledReason else e.reason

/-- R170: every field of the entry but the fail log and the map. -/
def State.statusReport (s : State) (i : Fin 64) : StatusReport :=
  let e := s.entry i
  { descriptor := e.descriptor
    state := e.state
    owner := e.owner
    live := e.live
    flags := e.flags
    reason := e.shownReason
    run := s.reportedRun i
    followUp := e.followUp
    absorbed := e.absorbed
    startStamp := e.startStamp
    endStamp := e.endStamp
    rowSpares := e.rowSpares
    columnSpares := e.columnSpares
    guards := e.guards
    suspending := e.suspending }

/-- STATUS (R170). -/
def execStatus (p : Port) (inst : Nat) (s : State) : Host.Outcome State Fault Refusal :=
  .next (s.gateIndex p .status inst fun i => s.ok p .status (.status (s.statusReport i)))

/-- R118: the number of fail records one FAILS read reports. -/
def failsPage : Nat := 8

/-- FAILS (R118): up to 8 records in log order from the start position, the log's total and the pool's free count. -/
def execFails (p : Port) (inst start : Nat) (s : State) : Host.Outcome State Fault Refusal :=
  .next <|
    s.gateIndex p .fails inst fun i =>
      let log := (s.entry i).failLog
      s.ok p .fails (.fails ((log.drop start).take failsPage) log.length s.poolFree)

/-- R98: what a LINKS read reports of one link. -/
def linkReport (k : Link) : LinkReport := ⟨k.down, k.tags.length, k.slots.length, k.pulls⟩

/-- LINKS (R98). -/
def execLinks (p : Port) (s : State) : Host.Outcome State Fault Refusal :=
  .next (s.ok p .links (.links (allLinks.map fun l => linkReport (s.link l))))

/-! ### Notices (R172, R173) -/

/-- R172: the notice of kind `k` leaves port `p`'s set. -/
def State.removeNotice (s : State) (p : Port) (k : NoticeKind) : State :=
  s.modPort p fun q => { q with notices := q.notices.remove k }

/-- TAKE_NOTICE (R172). -/
def execTakeNotice (p : Port) (kind : Nat) (s : State) : Host.Outcome State Fault Refusal :=
  .next <|
    match noticeKindOf kind with
    | none => s.refuse p .takeNotice .badRange
    | some k => (s.removeNotice p k).ok p .takeNotice (.notice ((s.port p).notices.get k))

/-- Section 11.5: bit 0 of a notice mask is ignored (notes/assumptions/18.md). -/
def noticeMaskBits (m : Byte) : Byte := m &&& 254

/-- NOTICE_MASK (R173): the port's mask is replaced whole; the response shows it, the kinds present and the line. -/
def execNoticeMask (p : Port) (mask : Byte) (s : State) : Host.Outcome State Fault Refusal :=
  let q : PortState := { s.port p with mask := noticeMaskBits mask }
  .next ((s.setPort p q).ok p .noticeMask (.noticeMask q.mask q.notices.kinds q.line))

/-! ### Part reset -/

/-- PART_RESET (R23, R56, R98, R149, R167, R174): every value that the chapters give for a part reset; the store keeps its
sections but the one being written, and the chassis port samples its address pins. -/
def execPartReset (pins : Fin 4) (s : State) : Host.Outcome State Fault Refusal :=
  .next
    { State.reset with
      sections := s.sectionsAfterReset
      chassisAddress := Config.chassisAddressBase + BitVec.ofNat 7 pins.val
      pending := s.pending }

end Sys2Proof.Machine
end

