-- ==== Sys2Proof/Machine/Queue.lean ====
section
/-!
DEFINITION. The Work Queue (R57 to R66), TEST and STOP, the Dispatch Arbiter (R67 to R72), the resume (R73), and the wake of a
parked run (R76).
-/

namespace Sys2Proof.Machine

open Sys2Proof

/-! ### Dispatch order (R65) -/

/-- R65: the classes in dispatch order. -/
def EntryClass.rank : EntryClass → Nat
  | .wake => 0
  | .urgent => 1
  | .verify => 2
  | .normal => 3

namespace State

/-- The priority class of an instance (R2); 0 is highest. -/
def priorityOf (s : State) (i : Fin 64) : Nat := (s.entry i).descriptor.elim 0 Descriptor.priority

/-- R65: the priority class an entry is ranked by: NORMAL entries alone are. -/
def entryPriority (s : State) (q : QueueEntry) : Nat := if q.cls = .normal then s.priorityOf q.inst else 0

/-- R65: entry `a` goes before entry `b`: by class, priority class (NORMAL), the greater age, the lower index. -/
def ranksBefore (s : State) (a b : QueueEntry) : Bool :=
  if a.cls.rank ≠ b.cls.rank then a.cls.rank < b.cls.rank
  else if s.entryPriority a ≠ s.entryPriority b then s.entryPriority a < s.entryPriority b
  else if age s.now a.arrival ≠ age s.now b.arrival then age s.now b.arrival < age s.now a.arrival
  else a.inst ≤ b.inst

/-- Put an entry into a list in dispatch order. -/
def insertRanked (s : State) (q : QueueEntry) : List QueueEntry → List QueueEntry
  | [] => [q]
  | h :: t => if s.ranksBefore q h then q :: h :: t else h :: s.insertRanked q t

/-- R65: the Work Queue's entries in dispatch order. -/
def dispatchOrder (s : State) : List QueueEntry := s.workQueue.foldr s.insertRanked []

/-! ### The Dispatch Arbiter (R66 to R70) -/

/-- R66: an entry is eligible: not reserved, and its link has a free test slot. -/
def eligible (s : State) (q : QueueEntry) : Bool := q.reserved.isNone && (s.linkOf q.inst).any s.slotFree

/-- R66: the best eligible entry. -/
def bestEligible (s : State) : Option QueueEntry := s.dispatchOrder.find? s.eligible

/-- R66: an engine is free: IDLE with an empty Resume Stack. -/
def engineFree (s : State) (e : Fin 6) : Bool := (s.engine e).state == .idle && (s.engine e).stack.isEmpty

/-- The lowest-numbered free engine (R67). -/
def freeEngine (s : State) : Option (Fin 6) := allEngines.find? s.engineFree

/-- R69: engine `e` is a candidate: LOADING or WALKING, preemptible, its Resume Stack not full. -/
def candidate (s : State) (e : Fin 6) : Bool :=
  ((s.engine e).state == .loading || (s.engine e).state == .walking) && (s.engine e).preemptible &&
    (s.engine e).stack.length < Config.stackDepth

/-- The link of engine `e`'s current instance. -/
def engineLink (s : State) (e : Fin 6) : Option (Fin 4) := (s.engine e).current.bind s.linkOf

/-- R69: the candidates that count for an entry: on every link when its link has a free slot, else those on its own link. -/
def countedFor (s : State) (q : QueueEntry) : List (Fin 6) :=
  allEngines.filter fun e => s.candidate e && ((s.linkOf q.inst).any s.slotFree || s.engineLink e == s.linkOf q.inst)

/-- R69: the URGENT entry that preemption acts for: the first in dispatch order, not reserved, with a counted candidate. -/
def preemptingEntry (s : State) : Option QueueEntry :=
  s.dispatchOrder.find? fun q => q.cls == .urgent && q.reserved.isNone && !(s.countedFor q).isEmpty

/-- The priority class of engine `e`'s current instance (R70). -/
def enginePriority (s : State) (e : Fin 6) : Nat := (s.engine e).current.elim 0 s.priorityOf

/-- The age of engine `e`'s dispatch stamp (R70). -/
def engineAge (s : State) (e : Fin 6) : Nat := (s.engine e).dispatchStamp.elim 0 (age s.now)

/-- R70: engine `a` is chosen before engine `b`: worst priority class, then smallest age, then highest number. -/
def chosenBefore (s : State) (a b : Fin 6) : Bool :=
  if s.enginePriority a ≠ s.enginePriority b then s.enginePriority b < s.enginePriority a
  else if s.engineAge a ≠ s.engineAge b then s.engineAge a < s.engineAge b
  else b ≤ a

/-- R70: the victim among some engines. -/
def victimAmong (s : State) : List (Fin 6) → Option (Fin 6)
  | [] => none
  | e :: es =>
    match s.victimAmong es with
    | none => some e
    | some v => if s.chosenBefore e v then some e else some v

/-- R70: the entry of instance `i` is reserved for engine `v`, and takes a slot if its link has a free one. -/
def reserve (s : State) (i : Fin 64) (v : Fin 6) : State :=
  let t : State :=
    { s with workQueue := s.workQueue.map fun q => if q.inst = i then { q with reserved := some v } else q }
  if (s.linkOf i).any s.slotFree then t.reserveSlot i else t

/-! ### TEST (R59 to R63) -/

/-- R62: a TEST merges into the queued entry of instance `i`. -/
def mergeTest (s : State) (i : Fin 64) (q : Fin 32) (u : Urgency) : State :=
  let t : State :=
    { s with
      workQueue := s.workQueue.map fun x =>
        if x.inst = i then { x with sequence := q, cls := if u = .urgent then .urgent else x.cls } else x }
  t.modEntry i fun e =>
    { e with run := { e.run with jobSequence := some q }, absorbed := countUp e.absorbed }

/-- R63: a TEST is placed in the follow-up slot. -/
def placeFollowUp (s : State) (i : Fin 64) (f : FollowUp) : State :=
  s.modEntry i fun e => { e with followUp := some f, absorbed := countUp e.absorbed }

/-- R60: the queued instance `i` has a NORMAL or URGENT entry, into which a TEST merges. -/
def mergeable (s : State) (i : Fin 64) : Bool :=
  (s.queueEntry i).any fun q => q.cls == .normal || q.cls == .urgent

/-- R60: the disposition of an accepted TEST. -/
def testDisposition (s : State) (i : Fin 64) : TestDisposition :=
  match (s.entry i).state with
  | .queued => if s.mergeable i then .merged else .followUp
  | .running | .suspended | .parked | .analysing => .followUp
  | _ => .queued

/-- R60: an accepted TEST is disposed of. -/
def acceptTest (s : State) (p : Port) (i : Fin 64) (q : Fin 32) (u : Urgency) : State :=
  match s.testDisposition i with
  | .queued => s.newJob i q u (portRequester p)
  | .merged => s.mergeTest i q u
  | .followUp => s.placeFollowUp i ⟨q, u, p⟩

/-- R59: the checks of TEST from the third on: the sequence and urgency it is taken with, or the status that refuses it. -/
def testCheck (s : State) (i : Fin 64) (named : Option Nat) (urgency : Nat) : Except Status (Fin 32 × Urgency) :=
  let e := s.entry i
  match e.descriptor with
  | none => .error .noDescriptor
  | some d =>
    if e.state = .vacant then .error .noDescriptor
    else if e.state = .retired ∨ e.state = .faulted then .error .wrongState
    else if e.live then .error .live
    else
      match urgencyOf urgency with
      | none => .error .badRange
      | some u =>
        match s.chooseSequence d named with
        | .error st => .error st
        | .ok q => if s.linkUp d.link then .ok (q, u) else .error .linkDown

/-- TEST on instance `i` by its owner (R59). -/
def testRequest (s : State) (p : Port) (named : Option Nat) (urgency : Nat) (i : Fin 64) : State :=
  match s.testCheck i named urgency with
  | .error st => s.refuse p .test st
  | .ok (q, u) => (s.acceptTest p i q u).ok p .test (.test (s.testDisposition i))

/-! ### STOP (R77) -/

/-- R77: what STOP does to the RUNNING instance `i`: its engine drains, or keeps its drain's reason. -/
def stopRunning (s : State) (i : Fin 64) : State :=
  match s.engineOf i with
  | none => s
  | some e => s.drainFor e (.cut .stop)

/-- STOP on instance `i` by its owner (R77): the follow-up slot is emptied, and then as the state says. -/
def stopRequest (s : State) (p : Port) (i : Fin 64) : State :=
  let t := s.dropFollowUp i
  match (s.entry i).state with
  | .vacant => s.refuse p .stop .noDescriptor
  | .defined | .faulted | .clean | .repaired | .abandoned | .unrepairable | .retired => s.refuse p .stop .wrongState
  | .queued | .parked => (t.cutShort i .stop).ok p .stop (.stop .cutShort)
  | .suspended => ((t.cutShort i .stop).turnSuspender (s.entry i).suspending).ok p .stop (.stop .cutShort)
  | .running => (t.stopRunning i).ok p .stop (.stop .draining)
  | .analysing => t.ok p .stop (.stop .followUpCleared)

/-! ### Wakes (R76) -/

/-- R76: instance `i`'s wake is due: the Time Base has reached its wake time. -/
def wakeDue (s : State) (i : Fin 64) : Bool := s.parking.any fun p => p.inst == i && p.wake == s.now

/-- R76: instance `i` wakes, when its wake is due: a WAKE entry joins the Work Queue, its arrival stamp the wake time. -/
def wake (s : State) (i : Fin 64) : State :=
  if s.wakeDue i then
    ((s.leaveParking i).modEntry i fun e => { e with state := .queued }).enqueue i
      ((s.entry i).run.jobSequence.getD 0) .wake .part s.now
  else s

end State

/-! ### The commands -/

/-- TEST (R59). -/
def execTest (p : Port) (inst : Nat) (named : Option Nat) (urgency : Nat) (s : State) :
    Host.Outcome State Fault Refusal :=
  .next (s.gateOwned p .test inst (s.testRequest p named urgency))

/-- STOP (R77). -/
def execStop (p : Port) (inst : Nat) (s : State) : Host.Outcome State Fault Refusal :=
  .next (s.gateOwned p .stop inst (s.stopRequest p))

/-- QUEUE (R57): every Work Queue entry, in dispatch order. -/
def execQueue (p : Port) (s : State) : Host.Outcome State Fault Refusal :=
  .next (s.ok p .queue (.queue s.dispatchOrder))

/-- WAKE (R76); no event when the wake time is not reached. -/
def execWake (i : Fin 64) (s : State) : Host.Outcome State Fault Refusal := .next (s.wake i)

/-- DISPATCH (R67): the best eligible entry to the lowest-numbered free engine; no event unless both exist. -/
def execDispatch (s : State) : Host.Outcome State Fault Refusal :=
  .next <|
    match s.freeEngine, s.bestEligible with
    | some e, some q => State.settle e (s.dispatchRun e q)
    | _, _ => s

/-- PREEMPTION (R69, R70): with no engine free, the first URGENT entry with a counted candidate is reserved for the victim,
which drains with reason PREEMPT; no event otherwise. -/
def execPreemption (s : State) : Host.Outcome State Fault Refusal :=
  .next <|
    match s.freeEngine, s.preemptingEntry with
    | none, some q =>
      match s.victimAmong (s.countedFor q) with
      | some v => (s.reserve q.inst v).drainFor v .preempt
      | none => s
    | _, _ => s

/-- RESUME (R68, R73): engine `e`, in WAITING_SLOT, is granted a slot on the link it waits for and resumes the top instance of
its Resume Stack; no event while the slot arbiter has none for it. -/
def execResume (e : Fin 6) (s : State) : Host.Outcome State Fault Refusal :=
  .next <|
    if (s.engine e).state = .waitingSlot ∧ (s.engine e).waitingLink.any (s.slotGranted e) then
      match (s.engine e).stack with
      | [] => s
      | i :: _ => State.settle e (s.resumeRun e i)
    else s

end Sys2Proof.Machine
end

