-- ==== Sys2Proof/Machine/TimeBase.lean ====
section
/-!
DEFINITION. The Time Base and the two deadlines (R149 to R160): BUDGET, CAP, the TIME read, the expiry, and the counter's
advance and wrap.
-/

namespace Sys2Proof.Machine

open Sys2Proof

namespace State

/-! ### BUDGET and CAP (R152) -/

/-- R152: a compare is armed, re-armed or disarmed by a duration, which is at most 600,000. -/
def armRequest (s : State) (p : Port) (k : RequestKind) (d : DeadlineName) (duration : Nat) : State :=
  if Config.maxDuration < duration then s.refuse p k .badRange
  else
    let v := if duration = 0 then none else some (s.now + BitVec.ofNat 24 duration)
    (s.setDeadline d v).ok p k (.deadline v s.now)

/-! ### Expiry (R154 to R158) -/

/-- The names of a DEADLINE notice for one deadline (R154). -/
def deadlineNames : DeadlineName → DeadlineNames
  | .card => ⟨true, false⟩
  | .chassis => ⟨false, true⟩

/-- R154, R155: what an expiry does to instance `i`. The engines it affects turn when every instance has been acted on. -/
def expireInst (s : State) (i : Fin 64) : State :=
  match (s.entry i).state with
  | .defined | .queued | .suspended | .parked => s.cutShort i .deadline
  | .running =>
    match s.engineOf i with
    | none => s.dropFollowUp i
    | some e => (s.dropFollowUp i).drainAmong e (.cut .deadline)
  | _ => s

/-- R154: the expiry of a deadline: disarmed, announced on both ports, and every instance in DEFINED, QUEUED, RUNNING,
SUSPENDED or PARKED cut short, in ascending index order. -/
def expire (s : State) (d : DeadlineName) : State :=
  let t := (s.setDeadline d none).raiseBoth (.deadline (deadlineNames d))
  (allInsts.foldl (fun u i => u.expireInst i) t).turnAll

/-- R154: a deadline is due: its compare is armed and the Time Base has reached its value. -/
def deadlineDue (s : State) (d : DeadlineName) : Bool := s.deadline d == some s.now

/-- A deadline's expiry, when it is due (R154). -/
def expiry (s : State) (d : DeadlineName) : State := if s.deadlineDue d then s.expire d else s

/-! ### The counter (R149, R150) -/

/-- R150: every compare that is due and has not been taken falls due before the counter moves on: the deadlines, the wakes in
instance order, the bursts and then the loads in link order (notes/assumptions/6.md). -/
def takeDue (s : State) : State :=
  let deadlines := (s.expiry .card).expiry .chassis
  let wakes := allInsts.foldl wake deadlines
  allLinks.foldl loadTimeout (allLinks.foldl burstTimeout wakes)

/-- R149: the counter moves on by 1, modulo 16,777,216. -/
def tick (s : State) : State := { s with now := s.now + 1 }

end State

/-- R149: the counter's last value. -/
def lastTime : Time := 16777215

/-- BUDGET (R152). -/
def execBudget (p : Port) (duration : Nat) (s : State) : Host.Outcome State Fault Refusal :=
  .next (s.gatePort .card p .budget (s.armRequest p .budget .card duration))

/-- CAP (R152). -/
def execCap (p : Port) (duration : Nat) (s : State) : Host.Outcome State Fault Refusal :=
  .next (s.gatePort .chassis p .cap (s.armRequest p .cap .chassis duration))

/-- TIME (R151). -/
def execTime (p : Port) (s : State) : Host.Outcome State Fault Refusal :=
  .next (s.ok p .time (.time s.now s.cardDeadline s.chassisDeadline))

/-- DEADLINE_EXPIRY (R154); no event while the deadline is disarmed or not reached. -/
def execDeadlineExpiry (d : DeadlineName) (s : State) : Host.Outcome State Fault Refusal := .next (s.expiry d)

/-- TIME_BASE_ADVANCE (R149): the counter advances by 1 below its wrap value, after every compare due at the present value;
at the wrap value the advance is the row WRAP. -/
def execTimeBaseAdvance (s : State) : Host.Outcome State Fault Refusal :=
  .next (if s.now = lastTime then s else s.takeDue.tick)

/-- WRAP (R149): the counter advances from 16,777,215 to 0, after every compare due at 16,777,215, and a WRAP notice is
raised on both ports; no event at another value. -/
def execWrap (s : State) : Host.Outcome State Fault Refusal :=
  .next (if s.now = lastTime then s.takeDue.tick.raiseBoth .wrap else s)

end Sys2Proof.Machine
end

