-- ==== Sys2Proof/Machine/Dispatch.lean ====
section
/-!
DEFINITION. Every command of the opcode table and the meaning it is given, one arm a constructor.
-/

namespace Sys2Proof.Machine

open Sys2Proof

/-- The effect of a command on everything but the queue. -/
def exec (i : Instr) (s : State) : Host.Outcome State Fault Refusal :=
  match i with
  | .define port inst desc => Sys2Proof.Machine.execDefine port inst desc s
  | .retire port inst => Sys2Proof.Machine.execRetire port inst s
  | .requalify port => Sys2Proof.Machine.execRequalify port s
  | .test port inst sequence urgency => Sys2Proof.Machine.execTest port inst sequence urgency s
  | .stop port inst => Sys2Proof.Machine.execStop port inst s
  | .guard port inst first last => Sys2Proof.Machine.execGuard port inst first last s
  | .unguard port inst first last => Sys2Proof.Machine.execUnguard port inst first last s
  | .claim port mask mode => Sys2Proof.Machine.execClaim port mask mode s
  | .release port mask => Sys2Proof.Machine.execRelease port mask s
  | .breakClaim port mask => Sys2Proof.Machine.execBreakClaim port mask s
  | .loadElements port start records => Sys2Proof.Machine.execLoadElements port start records s
  | .loadDirectory port start records => Sys2Proof.Machine.execLoadDirectory port start records s
  | .budget port duration => Sys2Proof.Machine.execBudget port duration s
  | .cap port duration => Sys2Proof.Machine.execCap port duration s
  | .commit port mask => Sys2Proof.Machine.execCommit port mask s
  | .clearStore port mask => Sys2Proof.Machine.execClearStore port mask s
  | .status port inst => Sys2Proof.Machine.execStatus port inst s
  | .fails port inst start => Sys2Proof.Machine.execFails port inst start s
  | .map port inst => Sys2Proof.Machine.execMap port inst s
  | .queue port => Sys2Proof.Machine.execQueue port s
  | .engines port => Sys2Proof.Machine.execEngines port s
  | .links port => Sys2Proof.Machine.execLinks port s
  | .library port selector first count => Sys2Proof.Machine.execLibrary port selector first count s
  | .time port => Sys2Proof.Machine.execTime port s
  | .takeNotice port kind => Sys2Proof.Machine.execTakeNotice port kind s
  | .noticeMask port mask => Sys2Proof.Machine.execNoticeMask port mask s
  | .badFrame port bytes => Sys2Proof.Machine.execBadFrame port bytes s
  | .result link tag outcome entries => Sys2Proof.Machine.execResult link tag outcome entries s
  | .loadDone link memId => Sys2Proof.Machine.execLoadDone link memId s
  | .ready link => Sys2Proof.Machine.execReady link s
  | .resetNotice link => Sys2Proof.Machine.execResetNotice link s
  | .pull link memId => Sys2Proof.Machine.execPull link memId s
  | .inService link memId => Sys2Proof.Machine.execInService link memId s
  | .outOfService link memId => Sys2Proof.Machine.execOutOfService link memId s
  | .deviceGuard link memId first last set => Sys2Proof.Machine.execDeviceGuard link memId first last set s
  | .malformed link bytes => Sys2Proof.Machine.execMalformed link bytes s
  | .partReset pins => Sys2Proof.Machine.execPartReset pins s
  | .wrap => Sys2Proof.Machine.execWrap s
  | .deadlineExpiry which => Sys2Proof.Machine.execDeadlineExpiry which s
  | .wake inst => Sys2Proof.Machine.execWake inst s
  | .burstTimeout link => Sys2Proof.Machine.execBurstTimeout link s
  | .loadTimeout link => Sys2Proof.Machine.execLoadTimeout link s
  | .dispatch => Sys2Proof.Machine.execDispatch s
  | .preemption => Sys2Proof.Machine.execPreemption s
  | .resume engine => Sys2Proof.Machine.execResume engine s
  | .burstIssue engine => Sys2Proof.Machine.execBurstIssue engine s
  | .elementEnd engine => Sys2Proof.Machine.execElementEnd engine s
  | .drainEnd engine => Sys2Proof.Machine.execDrainEnd engine s
  | .analysisBegin => Sys2Proof.Machine.execAnalysisBegin s
  | .analysisComplete => Sys2Proof.Machine.execAnalysisComplete s
  | .commitWriteEnd verified => Sys2Proof.Machine.execCommitWriteEnd verified s
  | .clearWriteEnd verified => Sys2Proof.Machine.execClearWriteEnd verified s
  | .timeBaseAdvance => Sys2Proof.Machine.execTimeBaseAdvance s

end Sys2Proof.Machine
end

