-- ==== Sys2Proof/Safety.lean ====
section
/-!
DEFINITION. What the statements speak of: the invariants that the spec gives the part (R30, R46, R119, R159, R171), and what
it means that a port is answered, told of a notice, or left alone.
-/

namespace Sys2Proof.Machine

open Sys2Proof

/-! ### Guard ranges (R30) -/

/-- R30: a sorted list of ranges of rows below `rows`, none overlapping or adjacent to the next; `low` is the least row the
first may begin at. -/
def rangesFrom (rows : Nat) : Nat → List GuardRange → Prop
  | _, [] => True
  | low, g :: t => low ≤ g.first ∧ g.first ≤ g.last ∧ g.last < rows ∧ rangesFrom rows (g.last + 2) t

/-- R30: the guard ranges of an entry: none without a descriptor, else at most 4 canonical ones. -/
def Entry.guardsSound (e : Entry) : Prop :=
  match e.descriptor with
  | none => e.guards = []
  | some d => rangesFrom d.rows 0 e.guards ∧ e.guards.length ≤ Config.guardCapacity

/-- R30 for every instance. -/
def State.GuardsSound (s : State) : Prop := ∀ i, (s.entry i).guardsSound

/-! ### Fail records (R119) -/

/-- The sum of the lengths of all fail logs. -/
def State.logTotal (s : State) : Nat := (allInsts.map fun i => (s.entry i).failLog.length).sum

/-- R119: free records and records held add up to 1024, and no log is longer than 48. -/
def State.PoolSound (s : State) : Prop :=
  s.poolFree + s.logTotal = Config.poolSize ∧ ∀ i, (s.entry i).failLog.length ≤ Config.logCapacity

/-! ### The built-in library (R46) -/

/-- R40, R45, R46: elements 0 to 32 and directory entries 0 to 5 hold the built-in content. -/
def State.LibraryFixed (s : State) : Prop :=
  (∀ k, k < 33 → s.element k = State.reset.element k) ∧
    ∀ q : Fin 32, q.val < 6 → s.directoryEntry q = State.reset.directoryEntry q

/-- R46: the 33 rows of its element table, each written out: direction, operations, background, skip conditions (a margin with
SKIP_IF_SHORT), and the hold time of a HOLD. -/
def manualElements : List Element :=
  let none' : SkipSet := ⟨false, false, none, false⟩
  let short : SkipSet := ⟨false, false, some 2000, false⟩
  let notDram : SkipSet := ⟨true, false, none, false⟩
  [⟨.march .up [.write] .solid, none'⟩, ⟨.march .up [.read, .writeInv] .solid, none'⟩, ⟨.march .down [.readInv] .solid, none'⟩,
    ⟨.march .up [.write] .solid, none'⟩, ⟨.march .up [.read, .writeInv] .solid, none'⟩,
    ⟨.march .up [.readInv, .write] .solid, none'⟩, ⟨.march .down [.read, .writeInv] .solid, short⟩,
    ⟨.march .down [.readInv, .write] .solid, short⟩, ⟨.march .down [.read] .solid, none'⟩,
    ⟨.march .up [.write] .checker, none'⟩, ⟨.march .up [.read, .writeInv] .checker, none'⟩,
    ⟨.march .down [.readInv, .write] .checker, none'⟩, ⟨.march .down [.read] .checker, none'⟩] ++
  [⟨.march .up [.write] .rowStripe, none'⟩, ⟨.march .up [.read, .writeInv] .rowStripe, none'⟩,
    ⟨.march .down [.readInv] .rowStripe, none'⟩, ⟨.march .up [.write] .columnStripe, none'⟩,
    ⟨.march .up [.read, .writeInv] .columnStripe, none'⟩, ⟨.march .down [.readInv] .columnStripe, none'⟩] ++
  [⟨.march .up [.write] .solid, none'⟩, ⟨.hold 64, notDram⟩, ⟨.march .up [.read, .writeInv] .solid, none'⟩, ⟨.hold 64, notDram⟩,
    ⟨.march .up [.readInv] .solid, none'⟩, ⟨.march .up [.write] .solid, none'⟩] ++
  [⟨.march .up [.write] (.walk 0), none'⟩, ⟨.march .up [.read] (.walk 0), none'⟩, ⟨.march .up [.write] (.walk 1), none'⟩,
    ⟨.march .up [.read] (.walk 1), none'⟩, ⟨.march .up [.write] (.walk 2), none'⟩, ⟨.march .up [.read] (.walk 2), none'⟩,
    ⟨.march .up [.write] (.walk 3), none'⟩, ⟨.march .up [.read] (.walk 3), none'⟩]

/-- R46: the six rows of its directory table. -/
def manualDirectory : List DirectoryEntry :=
  [⟨0, 3, ⟨true, true, true⟩⟩, ⟨3, 6, ⟨true, true, true⟩⟩, ⟨9, 4, ⟨true, true, true⟩⟩, ⟨13, 6, ⟨true, true, true⟩⟩,
    ⟨19, 6, ⟨false, true, false⟩⟩, ⟨25, 8, ⟨true, true, true⟩⟩]

/-! ### Deadlines (R159) -/

/-- R159: an armed compare lies at most 600,000 ms ahead. -/
def State.DeadlinesSound (s : State) : Prop :=
  ∀ d v, s.deadline d = some v → remaining v s.now ≤ Config.maxDuration

/-! ### Notices (R171) -/

/-- R171: the chassis port's set holds no CLAIM_LOST. -/
def State.LostOnCardOnly (s : State) : Prop := s.chassisPort.notices.claimLost = none

/-! ### Ports, as a command leaves them -/

/-- Port `p` holds this response, and nothing else of either port has changed (R168). -/
def State.answered (s t : State) (p : Port) (k : RequestKind) (st : Status) (pl : Payload) : Prop :=
  t.port p = { s.port p with response := some ⟨k.code, st, pl⟩ } ∧ t.port (otherPort p) = s.port (otherPort p)

/-- A request was refused: its response has the status and an empty payload, and nothing else has changed (R169). -/
def State.refused (s t : State) (p : Port) (k : RequestKind) (st : Status) : Prop :=
  t = s.setPort p { s.port p with response := some ⟨k.code, st, .empty⟩ }

/-- A notice was raised on both ports, and nothing else of either has changed (R171). -/
def State.told (s t : State) (n : Notice) : Prop :=
  ∀ p, t.port p = { s.port p with notices := (s.port p).notices.raise n }

/-- Every entry but that of instance `i` is as it was. -/
def State.othersKept (s t : State) (i : Fin 64) : Prop := ∀ j, j ≠ i → t.entry j = s.entry j

/-- Nothing is due at the Time Base's value (R150). -/
def State.NothingDue (s : State) : Prop :=
  (∀ d, s.deadlineDue d = false) ∧ (∀ i, s.wakeDue i = false) ∧ ∀ l, s.burstDue l = false ∧ s.loadDue l = false

/-! ### The library's records and references (R41, R47 to R49, R51, R52) -/

/-- R49: instance `i` has a job and its job or its follow-up names sequence `q`. -/
def State.holdsSequence (s : State) (i : Fin 64) (q : Fin 32) : Prop :=
  let e := s.entry i
  (e.state = .queued ∨ e.state = .running ∨ e.state = .suspended ∨ e.state = .parked ∨ e.state = .analysing) ∧
    (e.run.jobSequence = some q ∨ ∃ f, e.followUp = some f ∧ f.sequence = q)

/-- R49: element `k` lies within a sequence that instance `i` holds. -/
def State.holdsRecord (s : State) (i : Fin 64) (k : Nat) : Prop :=
  ∃ q d, s.holdsSequence i q ∧ s.directoryEntry q = some d ∧ d.first ≤ k ∧ k < d.first + d.count

/-- R41, R47: every field that applies to the record's kind is one of its listed values. (That a skip-set bit above 3 is none is the model's
reading: notes/assumptions/18.md.) -/
def legalElement (r : RawElement) : Prop :=
  r.kind ≤ 1 ∧
    (r.kind = 0 →
      r.direction ≤ 1 ∧ 1 ≤ r.operationCount ∧ r.operationCount ≤ 6 ∧ (∀ o ∈ r.operations.take r.operationCount, o ≤ 3) ∧
        r.background ≤ 4 ∧ (r.background = 4 → r.walkOffset ≤ 143)) ∧
    (r.kind = 1 → 1 ≤ r.holdTime ∧ r.holdTime ≤ 10000) ∧ r.skipSet < 16 ∧ (r.skipSet.testBit 2 = true → r.margin ≤ 60000)

/-- R41, R47, section 11.5: the element holds what the fields that apply to the record's kind say. -/
def spellsElement (r : RawElement) (x : Element) : Prop :=
  (match x.body with
   | .march dir ops bg =>
     r.kind = 0 ∧ r.direction = (match dir with | .up => 0 | .down => 1) ∧
       r.operations.take r.operationCount =
         ops.map (fun o => match o with | .write => 0 | .writeInv => 1 | .read => 2 | .readInv => 3) ∧
       (match bg with
        | .solid => r.background = 0
        | .checker => r.background = 1
        | .rowStripe => r.background = 2
        | .columnStripe => r.background = 3
        | .walk offset => r.background = 4 ∧ offset = r.walkOffset)
   | .hold time => r.kind = 1 ∧ time = r.holdTime) ∧
    x.skip =
      ⟨r.skipSet.testBit 0, r.skipSet.testBit 1, if r.skipSet.testBit 2 then some r.margin else none, r.skipSet.testBit 3⟩

/-- Section 11.5: the record's kind mask names no kind (bits 7 to 3 name none). -/
def namesNoKind (r : RawDirectoryEntry) : Prop := r.kindMask % 8 = 0

/-- R48: a record that names a kind has a run of 1 to 32 elements, none above 255. -/
def legalDirectoryEntry (r : RawDirectoryEntry) : Prop :=
  namesNoKind r ∨ (r.first ≤ 255 ∧ 1 ≤ r.count ∧ r.count ≤ 32 ∧ r.first + r.count ≤ 256)

/-- R48, section 11.5: the entry that the record writes: EMPTY when it names no kind. -/
def spellsDirectoryEntry (r : RawDirectoryEntry) (x : Option DirectoryEntry) : Prop :=
  (namesNoKind r → x = none) ∧
    (¬namesNoKind r → x = some ⟨r.first, r.count, ⟨r.kindMask.testBit 0, r.kindMask.testBit 1, r.kindMask.testBit 2⟩⟩)

/-- R51, R52, R159: some condition of the skip set holds for instance `i`. (The remaining time to a compare at its own value, before its
expiry is taken, is 0: the model's choice, notes/assumptions/28.md.) -/
def State.skipHolds (s : State) (i : Fin 64) (k : SkipSet) : Prop :=
  let e := s.entry i
  (k.notDram = true ∧ ∃ d, e.descriptor = some d ∧ (d.kind = .sram ∨ d.kind = .cam)) ∨
    (k.stored = true ∧ ∃ r ∈ e.repairMap, r.origin = .stored) ∨
    (∃ margin, k.short = some margin ∧ ∃ name value, s.deadline name = some value ∧ (value - s.now).toNat < margin) ∨
    (k.fails = true ∧ e.failLog ≠ [])

/-! ### Refusals (R29 and the rule of each request) -/

/-- The first condition of a list that holds gives the status. -/
def refusedBy : List (Prop × Status) → Status → Prop
  | [], _ => False
  | (c, st) :: t, x => (c ∧ x = st) ∨ (¬c ∧ refusedBy t x)

/-- The entry a request's index names; an index above 63 names none. -/
def State.entryAt (s : State) (n : Nat) : Entry := if h : n < 64 then s.entry ⟨n, h⟩ else .reset

/-- R2: every field of a descriptor lies in its legal range. -/
def legalDescriptor (d : RawDescriptor) : Prop :=
  d.link ≤ 3 ∧ d.memId ≤ 255 ∧ d.kind ≤ 2 ∧ (1 ≤ d.rows ∧ d.rows ≤ 1048576) ∧ (1 ≤ d.columns ∧ d.columns ≤ 4096) ∧
    (8 ≤ d.width ∧ d.width ≤ 144) ∧ d.spareRows ≤ 16 ∧ d.spareColumns ≤ 8 ∧ d.defaultSequence ≤ 31 ∧ d.priority ≤ 3 ∧
    d.verify ≤ 1 ∧ d.signature ≤ 65535

/-- The descriptor holds what the frame's fields say (R2, section 11.5). -/
def spellsDescriptor (r : RawDescriptor) (d : Descriptor) : Prop :=
  d.link.val = r.link ∧ d.memId.val = r.memId ∧ memKindOf r.kind = some d.kind ∧ d.rows = r.rows ∧ d.columns = r.columns ∧
    d.width = r.width ∧ d.spareRows = r.spareRows ∧ d.spareColumns = r.spareColumns ∧
    d.defaultSequence.val = r.defaultSequence ∧ d.priority = r.priority ∧ d.verify = (r.verify == 1) ∧
    d.signature = r.signature

/-- R3, R50: sequence `q` is not EMPTY and its kind mask includes kind `k`. -/
def State.runnable (s : State) (q : Nat) (k : MemKind) : Prop :=
  ∃ (n : Fin 32) (x : DirectoryEntry), n.val = q ∧ s.directoryEntry n = some x ∧ x.kinds.has k = true

/-- The checks of each request in their order, each with its status: R12, R17, R20, R25, R28, R31, R32, R47, R48, R49, R55, R59,
R77, R152, R163, R165, R170, R172. The first LIBRARY row, a selector above 1, is the model's choice, and so is a set skip-set bit above 3,
which `legalElement` shuts out (notes/assumptions/18.md). -/
def State.refusals (s : State) : Instr → List (Prop × Status)
  | .define p n raw =>
    let e := s.entryAt n
    [(p = .chassis, .privilege), (63 < n, .badIndex), (e.owner ≠ .card, .notOwner), (e.state.busy = true, .busy),
      (e.live = true, .live), (¬legalDescriptor raw, .badRange),
      (¬∃ k, memKindOf raw.kind = some k ∧ s.runnable raw.defaultSequence k, .badSequence),
      (∃ j : Fin 64, j.val ≠ n ∧ (s.entry j).state ≠ .vacant ∧
        ∃ d, (s.entry j).descriptor = some d ∧ d.link.val = raw.link ∧ d.memId.val = raw.memId, .badRange)]
  | .retire p n =>
    let e := s.entryAt n
    [(63 < n, .badIndex), (p = .card ∧ e.owner ≠ .card, .notOwner), (e.state = .vacant, .noDescriptor),
      (p = .card ∧ e.live = true, .live)]
  | .requalify p => [(p = .card, .privilege)]
  | .test p n named urgency =>
    let e := s.entryAt n
    [(63 < n, .badIndex), (e.owner ≠ portOwner p, .notOwner), (e.state = .vacant ∨ e.descriptor = none, .noDescriptor),
      (e.state = .retired ∨ e.state = .faulted, .wrongState), (e.live = true, .live), (1 < urgency, .badRange),
      (∃ q, named = some q ∧ 31 < q, .badRange),
      (¬∃ d, e.descriptor = some d ∧ s.runnable (named.getD d.defaultSequence.val) d.kind, .badSequence),
      (∃ d, e.descriptor = some d ∧ s.linkUp d.link = false, .linkDown)]
  | .stop p n =>
    let e := s.entryAt n
    [(63 < n, .badIndex), (e.owner ≠ portOwner p, .notOwner), (e.state = .vacant, .noDescriptor),
      (e.state.busy = false, .wrongState)]
  | .guard p n a b => changeChecks p n a b (addRange (s.entryAt n).guards ⟨a, b⟩)
  | .unguard p n a b => changeChecks p n a b (removeRange (s.entryAt n).guards a b)
  | .claim _ m mode => [(1 < mode ∨ m = 0, .badRange)]
  | .breakClaim p m => [(p = .card, .privilege), (m = 0, .badRange)]
  | .loadElements p start rs =>
    [(p = .chassis, .privilege), (rs.length = 0 ∨ 16 < rs.length, .badRange),
      (start < 33 ∨ 256 < start + rs.length, .badRange), (∃ r ∈ rs, ¬legalElement r, .badRange),
      (∃ i k, start ≤ k ∧ k < start + rs.length ∧ s.holdsRecord i k, .libraryBusy)]
  | .loadDirectory p start rs =>
    [(p = .chassis, .privilege), (rs.length = 0 ∨ 8 < rs.length, .badRange),
      (start < 6 ∨ 32 < start + rs.length, .badRange), (∃ r ∈ rs, ¬legalDirectoryEntry r, .badRange),
      (∃ i, ∃ q : Fin 32, start ≤ q.val ∧ q.val < start + rs.length ∧ s.holdsSequence i q, .libraryBusy)]
  | .budget p n => [(p = .chassis, .privilege), (600000 < n, .badRange)]
  | .cap p n => [(p = .card, .privilege), (600000 < n, .badRange)]
  | .commit p m =>
    [(m = 0, .badRange), (∃ i, inMask m i = true ∧ (s.entry i).owner ≠ portOwner p, .notOwner),
      (s.storeOp ≠ none, .storeBusy)]
  | .clearStore p m => [(p = .card, .privilege), (m = 0, .badRange), (s.storeOp ≠ none, .storeBusy)]
  | .status _ n => [(63 < n, .badIndex)]
  | .fails _ n _ => [(63 < n, .badIndex)]
  | .map _ n => [(63 < n, .badIndex)]
  | .library _ sel first count =>
    [(1 < sel, .badRange), (sel = 0 ∧ 31 < first, .badRange),
      (sel = 1 ∧ (count = 0 ∨ 16 < count ∨ 256 < first + count), .badRange)]
  | .takeNotice _ k => [(k = 0 ∨ 7 < k, .badRange)]
  | _ => []
where
  /-- R31, R32: the checks of GUARD and UNGUARD; `after` are the ranges the change would leave. -/
  changeChecks (p : Port) (n a b : Nat) (after : List GuardRange) : List (Prop × Status) :=
    let e := s.entryAt n
    [(p = .chassis, .privilege), (63 < n, .badIndex), (e.owner ≠ .card, .notOwner),
      (e.state = .vacant ∨ e.descriptor = none, .noDescriptor), (e.state.busy = true, .busy),
      (b < a ∨ ∃ d, e.descriptor = some d ∧ d.rows ≤ b, .badRange), (4 < after.length, .guardFull)]

/-! ### Work and engines -/

/-- R65: entry `a` stands before entry `b` in dispatch order. -/
def State.goesBefore (s : State) (a b : QueueEntry) : Prop :=
  let priority (q : QueueEntry) : Nat := if q.cls = .normal then s.priorityOf q.inst else 0
  a.cls.rank < b.cls.rank ∨
    (a.cls = b.cls ∧
      (priority a < priority b ∨
        (priority a = priority b ∧
          (age s.now b.arrival < age s.now a.arrival ∨ (age s.now a.arrival = age s.now b.arrival ∧ a.inst ≤ b.inst)))))

/-- R80: the engine has a current instance: LOADING, WALKING or DRAINING. -/
def Engine.hasRun (en : Engine) : Prop := en.state = .loading ∨ en.state = .walking ∨ en.state = .draining

/-- Something is outstanding on the engine: bursts in flight or a map load (R93). -/
def Engine.outstanding (en : Engine) : Prop := en.inFlight ≠ [] ∨ en.loadOutstanding = true

/-- Engine `e` has nothing to turn to: an empty Resume Stack and no reserved entry (R71, R73). -/
def State.nothingWaits (s : State) (e : Fin 6) : Prop := (s.engine e).stack = [] ∧ ∀ q ∈ s.workQueue, q.reserved ≠ some e

/-- Every engine goes on with a run or is IDLE with nothing to turn to. -/
def State.EnginesSteady (s : State) : Prop :=
  ∀ e, (s.engine e).hasRun ∨ ((s.engine e).state = .idle ∧ s.nothingWaits e)

/-- The slots of a link without those held for an instance (R68). -/
def slotsWithout (slots : List SlotHolder) (i : Fin 64) : List SlotHolder := slots.filter fun h => h.inst != i

/-- Every link but `l` is as it was. -/
def State.otherLinksKept (s t : State) (l : Fin 4) : Prop := ∀ m, m ≠ l → t.link m = s.link m

/-- Every engine but `e` is as it was. -/
def State.otherEnginesKept (s t : State) (e : Fin 6) : Prop := ∀ m, m ≠ e → t.engine m = s.engine m

/-- R93: a run with nothing outstanding, whose drain ends at the moment it is requested. -/
def Engine.endsNow (en : Engine) : Bool :=
  (en.state == .loading || en.state == .walking) && en.inFlight.isEmpty && !en.loadOutstanding

/-- R67, R82: the state after entry `q`, of class NORMAL, URGENT or VERIFY and of an instance with descriptor `d`, has been dispatched
to engine `e`. -/
def State.startsRun (u : State) (e : Fin 6) (q : QueueEntry) (d : Descriptor) : State :=
  let x := u.entry q.inst
  let k := u.link d.link
  let entry : Entry :=
    { x with
      state := .running
      failLog := []
      startStamp := if q.cls = .verify then x.startStamp else some u.now
      endStamp := if q.cls = .verify then x.endStamp else none
      run :=
        { x.run with
          runCount := if q.cls = .verify then x.run.runCount + 1 else 1
          runClass := some (if q.cls = .verify then .verify else if q.cls = .urgent then .urgent else .normal)
          position := ⟨0, 0, 0, .loadPending⟩ } }
  let link : Link :=
    { k with
      slots := k.slots.filter (· != .reserved q.inst) ++ [.running q.inst]
      loads := k.loads ++ [⟨e, d.memId, u.now⟩]
      sent := k.sent ++ [.mapLoad d.memId x.repairMap] }
  let engine : Engine :=
    { u.engine e with
      state := .loading
      current := some q.inst
      position := some ⟨0, 0, 0, .loadPending⟩
      loadOutstanding := true
      dispatchStamp := some u.now
      preemptible := q.cls != .urgent }
  let w : State :=
    { u with workQueue := u.workQueue.filter (·.inst != q.inst), poolFree := u.poolFree + x.failLog.length }
  ((w.setEntry q.inst entry).setLink d.link link).setEngine e engine

/-- R68: the slot arbiter has a slot of link `l` for engine `e`: one nobody holds, and no lower-numbered engine waits for the link. -/
def State.slotComesTo (u : State) (l : Fin 4) (e : Fin 6) : Prop :=
  (u.link l).slots.length < 3 ∧ ∀ m, m < e → ¬((u.engine m).state = .waitingSlot ∧ (u.engine m).waitingLink = some l)

/-- R71, R73, R74: state `t` is what comes of state `u` as engine `e` acts on its reservation and its Resume Stack. An engine with a run
goes on. One without takes its reserved entry. Else, with an empty stack, it is IDLE; with work on it, it waits for the link of the top, or
takes a slot there at once and resumes (what that comes to is RESUME's own). One that already waits for the top's link goes on waiting. -/
def State.turnsTo (u : State) (e : Fin 6) (t : State) : Prop :=
  let en := u.engine e
  (en.hasRun → t = u) ∧
  (en.state = .idle → u.nothingWaits e → t = u) ∧
  (∀ q d, en.state = .idle → q ∈ u.workQueue → q.reserved = some e → (∀ x ∈ u.workQueue, x.reserved = some e → x = q) →
    q.cls ≠ .wake → (u.entry q.inst).descriptor = some d → u.linkUp d.link = true → t = u.startsRun e q d) ∧
  (en.state = .waitingSlot → en.stack = [] → t = u.setEngine e .reset) ∧
  ∀ i rest l, en.stack = i :: rest → u.linkOf i = some l →
    (en.state = .waitingSlot → en.waitingLink = some l → t = u) ∧
    ((en.state = .waitingSlot ∧ en.waitingLink ≠ some l) ∨ (en.state = .idle ∧ ∀ q ∈ u.workQueue, q.reserved ≠ some e) →
      let w := u.setEngine e { en with state := .waitingSlot, waitingLink := some l }
      (u.slotComesTo l e → exec (.resume e) w = .next t) ∧ (¬u.slotComesTo l e → t = w))

/-- Every engine acts on its reservation and its Resume Stack once, in ascending number (notes/assumptions/3.md). -/
def State.turnAllTo (u v : State) : Prop :=
  ∃ c : Nat → State, c 0 = u ∧ c 6 = v ∧ ∀ e : Fin 6, (c e.val).turnsTo e (c (e.val + 1))

/-- R89: a command leaves engine `e` of state `u` to check for the end of its drain and of its element: its outcome is that of DRAIN_END or of
ELEMENT_END at `u` when one of them has come, and else `u` itself. -/
def State.checksEnd (u : State) (e : Fin 6) (o : Host.Outcome State Fault Refusal) : Prop :=
  let en := u.engine e
  let drained : Prop := en.state = .draining ∧ ¬en.outstanding
  let ended : Prop := en.state = .walking ∧ en.inFlight = [] ∧ ∃ p, en.position = some p ∧ p.mark = .elementEnd
  (drained → o = exec (.drainEnd e) u) ∧ (ended → o = exec (.elementEnd e) u) ∧ (¬drained → ¬ended → o = .next u)

/-! ### Tags (R88) -/

/-- R88: tag `t` of link `l` is free, and no engine with a run on the link has been given it. -/
def State.tagOpen (s : State) (l : Fin 4) (t : Fin 8) : Prop :=
  (∀ u ∈ (s.link l).tags, u.tag ≠ t) ∧
    ∀ e i, (s.engine e).given = some t → (s.engine e).current = some i → s.linkOf i ≠ some l

/-- R88: engine `e` meets every condition to issue a burst on link `l` but the free tag. -/
def State.issuesOn (s : State) (l : Fin 4) (e : Fin 6) : Prop :=
  let en := s.engine e
  en.state = .walking ∧ (∃ p, en.position = some p ∧ p.mark = .inElement) ∧ en.inFlight.length < 4 ∧
    ∃ i, en.current = some i ∧ s.linkOf i = some l

/-- R88: state `v` is what comes of state `u` as the arbiter takes back the freed tag `t` of link `l`. With no other tag to take, it gives it to
the engine, of those that meet every other condition and have not been given one, with the fewest bursts in flight, between equals the
lowest-numbered; with another, or with no such engine, nobody is given it (notes/assumptions/5.md). -/
def State.givesTag (u : State) (l : Fin 4) (t : Fin 8) (v : State) : Prop :=
  let waits (e : Fin 6) : Prop := u.issuesOn l e ∧ (u.engine e).given = none
  let load (e : Fin 6) : Nat := (u.engine e).inFlight.length
  let scarce : Prop := u.tagOpen l t ∧ ∀ g, u.tagOpen l g → g = t
  (∀ e, scarce → waits e → (∀ m, waits m → load e < load m ∨ (load e = load m ∧ e ≤ m)) →
    v = u.setEngine e { u.engine e with given := some t }) ∧
  (¬scarce ∨ (∀ e, ¬waits e) → v = u)

/-! ### The store load -/

/-- R162: what the load of section `c` against descriptor `d` leaves in an entry: no map, FREE spares and the outcome's flag; or, for a matched
section, a STORED, UNVERIFIED record for each stored record, in map order, with the spares they name USED. -/
def loadsSection (c : StoreSection) (d : Descriptor) (e : Entry) : Prop :=
  e.flags = ⟨storeOutcome c d == .storeLost, storeOutcome c d == .signatureMismatch, false, false⟩ ∧
  ((∀ n, storeOutcome c d ≠ .loaded n) →
    e.repairMap = [] ∧ e.rowSpares = List.replicate d.spareRows .free ∧ e.columnSpares = List.replicate d.spareColumns .free) ∧
  ∀ m n, c.written = some m → storeOutcome c d = .loaded n →
    e.repairMap.Perm (m.records.map fun r => ⟨r.kind, r.line, r.spare, .stored, false, false⟩) ∧
    e.repairMap.Pairwise (fun a b => a.before b = true) ∧
    e.rowSpares =
      (List.range d.spareRows).map (fun k => if ∃ r ∈ m.records, r.kind = .row ∧ r.spare = k then .used else .free) ∧
    e.columnSpares =
      (List.range d.spareColumns).map (fun k => if ∃ r ∈ m.records, r.kind = .column ∧ r.spare = k then .used else .free)

/-- R13, R21: the entry of a requalified instance: reset, with section `c` loaded, and DEFINED; its owner, descriptor and absorbed count are
kept, and it holds no follow-up. -/
def Entry.requalifiedTo (x : Entry) (c : StoreSection) (d : Descriptor) (e : Entry) : Prop :=
  loadsSection c d e ∧
    e =
      { descriptor := some d, state := .defined, owner := x.owner, live := x.live, flags := e.flags, reason := .none,
        run := ⟨none, none, 0, ⟨0, 0, 0, .loadPending⟩⟩, followUp := none, absorbed := x.absorbed, startStamp := none, endStamp := none,
        rowSpares := e.rowSpares, columnSpares := e.columnSpares, guards := [], suspending := none, repairMap := e.repairMap,
        failLog := [], settledReason := .none }

/-! ### A device's memories (R3) -/

/-- R3, R33, R36, R112: instance `i`, not VACANT, stands on link `l` under memory id `m`. -/
def State.namedBy (s : State) (l : Fin 4) (m : Fin 256) (i : Fin 64) : Prop :=
  (s.entry i).state ≠ .vacant ∧ ∃ d, (s.entry i).descriptor = some d ∧ d.link = l ∧ d.memId = m

/-- R3: instance `i` is the one a message with memory id `m` on link `l` names. DEFINE keeps it the only one; in a state that no run reaches,
where several stand under one name, it is the lowest. -/
def State.names (s : State) (l : Fin 4) (m : Fin 256) (i : Fin 64) : Prop := s.namedBy l m i ∧ ∀ j, j < i → ¬s.namedBy l m j

/-! ### Commands in a row -/

/-- The commands bring state `s` to state `t`, one after another. -/
def runsThrough : List Instr → State → State → Prop
  | [], s, t => t = s
  | c :: cs, s, t => ∃ u, exec c s = .next u ∧ runsThrough cs u t

/-- R150: the commands that take every compare due at one value: the deadlines, the wakes, the bursts' timeouts and the loads' (the order is the
model's choice: notes/assumptions/6.md). -/
def dueCommands : List Instr :=
  [.deadlineExpiry .card, .deadlineExpiry .chassis] ++ (List.finRange 64).map .wake ++
    (List.finRange 4).map .burstTimeout ++ (List.finRange 4).map .loadTimeout

/-! ### Answers to a device -/

/-- R115: the messages that answer a pull of a settled instance with this descriptor and entry, in order. -/
def answersTo (d : Descriptor) (e : Entry) : List LinkMsg :=
  match e.state with
  | .clean => [.mapOffer d.memId .clean false (some e.repairMap)]
  | .repaired => [.mapOffer d.memId .repaired false (some e.repairMap)]
  | .abandoned => [.mapOffer d.memId .abandoned true (some e.repairMap)]
  | .unrepairable => [.mapOffer d.memId .unrepairable false none, .fence d.memId]
  | .retired => [.fence d.memId]
  | _ => []

/-- R171: a notice was raised on both ports and port `p` was answered; nothing else of either port has changed. -/
def State.toldAndAnswered (s t : State) (n : Notice) (p : Port) (k : RequestKind) (pl : Payload) : Prop :=
  ∀ q, t.port q =
    { s.port q with
      notices := (s.port q).notices.raise n
      response := if q = p then some ⟨k.code, .ok, pl⟩ else (s.port q).response }

/-! ### Results and verdicts -/

/-- R122: the entries of a recorded FAIL result, placed in list order: the log and the pool's free count after them, and the cut
shorts they raise, in order. -/
def placeAll (cx : CaptureContext) (rs : List RepairRecord) (row : Nat) :
    List Mismatch → List FailRecord → Nat → List FailRecord × Nat × List CutReason
  | [], log, pool => (log, pool, [])
  | m :: ms, log, pool =>
    match failOf rs row m with
    | none => placeAll cx rs row ms log pool
    | some f =>
      let r := placeFail cx log pool f
      let n := placeAll cx rs row ms r.log r.pool
      (n.1, n.2.1, r.cut.toList ++ n.2.2)

/-- R64, R148: analysis settles instance `i`, at the head of the Analysis Queue before `rest`, as entry `e`: VERDICT is raised on both
ports; with the link UP its pending pull is answered and removed, and its follow-up begins a new job; with the link DOWN the follow-up
is discarded; nothing else changes. The new job has no verdict reason (R6, R61), and the settled job's stays for STATUS to show until the first
dispatch (R148; how the model holds the two: notes/assumptions/27.md). -/
def State.settlesAs (s t : State) (i : Fin 64) (d : Descriptor) (rest : List AnalysisEntry) (e : Entry) : Prop :=
  let up := s.linkUp d.link
  t.entry i =
      (match e.followUp with
       | none => e
       | some f =>
         if up then
           { e with
             state := .queued
             followUp := none
             run := { e.run with jobSequence := some f.sequence, runCount := 0, runClass := none }
             flags := { e.flags with partialRun := false, untested := false }
             reason := .none
             settledReason := e.reason }
         else { e with followUp := none }) ∧
    t.workQueue =
      s.workQueue ++
        (match e.followUp with
         | none => []
         | some f =>
           if up then
             [⟨i, f.sequence, if f.urgency = .urgent then .urgent else .normal, portRequester f.requester, s.now, none⟩]
           else []) ∧
    t.link d.link =
      (if up = true ∧ i ∈ (s.link d.link).pulls then
        { s.link d.link with
          pulls := (s.link d.link).pulls.filter (· != i)
          sent := (s.link d.link).sent ++ answersTo d e }
      else s.link d.link) ∧
    s.otherLinksKept t d.link ∧ s.told t (.verdict (maskBit i)) ∧ t.analysisQueue = rest ∧ t.analysing = false ∧
    s.othersKept t i ∧
    t = { s with
          table := t.table, workQueue := t.workQueue, linkTable := t.linkTable, cardPort := t.cardPort,
          chassisPort := t.chassisPort, analysisQueue := t.analysisQueue, analysing := t.analysing }

/-- R53: a command's outcome is that engine `e` of state `u` reaches element ordinal `k`, the cursors at `p`: what `reach` comes to, and, when
the run leaves the engine by it, what the engine then turns to. -/
def State.comesToReach (u : State) (e : Fin 6) (k : Nat) (p : Nat × Nat) (o : Host.Outcome State Fault Refusal) : Prop :=
  (∀ t, u.reach e k p = (t, false) → o = .next t) ∧
    ∀ t, u.reach e k p = (t, true) → ∃ v, t.turnsTo e v ∧ o = .next v

/-! ### Spares and allocation (R139 to R142) -/

/-- R139: the attribution that a fail of this map record's spare carries. -/
def RepairRecord.blame (r : RepairRecord) : Attribution :=
  match r.kind with
  | .row => .spareRow r.spare
  | .column => .spareColumn r.spare

/-- R140, R141: line `n` of kind `k` takes the first FREE spare of its kind, which becomes USED, with a FOUND, UNVERIFIED record. -/
def Allocation.takes (a : Allocation) (k : LineKind) (n : Nat) (b : Allocation) : Prop :=
  ∃ spare : Nat, (a.spares k)[spare]? = some .free ∧ (∀ m : Nat, m < spare → (a.spares k)[m]? ≠ some .free) ∧
    b =
      { rowSpares := if k = .row then a.rowSpares.set spare .used else a.rowSpares
        columnSpares := if k = .column then a.columnSpares.set spare .used else a.columnSpares
        added := a.added ++ [⟨k, n, spare, .found, false, false⟩] }

/-- R140: some lines take spares one after another. -/
inductive TakeAll : List (LineKind × Nat) → Allocation → Allocation → Prop where
  | nil (a : Allocation) : TakeAll [] a a
  | cons {k : LineKind} {n : Nat} {t : List (LineKind × Nat)} {a b c : Allocation} (h : a.takes k n b) (r : TakeAll t b c) :
    TakeAll ((k, n) :: t) a c

/-- A kind has a FREE spare. -/
def Allocation.hasFree (a : Allocation) (k : LineKind) : Prop := SpareState.free ∈ a.spares k

/-- R141: line `n` of kind `k` is the one to take: its kind has a FREE spare, a cell lies in it, and every line of a kind with a FREE spare
holds fewer of the cells, or as many and stands behind it: a column behind a row, a higher number behind a lower. -/
def Allocation.prefers (a : Allocation) (cells : List (Nat × Nat)) (k : LineKind) (n : Nat) : Prop :=
  a.hasFree k ∧ (∃ c ∈ cells, cellLine k c = n) ∧
    ∀ j, a.hasFree j → ∀ c ∈ cells,
      cellCount j cells (cellLine j c) < cellCount k cells n ∨
        (cellCount j cells (cellLine j c) = cellCount k cells n ∧ ((k = .row ∧ j = .column) ∨ (k = j ∧ n ≤ cellLine j c)))

/-- R141: lines take spares, the preferred one each time, until no remaining cell is left. -/
inductive Covers : List (Nat × Nat) → Allocation → Allocation → Prop where
  | done (a : Allocation) : Covers [] a a
  | take {cells : List (Nat × Nat)} {k : LineKind} {n : Nat} {a b c : Allocation} (p : a.prefers cells k n) (h : a.takes k n b)
    (r : Covers (cells.filter fun x => cellLine k x != n) b c) : Covers cells a c

/-- R141: the spares run out with remaining cells left. -/
inductive CoverFails : List (Nat × Nat) → Allocation → Prop where
  | stuck {cells : List (Nat × Nat)} {a : Allocation} (h : cells ≠ []) (f : ∀ k, ¬a.hasFree k) : CoverFails cells a
  | take {cells : List (Nat × Nat)} {k : LineKind} {n : Nat} {a b : Allocation} (p : a.prefers cells k n) (h : a.takes k n b)
    (r : CoverFails (cells.filter fun x => cellLine k x != n) b) : CoverFails cells a

/-! ### Messages of the devices (R105, R175) -/

/-- Section 11.5: the byte whose bit 7 is the first of (up to) eight bits, unused low bits 0. -/
def packByte (l : List Bool) : Byte := BitVec.ofNat 8 ((List.range 8).foldl (fun n k => 2 * n + (l.getD k false).toNat) 0)

/-- The bytes of some bits, `n` bytes. -/
def packBits : Nat → List Bool → List Byte
  | 0, _ => []
  | n + 1, l => packByte (l.take 8) :: packBits n (l.drop 8)

/-- Section 11.5: the bytes of a RESULT: kind 17, tag, outcome, count, and each entry's column and vector. -/
def resultBytes (tag : Fin 8) (o : ResultOutcome) (ms : List Mismatch) : List Byte :=
  [17, BitVec.ofNat 8 tag.val, if o = .fail then 1 else 0, BitVec.ofNat 8 ms.length] ++
    ms.flatMap fun m => bytesOf 2 m.column ++ (m.vector.elim [] fun v => packBits ((v.length + 7) / 8) v)

/-- R105, R175, section 11.5: the bytes are a message that the UP link `l` takes: READY 19, RESET_NOTICE 20, PULL 21, IN_SERVICE 22,
OUT_OF_SERVICE 23, a LOAD_DONE 18 that answers a load, a GUARD 24 with set byte 0 or 1, or a RESULT that is well formed under R103. -/
def State.takesMessage (s : State) (l : Fin 4) (bs : List Byte) : Prop :=
  bs = [19] ∨ bs = [20] ∨ (∃ m : Byte, bs = [21, m] ∨ bs = [22, m] ∨ bs = [23, m]) ∨
    (∃ u ∈ (s.link l).loads, bs = [18, BitVec.ofNat 8 u.memId.val]) ∨
    (∃ (m set : Byte) (a b : Nat), a < 16777216 ∧ b < 16777216 ∧ (set = 0 ∨ set = 1) ∧
      bs = [24, m] ++ bytesOf 3 a ++ bytesOf 3 b ++ [set]) ∨
    ∃ tag o ms, s.resultWellFormed l tag o ms = true ∧ (∀ x ∈ ms, x.column < 65536) ∧ bs = resultBytes tag o ms

/-! ### Losing a link -/

/-- R105, R106, R107: what takes the UP link `l` DOWN, and the reason it leaves: RESET_NOTICE, a malformed message, a RESULT that fails
R103, a LOAD_DONE that matches no load, and a burst or a load 50 ms old at the Time Base's value. -/
inductive LinkLoss (s : State) (l : Fin 4) : Instr → DownReason → Prop where
  | resetNotice : LinkLoss s l (.resetNotice l) .reset
  | malformed (bs : List Byte) (h : ¬s.takesMessage l bs) : LinkLoss s l (.malformed l bs) .malformed
  | result (tag : Fin 8) (o : ResultOutcome) (ms : List Mismatch) (h : s.resultWellFormed l tag o ms = false) :
    LinkLoss s l (.result l tag o ms) .malformed
  | loadDone (m : Fin 256) (h : ∀ u ∈ (s.link l).loads, u.memId ≠ m) : LinkLoss s l (.loadDone l m) .malformed
  | burstTimeout (u : TagUse) (h : u ∈ (s.link l).tags) (due : u.issued + 50 = s.now) : LinkLoss s l (.burstTimeout l) .timeout
  | loadTimeout (u : LoadUse) (h : u ∈ (s.link l).loads) (due : u.sentAt + 50 = s.now) : LinkLoss s l (.loadTimeout l) .timeout

end Sys2Proof.Machine
end

