-- ==== Sys2Proof/WellFormed.lean ====
section
/-!
DEFINITION. Which commands a wire can carry: every number fits the bytes section 11.5 gives its field, and a list is
no longer than its frame or message allows. A command outside these widths can reach no port or link; `exec` is total
on it all the same (notes/assumptions/14.md).
-/

namespace Sys2Proof

/-- Number `n` fits in `k` bytes. -/
def fitsBytes (k n : Nat) : Bool := n < 256 ^ k

/-- A DEFINE payload's widths (section 11.5). -/
def RawDescriptor.wf (d : RawDescriptor) : Bool :=
  fitsBytes 1 d.link && fitsBytes 1 d.memId && fitsBytes 1 d.kind && fitsBytes 3 d.rows && fitsBytes 2 d.columns &&
    fitsBytes 1 d.width && fitsBytes 1 d.spareRows && fitsBytes 1 d.spareColumns && fitsBytes 1 d.defaultSequence &&
    fitsBytes 1 d.priority && fitsBytes 1 d.verify && fitsBytes 2 d.signature

/-- An element record's widths: sixteen bytes with six operation bytes (section 11.5). -/
def RawElement.wf (e : RawElement) : Bool :=
  fitsBytes 1 e.kind && fitsBytes 1 e.direction && fitsBytes 1 e.operationCount && e.operations.length == 6 &&
    e.operations.all (fitsBytes 1) && fitsBytes 1 e.background && fitsBytes 1 e.walkOffset && fitsBytes 2 e.holdTime &&
    fitsBytes 1 e.skipSet && fitsBytes 2 e.margin

/-- A directory record's widths: three bytes (section 11.5). -/
def RawDirectoryEntry.wf (d : RawDirectoryEntry) : Bool :=
  fitsBytes 1 d.first && fitsBytes 1 d.count && fitsBytes 1 d.kindMask

/-- A mismatch entry's widths: a column of 2 bytes and a vector of at most 144 bits (R2, section 11.5). -/
def Mismatch.wf (m : Mismatch) : Bool :=
  fitsBytes 2 m.column && (m.vector.all fun v => v.length ≤ 144)

/-- The check of one command. A port frame's payload is at most 1024 bytes (section 11.5). -/
def Instr.wf : Instr → Bool
  | .define _ i d => fitsBytes 1 i && d.wf
  | .retire _ i => fitsBytes 1 i
  | .requalify _ => true
  | .test _ i q u => fitsBytes 1 i && q.all (fitsBytes 1) && fitsBytes 1 u
  | .stop _ i => fitsBytes 1 i
  | .guard _ i a b => fitsBytes 1 i && fitsBytes 3 a && fitsBytes 3 b
  | .unguard _ i a b => fitsBytes 1 i && fitsBytes 3 a && fitsBytes 3 b
  | .claim _ _ m => fitsBytes 1 m
  | .release _ _ => true
  | .breakClaim _ _ => true
  | .loadElements _ a rs => fitsBytes 1 a && 2 + 16 * rs.length ≤ 1024 && rs.all RawElement.wf
  | .loadDirectory _ a rs => fitsBytes 1 a && fitsBytes 1 rs.length && 2 + 3 * rs.length ≤ 1024 && rs.all RawDirectoryEntry.wf
  | .budget _ d => fitsBytes 3 d
  | .cap _ d => fitsBytes 3 d
  | .commit _ _ => true
  | .clearStore _ _ => true
  | .status _ i => fitsBytes 1 i
  | .fails _ i a => fitsBytes 1 i && fitsBytes 1 a
  | .map _ i => fitsBytes 1 i
  | .queue _ => true
  | .engines _ => true
  | .links _ => true
  | .library _ a b c => fitsBytes 1 a && fitsBytes 1 b && fitsBytes 1 c
  | .time _ => true
  | .takeNotice _ k => fitsBytes 1 k
  | .noticeMask _ _ => true
  | .badFrame _ _ => true
  | .result _ _ _ es => es.length ≤ 64 && es.all Mismatch.wf
  | .loadDone _ _ => true
  | .ready _ => true
  | .resetNotice _ => true
  | .pull _ _ => true
  | .inService _ _ => true
  | .outOfService _ _ => true
  | .deviceGuard _ _ a b _ => fitsBytes 3 a && fitsBytes 3 b
  | .malformed _ _ => true
  | .partReset _ => true
  | .wrap => true
  | .deadlineExpiry _ => true
  | .wake _ => true
  | .burstTimeout _ => true
  | .loadTimeout _ => true
  | .dispatch => true
  | .preemption => true
  | .resume _ => true
  | .burstIssue _ => true
  | .elementEnd _ => true
  | .drainEnd _ => true
  | .analysisBegin => true
  | .analysisComplete => true
  | .commitWriteEnd _ => true
  | .clearWriteEnd _ => true
  | .timeBaseAdvance => true

end Sys2Proof
end

