-- ==== Sys2Proof/Certificates/Slice0/Obligations.lean ====
section
/-!
DEFINITION. The statements about the model, for the provers. Each names the rules it comes from; where it speaks of a choice of
the model it names the log entry.
-/

open Sys2Proof Sys2Proof.Machine

/-! ### The queue of commands -/

/-- A step takes the command at the front of the queue, and is its meaning on the state with the queue's rest. -/
def Obligations.StepRunsFrontCommand : Prop :=
  ∀ (c : Instr) (rest : List Instr) (s : State), s.pending = c :: rest → step s = exec c { s with pending := rest }

/-- The model's choice (notes/assumptions/2.md): with no command waiting, a step leaves the state as it is. -/
def Obligations.EmptyQueueIdles : Prop := ∀ s : State, s.pending = [] → step s = .next s

/-! ### Part reset -/

/-- R23: after a part reset every instance entry holds the values of its table, and the store keeps its sections but for one
being written. (The entry's `settledReason` is the model's own field, notes/assumptions/27.md.) -/
def Obligations.PartResetInstances : Prop :=
  ∀ (pins : Fin 4) (s : State), ∃ t, exec (.partReset pins) s = .next t ∧
    (∀ i, t.entry i =
      { descriptor := none, state := .vacant, owner := .none, live := false, flags := ⟨false, false, false, false⟩,
        reason := .none, run := ⟨none, none, 0, ⟨0, 0, 0, .loadPending⟩⟩, followUp := none, absorbed := 0,
        startStamp := none, endStamp := none, rowSpares := [], columnSpares := [], guards := [], suspending := none,
        repairMap := [], failLog := [], settledReason := .none }) ∧
    ∀ n, (∀ op, s.storeOp = some op → op.writing.index ≠ n) → t.storeSection n = s.storeSection n

/-- R40, R45, R46, R56, R57, R75, R79, R98, R119, R135: after a part reset the queues are empty, the pool is full, and every engine and link
record holds the values of its table; the Element Store holds the 33 built-in records and from 33 on the default record, the Sequence Directory
its six built-in entries and EMPTY ones. (The engine's `reload` and `given` are the model's own fields,
notes/assumptions/26.md and 5.md.) -/
def Obligations.PartResetWork : Prop :=
  ∀ (pins : Fin 4) (s : State), ∃ t, exec (.partReset pins) s = .next t ∧
    t.workQueue = [] ∧ t.parking = [] ∧ t.analysisQueue = [] ∧ t.analysing = false ∧ t.poolFree = 1024 ∧
    (∀ e, t.engine e =
      { state := .idle, current := none, position := none, inFlight := [], loadOutstanding := false,
        dispatchStamp := none, preemptible := false, drainReason := none, held := none, waitingLink := none,
        stack := [], reload := none, given := none }) ∧
    (∀ l, (t.link l).down = some .neverUp ∧ (t.link l).tags = [] ∧ (t.link l).loads = [] ∧ (t.link l).slots = [] ∧
      (t.link l).pulls = []) ∧
    (∀ k : Nat, k < 33 → some (t.element k) = manualElements[k]?) ∧
    (∀ k : Nat, 33 ≤ k → k < 256 → t.element k = ⟨.march .up [.write] .solid, ⟨false, false, none, false⟩⟩) ∧
    ∀ q : Fin 32, t.directoryEntry q = manualDirectory[q.val]?

/-- R149, R151, R174: after a part reset the Time Base is 0, both deadlines are disarmed, no response is pending, the notice
sets and masks are empty and the lines deasserted, and the chassis port answers 56 plus the pins' value. -/
def Obligations.PartResetTimeAndPorts : Prop :=
  ∀ (pins : Fin 4) (s : State), ∃ t, exec (.partReset pins) s = .next t ∧
    t.now = 0 ∧ t.cardDeadline = none ∧ t.chassisDeadline = none ∧
    (∀ p, (t.port p).response = none ∧ (t.port p).notices = ⟨none, none, none, none, none, false, none⟩ ∧
      (t.port p).mask = 0 ∧ (t.port p).line = false ∧ (t.port p).readBytes = idleFrame) ∧
    t.chassisAddress.toNat = 56 + pins.val

/-- R167: a part reset during a store operation ends it; the section being written is check-failed, the others keep what they
hold, and no STORE notice is raised. -/
def Obligations.PartResetDuringStoreOperation : Prop :=
  ∀ (pins : Fin 4) (s : State) (op : StoreOp), s.storeOp = some op →
    ∃ t, exec (.partReset pins) s = .next t ∧ t.storeOp = none ∧
      (∀ d, storeOutcome (t.storeSection op.writing.index) d = .storeLost) ∧
      (∀ n, n ≠ op.writing.index → t.storeSection n = s.storeSection n) ∧ ∀ p, (t.port p).notices.store = none

/-! ### Claims -/

/-- R25: CLAIM reports the masked instances the other port owns; STRICT takes all or nothing, GREEDY every free one; a bad mode
or an empty mask is refused; no notice is raised. -/
def Obligations.ClaimTakesFreeInstances : Prop :=
  ∀ (p : Port) (m : Mask) (mode : Nat) (s : State), ∃ t, exec (.claim p m mode) s = .next t ∧
    (m = 0 ∨ 1 < mode → s.refused t p .claim .badRange) ∧
    (m ≠ 0 → mode ≤ 1 →
      ∃ held : Mask,
        (∀ i, inMask held i = true ↔ inMask m i = true ∧ (s.entry i).owner = portOwner (otherPort p)) ∧
        s.answered t p .claim .ok (.claim (if held = 0 then .granted else if held = m then .refused else .partGranted) held) ∧
        (∀ i, t.entry i =
          if inMask m i = true ∧ inMask held i = false ∧ (held = 0 ∨ mode = 1) then
            { s.entry i with owner := portOwner p }
          else s.entry i) ∧
        t = { s with table := t.table, cardPort := t.cardPort, chassisPort := t.chassisPort })

/-- R27: RELEASE sets every masked instance that the port owns to NONE, answers with their mask, and touches nothing else. -/
def Obligations.ReleaseFreesOwnedInstances : Prop :=
  ∀ (p : Port) (m : Mask) (s : State), ∃ t, exec (.release p m) s = .next t ∧
    ∃ released : Mask,
      (∀ i, inMask released i = true ↔ inMask m i = true ∧ (s.entry i).owner = portOwner p) ∧
      s.answered t p .release .ok (.mask released) ∧
      (∀ i, t.entry i = if inMask released i = true then { s.entry i with owner := .none } else s.entry i) ∧
      t = { s with table := t.table, cardPort := t.cardPort, chassisPort := t.chassisPort }

/-- R28: BREAK from the chassis port makes every masked instance CHASSIS, answers with those the card owned, and raises
CLAIM_LOST for them on the card port alone; it is refused from the card port or with an empty mask. -/
def Obligations.BreakTakesForChassis : Prop :=
  ∀ (m : Mask) (s : State),
    (∃ t, exec (.breakClaim .card m) s = .next t ∧ s.refused t .card .breakClaim .privilege) ∧
    ∃ t, exec (.breakClaim .chassis m) s = .next t ∧
      (m = 0 → s.refused t .chassis .breakClaim .badRange) ∧
      (m ≠ 0 →
        ∃ broken : Mask,
          (∀ i, inMask broken i = true ↔ inMask m i = true ∧ (s.entry i).owner = .card) ∧
          t.chassisPort = { s.chassisPort with response := some ⟨34, .ok, .mask broken⟩ } ∧
          t.cardPort =
            (if broken = 0 then s.cardPort
             else { s.cardPort with notices := s.cardPort.notices.raise (.claimLost broken) }) ∧
          (∀ i, t.entry i = if inMask m i = true then { s.entry i with owner := .chassis } else s.entry i) ∧
          t = { s with table := t.table, cardPort := t.cardPort, chassisPort := t.chassisPort })

/-- R24: only CLAIM, RELEASE, BREAK and a part reset change an owner. -/
def Obligations.OnlyClaimsChangeOwners : Prop :=
  ∀ (c : Instr) (s t : State), exec c s = .next t →
    (∀ p m k, c ≠ .claim p m k) → (∀ p m, c ≠ .release p m) → (∀ p m, c ≠ .breakClaim p m) → (∀ n, c ≠ .partReset n) →
    ∀ i, (t.entry i).owner = (s.entry i).owner

/-! ### Guard ranges -/

/-- R30, R31, R32: an accepted GUARD guards exactly its rows besides those guarded before, an accepted UNGUARD leaves guarded
exactly those outside its rows; each keeps the ranges canonical, answers with them, and touches nothing else. -/
def Obligations.GuardAndUnguardChangeRows : Prop :=
  ∀ (i : Fin 64) (a b : Nat) (d : Descriptor) (s : State),
    (s.entry i).owner = .card → (s.entry i).descriptor = some d → (s.entry i).state ≠ .vacant →
    (s.entry i).state.busy = false → a ≤ b → b < d.rows → (s.entry i).guardsSound →
    ((addRange (s.entry i).guards ⟨a, b⟩).length ≤ 4 →
      ∃ t gs, exec (.guard .card i.val a b) s = .next t ∧ t.entry i = { s.entry i with guards := gs } ∧
        (t.entry i).guardsSound ∧ (∀ r, guarded gs r = true ↔ guarded (s.entry i).guards r = true ∨ (a ≤ r ∧ r ≤ b)) ∧
        s.answered t .card .guard .ok (.guards gs) ∧ s.othersKept t i ∧
        t = { s with table := t.table, cardPort := t.cardPort }) ∧
    ((removeRange (s.entry i).guards a b).length ≤ 4 →
      ∃ t gs, exec (.unguard .card i.val a b) s = .next t ∧ t.entry i = { s.entry i with guards := gs } ∧
        (t.entry i).guardsSound ∧ (∀ r, guarded gs r = true ↔ guarded (s.entry i).guards r = true ∧ ¬(a ≤ r ∧ r ≤ b)) ∧
        s.answered t .card .unguard .ok (.guards gs) ∧ s.othersKept t i ∧
        t = { s with table := t.table, cardPort := t.cardPort })

/-- R3, R31, R32, R33, R116: a device GUARD on an UP link acts as GUARD or UNGUARD on the instance it names, with no ownership check and no answer;
a memory id that names none is answered with REJECT UNKNOWN, a busy instance with BUSY, a bad range with BAD_RANGE, and a change that would leave
more than four ranges with GUARD_FULL. -/
def Obligations.DeviceGuardChangesRows : Prop :=
  ∀ (l : Fin 4) (m : Fin 256) (a b : Nat) (set : Bool) (s : State), s.linkUp l = true →
    let rejected (why : RejectReason) : Prop :=
      exec (.deviceGuard l m a b set) s = .next (s.setLink l { s.link l with sent := (s.link l).sent ++ [.reject m why] })
    ((∀ i, ¬s.namedBy l m i) → rejected .unknown) ∧
    ∀ (i : Fin 64) (d : Descriptor), s.names l m i → (s.entry i).descriptor = some d →
      let after := if set then addRange (s.entry i).guards ⟨a, b⟩ else removeRange (s.entry i).guards a b
      ((s.entry i).state.busy = true → rejected .busy) ∧
      ((s.entry i).state.busy = false → b < a ∨ d.rows ≤ b → rejected .badRange) ∧
      ((s.entry i).state.busy = false → a ≤ b → b < d.rows → 4 < after.length → rejected .guardFull) ∧
      ((s.entry i).state.busy = false → a ≤ b → b < d.rows → (s.entry i).guardsSound → after.length ≤ 4 →
        ∃ gs, exec (.deviceGuard l m a b set) s = .next (s.setEntry i { s.entry i with guards := gs }) ∧
          ({ s.entry i with guards := gs } : Entry).guardsSound ∧
          ∀ r, guarded gs r = true ↔
            if set then guarded (s.entry i).guards r = true ∨ (a ≤ r ∧ r ≤ b)
            else guarded (s.entry i).guards r = true ∧ ¬(a ≤ r ∧ r ≤ b))

/-- R30: every step keeps the guard ranges of every instance canonical: at most four, sorted, inside the instance's rows, none
overlapping or adjacent; and none without a descriptor. -/
def Obligations.StepKeepsGuardsSound : Prop :=
  ∀ s t : State, s.GuardsSound → step s = .next t → t.GuardsSound

/-! ### The Sequence Library -/

/-- R41, R47, R48, R49: a load of legal records at indices that no instance references writes record k at index start + k, as its fields say,
and nothing else of the library, and answers with the number written. (Skip-set bits above 3: notes/assumptions/18.md.) -/
def Obligations.LoadsWriteTheLibrary : Prop :=
  (∀ (start : Nat) (rs : List RawElement) (s : State),
    1 ≤ rs.length → rs.length ≤ 16 → 33 ≤ start → start + rs.length ≤ 256 → (∀ r ∈ rs, legalElement r) →
    (∀ i k, start ≤ k → k < start + rs.length → ¬s.holdsRecord i k) →
    ∃ t, exec (.loadElements .card start rs) s = .next t ∧
      (∀ k r, rs[k]? = some r → spellsElement r (t.element (start + k))) ∧
      (∀ k, k < start ∨ start + rs.length ≤ k → t.element k = s.element k) ∧
      s.answered t .card .loadElements .ok (.written rs.length) ∧
      t = { s with elements := t.elements, cardPort := t.cardPort }) ∧
  ∀ (start : Nat) (rs : List RawDirectoryEntry) (s : State),
    1 ≤ rs.length → rs.length ≤ 8 → 6 ≤ start → start + rs.length ≤ 32 → (∀ r ∈ rs, legalDirectoryEntry r) →
    (∀ i, ∀ q : Fin 32, start ≤ q.val → q.val < start + rs.length → ¬s.holdsSequence i q) →
    ∃ t, exec (.loadDirectory .card start rs) s = .next t ∧
      (∀ (q : Fin 32) (k : Nat) r, q.val = start + k → rs[k]? = some r → spellsDirectoryEntry r (t.directoryEntry q)) ∧
      (∀ q : Fin 32, q.val < start ∨ start + rs.length ≤ q.val → t.directoryEntry q = s.directoryEntry q) ∧
      s.answered t .card .loadDirectory .ok (.written rs.length) ∧
      t = { s with directory := t.directory, cardPort := t.cardPort }

/-- R49: a load that would write a referenced index is refused with LIBRARY_BUSY, its response carries the mask of the instances
that hold the reference, and the library stands. An instance with a job holds the sequence of its job and that of its follow-up, and every
element within them; another holds none. -/
def Obligations.BusyLibraryRefusesLoads : Prop :=
  (∀ (start : Nat) (rs : List RawElement) (i : Fin 64) (k : Nat) (s : State),
    rs.length ≤ 16 → 33 ≤ start → start + rs.length ≤ 256 → (∀ r ∈ rs, legalElement r) →
    start ≤ k → k < start + rs.length → s.holdsRecord i k →
    ∃ t holders, exec (.loadElements .card start rs) s = .next t ∧
      (∀ j, inMask holders j = true ↔ ∃ n, start ≤ n ∧ n < start + rs.length ∧ s.holdsRecord j n) ∧
      s.answered t .card .loadElements .libraryBusy (.mask holders) ∧ t = { s with cardPort := t.cardPort }) ∧
  ∀ (start : Nat) (rs : List RawDirectoryEntry) (i : Fin 64) (q : Fin 32) (s : State),
    rs.length ≤ 8 → 6 ≤ start → start + rs.length ≤ 32 → (∀ r ∈ rs, legalDirectoryEntry r) →
    start ≤ q.val → q.val < start + rs.length → s.holdsSequence i q →
    ∃ t holders, exec (.loadDirectory .card start rs) s = .next t ∧
      (∀ j, inMask holders j = true ↔ ∃ n : Fin 32, start ≤ n.val ∧ n.val < start + rs.length ∧ s.holdsSequence j n) ∧
      s.answered t .card .loadDirectory .libraryBusy (.mask holders) ∧ t = { s with cardPort := t.cardPort }

/-- R40, R45, R46: every step keeps the built-in elements 0 to 32 and directory entries 0 to 5. -/
def Obligations.StepKeepsBuiltInLibrary : Prop :=
  ∀ s t : State, s.LibraryFixed → step s = .next t → t.LibraryFixed

/-! ### Ports and frames -/

/-- R12, R17, R20, R25, R28, R29, R31, R32, R47, R48, R49, R55, R59, R77, R152, R163, R165, R168, R169, R170, R172: a request is answered at
the port that sent it, under its own code, and the other port's response stands. The first of its checks that fails (`State.refusals`) gives the
status and the request changes nothing else; if none fails the status is OK. (Two of the checks are the model's choice, notes/assumptions/18.md: a
LIBRARY selector above 1 is BAD_RANGE, and so is a set skip-set bit above 3 in a record of LOAD_ELEMENTS.) -/
def Obligations.RequestsAnsweredOrRefused : Prop :=
  ∀ (c : Instr) (p : Port) (k : RequestKind) (s : State), requestKindOf c = some (p, k) →
    ∃ t r, exec c s = .next t ∧ (t.port p).response = some r ∧ r.code = k.code ∧
      (t.port (otherPort p)).response = (s.port (otherPort p)).response ∧
      (∀ st, refusedBy (s.refusals c) st →
        r.status = st ∧ (st ≠ .libraryBusy → r.payload = .empty) ∧
          t = s.setPort p { s.port p with response := some r }) ∧
      ((∀ st, ¬refusedBy (s.refusals c) st) → r.status = .ok)

/-- R168, R169: a frame that fails a check is answered with the check's status under its code as received, and changes nothing
else; a read transfer, and a frame that passes, are no BAD_FRAME event (notes/assumptions/13.md). -/
def Obligations.BadFramesAreRefused : Prop :=
  ∀ (p : Port) (bs : List Byte) (s : State),
    let length : Nat := numberOf ((bs.drop 1).take 2)
    let field : Nat := numberOf (bs.drop (bs.length - 2))
    let intact : Prop :=
      5 ≤ bs.length ∧ length ≤ 1024 ∧ bs.length = length + 5 ∧ (crc16 (bs.take (bs.length - 2))).toNat = field
    let reply (st : Status) : State := s.setPort p { s.port p with response := some ⟨bs.headD 0, st, .empty⟩ }
    (p = .card ∧ bs.headD 0 = 0 → exec (.badFrame p bs) s = .next s) ∧
    (¬(p = .card ∧ bs.headD 0 = 0) →
      (¬intact → exec (.badFrame p bs) s = .next (reply .badFrame)) ∧
      (intact → requestOf (bs.headD 0) = none → exec (.badFrame p bs) s = .next (reply .badRequest)) ∧
      ∀ k, intact → requestOf (bs.headD 0) = some k →
        (admits k ((bs.drop 3).take length) = false → exec (.badFrame p bs) s = .next (reply .badFrame)) ∧
        (admits k ((bs.drop 3).take length) = true → exec (.badFrame p bs) s = .next s))

/-- R169, section 11.5: the frame of every well-formed request is read back as that request, with every operand. -/
def Obligations.FramesCarryEveryRequest : Prop :=
  ∀ (i : Instr) (p : Port) (k : RequestKind), requestKindOf i = some (p, k) → i.wf = true →
    frameCommand p (requestFrame k (payloadOf i)) = some i

/-- R118, R134, R148, R170: STATUS, FAILS and MAP report the instance as it stands and change only the port's response. A RUNNING
instance's position is its engine's (R81). Between the settling of a job and the first dispatch of the follow-up taken there, STATUS shows the
settled job's verdict reason (`settledReason`: notes/assumptions/27.md). -/
def Obligations.InstanceReadsReport : Prop :=
  ∀ (p : Port) (i : Fin 64) (start : Nat) (s : State),
    let e := s.entry i
    let reply (k : RequestKind) (pl : Payload) : State := s.setPort p { s.port p with response := some ⟨k.code, .ok, pl⟩ }
    (∃ run reason, exec (.status p i.val) s =
        .next (reply .status
          (.status ⟨e.descriptor, e.state, e.owner, e.live, e.flags, reason, run, e.followUp, e.absorbed, e.startStamp,
            e.endStamp, e.rowSpares, e.columnSpares, e.guards, e.suspending⟩)) ∧
      reason = (if e.state = .queued ∧ e.run.runCount = 0 then e.settledReason else e.reason) ∧
      (e.state ≠ .running → run = e.run) ∧
      ∀ n x, e.state = .running → s.engineOf i = some n → (s.engine n).position = some x →
        run = { e.run with position := x }) ∧
    exec (.fails p i.val start) s =
      .next (reply .fails (.fails ((e.failLog.drop start).take 8) e.failLog.length s.poolFree)) ∧
    exec (.map p i.val) s = .next (reply .map (.map e.repairMap e.rowSpares e.columnSpares))

/-- R49, R55, R57, R65, R79, R98, R151: QUEUE (in dispatch order), ENGINES, LINKS, LIBRARY and TIME report the part as it stands and
change only the port's response. -/
def Obligations.PartReadsReport : Prop :=
  ∀ (p : Port) (s : State),
    let reply (k : RequestKind) (pl : Payload) : State := s.setPort p { s.port p with response := some ⟨k.code, .ok, pl⟩ }
    (∃ l : List QueueEntry, exec (.queue p) s = .next (reply .queue (.queue l)) ∧ l.Perm s.workQueue ∧
      l.Pairwise s.goesBefore) ∧
    (∃ l : List EngineReport, exec (.engines p) s = .next (reply .engines (.engines l)) ∧ l.length = 6 ∧
      ∀ e : Fin 6, l[e.val]? =
        some ⟨(s.engine e).state, (s.engine e).current, (s.engine e).inFlight.length, (s.engine e).loadOutstanding,
          (s.engine e).drainReason, (s.engine e).held, (s.engine e).waitingLink, (s.engine e).stack⟩) ∧
    (∃ l : List LinkReport, exec (.links p) s = .next (reply .links (.links l)) ∧ l.length = 4 ∧
      ∀ n : Fin 4, l[n.val]? =
        some ⟨(s.link n).down, (s.link n).tags.length, (s.link n).slots.length, (s.link n).pulls⟩) ∧
    (∀ (q : Fin 32) (count : Nat), ∃ referenced : Bool, (referenced = true ↔ ∃ i, s.holdsSequence i q) ∧
      exec (.library p 0 q.val count) s = .next (reply .library (.directoryEntry (s.directoryEntry q) referenced))) ∧
    (∀ first count : Nat, 1 ≤ count → count ≤ 16 → first + count ≤ 256 →
      ∃ referenced : Nat → Bool, (∀ k, referenced k = true ↔ ∃ i, s.holdsRecord i k) ∧
        exec (.library p 1 first count) s =
          .next (reply .library
            (.elements ((List.range count).map fun k => (s.element (first + k), referenced (first + k)))))) ∧
    exec (.time p) s = .next (reply .time (.time s.now s.cardDeadline s.chassisDeadline))

/-- R172: TAKE_NOTICE removes the notice of its kind from the port's set and returns it; an absent kind is answered with no
content and leaves the set; a bad kind is refused. CLAIM_LOST is never present at the chassis port while R171 keeps it away. -/
def Obligations.TakeNoticeRemovesItsKind : Prop :=
  ∀ (p : Port) (n : Nat) (s : State), ∃ t, exec (.takeNotice p n) s = .next t ∧
    (n = 0 ∨ 7 < n → s.refused t p .takeNotice .badRange) ∧
    (∀ k : NoticeKind, k.code = n →
      (t.port p).response = some ⟨112, .ok, .notice ((s.port p).notices.get k)⟩ ∧ (t.port p).notices.get k = none ∧
      (∀ j, j ≠ k → (t.port p).notices.get j = (s.port p).notices.get j) ∧
      ((s.port p).notices.get k = none → (t.port p).notices = (s.port p).notices) ∧
      (s.LostOnCardOnly → p = .chassis → k = .claimLost → (s.port p).notices.get k = none) ∧
      t = s.setPort p { s.port p with response := (t.port p).response, notices := (t.port p).notices })

/-- R173: NOTICE_MASK replaces the port's mask (bit 0 is ignored, notes/assumptions/18.md), and answers with the mask, the kinds
present and the line, which is asserted exactly while an enabled kind is present. -/
def Obligations.NoticeMaskDrivesTheLine : Prop :=
  ∀ (p : Port) (m : Byte) (s : State), ∃ t kinds line, exec (.noticeMask p m) s = .next t ∧
    t = s.setPort p { s.port p with mask := m &&& 254, response := some ⟨113, .ok, .noticeMask (m &&& 254) kinds line⟩ } ∧
    (∀ k : NoticeKind, kinds.getLsbD k.code = ((s.port p).notices.get k).isSome) ∧ kinds.getLsbD 0 = false ∧
    (line = true ↔ ∃ k : NoticeKind, ((s.port p).notices.get k).isSome = true ∧ m.getLsbD k.code = true) ∧
    (t.port p).line = line

/-! ### The life cycle -/

/-- R12, R13, R114: an accepted DEFINE resets the entry to its descriptor, returns its fail records, keeps the owner, and answers a
pending pull of a changed link or memory id with UNKNOWN on the link it stood on. -/
def Obligations.DefineResetsTheEntry : Prop :=
  ∀ (i : Fin 64) (raw : RawDescriptor) (s : State),
    (s.entry i).owner = .card → (s.entry i).state.busy = false → (s.entry i).live = false → legalDescriptor raw →
    (∃ k, memKindOf raw.kind = some k ∧ s.runnable raw.defaultSequence k) →
    (∀ j, j ≠ i → (s.entry j).state ≠ .vacant → ∀ x, (s.entry j).descriptor = some x →
      ¬(x.link.val = raw.link ∧ x.memId.val = raw.memId)) →
    ∃ t d o, exec (.define .card i.val raw) s = .next t ∧ spellsDescriptor raw d ∧
      t.entry i =
        { descriptor := some d, state := .defined, owner := .card, live := false,
          flags := ⟨o == .storeLost, o == .signatureMismatch, false, false⟩, reason := .none,
          run := ⟨none, none, 0, ⟨0, 0, 0, .loadPending⟩⟩, followUp := none, absorbed := 0, startStamp := none,
          endStamp := none, rowSpares := (t.entry i).rowSpares, columnSpares := (t.entry i).columnSpares, guards := [],
          suspending := none, repairMap := (t.entry i).repairMap, failLog := [], settledReason := .none } ∧
      t.poolFree = s.poolFree + (s.entry i).failLog.length ∧ s.answered t .card .define .ok (.define o) ∧
      s.othersKept t i ∧
      ((∀ old, (s.entry i).descriptor = some old → i ∈ (s.link old.link).pulls → old.link = d.link ∧ old.memId = d.memId) →
        ∀ l, t.link l = s.link l) ∧
      (∀ old, (s.entry i).descriptor = some old → i ∈ (s.link old.link).pulls → s.linkUp old.link = true →
        ¬(old.link = d.link ∧ old.memId = d.memId) →
        s.otherLinksKept t old.link ∧
          t.link old.link =
            { s.link old.link with
              pulls := (s.link old.link).pulls.filter (· != i)
              sent := (s.link old.link).sent ++ [.mapOffer old.memId .unknown false none] }) ∧
      t = { s with table := t.table, poolFree := t.poolFree, linkTable := t.linkTable, cardPort := t.cardPort }

/-- R14, R162: the DEFINE loads the store section of its index and reports the outcome. An EMPTY section, a check-failed one (by
its check value or unfit for the descriptor) and one of another signature leave the map empty and the spares FREE; a matched one
gives a STORED, UNVERIFIED record for each stored record, in map order, with the spares they name USED. (That a failed check
outranks EMPTY: notes/assumptions/17.md.) -/
def Obligations.DefineLoadsTheSection : Prop :=
  ∀ (i : Fin 64) (raw : RawDescriptor) (s : State),
    (s.entry i).owner = .card → (s.entry i).state.busy = false → (s.entry i).live = false → legalDescriptor raw →
    (∃ k, memKindOf raw.kind = some k ∧ s.runnable raw.defaultSequence k) →
    (∀ j, j ≠ i → (s.entry j).state ≠ .vacant → ∀ x, (s.entry j).descriptor = some x →
      ¬(x.link.val = raw.link ∧ x.memId.val = raw.memId)) →
    ∃ t o, exec (.define .card i.val raw) s = .next t ∧ s.answered t .card .define .ok (.define o) ∧
      (let e := t.entry i
       let c := s.storeSection i
       let nothingLoaded : Prop :=
         e.repairMap = [] ∧ e.rowSpares = List.replicate raw.spareRows .free ∧
           e.columnSpares = List.replicate raw.spareColumns .free
       let fits (r : StoredRecord) : Prop :=
         match r.kind with
         | .row => r.line < raw.rows ∧ r.spare < raw.spareRows
         | .column => r.line < raw.columns ∧ r.spare < raw.spareColumns
       let fit (m : StoredMap) : Prop :=
         (∀ r ∈ m.records, fits r) ∧ m.records.Pairwise fun a b => a.kind = b.kind → a.spare ≠ b.spare ∧ a.line ≠ b.line
       let usedBy (m : StoredMap) (k : LineKind) (n : Nat) : Prop := ∃ r ∈ m.records, r.kind = k ∧ r.spare = n
       (c.intact = false → o = .storeLost ∧ nothingLoaded) ∧
       (c.intact = true → c.written = none → o = .empty ∧ nothingLoaded) ∧
       ∀ m, c.intact = true → c.written = some m →
         (¬fit m → o = .storeLost ∧ nothingLoaded) ∧
         (fit m → m.signature ≠ raw.signature → o = .signatureMismatch ∧ nothingLoaded) ∧
         (fit m → m.signature = raw.signature →
           o = .loaded m.records.length ∧
           e.repairMap.Perm (m.records.map fun r => ⟨r.kind, r.line, r.spare, .stored, false, false⟩) ∧
           e.repairMap.Pairwise (fun a b => a.before b = true) ∧
           e.rowSpares.length = raw.spareRows ∧ e.columnSpares.length = raw.spareColumns ∧
           (∀ n, n < raw.spareRows → (e.rowSpares[n]? = some .used ↔ usedBy m .row n)) ∧
           (∀ n, n < raw.spareColumns → (e.columnSpares[n]? = some .used ↔ usedBy m .column n)) ∧
           (∀ x ∈ e.rowSpares, x ≠ .bad) ∧ ∀ x ∈ e.columnSpares, x ≠ .bad))

/-- R17, R18, R19, R73, R74: an accepted RETIRE of an instance that is not RUNNING makes it RETIRED at once: out of its holder, follow-up,
live flag, suspending engine and verdict reason gone, end stamp set; with its link UP one FENCE is sent, which also answers its pending pull;
VERDICT is raised on both ports. The engine of a SUSPENDED one then turns: one in WAITING_SLOT whose top is removed turns to the next of its
stack. -/
def Obligations.RetireWithoutRunIsAtOnce : Prop :=
  ∀ (p : Port) (i : Fin 64) (d : Descriptor) (s : State),
    (p = .card → (s.entry i).owner = .card ∧ (s.entry i).live = false) → (s.entry i).descriptor = some d →
    (s.entry i).state ≠ .vacant → (s.entry i).state ≠ .running →
    ((∀ e, (s.entry i).suspending = some e → (s.engine e).hasRun) →
      ∃ t, exec (.retire p i.val) s = .next t ∧
        t.entry i =
          { s.entry i with
            state := .retired, live := false, followUp := none, suspending := none, reason := .none,
            endStamp := some s.now } ∧
        s.othersKept t i ∧ s.toldAndAnswered t (.verdict (maskBit i)) p .retire (.retire .retired) ∧
        s.otherLinksKept t d.link ∧
        (t.link d.link).sent = (s.link d.link).sent ++ (if s.linkUp d.link = true then [.fence d.memId] else []) ∧
        (t.link d.link).pulls =
          (if s.linkUp d.link = true then (s.link d.link).pulls.filter (· != i) else (s.link d.link).pulls) ∧
        (t.link d.link).slots =
          (if (s.entry i).state = .queued then slotsWithout (s.link d.link).slots i else (s.link d.link).slots) ∧
        (t.link d.link).down = (s.link d.link).down ∧ (t.link d.link).tags = (s.link d.link).tags ∧
        (t.link d.link).loads = (s.link d.link).loads ∧
        t.workQueue = (if (s.entry i).state = .queued then s.workQueue.filter (·.inst != i) else s.workQueue) ∧
        t.parking = (if (s.entry i).state = .parked then s.parking.filter (·.inst != i) else s.parking) ∧
        t.analysisQueue =
          (if (s.entry i).state = .analysing then s.analysisQueue.filter (·.inst != i) else s.analysisQueue) ∧
        t.analysing =
          (s.analysing && !((s.entry i).state == .analysing && s.analysisQueue.head?.any fun a => a.inst == i)) ∧
        (∀ e, t.engine e =
          if (s.entry i).state = .suspended ∧ (s.entry i).suspending = some e then
            { s.engine e with stack := (s.engine e).stack.filter (· != i) }
          else s.engine e) ∧
        t = { s with
              table := t.table, linkTable := t.linkTable, workQueue := t.workQueue, parking := t.parking,
              analysisQueue := t.analysisQueue, analysing := t.analysing, engineTable := t.engineTable,
              cardPort := t.cardPort, chassisPort := t.chassisPort }) ∧
    ∀ e, (s.entry i).state = .suspended → (s.entry i).suspending = some e → (∀ q ∈ s.workQueue, q.inst ≠ i) →
      let k := s.link d.link
      let told (p : Port) : PortState := { s.port p with notices := (s.port p).notices.raise (.verdict (maskBit i)) }
      let u : State :=
        ((((s.setEntry i
          { s.entry i with
            state := .retired, live := false, followUp := none, suspending := none, reason := .none,
            endStamp := some s.now }).setEngine e
          { s.engine e with stack := (s.engine e).stack.filter (· != i) }).setLink d.link
          (if s.linkUp d.link = true then
            { k with sent := k.sent ++ [.fence d.memId], pulls := k.pulls.filter (· != i) }
          else k)).setPort .card (told .card)).setPort .chassis (told .chassis)
      ∃ v, u.turnsTo e v ∧
        exec (.retire p i.val) s = .next (v.setPort p { v.port p with response := some ⟨17, .ok, .retire .retired⟩ })

/-- R20, R21, R22, R74, R93, R162: REQUALIFY from the chassis port acts on every instance not VACANT, RETIRED, live or draining for RETIRE. One
without a run leaves its holder and is reset, with its section loaded, and DEFINED. A RUNNING one's follow-up goes and its engine drains for
REQUALIFY, keeping the section as it stands now (notes/assumptions/26.md); a run with nothing outstanding ends its drain, and is reset, at
once. The engines then turn in number order (notes/assumptions/3.md). -/
def Obligations.RequalifyResetsInstances : Prop :=
  ∀ (s : State), (∀ i, (s.entry i).state = .running → ∃ e, s.engineOf i = some e) →
    (∀ i, (s.entry i).state ≠ .vacant → ∃ d, (s.entry i).descriptor = some d) →
    ∃ (u v : State) (requalified skipped : Mask),
      exec (.requalify .chassis) s =
        .next (v.setPort .chassis { v.chassisPort with response := some ⟨18, .ok, .requalify requalified skipped⟩ }) ∧
      u.turnAllTo v ∧ (∀ i, inMask skipped i = true ↔ (s.entry i).live = true) ∧
      (∀ i, inMask requalified i = true ↔
        (s.entry i).state ≠ .vacant ∧ (s.entry i).state ≠ .retired ∧ (s.entry i).live = false ∧
          ¬((s.entry i).state = .running ∧
            ∃ e, s.engineOf i = some e ∧ (s.engine e).state = .draining ∧ (s.engine e).drainReason = some .retire)) ∧
      (let acted (st : InstState) (i : Fin 64) : Bool := inMask requalified i && (s.entry i).state == st
       let ended (i : Fin 64) : Bool := acted .running i && (s.engineOf i).any fun e => (s.engine e).endsNow
       let reset (i : Fin 64) : Bool := inMask requalified i && ((s.entry i).state != .running || ended i)
       let stack (e : Fin 6) : List (Fin 64) :=
         (s.engine e).stack.filter fun j => !(acted .suspended j && (s.entry j).suspending == some e)
       (∀ i, inMask requalified i = false → u.entry i = s.entry i) ∧
       (∀ i, inMask requalified i = true → reset i = false → u.entry i = { s.entry i with followUp := none }) ∧
       (∀ i d, reset i = true → (s.entry i).descriptor = some d →
         (s.entry i).requalifiedTo (s.storeSection i) d (u.entry i)) ∧
       u.poolFree = s.poolFree + (((List.finRange 64).filter reset).map fun i => (s.entry i).failLog.length).sum ∧
       u.workQueue = s.workQueue.filter (fun q => !acted .queued q.inst) ∧
       u.parking = s.parking.filter (fun q => !acted .parked q.inst) ∧
       u.analysisQueue = s.analysisQueue.filter (fun a => !acted .analysing a.inst) ∧
       u.analysing = (s.analysing && !s.analysisQueue.head?.any fun a => acted .analysing a.inst) ∧
       (∀ e, (∀ i, acted .running i = true → s.engineOf i ≠ some e) → u.engine e = { s.engine e with stack := stack e }) ∧
       (∀ e i, acted .running i = true → s.engineOf i = some e →
         u.engine e =
           if ended i then { Engine.reset with stack := stack e }
           else
             { (s.engine e).drainRequested .requalify with
               stack := stack e
               reload :=
                 if (s.engine e).state = .draining ∧ (s.engine e).drainReason = some .requalify then (s.engine e).reload
                 else some (s.storeSection i) }) ∧
       (∀ l, u.link l =
         { s.link l with
           slots :=
             (s.link l).slots.filter fun h => !((acted .queued h.inst || ended h.inst) && s.linkOf h.inst == some l) })) ∧
      u = { s with
            table := u.table, poolFree := u.poolFree, workQueue := u.workQueue, parking := u.parking,
            analysisQueue := u.analysisQueue, analysing := u.analysing, engineTable := u.engineTable,
            linkTable := u.linkTable }

/-! ### The Work Queue, TEST and STOP -/

/-- R60, R61: an accepted TEST of an instance without a job begins a new one: a Work Queue entry with the fields of R58, run count
0, run class absent, PARTIAL and UNTESTED clear, no verdict reason; map, spares, fail log and stamps stand. -/
def Obligations.TestBeginsNewJob : Prop :=
  ∀ (p : Port) (i : Fin 64) (named : Option Nat) (urgent : Bool) (d : Descriptor) (q : Fin 32) (s : State),
    (s.entry i).owner = portOwner p → (s.entry i).descriptor = some d →
    (s.entry i).state = .defined ∨ (s.entry i).state.usable = true ∨ (s.entry i).state = .unrepairable →
    (s.entry i).live = false → q.val = named.getD d.defaultSequence.val → s.runnable q.val d.kind →
    s.linkUp d.link = true →
    ∃ t, exec (.test p i.val named urgent.toNat) s = .next t ∧
      t.entry i =
        { s.entry i with
          state := .queued
          run := { (s.entry i).run with jobSequence := some q, runCount := 0, runClass := none }
          flags := { (s.entry i).flags with partialRun := false, untested := false }
          reason := .none
          settledReason := .none } ∧
      s.othersKept t i ∧
      t.workQueue =
        s.workQueue ++ [⟨i, q, if urgent then .urgent else .normal, portRequester p, s.now, none⟩] ∧
      s.answered t p .test .ok (.test .queued) ∧
      t = { s with table := t.table, workQueue := t.workQueue, cardPort := t.cardPort, chassisPort := t.chassisPort }

/-- R60, R62, R63: an accepted TEST of an instance with a job merges into its NORMAL or URGENT entry, which keeps its arrival stamp,
requester and reserved engine, or else replaces the follow-up; the absorbed count rises by 1 up to 255, and the current work is not
disturbed. -/
def Obligations.TestOfBusyInstance : Prop :=
  ∀ (p : Port) (i : Fin 64) (named : Option Nat) (urgent : Bool) (d : Descriptor) (q : Fin 32) (s : State),
    (s.entry i).owner = portOwner p → (s.entry i).descriptor = some d → (s.entry i).state.busy = true →
    (s.entry i).live = false → q.val = named.getD d.defaultSequence.val → s.runnable q.val d.kind →
    s.linkUp d.link = true →
    let absorbed : Nat := if (s.entry i).absorbed < 255 then (s.entry i).absorbed + 1 else 255
    (∀ x, (s.entry i).state = .queued → s.queueEntry i = some x → x.cls = .normal ∨ x.cls = .urgent →
      ∃ t, exec (.test p i.val named urgent.toNat) s = .next t ∧
        t.entry i = { s.entry i with run := { (s.entry i).run with jobSequence := some q }, absorbed := absorbed } ∧
        s.othersKept t i ∧
        t.workQueue =
          s.workQueue.map (fun y =>
            if y.inst = i then { y with sequence := q, cls := if urgent then .urgent else y.cls } else y) ∧
        s.answered t p .test .ok (.test .merged) ∧
        t = { s with table := t.table, workQueue := t.workQueue, cardPort := t.cardPort, chassisPort := t.chassisPort }) ∧
    ((s.entry i).state ≠ .queued ∨ (∃ x, s.queueEntry i = some x ∧ (x.cls = .wake ∨ x.cls = .verify)) →
      ∃ t, exec (.test p i.val named urgent.toNat) s = .next t ∧
        t.entry i =
          { s.entry i with
            followUp := some ⟨q, if urgent then .urgent else .normal, p⟩, absorbed := absorbed } ∧
        s.othersKept t i ∧ s.answered t p .test .ok (.test .followUp) ∧
        t = { s with table := t.table, cardPort := t.cardPort, chassisPort := t.chassisPort })

/-- R15, R73, R74, R77, R78, R137: STOP of a QUEUED, SUSPENDED or PARKED instance cuts it short at once: out of its holder, its follow-up
gone, ANALYSING at the tail of the Analysis Queue with PARTIAL and reason STOP, fresh unless it was QUEUED without a WAKE entry. The engine of
a SUSPENDED one then turns: one in WAITING_SLOT whose top is removed turns to the next of its stack. -/
def Obligations.StopCutsShortWaitingJob : Prop :=
  ∀ (p : Port) (i : Fin 64) (s : State), (s.entry i).owner = portOwner p →
    ((s.entry i).state = .queued ∨ (s.entry i).state = .suspended ∨ (s.entry i).state = .parked →
      (∀ e, (s.entry i).suspending = some e → (s.engine e).hasRun) →
      ∃ t, exec (.stop p i.val) s = .next t ∧
        t.entry i =
          { s.entry i with
            state := .analysing, flags := { (s.entry i).flags with partialRun := true }, reason := .stop, followUp := none,
            suspending := if (s.entry i).state = .suspended then none else (s.entry i).suspending } ∧
        s.othersKept t i ∧
        t.analysisQueue =
          s.analysisQueue ++
            [⟨i, (s.entry i).state != .queued || (s.queueEntry i).any fun x => x.cls == .wake⟩] ∧
        t.workQueue = (if (s.entry i).state = .queued then s.workQueue.filter (·.inst != i) else s.workQueue) ∧
        t.parking = (if (s.entry i).state = .parked then s.parking.filter (·.inst != i) else s.parking) ∧
        (∀ l, t.link l =
          if (s.entry i).state = .queued ∧ s.linkOf i = some l then
            { s.link l with slots := slotsWithout (s.link l).slots i }
          else s.link l) ∧
        (∀ e, t.engine e =
          if (s.entry i).state = .suspended ∧ (s.entry i).suspending = some e then
            { s.engine e with stack := (s.engine e).stack.filter (· != i) }
          else s.engine e) ∧
        s.answered t p .stop .ok (.stop .cutShort) ∧
        t = { s with
              table := t.table, workQueue := t.workQueue, parking := t.parking, analysisQueue := t.analysisQueue,
              linkTable := t.linkTable, engineTable := t.engineTable, cardPort := t.cardPort, chassisPort := t.chassisPort }) ∧
    ∀ e, (s.entry i).state = .suspended → (s.entry i).suspending = some e →
      let u : State :=
        { (s.setEntry i
            { s.entry i with
              state := .analysing, flags := { (s.entry i).flags with partialRun := true }, reason := .stop,
              followUp := none, suspending := none }).setEngine e
            { s.engine e with stack := (s.engine e).stack.filter (· != i) } with
          analysisQueue := s.analysisQueue ++ [⟨i, true⟩] }
      ∃ v, u.turnsTo e v ∧
        exec (.stop p i.val) s = .next (v.setPort p { v.port p with response := some ⟨20, .ok, .stop .cutShort⟩ })

/-- R18, R77, R93: STOP and RETIRE of a RUNNING instance empty its follow-up slot (RETIRE clears the live flag) and request a drain, answered
DRAINING. Where nothing is outstanding the drain ends at that moment: the command comes to what DRAIN_END does in the state with the drain
requested, and its answer (RETIRE's is then RETIRED: the model's reading, notes/assumptions/16.md). STOP of an ANALYSING instance empties the
follow-up slot alone. -/
def Obligations.StopAndRetireDrainRuns : Prop :=
  ∀ (p : Port) (i : Fin 64) (s : State),
    (∀ e, (s.entry i).state = .running → s.engineOf i = some e →
      ((s.entry i).owner = portOwner p →
        let stopped : State :=
          (s.setEntry i { s.entry i with followUp := none }).setEngine e ((s.engine e).drainRequested (.cut .stop))
        let reply (t : State) : State := t.setPort p { t.port p with response := some ⟨20, .ok, .stop .draining⟩ }
        ((s.engine e).endsNow = false → exec (.stop p i.val) s = .next (reply stopped)) ∧
        ((s.engine e).endsNow = true →
          ∃ t, exec (.drainEnd e) stopped = .next t ∧ exec (.stop p i.val) s = .next (reply t))) ∧
      ((p = .card → (s.entry i).owner = .card ∧ (s.entry i).live = false) →
        let retired : State :=
          (s.setEntry i { s.entry i with followUp := none, live := false }).setEngine e
            ((s.engine e).drainRequested .retire)
        let reply (t : State) (x : RetireDisposition) : State :=
          t.setPort p { t.port p with response := some ⟨17, .ok, .retire x⟩ }
        ((s.engine e).endsNow = false → exec (.retire p i.val) s = .next (reply retired .draining)) ∧
        ((s.engine e).endsNow = true →
          ∃ t, exec (.drainEnd e) retired = .next t ∧
            exec (.retire p i.val) s =
              .next (reply t (if (t.entry i).state = .retired then .retired else .draining))))) ∧
    ((s.entry i).state = .analysing → (s.entry i).owner = portOwner p →
      ∃ t, exec (.stop p i.val) s = .next t ∧ t.entry i = { s.entry i with followUp := none } ∧ s.othersKept t i ∧
        s.answered t p .stop .ok (.stop .followUpCleared) ∧
        t = { s with table := t.table, cardPort := t.cardPort, chassisPort := t.chassisPort })

/-- R93, R95: a drain request turns LOADING and WALKING into DRAINING with its reason, a tag given and not yet used given up
(notes/assumptions/5.md). An engine that drains already keeps PREEMPT and
holds the first cut short; keeps its first cut-short reason; gives way to REQUALIFY and to RETIRE, dropping what it held; keeps
RETIRE always. -/
def Obligations.DrainRequestsFollowTheirReasons : Prop :=
  ∀ (en : Engine),
    (en.state = .loading ∨ en.state = .walking →
      ∀ r, en.drainRequested r = { en with state := .draining, drainReason := some r, given := none }) ∧
    (en.state = .draining →
      (en.drainReason = some .preempt →
        ∀ c, en.drainRequested (.cut c) = { en with held := some (en.held.getD c) }) ∧
      (∀ a c, en.drainReason = some (.cut a) → en.drainRequested (.cut c) = en) ∧
      (en.drainReason = some .requalify → en.drainRequested .requalify = en ∧ ∀ c, en.drainRequested (.cut c) = en) ∧
      (en.drainReason = some .retire → ∀ r, en.drainRequested r = en) ∧
      (en.drainReason ≠ some .retire →
        en.drainRequested .retire = { en with drainReason := some .retire, held := none }) ∧
      (en.drainReason = some .preempt ∨ (∃ a, en.drainReason = some (.cut a)) →
        en.drainRequested .requalify = { en with drainReason := some .requalify, held := none }))

/-! ### Dispatch, preemption, resumption and wakes -/

/-- R65, R66, R67, R82, R84: the eligible entry that goes first in dispatch order is dispatched to the lowest-numbered free engine: it leaves
the queue and the instance runs with a test slot. For a NORMAL, URGENT or VERIFY entry the fail log is emptied, the run context is that of
the class, and the map is sent; for a WAKE entry the engine goes on from the saved position and reaches the element after the HOLD. An entry is eligible when it is not reserved and its link has one of its three slots free, which no engine waits for (the model's reading: notes/assumptions/4.md). -/
def Obligations.DispatchStartsBestEntry : Prop :=
  ∀ (s : State),
    (∀ x, s.eligible x = true ↔
      x.reserved = none ∧ ∃ l, s.linkOf x.inst = some l ∧ (s.link l).slots.length < 3 ∧
        ∀ m, ¬((s.engine m).state = .waitingSlot ∧ (s.engine m).waitingLink = some l)) ∧
    ∀ (e : Fin 6) (q : QueueEntry) (d : Descriptor),
      (s.engine e).state = .idle → (s.engine e).stack = [] →
      (∀ m, m < e → ¬((s.engine m).state = .idle ∧ (s.engine m).stack = [])) →
      q ∈ s.workQueue → s.eligible q = true →
      (∀ x ∈ s.workQueue, s.eligible x = true → x ≠ q → ¬s.goesBefore x q) →
      (s.entry q.inst).descriptor = some d → s.linkUp d.link = true →
      let x := s.entry q.inst
      let slots := (s.link d.link).slots.filter (· != .reserved q.inst) ++ [.running q.inst]
      (q.cls ≠ .wake →
        ∃ t, exec .dispatch s = .next t ∧
          t.entry q.inst =
            { x with
              state := .running
              failLog := []
              startStamp := if q.cls = .verify then x.startStamp else some s.now
              endStamp := if q.cls = .verify then x.endStamp else none
              run :=
                { x.run with
                  runCount := if q.cls = .verify then x.run.runCount + 1 else 1
                  runClass := some (if q.cls = .verify then .verify else if q.cls = .urgent then .urgent else .normal)
                  position := ⟨0, 0, 0, .loadPending⟩ } } ∧
          s.othersKept t q.inst ∧ t.poolFree = s.poolFree + x.failLog.length ∧
          t.workQueue = s.workQueue.filter (·.inst != q.inst) ∧
          t.engine e =
            { s.engine e with
              state := .loading, current := some q.inst, position := some ⟨0, 0, 0, .loadPending⟩, loadOutstanding := true,
              dispatchStamp := some s.now, preemptible := q.cls != .urgent } ∧
          s.otherEnginesKept t e ∧
          t.link d.link =
            { s.link d.link with
              slots := slots
              loads := (s.link d.link).loads ++ [⟨e, d.memId, s.now⟩]
              sent := (s.link d.link).sent ++ [.mapLoad d.memId x.repairMap] } ∧
          s.otherLinksKept t d.link ∧
          t = { s with
                table := t.table, poolFree := t.poolFree, workQueue := t.workQueue, engineTable := t.engineTable,
                linkTable := t.linkTable }) ∧
      (q.cls = .wake →
        let pos := x.run.position
        let u : State :=
          ((({ s with workQueue := s.workQueue.filter (·.inst != q.inst) }.setEntry q.inst { x with state := .running }).setLink
              d.link { s.link d.link with slots := slots }).setEngine e
            { s.engine e with
              state := .walking, current := some q.inst, position := some pos, dispatchStamp := some s.now,
              preemptible := false })
        u.comesToReach e (pos.ordinal + 1) (pos.row, pos.chunk) (exec .dispatch s))

/-- R69, R70, R93: with no engine free, the first unreserved URGENT entry is reserved for the victim among the counted candidates: the worst
priority class, then the latest dispatch, then the highest number. The reservation takes a free slot of its link at once, and the victim
drains with reason PREEMPT; with nothing outstanding the drain ends at that moment, as DRAIN_END ends it. (That a slot an engine waits for is
not free is the model's reading, notes/assumptions/4.md.) -/
def Obligations.PreemptionReservesForVictim : Prop :=
  ∀ (q : QueueEntry) (v : Fin 6) (l : Fin 4) (s : State),
    let counted (e : Fin 6) : Prop :=
      ((s.engine e).state = .loading ∨ (s.engine e).state = .walking) ∧ (s.engine e).preemptible = true ∧
        (s.engine e).stack.length < 3 ∧
        (s.slotFree l = true ∨ ∃ j, (s.engine e).current = some j ∧ s.linkOf j = some l)
    (∀ e, ¬((s.engine e).state = .idle ∧ (s.engine e).stack = [])) →
    q ∈ s.workQueue → q.cls = .urgent → q.reserved = none → s.linkOf q.inst = some l →
    (∀ x ∈ s.workQueue, x.cls = .urgent → x.reserved = none → x ≠ q → ¬s.goesBefore x q) →
    counted v →
    (∀ e, counted e → e ≠ v →
      s.enginePriority e < s.enginePriority v ∨
        (s.enginePriority e = s.enginePriority v ∧
          (s.engineAge v < s.engineAge e ∨ (s.engineAge v = s.engineAge e ∧ e < v)))) →
    let u : State :=
      (({ s with
            workQueue := s.workQueue.map fun (x : QueueEntry) =>
              if x.inst = q.inst then { x with reserved := some v } else x } : State).setEngine v
        { s.engine v with state := .draining, drainReason := some .preempt, given := none }).setLink l
        { s.link l with slots := (s.link l).slots ++ (if s.slotFree l = true then [.reserved q.inst] else []) }
    (s.slotFree l = true ↔
      (s.link l).slots.length < 3 ∧ ∀ m, ¬((s.engine m).state = .waitingSlot ∧ (s.engine m).waitingLink = some l)) ∧
    ((s.engine v).outstanding → exec .preemption s = .next u) ∧
    (¬(s.engine v).outstanding → exec .preemption s = exec (.drainEnd v) u)

/-- R53, R68, R73, R84: an engine in WAITING_SLOT for a link with a slot nobody holds, where no lower-numbered engine waits, resumes the top
instance of its stack. A run suspended inside an element goes on from its saved position; one suspended before its load completed loads
its map again; one suspended at an element's end reaches the next. (That engines which wait at this moment count, and not those which waited at
the slot's release: notes/assumptions/4.md.) -/
def Obligations.ResumeContinuesTopRun : Prop :=
  ∀ (e : Fin 6) (i : Fin 64) (rest : List (Fin 64)) (d : Descriptor) (s : State),
    (s.engine e).state = .waitingSlot → (s.engine e).stack = i :: rest → (s.entry i).descriptor = some d →
    (s.engine e).waitingLink = some d.link → s.linkUp d.link = true → (s.link d.link).slots.length < 3 →
    (∀ m, m < e → ¬((s.engine m).state = .waitingSlot ∧ (s.engine m).waitingLink = some d.link)) →
    let pos := (s.entry i).run.position
    let engine : Engine :=
      { s.engine e with
        state := .walking, current := some i, position := some pos, dispatchStamp := some s.now, preemptible := true,
        waitingLink := none, stack := rest }
    let link : Link :=
      { s.link d.link with slots := (s.link d.link).slots.filter (· != .reserved i) ++ [.running i] }
    let t : State := (s.setEntry i { s.entry i with state := .running, suspending := none }).setEngine e engine
    (pos.mark = .inElement → exec (.resume e) s = .next (t.setLink d.link link)) ∧
    (pos.mark = .loadPending →
      exec (.resume e) s =
        .next
          ((t.setEngine e { engine with state := .loading, loadOutstanding := true }).setLink d.link
            { link with
              loads := link.loads ++ [⟨e, d.memId, s.now⟩]
              sent := link.sent ++ [.mapLoad d.memId (s.entry i).repairMap] })) ∧
    (pos.mark = .elementEnd →
      (t.setLink d.link link).comesToReach e (pos.ordinal + 1) (pos.row, pos.chunk) (exec (.resume e) s))

/-- R58, R76: when the Time Base stands at a parked instance's wake time, its wake makes it QUEUED with a WAKE entry whose arrival stamp is
that time; at another time there is no wake (notes/assumptions/1.md). -/
def Obligations.WakeQueuesParkedRun : Prop :=
  ∀ (i : Fin 64) (s : State),
    (∀ x q, x ∈ s.parking → x.inst = i → x.wake = s.now → (s.entry i).run.jobSequence = some q →
      ∃ t, exec (.wake i) s = .next t ∧ t.entry i = { s.entry i with state := .queued } ∧ s.othersKept t i ∧
        t.parking = s.parking.filter (·.inst != i) ∧ t.workQueue = s.workQueue ++ [⟨i, q, .wake, .part, s.now, none⟩] ∧
        t = { s with table := t.table, parking := t.parking, workQueue := t.workQueue }) ∧
    ((∀ x ∈ s.parking, x.inst = i → x.wake ≠ s.now) → exec (.wake i) s = .next s)

/-! ### Engines -/

/-- R44, R51, R52, R53, R75, R81, R85, R87, R91, R92: what an engine does as it reaches ordinal `k` of the job sequence of its instance, the cursors
at `p`. Past the last ordinal the run completes. An element some condition of whose skip set holds (`State.skipHolds`) gives way to the next. A
taken HOLD parks the run for its hold time, in the Parking List's order: soonest wake first, then the lowest index. A taken
MARCH element is walked from its first position, when it reads or no row is guarded; one that only writes, from the first position of the first
row in its direction that is not guarded, and with every row guarded it is passed. (The cursors that a HOLD, a completion and a passed element
leave, "as left", are the model's reading of R81: notes/assumptions/24.md.) -/
def Obligations.ReachedElementDecidesTheRun : Prop :=
  ∀ (s : State) (e : Fin 6) (i : Fin 64) (d : Descriptor) (q : Fin 32) (x : DirectoryEntry) (k : Nat) (p : Nat × Nat),
    (s.engine e).current = some i → (s.entry i).descriptor = some d → (s.entry i).run.jobSequence = some q →
    s.directoryEntry q = some x →
    let el := s.element (x.first + k)
    let left (a : ParkEntry) : Nat := (a.wake - s.now).toNat
    let earlier (a b : ParkEntry) : Prop := left a < left b ∨ (left a = left b ∧ a.inst ≤ b.inst)
    let leaves (t : State) (pos : Position) (st : InstState) : Prop :=
      t.entry i = { s.entry i with state := st, run := { (s.entry i).run with position := pos } } ∧ s.othersKept t i ∧
        t.engine e = { Engine.reset with stack := (s.engine e).stack } ∧ s.otherEnginesKept t e ∧
        t.link d.link = { s.link d.link with slots := slotsWithout (s.link d.link).slots i } ∧ s.otherLinksKept t d.link
    (x.count ≤ k →
      ∃ t, s.reach e k p = (t, true) ∧ leaves t ⟨x.count - 1, p.1, p.2, .elementEnd⟩ .analysing ∧
        t.analysisQueue = s.analysisQueue ++ [⟨i, true⟩] ∧
        t = { s with
              table := t.table, engineTable := t.engineTable, linkTable := t.linkTable, analysisQueue := t.analysisQueue }) ∧
    (k < x.count →
      (s.skipHolds i el.skip → s.reach e k p = s.reach e (k + 1) p) ∧
      (¬s.skipHolds i el.skip →
        (∀ time, el.body = .hold time →
          ∃ t, s.reach e k p = (t, true) ∧ leaves t ⟨k, p.1, p.2, .elementEnd⟩ .parked ∧
            t.parking.Perm (⟨i, s.now + BitVec.ofNat 24 time⟩ :: s.parking) ∧
            (s.parking.Pairwise earlier → t.parking.Pairwise earlier) ∧
            t = { s with
                  table := t.table, engineTable := t.engineTable, linkTable := t.linkTable, parking := t.parking }) ∧
        ∀ dir ops bg, el.body = .march dir ops bg →
          (ops.any Operation.reads = true ∨ (s.entry i).guards = [] →
            s.reach e k p =
              (s.setEngine e
                { s.engine e with
                  state := .walking
                  position := some
                    (match dir with
                     | .up => ⟨k, 0, 0, .inElement⟩
                     | .down => ⟨k, d.rows - 1, (d.columns + 63) / 64 - 1, .inElement⟩) }, false)) ∧
          (ops.any Operation.reads = false →
            ∀ r, r < d.rows → guarded (s.entry i).guards r = false →
              (∀ n, n < d.rows → (match dir with | .up => n < r | .down => r < n) → guarded (s.entry i).guards n = true) →
              s.reach e k p =
                (s.setEngine e
                  { s.engine e with
                    state := .walking
                    position := some
                      ⟨k, r, (match dir with | .up => 0 | .down => (d.columns + 63) / 64 - 1), .inElement⟩ }, false)) ∧
          (ops.any Operation.reads = false → 1 ≤ d.rows → (∀ n, n < d.rows → guarded (s.entry i).guards n = true) →
            s.reach e k p =
              s.reach e (k + 1)
                (match dir with
                 | .up => (d.rows - 1, (d.columns + 63) / 64 - 1)
                 | .down => (0, 0)))))

/-- R83, R84, R96, R104: a LOAD_DONE on an UP link clears the load it answers. An engine in LOADING then reaches element 0, whatever that comes
to; a MARCH element not skipped that reads (or no row is guarded) it walks. An engine that drains reaches none and its mark stays; the drain
ends in the same step when nothing else is outstanding. -/
def Obligations.LoadDoneStartsTheWalk : Prop :=
  ∀ (l : Fin 4) (m : Fin 256) (y : LoadUse) (s : State),
    s.linkUp l = true → y ∈ (s.link l).loads → y.memId = m → (∀ z ∈ (s.link l).loads, z.memId = m → z = y) →
    let link : Link := { s.link l with loads := (s.link l).loads.filter (·.memId != m) }
    let engine : Engine := { s.engine y.engine with loadOutstanding := false }
    let u : State := (s.setLink l link).setEngine y.engine engine
    ((s.engine y.engine).state = .loading → u.comesToReach y.engine 0 (0, 0) (exec (.loadDone l m) s)) ∧
    ((s.engine y.engine).state ≠ .loading → u.checksEnd y.engine (exec (.loadDone l m) s)) ∧
    ∀ (i : Fin 64) (d : Descriptor) (q : Fin 32) (x : DirectoryEntry) (dir : Direction) (ops : List Operation) (bg : Background),
      (s.engine y.engine).state = .loading → (s.engine y.engine).current = some i → (s.entry i).descriptor = some d →
      (s.entry i).run.jobSequence = some q → s.directoryEntry q = some x → 1 ≤ x.count →
      (s.element x.first).body = .march dir ops bg → ¬s.skipHolds i (s.element x.first).skip →
      ops.any Operation.reads = true ∨ (s.entry i).guards = [] →
      exec (.loadDone l m) s =
        .next
          ((s.setLink l link).setEngine y.engine
            { engine with
              state := .walking
              position := some
                (match dir with
                 | .up => ⟨0, 0, 0, .inElement⟩
                 | .down => ⟨0, d.rows - 1, (d.columns + 63) / 64 - 1, .inElement⟩) })

/-- R34, R85, R86, R87, R88, R102: an engine that is WALKING inside a MARCH element, with fewer than 4 bursts in flight and a tag to take (the
one the arbiter has given it, else the lowest-numbered of its link that is free and given to nobody), issues the burst at its cursor with it:
the element's operations, or in a guarded row its reads with the read-check flag; the burst joins the lists of engine and link, and the cursor
moves to the next position, of an element that only writes in the next row that is not guarded, or past the last. Stated for a position whose
burst carries an operation. When one of the conditions fails there is no burst and nothing changes (notes/assumptions/1.md). (That a tag given
waits for its engine's issue: notes/assumptions/5.md. Where the cursors stand past the last position: notes/assumptions/24.md.) -/
def Obligations.BurstIssueSendsTheCursorsBurst : Prop :=
  (∀ (e : Fin 6) (s : State),
    (∀ i d, (s.engine e).current = some i → (s.entry i).descriptor = some d →
      ¬s.issuesOn d.link e ∨ ((s.engine e).given = none ∧ ∀ g, ¬s.tagOpen d.link g)) →
    exec (.burstIssue e) s = .next s) ∧
  ∀ (e : Fin 6) (i : Fin 64) (d : Descriptor) (q : Fin 32) (x : DirectoryEntry) (pos : Position) (g : Fin 8) (dir : Direction)
    (ops : List Operation) (bg : Background) (s : State),
    (s.engine e).state = .walking → (s.engine e).current = some i → (s.engine e).position = some pos →
    pos.mark = .inElement → (s.engine e).inFlight.length < 4 → (s.entry i).descriptor = some d →
    (s.entry i).run.jobSequence = some q → s.directoryEntry q = some x →
    (s.element (x.first + pos.ordinal)).body = .march dir ops bg → s.linkUp d.link = true →
    (s.engine e).given = some g ∨ ((s.engine e).given = none ∧ s.tagOpen d.link g ∧ ∀ h, h < g → ¬s.tagOpen d.link h) →
    ops.any Operation.reads = true ∨ guarded (s.entry i).guards pos.row = false →
    let check := guarded (s.entry i).guards pos.row
    let chunks := (d.columns + 63) / 64
    ∃ t moved, exec (.burstIssue e) s = .next t ∧
      t.engine e =
        { s.engine e with
          position := some moved
          inFlight := (s.engine e).inFlight ++ [⟨g, pos.row, pos.chunk, pos.ordinal, check⟩]
          given := none } ∧
      s.otherEnginesKept t e ∧
      t.link d.link =
        { s.link d.link with
          tags := (s.link d.link).tags ++ [⟨g, e, s.now⟩]
          sent :=
            (s.link d.link).sent ++
              [.burst g d.memId pos.row (64 * pos.chunk) (min 64 (d.columns - 64 * pos.chunk))
                (if check then ops.filter Operation.reads else ops) bg check] } ∧
      s.otherLinksKept t d.link ∧ t = { s with engineTable := t.engineTable, linkTable := t.linkTable } ∧
      (ops.any Operation.reads = true ∨ (s.entry i).guards = [] →
        moved =
          match dir with
          | .up =>
            if pos.chunk + 1 < chunks then ⟨pos.ordinal, pos.row, pos.chunk + 1, .inElement⟩
            else if pos.row + 1 < d.rows then ⟨pos.ordinal, pos.row + 1, 0, .inElement⟩
            else ⟨pos.ordinal, pos.row, pos.chunk, .elementEnd⟩
          | .down =>
            if 0 < pos.chunk then ⟨pos.ordinal, pos.row, pos.chunk - 1, .inElement⟩
            else if 0 < pos.row then ⟨pos.ordinal, pos.row - 1, chunks - 1, .inElement⟩
            else ⟨pos.ordinal, pos.row, pos.chunk, .elementEnd⟩) ∧
      (ops.any Operation.reads = false → pos.row < d.rows → pos.chunk < chunks →
        let walled (n : Nat) : Prop := guarded (s.entry i).guards n = true
        match dir with
        | .up =>
          (pos.chunk + 1 < chunks → moved = ⟨pos.ordinal, pos.row, pos.chunk + 1, .inElement⟩) ∧
            (pos.chunk + 1 = chunks →
              (∀ r, pos.row < r → r < d.rows → ¬walled r → (∀ n, pos.row < n → n < r → walled n) →
                moved = ⟨pos.ordinal, r, 0, .inElement⟩) ∧
              ((∀ n, pos.row < n → n < d.rows → walled n) → moved = ⟨pos.ordinal, d.rows - 1, chunks - 1, .elementEnd⟩))
        | .down =>
          (0 < pos.chunk → moved = ⟨pos.ordinal, pos.row, pos.chunk - 1, .inElement⟩) ∧
            (pos.chunk = 0 →
              (∀ r, r < pos.row → ¬walled r → (∀ n, r < n → n < pos.row → walled n) →
                moved = ⟨pos.ordinal, r, chunks - 1, .inElement⟩) ∧
              ((∀ n, n < pos.row → walled n) → moved = ⟨pos.ordinal, 0, 0, .elementEnd⟩)))

/-- R53, R71, R73, R90: an engine WALKING with mark ELEMENT_END and nothing in flight reaches the next ordinal: what that comes to is `reach`,
and when the run then leaves the engine, what the engine turns to. Without those conditions there is no element end
(notes/assumptions/1.md). -/
def Obligations.ElementEndReachesNext : Prop :=
  ∀ (e : Fin 6) (pos : Position) (s : State), (s.engine e).position = some pos →
    (¬((s.engine e).state = .walking ∧ pos.mark = .elementEnd ∧ (s.engine e).inFlight = []) →
      exec (.elementEnd e) s = .next s) ∧
    ((s.engine e).state = .walking → pos.mark = .elementEnd → (s.engine e).inFlight = [] →
      s.comesToReach e (pos.ordinal + 1) (pos.row, pos.chunk) (exec (.elementEnd e) s))

/-- R16, R19, R22, R64, R71, R72, R73, R96, R162: an engine that drains with nothing outstanding ends its drain: the position is written back,
the slot released, the engine left, and then it turns. For a cut-short reason, drain's or held, the instance becomes ANALYSING, PARTIAL,
with that reason; for RETIRE it becomes RETIRED, a FENCE sent when its link is UP; for REQUALIFY it is reset, the section as at the REQUALIFY
loaded (notes/assumptions/26.md), and DEFINED, its follow-up then taken, or discarded with the link DOWN; for PREEMPT it becomes SUSPENDED on
the engine's stack, whether or not a reservation is left for the engine. (A held cut short keeps a follow-up placed after it:
notes/assumptions/15.md.) -/
def Obligations.DrainEndSettlesTheRun : Prop :=
  ∀ (e : Fin 6) (i : Fin 64) (d : Descriptor) (pos : Position) (s : State),
    (s.engine e).state = .draining → (s.engine e).inFlight = [] → (s.engine e).loadOutstanding = false →
    (s.engine e).current = some i → (s.engine e).position = some pos → (s.entry i).descriptor = some d →
    let en := s.engine e
    let up := s.linkUp d.link
    let x : Entry := { s.entry i with run := { (s.entry i).run with position := pos } }
    let k : Link := { s.link d.link with slots := slotsWithout (s.link d.link).slots i }
    let left (stack : List (Fin 64)) (y : Entry) : State :=
      ((s.setLink d.link k).setEngine e { Engine.reset with stack := stack }).setEntry i y
    let cut (c : CutReason) : Entry :=
      { x with state := .analysing, flags := { x.flags with partialRun := true }, reason := c.verdict }
    let analysed : List AnalysisEntry := s.analysisQueue ++ [⟨i, true⟩]
    ∃ u v : State, exec (.drainEnd e) s = .next v ∧ u.turnsTo e v ∧
      (∀ c, en.drainReason = some (.cut c) → u = { left en.stack (cut c) with analysisQueue := analysed }) ∧
      (∀ c, en.drainReason = some .preempt → en.held = some c →
        u = { left (en.stack.filter (· != i)) { cut c with suspending := none } with analysisQueue := analysed }) ∧
      (en.drainReason = some .preempt → en.held = none →
        u = left (i :: en.stack) { x with state := .suspended, suspending := some e }) ∧
      (en.drainReason = some .retire →
        let told (p : Port) : PortState := { s.port p with notices := (s.port p).notices.raise (.verdict (maskBit i)) }
        u =
          (((left en.stack
              { x with
                state := .retired, followUp := none, suspending := none, reason := .none, endStamp := some s.now }).setLink
              d.link
              (if up then { k with sent := k.sent ++ [.fence d.memId], pulls := k.pulls.filter (· != i) } else k)).setPort
              .card (told .card)).setPort .chassis (told .chassis)) ∧
      (en.drainReason = some .requalify →
        ∃ y, x.requalifiedTo (en.reload.getD (s.storeSection i)) d y ∧
          (x.followUp = none ∨ up = false →
            u = { left en.stack y with poolFree := s.poolFree + x.failLog.length }) ∧
          ∀ f, x.followUp = some f → up = true →
            u =
              { left en.stack { y with state := .queued, run := { y.run with jobSequence := some f.sequence } } with
                poolFree := s.poolFree + x.failLog.length
                workQueue :=
                  s.workQueue ++
                    [⟨i, f.sequence, if f.urgency = .urgent then .urgent else .normal, portRequester f.requester, s.now,
                      none⟩] })

/-! ### Fail Capture -/

/-- R123, R124: the locator gives the first offset that holds a 1 and the number of offsets that do, none for a vector without a 1, and
an absent pair for a read-check entry; a fail is attributed to the column record of its column, else to the row record of its row, else
to none. -/
def Obligations.FailLocatorAndAttribution : Prop :=
  (∀ (rs : List RepairRecord) (row c : Nat) (v : List Bool),
    ((∀ k : Nat, v[k]? ≠ some true) → failOf rs row ⟨c, some v⟩ = none) ∧
    ((∃ k : Nat, v[k]? = some true) →
      ∃ b : FailBits, failOf rs row ⟨c, some v⟩ = some ⟨row, c, some b, attributionOf rs row c⟩ ∧
        v[b.first]? = some true ∧ (∀ k : Nat, k < b.first → v[k]? = some false) ∧ b.count = v.count true ∧ 1 ≤ b.count ∧
        b.count ≤ v.length) ∧
    failOf rs row ⟨c, none⟩ = some ⟨row, c, none, attributionOf rs row c⟩) ∧
  ∀ (rs : List RepairRecord) (row c : Nat),
    (∀ a ∈ rs, ∀ b ∈ rs, a.kind = b.kind → a.line = b.line → a = b) →
    (∀ r ∈ rs, r.kind = .column → r.line = c → attributionOf rs row c = .spareColumn r.spare) ∧
    ((∀ r ∈ rs, r.kind = .column → r.line ≠ c) →
      (∀ r ∈ rs, r.kind = .row → r.line = row → attributionOf rs row c = .spareRow r.spare) ∧
      ((∀ r ∈ rs, r.kind = .row → r.line ≠ row) → attributionOf rs row c = .uncovered))

/-- R117, R118, R125 to R131: where a fail goes. An UNCOVERED one merges into a line of its row, else of its column; any into the CELL it
repeats; else it is a record of its own, or, UNCOVERED, makes a line of its row when its row would hold more UNCOVERED CELLs than FREE
column spares, else of its column likewise. A line takes the place of the earliest CELL it gathers and frees the others' records. A new
record with the log at 48 is lost for OVERFLOW, with the pool empty for POOL; lines above their FREE spares raise SPARES. -/
def Obligations.FailIsPlaced : Prop :=
  ∀ (cx : CaptureContext) (log : List FailRecord) (pool : Nat) (f : Fail),
    let uncovered : Prop := f.attribution = .uncovered
    let mark := some (guarded cx.guards f.row)
    let inRow : Nat := log.countP (FailRecord.uncoveredInRow f.row)
    let inColumn : Nat := log.countP (FailRecord.uncoveredInColumn f.column)
    let noLine : Prop := ∀ x ∈ log, x.place ≠ .rowLine f.row ∧ x.place ≠ .columnLine f.column
    let noCell : Prop := ∀ x ∈ log, x.place ≠ .cell f.row f.column
    let added (r : FailRecord) : Placed :=
      if 48 ≤ log.length then ⟨log, pool, some .overflow⟩
      else if pool = 0 then ⟨log, pool, some .pool⟩
      else ⟨log ++ [r], pool - 1, none⟩
    let own : FailRecord := ⟨.cell f.row f.column, f.bits, 1, cx.now, cx.ordinal, f.attribution, mark⟩
    let checked (r : Placed) : Placed :=
      if r.cut = none ∧ (cx.freeRows < r.log.countP FailRecord.isRowLine ∨ cx.freeColumns < r.log.countP FailRecord.isColumnLine)
      then { r with cut := some .spares } else r
    (∀ a x b, log = a ++ x :: b →
      (uncovered → x.place = .rowLine f.row → (∀ y ∈ a, y.place ≠ .rowLine f.row) →
        placeFail cx log pool f = ⟨a ++ { x with hits := min 255 (x.hits + 1) } :: b, pool, none⟩) ∧
      (uncovered → x.place = .columnLine f.column → (∀ y ∈ log, y.place ≠ .rowLine f.row) →
        (∀ y ∈ a, y.place ≠ .columnLine f.column) →
        placeFail cx log pool f = ⟨a ++ { x with hits := min 255 (x.hits + 1) } :: b, pool, none⟩) ∧
      (x.place = .cell f.row f.column → (uncovered → noLine) → (∀ y ∈ a, y.place ≠ .cell f.row f.column) →
        ∃ bits, placeFail cx log pool f = ⟨a ++ { x with hits := min 255 (x.hits + 1), bits := bits } :: b, pool, none⟩ ∧
          (∀ o n, x.bits = some o → f.bits = some n → bits = some ⟨min o.first n.first, max o.count n.count⟩) ∧
          (x.bits = none → bits = f.bits) ∧ (f.bits = none → bits = x.bits)) ∧
      (uncovered → noLine → noCell → cx.freeColumns < inRow + 1 → x.uncoveredInRow f.row = true →
        (∀ y ∈ a, y.uncoveredInRow f.row = false) →
        placeFail cx log pool f =
          checked
            ⟨a ++ ⟨.rowLine f.row, none, min 255 (((log.filter (FailRecord.uncoveredInRow f.row)).map FailRecord.hits).sum + 1),
                x.firstSeen, x.ordinal, .uncovered, mark⟩ :: b.filter (fun y => !y.uncoveredInRow f.row),
              pool + (inRow - 1), none⟩) ∧
      (uncovered → noLine → noCell → inRow + 1 ≤ cx.freeColumns → cx.freeRows < inColumn + 1 →
        x.uncoveredInColumn f.column = true → (∀ y ∈ a, y.uncoveredInColumn f.column = false) →
        placeFail cx log pool f =
          checked
            ⟨a ++ ⟨.columnLine f.column, none,
                min 255 (((log.filter (FailRecord.uncoveredInColumn f.column)).map FailRecord.hits).sum + 1),
                x.firstSeen, x.ordinal, .uncovered, none⟩ :: b.filter (fun y => !y.uncoveredInColumn f.column),
              pool + (inColumn - 1), none⟩)) ∧
    (¬uncovered → noCell → placeFail cx log pool f = added own) ∧
    (uncovered → noLine → noCell →
      (inRow + 1 ≤ cx.freeColumns → inColumn + 1 ≤ cx.freeRows → placeFail cx log pool f = added own) ∧
      (inRow = 0 → cx.freeColumns = 0 →
        placeFail cx log pool f =
          checked (added ⟨.rowLine f.row, none, 1, cx.now, cx.ordinal, .uncovered, mark⟩)) ∧
      (inRow + 1 ≤ cx.freeColumns → inColumn = 0 → cx.freeRows = 0 →
        placeFail cx log pool f =
          checked (added ⟨.columnLine f.column, none, 1, cx.now, cx.ordinal, .uncovered, none⟩)))

/-- R88, R89, R90, R94, R96, R103, R122, R132: a well-formed RESULT on an UP link leaves the head of the link's tags and the engine's list. PASS
does nothing more. The entries of a FAIL are placed in the instance's log in list order, and a cut short they raise reaches the engine as a
drain request; the results of a RETIRE or REQUALIFY drain are discarded. The arbiter then gives the freed tag, and after it the engine checks for
the end of its drain, one just requested too, and of its element, which comes in the same step. (That the arbiter decides between the two:
notes/assumptions/5.md.) -/
def Obligations.ResultIsRecorded : Prop :=
  ∀ (l : Fin 4) (u : TagUse) (rest : List TagUse) (i : Fin 64) (b : Burst) (d : Descriptor) (ms : List Mismatch) (s : State),
    s.linkUp l = true → (s.link l).tags = u :: rest → (s.engine u.engine).current = some i →
    b ∈ (s.engine u.engine).inFlight → b.tag = u.tag → (∀ y ∈ (s.engine u.engine).inFlight, y.tag = u.tag → y = b) →
    (s.entry i).descriptor = some d →
    let en := s.engine u.engine
    let taken : Engine := { en with inFlight := en.inFlight.filter (·.tag != b.tag) }
    let width := min 64 (d.columns - 64 * b.chunk)
    let discarded : Prop := en.state = .draining ∧ (en.drainReason = some .retire ∨ en.drainReason = some .requalify)
    let wellFormed : Prop :=
      1 ≤ ms.length ∧ ms.length ≤ 64 ∧ ms.length ≤ width ∧ (ms.map Mismatch.column).Nodup ∧
        ∀ m ∈ ms, 64 * b.chunk ≤ m.column ∧ m.column < 64 * b.chunk + width ∧
          (b.readCheck = true → m.vector = none) ∧
          (b.readCheck = false → ∃ v : List Bool, m.vector = some v ∧ v.length = d.width)
    let freed : State := s.setLink l { s.link l with tags := rest }
    let goesOn (w : State) (o : Host.Outcome State Fault Refusal) : Prop :=
      ∃ v, w.givesTag l u.tag v ∧ v.checksEnd u.engine o
    goesOn (freed.setEngine u.engine taken) (exec (.result l u.tag .pass []) s) ∧
    (wellFormed → discarded → goesOn (freed.setEngine u.engine taken) (exec (.result l u.tag .fail ms) s)) ∧
    (let x := s.entry i
     let placed :=
       placeAll ⟨s.now, b.ordinal, x.guards, freeCount x.rowSpares, freeCount x.columnSpares⟩ x.repairMap b.row ms x.failLog
         s.poolFree
     let engine := placed.2.2.foldl (fun n c => n.drainRequested (.cut c)) taken
     wellFormed → ¬discarded →
      goesOn { (freed.setEngine u.engine engine).setEntry i { x with failLog := placed.1 } with poolFree := placed.2.1 }
        (exec (.result l u.tag .fail ms) s))

/-! ### Repair links -/

/-- R100, R105: on a DOWN link every message but READY is discarded: it changes nothing and is answered with nothing. -/
def Obligations.DownLinkDiscards : Prop :=
  ∀ (l : Fin 4) (s : State), s.linkUp l = false →
    (∀ tag o ms, exec (.result l tag o ms) s = .next s) ∧ (∀ m, exec (.loadDone l m) s = .next s) ∧
    exec (.resetNotice l) s = .next s ∧ (∀ m, exec (.pull l m) s = .next s) ∧ (∀ m, exec (.inService l m) s = .next s) ∧
    (∀ m, exec (.outOfService l m) s = .next s) ∧ (∀ m a b set, exec (.deviceGuard l m a b set) s = .next s) ∧
    ∀ bs, exec (.malformed l bs) s = .next s

/-- R3, R36, R37, R112, R113, R115: PULL, IN_SERVICE and OUT_OF_SERVICE on an UP link. A pull of a settled instance is answered at once, of
another joins the Pending Pull List once; only a usable instance becomes live; a memory id that names none is answered UNKNOWN. -/
def Obligations.PullsAndServiceMessages : Prop :=
  ∀ (l : Fin 4) (m : Fin 256) (s : State), s.linkUp l = true →
    let send (ms : List LinkMsg) : State := s.setLink l { s.link l with sent := (s.link l).sent ++ ms }
    ((∀ i, ¬s.namedBy l m i) →
      exec (.pull l m) s = .next (send [.mapOffer m .unknown false none]) ∧
      exec (.inService l m) s = .next (send [.reject m .unknown]) ∧
      exec (.outOfService l m) s = .next (send [.reject m .unknown])) ∧
    ∀ i d, s.names l m i → (s.entry i).descriptor = some d →
      ((s.entry i).state.settled = true → exec (.pull l m) s = .next (send (answersTo d (s.entry i)))) ∧
      ((s.entry i).state.settled = false → i ∈ (s.link l).pulls → exec (.pull l m) s = .next s) ∧
      ((s.entry i).state.settled = false → i ∉ (s.link l).pulls →
        exec (.pull l m) s = .next (s.setLink l { s.link l with pulls := (s.link l).pulls ++ [i] })) ∧
      ((s.entry i).state.usable = true →
        exec (.inService l m) s = .next (s.setEntry i { s.entry i with live := true })) ∧
      ((s.entry i).state.usable = false → exec (.inService l m) s = .next (send [.reject m .wrongState])) ∧
      exec (.outOfService l m) s = .next (s.setEntry i { s.entry i with live := false })

/-- R110, R111: READY on a DOWN link brings it UP: FAULTED instances of the link become DEFINED, and each defined one is treated as pulled,
in ascending index, settled ones answered and the others placed on the Pending Pull List; LINK is raised on both ports. READY on an UP
link is a RESET_NOTICE and then a READY. -/
def Obligations.ReadyBringsLinkUp : Prop :=
  ∀ (l : Fin 4) (s : State),
    (s.linkUp l = false → (s.link l).pulls = [] →
      ∃ t, exec (.ready l) s = .next t ∧
        (let on (i : Fin 64) : Bool := s.linkOf i == some l && (s.entry i).state != .vacant
         t.link l =
          { s.link l with
            down := none
            pulls := (List.finRange 64).filter (fun i => on i && !(s.entry i).state.settled)
            sent :=
              (s.link l).sent ++
                (List.finRange 64).flatMap fun i =>
                  if on i then (s.entry i).descriptor.elim [] fun d => answersTo d (s.entry i) else [] }) ∧
        s.otherLinksKept t l ∧
        (∀ i, t.entry i =
          if s.linkOf i = some l ∧ (s.entry i).state = .faulted then { s.entry i with state := .defined } else s.entry i) ∧
        s.told t (.link (linkBit l)) ∧
        t = { s with
              table := t.table, linkTable := t.linkTable, cardPort := t.cardPort, chassisPort := t.chassisPort }) ∧
    (s.linkUp l = true →
      ∃ t u, exec (.resetNotice l) s = .next t ∧ exec (.ready l) t = .next u ∧ exec (.ready l) s = .next u ∧
        t.linkUp l = false ∧ (t.link l).pulls = [])

/-- R19, R21, R74, R97, R105, R108, R109, R162: whatever takes an UP link DOWN (`LinkLoss`), its tags, loads, pulls and slots go and its
instances lose their live flag. Those QUEUED, RUNNING, SUSPENDED or PARKED become FAULTED, out of their holders; a run draining for RETIRE
becomes RETIRED with no FENCE, its position zeroed, one draining for REQUALIFY is reset
(notes/assumptions/26.md). The engines then turn in number order (notes/assumptions/3.md), and LINK and FAULT are raised on both ports.
MALFORMED with bytes that the link takes as a message is no event. -/
def Obligations.LinkLossFaultsItsWork : Prop :=
  ∀ (l : Fin 4) (s : State), s.linkUp l = true →
    (∀ bs, s.takesMessage l bs → exec (.malformed l bs) s = .next s) ∧
    ∀ (c : Instr) (r : DownReason), LinkLoss s l c r →
      let on (i : Fin 64) : Bool := s.linkOf i == some l
      let away (r : DrainReason) (i : Fin 64) : Bool :=
        on i && (s.entry i).state == .running &&
          (s.engineOf i).any fun e => (s.engine e).state == .draining && (s.engine e).drainReason == some r
      let gone := away .retire
      let reset := away .requalify
      let lost (i : Fin 64) : Bool :=
        on i && !gone i && !reset i &&
          ((s.entry i).state == .queued || (s.entry i).state == .running || (s.entry i).state == .suspended ||
            (s.entry i).state == .parked)
      let stack (e : Fin 6) : List (Fin 64) :=
        (s.engine e).stack.filter fun j => !(on j && (s.entry j).state == .suspended && (s.entry j).suspending == some e)
      ∃ (u v : State) (faults retired : Mask), exec c s = .next ((v.raiseBoth (.link (linkBit l))).raiseBoth (.fault faults)) ∧
        (∀ i, inMask faults i = lost i) ∧ (∀ i, inMask retired i = gone i) ∧ u.turnAllTo v ∧
        u.link l = { s.link l with down := some r, tags := [], loads := [], pulls := [], slots := [] } ∧
        s.otherLinksKept u l ∧
        (∀ i, lost i = true → u.entry i =
          { s.entry i with
            live := false, state := .faulted, followUp := none, suspending := none,
            run := { (s.entry i).run with position := ⟨0, 0, 0, .loadPending⟩ } }) ∧
        (∀ i, gone i = true → u.entry i =
          { s.entry i with
            live := false, state := .retired, followUp := none, suspending := none, reason := .none, endStamp := some s.now,
            run := { (s.entry i).run with position := ⟨0, 0, 0, .loadPending⟩ } }) ∧
        (∀ i e d, reset i = true → s.engineOf i = some e → (s.entry i).descriptor = some d →
          ({ s.entry i with live := false } : Entry).requalifiedTo ((s.engine e).reload.getD (s.storeSection i)) d
            (u.entry i)) ∧
        (∀ i, lost i = false → gone i = false → reset i = false →
          u.entry i = if on i then { s.entry i with live := false } else s.entry i) ∧
        u.poolFree = s.poolFree + (((List.finRange 64).filter reset).map fun i => (s.entry i).failLog.length).sum ∧
        u.workQueue = s.workQueue.filter (fun q => !(on q.inst && (s.entry q.inst).state == .queued)) ∧
        u.parking = s.parking.filter (fun q => !(on q.inst && (s.entry q.inst).state == .parked)) ∧
        (∀ e, u.engine e =
          if ∃ i, on i = true ∧ (s.entry i).state = .running ∧ s.engineOf i = some e then
            { Engine.reset with stack := stack e }
          else { s.engine e with stack := stack e }) ∧
        (∀ p, u.port p =
          if retired = 0 then s.port p
          else { s.port p with notices := (s.port p).notices.raise (.verdict retired) }) ∧
        u = { s with
              table := u.table, poolFree := u.poolFree, linkTable := u.linkTable, engineTable := u.engineTable,
              workQueue := u.workQueue, parking := u.parking, cardPort := u.cardPort, chassisPort := u.chassisPort }

/-! ### Analysis -/

/-- R135 to R148: the idle analyser begins with the head of the queue. A closing analysis settles ABANDONED and changes no map. A fresh one for
OVERFLOW settles UNREPAIRABLE. Another makes the spares found faulty BAD and removes their records; lines that must be repaired take FREE spares
first, then lines that cover the remaining cells. When spares run short it settles UNREPAIRABLE for SPARES with what the faulty spares left;
else the new records join the map, and it settles ABANDONED after a cut short, CLEAN or REPAIRED with every record VERIFIED when it added none,
and otherwise as verify and the run count have it. (What STATUS shows of a settled job's reason: notes/assumptions/27.md. A begin or
a completion without its condition is no event: notes/assumptions/1.md.) -/
def Obligations.AnalysisSettlesVerdicts : Prop :=
  ∀ (s : State),
    (s.analysing = false → s.analysisQueue ≠ [] → exec .analysisBegin s = .next { s with analysing := true }) ∧
    (s.analysing = true ∨ s.analysisQueue = [] → exec .analysisBegin s = .next s) ∧
    (s.analysing = false ∨ s.analysisQueue = [] → exec .analysisComplete s = .next s) ∧
    ∀ (a : AnalysisEntry) (rest : List AnalysisEntry) (d : Descriptor),
      s.analysing = true → s.analysisQueue = a :: rest → (s.entry a.inst).descriptor = some d →
      let x := s.entry a.inst
      let settles (e : Entry) : Prop :=
        ∃ t, exec .analysisComplete s = .next t ∧ s.settlesAs t a.inst d rest { e with endStamp := some s.now }
      let faulty (r : RepairRecord) : Bool := x.failLog.any fun f => f.attribution == r.blame
      let kept := x.repairMap.filter fun r => !faulty r
      let judged (k : LineKind) (l : List SpareState) : List SpareState :=
        l.mapIdx fun n v => if ∃ r ∈ x.repairMap, r.kind = k ∧ r.spare = n ∧ faulty r = true then .bad else v
      let start : Allocation := ⟨judged .row x.rowSpares, judged .column x.columnSpares, []⟩
      let required (k : LineKind) (l : List Nat) : Prop :=
        l.Pairwise (· < ·) ∧
          ∀ n, n ∈ l ↔
            (∃ r ∈ x.repairMap, r.kind = k ∧ r.line = n ∧ faulty r = true) ∨
              ∃ f ∈ x.failLog, f.place = (match k with | .row => .rowLine n | .column => .columnLine n)
      let remaining (m : Allocation) : List (Nat × Nat) :=
        x.failLog.filterMap fun f =>
          match f.place with
          | .cell r c =>
            if f.attribution = .uncovered ∧
                ∀ y ∈ kept ++ m.added, ¬(y.kind = .row ∧ y.line = r) ∧ ¬(y.kind = .column ∧ y.line = c) then some (r, c)
            else none
          | _ => none
      let inOrder : Prop := x.repairMap.Pairwise fun r n => r.before n = true
      (a.fresh = false → settles { x with state := .abandoned }) ∧
      (a.fresh = true → x.reason = .overflow → settles { x with state := .unrepairable }) ∧
      (a.fresh = true → x.reason ≠ .overflow → (∀ f ∈ x.failLog, f.attribution = .uncovered) →
        (∃ rows : List Nat, rows.Nodup ∧ (∀ n ∈ rows, ∃ f ∈ x.failLog, f.place = .rowLine n) ∧
          freeCount x.rowSpares < rows.length) →
        settles { x with state := .unrepairable, reason := .spares }) ∧
      (a.fresh = true → x.reason ≠ .overflow → x.failLog = [] → inOrder →
        (x.flags.partialRun = true → settles { x with state := .abandoned }) ∧
        (x.flags.partialRun = false →
          settles
            { x with
              state := if x.repairMap.any (fun r => r.origin == .found) then .repaired else .clean
              reason := .none
              repairMap := x.repairMap.map fun r => { r with verified := true } })) ∧
      (a.fresh = true → x.reason ≠ .overflow →
        ∃ rows columns, required .row rows ∧ required .column columns ∧
          (let short : Prop := freeCount start.rowSpares < rows.length ∨ freeCount start.columnSpares < columns.length
           let lines : List (LineKind × Nat) := rows.map (fun n => (.row, n)) ++ columns.map (fun n => (.column, n))
           ((short ∨ ∃ m, TakeAll lines start m ∧ CoverFails (remaining m) m) ∧
             settles
               { x with
                 repairMap := kept, rowSpares := start.rowSpares, columnSpares := start.columnSpares,
                 state := .unrepairable, reason := .spares }) ∨
             ∃ m n map, ¬short ∧ TakeAll lines start m ∧ Covers (remaining m) m n ∧
               map.Perm
                 (kept ++
                   n.added.map fun r =>
                     { r with
                       guardTouched := if r.kind = .row then guarded x.guards r.line else decide (x.guards ≠ []) }) ∧
               map.Pairwise (fun r q => r.before q = true) ∧
               (let repaired : Entry := { x with repairMap := map, rowSpares := n.rowSpares, columnSpares := n.columnSpares }
                (x.flags.partialRun = true → settles { repaired with state := .abandoned }) ∧
                (x.flags.partialRun = false → n.added = [] →
                  settles
                    { repaired with
                      state := if map.any (fun r => r.origin == .found) then .repaired else .clean
                      reason := .none
                      repairMap := map.map fun r => { r with verified := true } }) ∧
                (x.flags.partialRun = false → n.added ≠ [] →
                  (d.verify = false → settles { repaired with state := .repaired, reason := .none }) ∧
                  (d.verify = true → 3 ≤ x.run.runCount →
                    settles { repaired with state := .unrepairable, reason := .verifyLimit }) ∧
                  (d.verify = true → x.run.runCount < 3 → s.linkUp d.link = false →
                    settles { repaired with state := .repaired, reason := .none }) ∧
                  ∀ q, d.verify = true → x.run.runCount < 3 → s.linkUp d.link = true → x.run.jobSequence = some q →
                    exec .analysisComplete s =
                      .next
                        { s.setEntry a.inst { repaired with state := .queued } with
                          workQueue := s.workQueue ++ [⟨a.inst, q, .verify, .part, s.now, none⟩]
                          analysisQueue := rest
                          analysing := false }))))

/-- R139 to R145, R147: a fresh analysis of a log that holds one row to repair, not yet in the map, gives the row the first FREE row spare: a
FOUND, UNVERIFIED record in map order, GUARD_TOUCHED when the row is guarded. It then settles ABANDONED after a cut short; after a complete
run REPAIRED with verify OFF or the link DOWN, UNREPAIRABLE for VERIFY_LIMIT at run count 3, and else orders a VERIFY entry. (What
STATUS shows of the settled job's reason while a follow-up waits: notes/assumptions/27.md.) -/
def Obligations.AnalysisRepairsARow : Prop :=
  ∀ (a : AnalysisEntry) (rest : List AnalysisEntry) (d : Descriptor) (f : FailRecord) (row k : Nat) (s : State),
    let x := s.entry a.inst
    s.analysing = true → s.analysisQueue = a :: rest → a.fresh = true → x.descriptor = some d → x.reason ≠ .overflow →
    x.failLog = [f] → f.place = .rowLine row → f.attribution = .uncovered →
    x.rowSpares[k]? = some .free → (∀ j : Nat, j < k → x.rowSpares[j]? ≠ some .free) →
    ∃ t map, exec .analysisComplete s = .next t ∧
      map.Perm (⟨.row, row, k, .found, false, guarded x.guards row⟩ :: x.repairMap) ∧
      map.Pairwise (fun r n => r.before n = true) ∧
      (let repaired : Entry := { x with repairMap := map, rowSpares := x.rowSpares.set k .used }
       let settles (st : InstState) (reason : VerdictReason) : Prop :=
         s.settlesAs t a.inst d rest { repaired with state := st, reason := reason, endStamp := some s.now }
       (x.flags.partialRun = true → settles .abandoned x.reason) ∧
       (x.flags.partialRun = false →
         (d.verify = false → settles .repaired .none) ∧
         (d.verify = true → 3 ≤ x.run.runCount → settles .unrepairable .verifyLimit) ∧
         (d.verify = true → x.run.runCount < 3 → s.linkUp d.link = false → settles .repaired .none) ∧
         ∀ q, d.verify = true → x.run.runCount < 3 → s.linkUp d.link = true → x.run.jobSequence = some q →
           t.entry a.inst = { repaired with state := .queued } ∧ s.othersKept t a.inst ∧
             t.workQueue = s.workQueue ++ [⟨a.inst, q, .verify, .part, s.now, none⟩] ∧ t.analysisQueue = rest ∧
             t.analysing = false ∧
             t = { s with
                   table := t.table, workQueue := t.workQueue, analysisQueue := t.analysisQueue, analysing := t.analysing }))

/-! ### The Time Base -/

/-- R151, R152: BUDGET sets the CARD compare and CAP the CHASSIS compare, each from its own port: armed at the Time Base plus the duration,
or disarmed by 0, whatever it was before; the response carries the compare and the Time Base; nothing else changes. -/
def Obligations.BudgetAndCapSetTheirCompares : Prop :=
  ∀ (n : Nat) (s : State),
    let v : Option Time := if n = 0 then none else some (s.now + BitVec.ofNat 24 n)
    (∃ t, exec (.budget .card n) s = .next t ∧
      (600000 < n → s.refused t .card .budget .badRange) ∧
      (n ≤ 600000 →
        s.answered t .card .budget .ok (.deadline v s.now) ∧ t = { s with cardDeadline := v, cardPort := t.cardPort })) ∧
    (∃ t, exec (.cap .chassis n) s = .next t ∧
      (600000 < n → s.refused t .chassis .cap .badRange) ∧
      (n ≤ 600000 →
        s.answered t .chassis .cap .ok (.deadline v s.now) ∧
          t = { s with chassisDeadline := v, chassisPort := t.chassisPort })) ∧
    (∃ t, exec (.budget .chassis n) s = .next t ∧ s.refused t .chassis .budget .privilege) ∧
    ∃ t, exec (.cap .card n) s = .next t ∧ s.refused t .card .cap .privilege

/-- R15, R74, R78, R93, R154, R155, R156: when the Time Base stands at an armed compare, its expiry disarms it, raises DEADLINE on both ports and
cuts short every DEFINED, QUEUED, SUSPENDED and PARKED instance; the engine of a RUNNING one is asked to drain, which ends at once where
nothing is outstanding, and its run is then cut short too. Those cut short join the Analysis Queue in index order; their follow-ups go; others
stand. The engines then turn in number order (notes/assumptions/3.md). At another value there is no expiry (notes/assumptions/1.md). -/
def Obligations.DeadlineExpiryCutsShort : Prop :=
  ∀ (name : DeadlineName) (s : State),
    (s.deadline name ≠ some s.now → exec (.deadlineExpiry name) s = .next s) ∧
    (s.deadline name = some s.now →
      let is (st : InstState) (i : Fin 64) : Bool := (s.entry i).state == st
      let waiting (i : Fin 64) : Bool := is .defined i || is .queued i || is .suspended i || is .parked i
      let ended (i : Fin 64) : Bool := is .running i && (s.engineOf i).any fun e => (s.engine e).endsNow
      let stack (e : Fin 6) : List (Fin 64) :=
        (s.engine e).stack.filter fun j => !(is .suspended j && (s.entry j).suspending == some e)
      ∃ u v : State, exec (.deadlineExpiry name) s = .next v ∧ u.turnAllTo v ∧
        u.deadline name = none ∧ (∀ n, n ≠ name → u.deadline n = s.deadline n) ∧
        s.told u (.deadline ⟨name == .card, name == .chassis⟩) ∧
        (∀ i, waiting i = true → u.entry i =
          { s.entry i with
            state := .analysing, reason := .deadline, followUp := none,
            suspending := if (s.entry i).state = .suspended then none else (s.entry i).suspending,
            flags :=
              { (s.entry i).flags with
                partialRun := true
                untested :=
                  (s.entry i).flags.untested || is .defined i || (is .queued i && (s.entry i).run.runCount == 0) } }) ∧
        (∀ i e, ended i = true → s.engineOf i = some e → u.entry i =
          { s.entry i with
            state := .analysing, reason := .deadline, followUp := none,
            flags := { (s.entry i).flags with partialRun := true },
            run := { (s.entry i).run with position := (s.engine e).position.getD (s.entry i).run.position } }) ∧
        (∀ i, is .running i = true → ended i = false → u.entry i = { s.entry i with followUp := none }) ∧
        (∀ i, waiting i = false → is .running i = false → u.entry i = s.entry i) ∧
        u.analysisQueue =
          s.analysisQueue ++
            ((List.finRange 64).filter fun i => waiting i || ended i).map (fun i =>
              ⟨i, is .running i || is .suspended i || is .parked i ||
                (is .queued i && (s.queueEntry i).any fun q => q.cls == .wake)⟩) ∧
        u.workQueue = s.workQueue.filter (fun q => !is .queued q.inst) ∧
        u.parking = s.parking.filter (fun q => !is .parked q.inst) ∧
        (∀ l, u.link l =
          { s.link l with
            slots := (s.link l).slots.filter fun h => !((is .queued h.inst || ended h.inst) && s.linkOf h.inst == some l) }) ∧
        (∀ e, u.engine e =
          if ∃ i, is .running i = true ∧ s.engineOf i = some e then
            (if (s.engine e).endsNow then { Engine.reset with stack := stack e }
             else { (s.engine e).drainRequested (.cut .deadline) with stack := stack e })
          else { s.engine e with stack := stack e }) ∧
        u = { s with
              table := u.table, analysisQueue := u.analysisQueue, workQueue := u.workQueue, parking := u.parking,
              linkTable := u.linkTable, engineTable := u.engineTable, cardPort := u.cardPort, chassisPort := u.chassisPort,
              cardDeadline := u.cardDeadline, chassisDeadline := u.chassisDeadline })

/-- R149, R150: every compare due at the Time Base's value is taken first, as its own command takes it, in the order CARD and CHASSIS deadline,
wakes by index, bursts and loads by link (the model's choice of the order, notes/assumptions/6.md). Then the counter advances by 1, and from
16,777,215 to 0 as WRAP, which raises WRAP on both ports. With nothing due, nothing else changes. Each of the two rows is no event where the
other is (the model's reading of the table's two rows, notes/assumptions/6.md). -/
def Obligations.TimeBaseAdvancesAndWraps : Prop :=
  ∀ (s : State),
    (s.now ≠ 16777215 →
      exec .wrap s = .next s ∧
        ∃ u, runsThrough dueCommands s u ∧ u.now = s.now ∧ exec .timeBaseAdvance s = .next { u with now := s.now + 1 }) ∧
    (s.now = 16777215 →
      exec .timeBaseAdvance s = .next s ∧
        ∃ u t, runsThrough dueCommands s u ∧ exec .wrap s = .next t ∧ t.now = 0 ∧ u.told t .wrap ∧
          t = { u with now := t.now, cardPort := t.cardPort, chassisPort := t.chassisPort }) ∧
    (s.NothingDue →
      (s.now ≠ 16777215 → exec .timeBaseAdvance s = .next { s with now := s.now + 1 }) ∧
      (s.now = 16777215 →
        ∃ t, exec .wrap s = .next t ∧ t.now = 0 ∧ s.told t .wrap ∧
          t = { s with now := t.now, cardPort := t.cardPort, chassisPort := t.chassisPort }))

/-! ### The Repair Store -/

/-- R163, R165: an accepted COMMIT snapshots every masked CLEAN or REPAIRED instance (signature and each record's kind, line and spare, in map
order) and skips the rest; an accepted CLEAR_STORE takes the masked sections. Each starts writing its sections in ascending number with an
empty failed mask; a COMMIT with nothing to write completes at once with a STORE notice. -/
def Obligations.StoreRequestsStartOperations : Prop :=
  ∀ (m : Mask) (s : State), m ≠ 0 → s.storeOp = none →
    (∀ p, (∀ i, inMask m i = true → (s.entry i).owner = portOwner p) →
      ∃ t committed skipped, exec (.commit p m) s = .next t ∧
        (let kept (i : Fin 64) : Prop := (s.entry i).state = .clean ∨ (s.entry i).state = .repaired
         (∀ i, inMask committed i = true ↔ inMask m i = true ∧ kept i) ∧
         (∀ i, inMask skipped i = true ↔ inMask m i = true ∧ ¬kept i) ∧
         (committed = 0 →
           t.storeOp = none ∧ s.toldAndAnswered t (.store 0) p .commit (.commit committed skipped)) ∧
         (committed ≠ 0 →
           s.answered t p .commit .ok (.commit committed skipped) ∧
             ∃ w rest, t.storeOp = some ⟨.commit, w, rest, 0⟩ ∧
               (w :: rest).map SectionWrite.index = (List.finRange 64).filter (inMask committed) ∧
               ∀ x ∈ w :: rest, ∀ d, (s.entry x.index).descriptor = some d →
                 x.content = some ⟨d.signature, (s.entry x.index).repairMap.map fun r => ⟨r.kind, r.line, r.spare⟩⟩)) ∧
        t = { s with storeOp := t.storeOp, cardPort := t.cardPort, chassisPort := t.chassisPort }) ∧
    ∃ t w rest, exec (.clearStore .chassis m) s = .next t ∧ s.answered t .chassis .clearStore .ok (.mask m) ∧
      t.storeOp = some ⟨.clear, w, rest, 0⟩ ∧
      (w :: rest).map SectionWrite.index = (List.finRange 64).filter (inMask m) ∧ (∀ x ∈ w :: rest, x.content = none) ∧
      t = { s with storeOp := t.storeOp, chassisPort := t.chassisPort }

/-- R164, R165: the end of a section's write leaves the section as written, check-failed when it does not read back; such a section joins the
failed mask. The next write begins, or the operation ends and a STORE notice with the failed mask is raised on both ports. Without an
operation of its kind in progress the command is no event (notes/assumptions/1.md). -/
def Obligations.SectionWritesEnd : Prop :=
  ∀ (v : Bool) (s : State),
    (∀ op, s.storeOp = some op →
      ∃ t, exec (if op.kind = .commit then .commitWriteEnd v else .clearWriteEnd v) s = .next t ∧
        (let failed : Mask := if v then op.failed else op.failed ||| maskBit op.writing.index
         (∀ n, t.storeSection n = if n = op.writing.index then ⟨op.writing.content, v⟩ else s.storeSection n) ∧
         (op.todo = [] → t.storeOp = none ∧ s.told t (.store failed)) ∧
         (∀ w rest, op.todo = w :: rest →
           t.storeOp = some ⟨op.kind, w, rest, failed⟩ ∧ t.cardPort = s.cardPort ∧ t.chassisPort = s.chassisPort)) ∧
        t = { s with
              sections := t.sections, storeOp := t.storeOp, cardPort := t.cardPort, chassisPort := t.chassisPort }) ∧
    ((∀ op, s.storeOp = some op → op.kind ≠ .commit) → exec (.commitWriteEnd v) s = .next s) ∧
    ((∀ op, s.storeOp = some op → op.kind ≠ .clear) → exec (.clearWriteEnd v) s = .next s)

/-- R161, R164, R165, R167: only the end of a section's write, and a part reset, change a section of the store. -/
def Obligations.OnlyWritesChangeSections : Prop :=
  ∀ (c : Instr) (s t : State), exec c s = .next t → (∀ v, c ≠ .commitWriteEnd v) → (∀ v, c ≠ .clearWriteEnd v) →
    (∀ n, c ≠ .partReset n) → t.sections = s.sections

/-! ### Invariants -/

/-- R119: every step keeps the sum of the pool's free records and the fail logs' lengths at 1024, and no fail log longer than 48. -/
def Obligations.StepKeepsFailRecordsAccounted : Prop :=
  ∀ s t : State, s.PoolSound → step s = .next t → t.PoolSound

/-- R152, R154, R159: every step keeps an armed compare at most 600,000 ms ahead of the Time Base. -/
def Obligations.StepKeepsDeadlinesWithinReach : Prop :=
  ∀ s t : State, s.DeadlinesSound → step s = .next t → t.DeadlinesSound

/-- R171: every step keeps CLAIM_LOST out of the chassis port's notice set. -/
def Obligations.StepKeepsClaimLostOnCard : Prop :=
  ∀ s t : State, s.LostOnCardOnly → step s = .next t → t.LostOnCardOnly

/-- R23, R30, R46, R119, R151, R171: the state after part reset meets the five invariants that every step keeps. -/
def Obligations.ResetMeetsTheInvariants : Prop :=
  State.reset.GuardsSound ∧ State.reset.LibraryFixed ∧ State.reset.PoolSound ∧ State.reset.DeadlinesSound ∧
    State.reset.LostOnCardOnly
end

