-- ==== Sys2Proof/Laws/Analysis.lean ====
section
/-!
SUPPORT. Allocation (R140, R141): what giving out spares comes to, said as `TakeAll`, `Covers` and `CoverFails`.
-/

namespace Sys2Proof.Machine

open Sys2Proof

variable (a : Allocation) (k : LineKind) (n : Nat)

/-- Section 8.5: the spare scan finds a spare exactly when the kind has a FREE one. -/
theorem scan_isSome : (a.scan k).isSome = true ↔ a.hasFree k := by
  unfold Allocation.scan Allocation.hasFree
  rw [List.findIdx?_isSome]
  simp

/-- R140, R141: a spare that is given is the first FREE one, taken. -/
theorem give_some {b : Allocation} (h : a.give k n = some b) : a.takes k n b := by
  unfold Allocation.give at h
  cases hs : a.scan k with
  | none => simp [hs] at h
  | some m =>
    unfold Allocation.scan at hs
    rw [List.findIdx?_eq_some_iff_getElem] at hs
    obtain ⟨hm, hf, hb⟩ := hs
    refine ⟨m, ?_, fun j hj => ?_, ?_⟩
    · rw [List.getElem?_eq_getElem hm]; simpa using hf
    · have := hb j hj
      rw [List.getElem?_eq_getElem (by omega)]
      simpa using this
    · have hs' : a.scan k = some m := by
        unfold Allocation.scan; rw [List.findIdx?_eq_some_iff_getElem]; exact ⟨hm, hf, hb⟩
      cases k <;> simp [hs', setSpare] at h <;> simp [← h]

/-- R140, R141: nothing is given exactly when the kind has no FREE spare. -/
theorem give_none : a.give k n = none ↔ ¬a.hasFree k := by
  rw [← scan_isSome]
  unfold Allocation.give
  cases a.scan k <;> cases k <;> simp

/-- R140: spares given line after line are taken so. -/
theorem giveAll_takeAll {l : List Nat} {b : Allocation} (h : Allocation.giveAll k l a = some b) :
    TakeAll (l.map fun n => (k, n)) a b := by
  induction l generalizing a with
  | nil => simp [Allocation.giveAll] at h; subst h; exact .nil _
  | cons n t ih =>
    unfold Allocation.giveAll at h
    cases hg : a.give k n with
    | none => simp [hg] at h
    | some c => simp [hg] at h; exact .cons (give_some a k n hg) (ih c h)

theorem TakeAll.append {l m : List (LineKind × Nat)} {a b c : Allocation} (h : TakeAll l a b) (r : TakeAll m b c) :
    TakeAll (l ++ m) a c := by
  induction h with
  | nil => exact r
  | cons h _ ih => exact .cons h (ih r)

/-! ### The line to take next -/

/-- Pairs (count, line): `x` gives way to `b`: fewer cells, or as many and no lower a number. -/
def yields (x b : Nat × Nat) : Prop := x.1 < b.1 ∨ (x.1 = b.1 ∧ b.2 ≤ x.2)

theorem betterLine_yields (b x : Nat × Nat) :
    (betterLine b x = b ∨ betterLine b x = x) ∧ yields b (betterLine b x) ∧ yields x (betterLine b x) := by
  unfold betterLine yields
  split
  · simp; omega
  · split
    · simp; omega
    · split <;> simp <;> omega

theorem yields_trans {x y z : Nat × Nat} (h : yields x y) (k : yields y z) : yields x z := by unfold yields at *; omega

/-- The best of some pairs after `b` is one of them, and every one gives way to it. -/
theorem bestOf_spec (l : List (Nat × Nat)) (b : Nat × Nat) :
    ∃ r, l.foldl (fun best x => match best with | none => some x | some b => some (betterLine b x)) (some b) = some r ∧
      r ∈ b :: l ∧ ∀ x ∈ b :: l, yields x r := by
  induction l generalizing b with
  | nil => exact ⟨b, rfl, by simp, by simp [yields]⟩
  | cons c t ih =>
    obtain ⟨r, hr, hm, hy⟩ := ih (betterLine b c)
    obtain ⟨h1, h2, h3⟩ := betterLine_yields b c
    refine ⟨r, hr, ?_, ?_⟩
    · rcases List.mem_cons.1 hm with h | h
      · rcases h1 with h1 | h1 <;> simp [h, h1]
      · simp [h]
    · have hb := hy _ (List.mem_cons_self ..)
      intro x hx
      rcases List.mem_cons.1 hx with rfl | hx
      · exact yields_trans h2 hb
      · rcases List.mem_cons.1 hx with rfl | hx
        · exact yields_trans h3 hb
        · exact hy x (List.mem_cons_of_mem _ hx)

/-- R141: the best line of a kind is a line of a remaining cell, with its count, and every line of the kind gives way to it. -/
theorem bestLine_spec (cells : List (Nat × Nat)) :
    (cells = [] ∧ bestLine k cells = none) ∨
      ∃ c ∈ cells, bestLine k cells = some (cellCount k cells (cellLine k c), cellLine k c) ∧
        ∀ x ∈ cells, yields (cellCount k cells (cellLine k x), cellLine k x) (cellCount k cells (cellLine k c), cellLine k c) := by
  cases cells with
  | nil => exact .inl ⟨rfl, rfl⟩
  | cons c t =>
    right
    unfold bestLine
    generalize hf : (fun x => (cellCount k (c :: t) (cellLine k x), cellLine k x)) = f
    obtain ⟨r, hr, hm, hy⟩ := bestOf_spec (t.map f) (f c)
    rw [← List.map_cons] at hm hy
    obtain ⟨d, hd, rfl⟩ := List.mem_map.1 hm
    refine ⟨d, hd, by rw [List.map_cons, List.foldl_cons]; subst hf; exact hr, fun x hx => ?_⟩
    have := hy _ (List.mem_map_of_mem hx)
    subst hf; exact this

/-- R141: the line chosen is the one to prefer; none is chosen exactly when no cell remains or no kind has a FREE spare. -/
theorem chooseLine_spec (cells : List (Nat × Nat)) :
    (∀ k n, chooseLine a cells = some (k, n) → a.prefers cells k n) ∧
      (chooseLine a cells = none → cells ≠ [] → ∀ k, ¬a.hasFree k) := by
  have hr := bestLine_spec .row cells
  have hc := bestLine_spec .column cells
  have fr := scan_isSome a .row
  have fc := scan_isSome a .column
  rcases hr with ⟨rfl, hr⟩ | ⟨c, hcm, hr, hry⟩
  · obtain ⟨_, hc⟩ | ⟨d, hd, _⟩ := hc
    · exact ⟨fun k n h => by simp [chooseLine, hr, hc] at h, fun _ h => absurd rfl h⟩
    · simp at hd
  obtain ⟨rfl, _⟩ | ⟨d, hdm, hc, hcy⟩ := hc
  · simp at hcm
  by_cases h1 : a.hasFree .row <;> by_cases h2 : a.hasFree .column
  · have e1 := fr.2 h1
    have e2 := fc.2 h2
    refine ⟨fun k n h => ?_, fun h => by simp only [chooseLine, e1, e2, hr, hc, if_true] at h; split at h <;> simp at h⟩
    simp only [chooseLine, e1, e2, hr, hc, if_true] at h
    split at h
    · obtain ⟨rfl, rfl⟩ := Prod.mk.inj (Option.some.inj h)
      refine ⟨h2, ⟨d, hdm, rfl⟩, fun j _ x hx => ?_⟩
      have := hry x hx
      have := hcy x hx
      unfold yields at *
      cases j <;> simp <;> simp at * <;> omega
    · obtain ⟨rfl, rfl⟩ := Prod.mk.inj (Option.some.inj h)
      refine ⟨h1, ⟨c, hcm, rfl⟩, fun j _ x hx => ?_⟩
      have := hry x hx
      have := hcy x hx
      unfold yields at *
      cases j <;> simp <;> simp at * <;> omega
  · have e1 := fr.2 h1
    have e2 := Bool.eq_false_iff.2 (mt fc.1 h2)
    refine ⟨fun k n h => ?_, fun h => by simp [chooseLine, e1, e2, hr] at h⟩
    simp only [chooseLine, e1, e2, hr, if_true, Bool.false_eq_true, if_false] at h
    obtain ⟨rfl, rfl⟩ := Prod.mk.inj (Option.some.inj h)
    refine ⟨h1, ⟨c, hcm, rfl⟩, fun j hj x hx => ?_⟩
    have := hry x hx
    unfold yields at *
    cases j
    · simp; simp at *; omega
    · exact absurd hj h2
  · have e1 := Bool.eq_false_iff.2 (mt fr.1 h1)
    have e2 := fc.2 h2
    refine ⟨fun k n h => ?_, fun h => by simp [chooseLine, e1, e2, hc] at h⟩
    simp only [chooseLine, e1, e2, hc, if_true, Bool.false_eq_true, if_false] at h
    obtain ⟨rfl, rfl⟩ := Prod.mk.inj (Option.some.inj h)
    refine ⟨h2, ⟨d, hdm, rfl⟩, fun j hj x hx => ?_⟩
    have := hcy x hx
    unfold yields at *
    cases j
    · exact absurd hj h1
    · simp; simp at *; omega
  · have e1 := Bool.eq_false_iff.2 (mt fr.1 h1)
    have e2 := Bool.eq_false_iff.2 (mt fc.1 h2)
    exact ⟨fun k n h => by simp [chooseLine, e1, e2] at h, fun _ _ k => by cases k <;> assumption⟩

/-- R141: what the covering comes to, with a turn for every cell. -/
theorem coverCells_spec (m : Nat) (cells : List (Nat × Nat)) (a : Allocation) (h : cells.length ≤ m) :
    (∀ b, coverCells m cells a = some b → Covers cells a b) ∧ (coverCells m cells a = none → CoverFails cells a) := by
  induction m generalizing cells a with
  | zero =>
    obtain rfl : cells = [] := List.eq_nil_of_length_eq_zero (by omega)
    exact ⟨fun b hb => by simp [coverCells] at hb; subst hb; exact .done _, fun hb => by simp [coverCells] at hb⟩
  | succ m ih =>
    cases cells with
    | nil => exact ⟨fun b hb => by simp [coverCells] at hb; subst hb; exact .done _, fun hb => by simp [coverCells] at hb⟩
    | cons c t =>
      have hs := chooseLine_spec a (c :: t)
      unfold coverCells
      cases hl : chooseLine a (c :: t) with
      | none => exact ⟨by simp, fun _ => .stuck (by simp) (hs.2 hl (by simp))⟩
      | some l =>
        obtain ⟨k, n⟩ := l
        have hp := hs.1 k n hl
        dsimp only
        cases hg : a.give k n with
        | none => exact absurd hp.1 ((give_none a k n).1 hg)
        | some b =>
          dsimp only
          have ht := give_some a k n hg
          have hlen : ((c :: t).filter fun x => cellLine k x != n).length ≤ m := by
            obtain ⟨x, hx, hxn⟩ := hp.2.1
            have : ((c :: t).filter fun x => cellLine k x != n).length < (c :: t).length := by
              rw [List.length_filter_lt_length_iff_exists]
              exact ⟨x, hx, by simp [hxn]⟩
            simp only [List.length_cons] at h this ⊢
            omega
          obtain ⟨i1, i2⟩ := ih _ b hlen
          exact ⟨fun d hd => .take hp ht (i1 d hd), fun hd => .take hp ht (i2 hd)⟩

end Sys2Proof.Machine
end

