-- ==== Sys2Proof/Laws/State.lean ====
section
/-!
SUPPORT. One lemma per field per update of the state: what an update leaves alone, and what it writes.
-/

namespace Sys2Proof.Machine.State

open Sys2Proof

variable (s : State)

/-! ### setEntry -/

@[simp] theorem setEntry_poolFree (i : Fin 64) (e : Entry) : (s.setEntry i e).poolFree = s.poolFree := rfl
@[simp] theorem setEntry_elements (i : Fin 64) (e : Entry) : (s.setEntry i e).elements = s.elements := rfl
@[simp] theorem setEntry_directory (i : Fin 64) (e : Entry) : (s.setEntry i e).directory = s.directory := rfl
@[simp] theorem setEntry_workQueue (i : Fin 64) (e : Entry) : (s.setEntry i e).workQueue = s.workQueue := rfl
@[simp] theorem setEntry_parking (i : Fin 64) (e : Entry) : (s.setEntry i e).parking = s.parking := rfl
@[simp] theorem setEntry_analysisQueue (i : Fin 64) (e : Entry) : (s.setEntry i e).analysisQueue = s.analysisQueue := rfl
@[simp] theorem setEntry_analysing (i : Fin 64) (e : Entry) : (s.setEntry i e).analysing = s.analysing := rfl
@[simp] theorem setEntry_engineTable (i : Fin 64) (e : Entry) : (s.setEntry i e).engineTable = s.engineTable := rfl
@[simp] theorem setEntry_linkTable (i : Fin 64) (e : Entry) : (s.setEntry i e).linkTable = s.linkTable := rfl
@[simp] theorem setEntry_now (i : Fin 64) (e : Entry) : (s.setEntry i e).now = s.now := rfl
@[simp] theorem setEntry_cardDeadline (i : Fin 64) (e : Entry) : (s.setEntry i e).cardDeadline = s.cardDeadline := rfl
@[simp] theorem setEntry_chassisDeadline (i : Fin 64) (e : Entry) : (s.setEntry i e).chassisDeadline = s.chassisDeadline := rfl
@[simp] theorem setEntry_sections (i : Fin 64) (e : Entry) : (s.setEntry i e).sections = s.sections := rfl
@[simp] theorem setEntry_storeOp (i : Fin 64) (e : Entry) : (s.setEntry i e).storeOp = s.storeOp := rfl
@[simp] theorem setEntry_cardPort (i : Fin 64) (e : Entry) : (s.setEntry i e).cardPort = s.cardPort := rfl
@[simp] theorem setEntry_chassisPort (i : Fin 64) (e : Entry) : (s.setEntry i e).chassisPort = s.chassisPort := rfl
@[simp] theorem setEntry_chassisAddress (i : Fin 64) (e : Entry) : (s.setEntry i e).chassisAddress = s.chassisAddress := rfl
@[simp] theorem setEntry_pending (i : Fin 64) (e : Entry) : (s.setEntry i e).pending = s.pending := rfl
@[simp] theorem setEntry_engine (i : Fin 64) (e : Entry) (j : Fin 6) : (s.setEntry i e).engine j = s.engine j := rfl
@[simp] theorem setEntry_link (i : Fin 64) (e : Entry) (j : Fin 4) : (s.setEntry i e).link j = s.link j := rfl
@[simp] theorem setEntry_linkUp (i : Fin 64) (e : Entry) (j : Fin 4) : (s.setEntry i e).linkUp j = s.linkUp j := rfl
@[simp] theorem setEntry_storeSection (i : Fin 64) (e : Entry) (j : Fin 64) : (s.setEntry i e).storeSection j = s.storeSection j := rfl
@[simp] theorem setEntry_port (i : Fin 64) (e : Entry) (j : Port) : (s.setEntry i e).port j = s.port j := rfl
@[simp] theorem setEntry_deadline (i : Fin 64) (e : Entry) (j : DeadlineName) : (s.setEntry i e).deadline j = s.deadline j := rfl

/-! ### modEntry -/

@[simp] theorem modEntry_poolFree (i : Fin 64) (f : Entry → Entry) : (s.modEntry i f).poolFree = s.poolFree := rfl
@[simp] theorem modEntry_elements (i : Fin 64) (f : Entry → Entry) : (s.modEntry i f).elements = s.elements := rfl
@[simp] theorem modEntry_directory (i : Fin 64) (f : Entry → Entry) : (s.modEntry i f).directory = s.directory := rfl
@[simp] theorem modEntry_workQueue (i : Fin 64) (f : Entry → Entry) : (s.modEntry i f).workQueue = s.workQueue := rfl
@[simp] theorem modEntry_parking (i : Fin 64) (f : Entry → Entry) : (s.modEntry i f).parking = s.parking := rfl
@[simp] theorem modEntry_analysisQueue (i : Fin 64) (f : Entry → Entry) : (s.modEntry i f).analysisQueue = s.analysisQueue := rfl
@[simp] theorem modEntry_analysing (i : Fin 64) (f : Entry → Entry) : (s.modEntry i f).analysing = s.analysing := rfl
@[simp] theorem modEntry_engineTable (i : Fin 64) (f : Entry → Entry) : (s.modEntry i f).engineTable = s.engineTable := rfl
@[simp] theorem modEntry_linkTable (i : Fin 64) (f : Entry → Entry) : (s.modEntry i f).linkTable = s.linkTable := rfl
@[simp] theorem modEntry_now (i : Fin 64) (f : Entry → Entry) : (s.modEntry i f).now = s.now := rfl
@[simp] theorem modEntry_cardDeadline (i : Fin 64) (f : Entry → Entry) : (s.modEntry i f).cardDeadline = s.cardDeadline := rfl
@[simp] theorem modEntry_chassisDeadline (i : Fin 64) (f : Entry → Entry) : (s.modEntry i f).chassisDeadline = s.chassisDeadline := rfl
@[simp] theorem modEntry_sections (i : Fin 64) (f : Entry → Entry) : (s.modEntry i f).sections = s.sections := rfl
@[simp] theorem modEntry_storeOp (i : Fin 64) (f : Entry → Entry) : (s.modEntry i f).storeOp = s.storeOp := rfl
@[simp] theorem modEntry_cardPort (i : Fin 64) (f : Entry → Entry) : (s.modEntry i f).cardPort = s.cardPort := rfl
@[simp] theorem modEntry_chassisPort (i : Fin 64) (f : Entry → Entry) : (s.modEntry i f).chassisPort = s.chassisPort := rfl
@[simp] theorem modEntry_chassisAddress (i : Fin 64) (f : Entry → Entry) : (s.modEntry i f).chassisAddress = s.chassisAddress := rfl
@[simp] theorem modEntry_pending (i : Fin 64) (f : Entry → Entry) : (s.modEntry i f).pending = s.pending := rfl
@[simp] theorem modEntry_engine (i : Fin 64) (f : Entry → Entry) (j : Fin 6) : (s.modEntry i f).engine j = s.engine j := rfl
@[simp] theorem modEntry_link (i : Fin 64) (f : Entry → Entry) (j : Fin 4) : (s.modEntry i f).link j = s.link j := rfl
@[simp] theorem modEntry_linkUp (i : Fin 64) (f : Entry → Entry) (j : Fin 4) : (s.modEntry i f).linkUp j = s.linkUp j := rfl
@[simp] theorem modEntry_storeSection (i : Fin 64) (f : Entry → Entry) (j : Fin 64) : (s.modEntry i f).storeSection j = s.storeSection j := rfl
@[simp] theorem modEntry_port (i : Fin 64) (f : Entry → Entry) (j : Port) : (s.modEntry i f).port j = s.port j := rfl
@[simp] theorem modEntry_deadline (i : Fin 64) (f : Entry → Entry) (j : DeadlineName) : (s.modEntry i f).deadline j = s.deadline j := rfl

/-! ### setEngine -/

@[simp] theorem setEngine_table (e : Fin 6) (en : Engine) : (s.setEngine e en).table = s.table := rfl
@[simp] theorem setEngine_poolFree (e : Fin 6) (en : Engine) : (s.setEngine e en).poolFree = s.poolFree := rfl
@[simp] theorem setEngine_elements (e : Fin 6) (en : Engine) : (s.setEngine e en).elements = s.elements := rfl
@[simp] theorem setEngine_directory (e : Fin 6) (en : Engine) : (s.setEngine e en).directory = s.directory := rfl
@[simp] theorem setEngine_workQueue (e : Fin 6) (en : Engine) : (s.setEngine e en).workQueue = s.workQueue := rfl
@[simp] theorem setEngine_parking (e : Fin 6) (en : Engine) : (s.setEngine e en).parking = s.parking := rfl
@[simp] theorem setEngine_analysisQueue (e : Fin 6) (en : Engine) : (s.setEngine e en).analysisQueue = s.analysisQueue := rfl
@[simp] theorem setEngine_analysing (e : Fin 6) (en : Engine) : (s.setEngine e en).analysing = s.analysing := rfl
@[simp] theorem setEngine_linkTable (e : Fin 6) (en : Engine) : (s.setEngine e en).linkTable = s.linkTable := rfl
@[simp] theorem setEngine_now (e : Fin 6) (en : Engine) : (s.setEngine e en).now = s.now := rfl
@[simp] theorem setEngine_cardDeadline (e : Fin 6) (en : Engine) : (s.setEngine e en).cardDeadline = s.cardDeadline := rfl
@[simp] theorem setEngine_chassisDeadline (e : Fin 6) (en : Engine) : (s.setEngine e en).chassisDeadline = s.chassisDeadline := rfl
@[simp] theorem setEngine_sections (e : Fin 6) (en : Engine) : (s.setEngine e en).sections = s.sections := rfl
@[simp] theorem setEngine_storeOp (e : Fin 6) (en : Engine) : (s.setEngine e en).storeOp = s.storeOp := rfl
@[simp] theorem setEngine_cardPort (e : Fin 6) (en : Engine) : (s.setEngine e en).cardPort = s.cardPort := rfl
@[simp] theorem setEngine_chassisPort (e : Fin 6) (en : Engine) : (s.setEngine e en).chassisPort = s.chassisPort := rfl
@[simp] theorem setEngine_chassisAddress (e : Fin 6) (en : Engine) : (s.setEngine e en).chassisAddress = s.chassisAddress := rfl
@[simp] theorem setEngine_pending (e : Fin 6) (en : Engine) : (s.setEngine e en).pending = s.pending := rfl
@[simp] theorem setEngine_entry (e : Fin 6) (en : Engine) (j : Fin 64) : (s.setEngine e en).entry j = s.entry j := rfl
@[simp] theorem setEngine_link (e : Fin 6) (en : Engine) (j : Fin 4) : (s.setEngine e en).link j = s.link j := rfl
@[simp] theorem setEngine_linkUp (e : Fin 6) (en : Engine) (j : Fin 4) : (s.setEngine e en).linkUp j = s.linkUp j := rfl
@[simp] theorem setEngine_storeSection (e : Fin 6) (en : Engine) (j : Fin 64) : (s.setEngine e en).storeSection j = s.storeSection j := rfl
@[simp] theorem setEngine_port (e : Fin 6) (en : Engine) (j : Port) : (s.setEngine e en).port j = s.port j := rfl
@[simp] theorem setEngine_deadline (e : Fin 6) (en : Engine) (j : DeadlineName) : (s.setEngine e en).deadline j = s.deadline j := rfl

/-! ### modEngine -/

@[simp] theorem modEngine_table (e : Fin 6) (f : Engine → Engine) : (s.modEngine e f).table = s.table := rfl
@[simp] theorem modEngine_poolFree (e : Fin 6) (f : Engine → Engine) : (s.modEngine e f).poolFree = s.poolFree := rfl
@[simp] theorem modEngine_elements (e : Fin 6) (f : Engine → Engine) : (s.modEngine e f).elements = s.elements := rfl
@[simp] theorem modEngine_directory (e : Fin 6) (f : Engine → Engine) : (s.modEngine e f).directory = s.directory := rfl
@[simp] theorem modEngine_workQueue (e : Fin 6) (f : Engine → Engine) : (s.modEngine e f).workQueue = s.workQueue := rfl
@[simp] theorem modEngine_parking (e : Fin 6) (f : Engine → Engine) : (s.modEngine e f).parking = s.parking := rfl
@[simp] theorem modEngine_analysisQueue (e : Fin 6) (f : Engine → Engine) : (s.modEngine e f).analysisQueue = s.analysisQueue := rfl
@[simp] theorem modEngine_analysing (e : Fin 6) (f : Engine → Engine) : (s.modEngine e f).analysing = s.analysing := rfl
@[simp] theorem modEngine_linkTable (e : Fin 6) (f : Engine → Engine) : (s.modEngine e f).linkTable = s.linkTable := rfl
@[simp] theorem modEngine_now (e : Fin 6) (f : Engine → Engine) : (s.modEngine e f).now = s.now := rfl
@[simp] theorem modEngine_cardDeadline (e : Fin 6) (f : Engine → Engine) : (s.modEngine e f).cardDeadline = s.cardDeadline := rfl
@[simp] theorem modEngine_chassisDeadline (e : Fin 6) (f : Engine → Engine) : (s.modEngine e f).chassisDeadline = s.chassisDeadline := rfl
@[simp] theorem modEngine_sections (e : Fin 6) (f : Engine → Engine) : (s.modEngine e f).sections = s.sections := rfl
@[simp] theorem modEngine_storeOp (e : Fin 6) (f : Engine → Engine) : (s.modEngine e f).storeOp = s.storeOp := rfl
@[simp] theorem modEngine_cardPort (e : Fin 6) (f : Engine → Engine) : (s.modEngine e f).cardPort = s.cardPort := rfl
@[simp] theorem modEngine_chassisPort (e : Fin 6) (f : Engine → Engine) : (s.modEngine e f).chassisPort = s.chassisPort := rfl
@[simp] theorem modEngine_chassisAddress (e : Fin 6) (f : Engine → Engine) : (s.modEngine e f).chassisAddress = s.chassisAddress := rfl
@[simp] theorem modEngine_pending (e : Fin 6) (f : Engine → Engine) : (s.modEngine e f).pending = s.pending := rfl
@[simp] theorem modEngine_entry (e : Fin 6) (f : Engine → Engine) (j : Fin 64) : (s.modEngine e f).entry j = s.entry j := rfl
@[simp] theorem modEngine_link (e : Fin 6) (f : Engine → Engine) (j : Fin 4) : (s.modEngine e f).link j = s.link j := rfl
@[simp] theorem modEngine_linkUp (e : Fin 6) (f : Engine → Engine) (j : Fin 4) : (s.modEngine e f).linkUp j = s.linkUp j := rfl
@[simp] theorem modEngine_storeSection (e : Fin 6) (f : Engine → Engine) (j : Fin 64) : (s.modEngine e f).storeSection j = s.storeSection j := rfl
@[simp] theorem modEngine_port (e : Fin 6) (f : Engine → Engine) (j : Port) : (s.modEngine e f).port j = s.port j := rfl
@[simp] theorem modEngine_deadline (e : Fin 6) (f : Engine → Engine) (j : DeadlineName) : (s.modEngine e f).deadline j = s.deadline j := rfl

/-! ### setLink -/

@[simp] theorem setLink_table (l : Fin 4) (k : Link) : (s.setLink l k).table = s.table := rfl
@[simp] theorem setLink_poolFree (l : Fin 4) (k : Link) : (s.setLink l k).poolFree = s.poolFree := rfl
@[simp] theorem setLink_elements (l : Fin 4) (k : Link) : (s.setLink l k).elements = s.elements := rfl
@[simp] theorem setLink_directory (l : Fin 4) (k : Link) : (s.setLink l k).directory = s.directory := rfl
@[simp] theorem setLink_workQueue (l : Fin 4) (k : Link) : (s.setLink l k).workQueue = s.workQueue := rfl
@[simp] theorem setLink_parking (l : Fin 4) (k : Link) : (s.setLink l k).parking = s.parking := rfl
@[simp] theorem setLink_analysisQueue (l : Fin 4) (k : Link) : (s.setLink l k).analysisQueue = s.analysisQueue := rfl
@[simp] theorem setLink_analysing (l : Fin 4) (k : Link) : (s.setLink l k).analysing = s.analysing := rfl
@[simp] theorem setLink_engineTable (l : Fin 4) (k : Link) : (s.setLink l k).engineTable = s.engineTable := rfl
@[simp] theorem setLink_now (l : Fin 4) (k : Link) : (s.setLink l k).now = s.now := rfl
@[simp] theorem setLink_cardDeadline (l : Fin 4) (k : Link) : (s.setLink l k).cardDeadline = s.cardDeadline := rfl
@[simp] theorem setLink_chassisDeadline (l : Fin 4) (k : Link) : (s.setLink l k).chassisDeadline = s.chassisDeadline := rfl
@[simp] theorem setLink_sections (l : Fin 4) (k : Link) : (s.setLink l k).sections = s.sections := rfl
@[simp] theorem setLink_storeOp (l : Fin 4) (k : Link) : (s.setLink l k).storeOp = s.storeOp := rfl
@[simp] theorem setLink_cardPort (l : Fin 4) (k : Link) : (s.setLink l k).cardPort = s.cardPort := rfl
@[simp] theorem setLink_chassisPort (l : Fin 4) (k : Link) : (s.setLink l k).chassisPort = s.chassisPort := rfl
@[simp] theorem setLink_chassisAddress (l : Fin 4) (k : Link) : (s.setLink l k).chassisAddress = s.chassisAddress := rfl
@[simp] theorem setLink_pending (l : Fin 4) (k : Link) : (s.setLink l k).pending = s.pending := rfl
@[simp] theorem setLink_entry (l : Fin 4) (k : Link) (j : Fin 64) : (s.setLink l k).entry j = s.entry j := rfl
@[simp] theorem setLink_engine (l : Fin 4) (k : Link) (j : Fin 6) : (s.setLink l k).engine j = s.engine j := rfl
@[simp] theorem setLink_storeSection (l : Fin 4) (k : Link) (j : Fin 64) : (s.setLink l k).storeSection j = s.storeSection j := rfl
@[simp] theorem setLink_port (l : Fin 4) (k : Link) (j : Port) : (s.setLink l k).port j = s.port j := rfl
@[simp] theorem setLink_deadline (l : Fin 4) (k : Link) (j : DeadlineName) : (s.setLink l k).deadline j = s.deadline j := rfl

/-! ### modLink -/

@[simp] theorem modLink_table (l : Fin 4) (f : Link → Link) : (s.modLink l f).table = s.table := rfl
@[simp] theorem modLink_poolFree (l : Fin 4) (f : Link → Link) : (s.modLink l f).poolFree = s.poolFree := rfl
@[simp] theorem modLink_elements (l : Fin 4) (f : Link → Link) : (s.modLink l f).elements = s.elements := rfl
@[simp] theorem modLink_directory (l : Fin 4) (f : Link → Link) : (s.modLink l f).directory = s.directory := rfl
@[simp] theorem modLink_workQueue (l : Fin 4) (f : Link → Link) : (s.modLink l f).workQueue = s.workQueue := rfl
@[simp] theorem modLink_parking (l : Fin 4) (f : Link → Link) : (s.modLink l f).parking = s.parking := rfl
@[simp] theorem modLink_analysisQueue (l : Fin 4) (f : Link → Link) : (s.modLink l f).analysisQueue = s.analysisQueue := rfl
@[simp] theorem modLink_analysing (l : Fin 4) (f : Link → Link) : (s.modLink l f).analysing = s.analysing := rfl
@[simp] theorem modLink_engineTable (l : Fin 4) (f : Link → Link) : (s.modLink l f).engineTable = s.engineTable := rfl
@[simp] theorem modLink_now (l : Fin 4) (f : Link → Link) : (s.modLink l f).now = s.now := rfl
@[simp] theorem modLink_cardDeadline (l : Fin 4) (f : Link → Link) : (s.modLink l f).cardDeadline = s.cardDeadline := rfl
@[simp] theorem modLink_chassisDeadline (l : Fin 4) (f : Link → Link) : (s.modLink l f).chassisDeadline = s.chassisDeadline := rfl
@[simp] theorem modLink_sections (l : Fin 4) (f : Link → Link) : (s.modLink l f).sections = s.sections := rfl
@[simp] theorem modLink_storeOp (l : Fin 4) (f : Link → Link) : (s.modLink l f).storeOp = s.storeOp := rfl
@[simp] theorem modLink_cardPort (l : Fin 4) (f : Link → Link) : (s.modLink l f).cardPort = s.cardPort := rfl
@[simp] theorem modLink_chassisPort (l : Fin 4) (f : Link → Link) : (s.modLink l f).chassisPort = s.chassisPort := rfl
@[simp] theorem modLink_chassisAddress (l : Fin 4) (f : Link → Link) : (s.modLink l f).chassisAddress = s.chassisAddress := rfl
@[simp] theorem modLink_pending (l : Fin 4) (f : Link → Link) : (s.modLink l f).pending = s.pending := rfl
@[simp] theorem modLink_entry (l : Fin 4) (f : Link → Link) (j : Fin 64) : (s.modLink l f).entry j = s.entry j := rfl
@[simp] theorem modLink_engine (l : Fin 4) (f : Link → Link) (j : Fin 6) : (s.modLink l f).engine j = s.engine j := rfl
@[simp] theorem modLink_storeSection (l : Fin 4) (f : Link → Link) (j : Fin 64) : (s.modLink l f).storeSection j = s.storeSection j := rfl
@[simp] theorem modLink_port (l : Fin 4) (f : Link → Link) (j : Port) : (s.modLink l f).port j = s.port j := rfl
@[simp] theorem modLink_deadline (l : Fin 4) (f : Link → Link) (j : DeadlineName) : (s.modLink l f).deadline j = s.deadline j := rfl

/-! ### setSection -/

@[simp] theorem setSection_table (n : Fin 64) (c : StoreSection) : (s.setSection n c).table = s.table := rfl
@[simp] theorem setSection_poolFree (n : Fin 64) (c : StoreSection) : (s.setSection n c).poolFree = s.poolFree := rfl
@[simp] theorem setSection_elements (n : Fin 64) (c : StoreSection) : (s.setSection n c).elements = s.elements := rfl
@[simp] theorem setSection_directory (n : Fin 64) (c : StoreSection) : (s.setSection n c).directory = s.directory := rfl
@[simp] theorem setSection_workQueue (n : Fin 64) (c : StoreSection) : (s.setSection n c).workQueue = s.workQueue := rfl
@[simp] theorem setSection_parking (n : Fin 64) (c : StoreSection) : (s.setSection n c).parking = s.parking := rfl
@[simp] theorem setSection_analysisQueue (n : Fin 64) (c : StoreSection) : (s.setSection n c).analysisQueue = s.analysisQueue := rfl
@[simp] theorem setSection_analysing (n : Fin 64) (c : StoreSection) : (s.setSection n c).analysing = s.analysing := rfl
@[simp] theorem setSection_engineTable (n : Fin 64) (c : StoreSection) : (s.setSection n c).engineTable = s.engineTable := rfl
@[simp] theorem setSection_linkTable (n : Fin 64) (c : StoreSection) : (s.setSection n c).linkTable = s.linkTable := rfl
@[simp] theorem setSection_now (n : Fin 64) (c : StoreSection) : (s.setSection n c).now = s.now := rfl
@[simp] theorem setSection_cardDeadline (n : Fin 64) (c : StoreSection) : (s.setSection n c).cardDeadline = s.cardDeadline := rfl
@[simp] theorem setSection_chassisDeadline (n : Fin 64) (c : StoreSection) : (s.setSection n c).chassisDeadline = s.chassisDeadline := rfl
@[simp] theorem setSection_storeOp (n : Fin 64) (c : StoreSection) : (s.setSection n c).storeOp = s.storeOp := rfl
@[simp] theorem setSection_cardPort (n : Fin 64) (c : StoreSection) : (s.setSection n c).cardPort = s.cardPort := rfl
@[simp] theorem setSection_chassisPort (n : Fin 64) (c : StoreSection) : (s.setSection n c).chassisPort = s.chassisPort := rfl
@[simp] theorem setSection_chassisAddress (n : Fin 64) (c : StoreSection) : (s.setSection n c).chassisAddress = s.chassisAddress := rfl
@[simp] theorem setSection_pending (n : Fin 64) (c : StoreSection) : (s.setSection n c).pending = s.pending := rfl
@[simp] theorem setSection_entry (n : Fin 64) (c : StoreSection) (j : Fin 64) : (s.setSection n c).entry j = s.entry j := rfl
@[simp] theorem setSection_engine (n : Fin 64) (c : StoreSection) (j : Fin 6) : (s.setSection n c).engine j = s.engine j := rfl
@[simp] theorem setSection_link (n : Fin 64) (c : StoreSection) (j : Fin 4) : (s.setSection n c).link j = s.link j := rfl
@[simp] theorem setSection_linkUp (n : Fin 64) (c : StoreSection) (j : Fin 4) : (s.setSection n c).linkUp j = s.linkUp j := rfl
@[simp] theorem setSection_port (n : Fin 64) (c : StoreSection) (j : Port) : (s.setSection n c).port j = s.port j := rfl
@[simp] theorem setSection_deadline (n : Fin 64) (c : StoreSection) (j : DeadlineName) : (s.setSection n c).deadline j = s.deadline j := rfl

/-! ### setPort -/

@[simp] theorem setPort_table (p : Port) (q : PortState) : (s.setPort p q).table = s.table := by cases p <;> rfl
@[simp] theorem setPort_poolFree (p : Port) (q : PortState) : (s.setPort p q).poolFree = s.poolFree := by cases p <;> rfl
@[simp] theorem setPort_elements (p : Port) (q : PortState) : (s.setPort p q).elements = s.elements := by cases p <;> rfl
@[simp] theorem setPort_directory (p : Port) (q : PortState) : (s.setPort p q).directory = s.directory := by cases p <;> rfl
@[simp] theorem setPort_workQueue (p : Port) (q : PortState) : (s.setPort p q).workQueue = s.workQueue := by cases p <;> rfl
@[simp] theorem setPort_parking (p : Port) (q : PortState) : (s.setPort p q).parking = s.parking := by cases p <;> rfl
@[simp] theorem setPort_analysisQueue (p : Port) (q : PortState) : (s.setPort p q).analysisQueue = s.analysisQueue := by cases p <;> rfl
@[simp] theorem setPort_analysing (p : Port) (q : PortState) : (s.setPort p q).analysing = s.analysing := by cases p <;> rfl
@[simp] theorem setPort_engineTable (p : Port) (q : PortState) : (s.setPort p q).engineTable = s.engineTable := by cases p <;> rfl
@[simp] theorem setPort_linkTable (p : Port) (q : PortState) : (s.setPort p q).linkTable = s.linkTable := by cases p <;> rfl
@[simp] theorem setPort_now (p : Port) (q : PortState) : (s.setPort p q).now = s.now := by cases p <;> rfl
@[simp] theorem setPort_cardDeadline (p : Port) (q : PortState) : (s.setPort p q).cardDeadline = s.cardDeadline := by cases p <;> rfl
@[simp] theorem setPort_chassisDeadline (p : Port) (q : PortState) : (s.setPort p q).chassisDeadline = s.chassisDeadline := by cases p <;> rfl
@[simp] theorem setPort_sections (p : Port) (q : PortState) : (s.setPort p q).sections = s.sections := by cases p <;> rfl
@[simp] theorem setPort_storeOp (p : Port) (q : PortState) : (s.setPort p q).storeOp = s.storeOp := by cases p <;> rfl
@[simp] theorem setPort_chassisAddress (p : Port) (q : PortState) : (s.setPort p q).chassisAddress = s.chassisAddress := by cases p <;> rfl
@[simp] theorem setPort_pending (p : Port) (q : PortState) : (s.setPort p q).pending = s.pending := by cases p <;> rfl
@[simp] theorem setPort_entry (p : Port) (q : PortState) (j : Fin 64) : (s.setPort p q).entry j = s.entry j := by cases p <;> rfl
@[simp] theorem setPort_engine (p : Port) (q : PortState) (j : Fin 6) : (s.setPort p q).engine j = s.engine j := by cases p <;> rfl
@[simp] theorem setPort_link (p : Port) (q : PortState) (j : Fin 4) : (s.setPort p q).link j = s.link j := by cases p <;> rfl
@[simp] theorem setPort_linkUp (p : Port) (q : PortState) (j : Fin 4) : (s.setPort p q).linkUp j = s.linkUp j := by cases p <;> rfl
@[simp] theorem setPort_storeSection (p : Port) (q : PortState) (j : Fin 64) : (s.setPort p q).storeSection j = s.storeSection j := by cases p <;> rfl
@[simp] theorem setPort_deadline (p : Port) (q : PortState) (j : DeadlineName) : (s.setPort p q).deadline j = s.deadline j := by cases p <;> rfl

/-! ### modPort -/

@[simp] theorem modPort_table (p : Port) (f : PortState → PortState) : (s.modPort p f).table = s.table := by cases p <;> rfl
@[simp] theorem modPort_poolFree (p : Port) (f : PortState → PortState) : (s.modPort p f).poolFree = s.poolFree := by cases p <;> rfl
@[simp] theorem modPort_elements (p : Port) (f : PortState → PortState) : (s.modPort p f).elements = s.elements := by cases p <;> rfl
@[simp] theorem modPort_directory (p : Port) (f : PortState → PortState) : (s.modPort p f).directory = s.directory := by cases p <;> rfl
@[simp] theorem modPort_workQueue (p : Port) (f : PortState → PortState) : (s.modPort p f).workQueue = s.workQueue := by cases p <;> rfl
@[simp] theorem modPort_parking (p : Port) (f : PortState → PortState) : (s.modPort p f).parking = s.parking := by cases p <;> rfl
@[simp] theorem modPort_analysisQueue (p : Port) (f : PortState → PortState) : (s.modPort p f).analysisQueue = s.analysisQueue := by cases p <;> rfl
@[simp] theorem modPort_analysing (p : Port) (f : PortState → PortState) : (s.modPort p f).analysing = s.analysing := by cases p <;> rfl
@[simp] theorem modPort_engineTable (p : Port) (f : PortState → PortState) : (s.modPort p f).engineTable = s.engineTable := by cases p <;> rfl
@[simp] theorem modPort_linkTable (p : Port) (f : PortState → PortState) : (s.modPort p f).linkTable = s.linkTable := by cases p <;> rfl
@[simp] theorem modPort_now (p : Port) (f : PortState → PortState) : (s.modPort p f).now = s.now := by cases p <;> rfl
@[simp] theorem modPort_cardDeadline (p : Port) (f : PortState → PortState) : (s.modPort p f).cardDeadline = s.cardDeadline := by cases p <;> rfl
@[simp] theorem modPort_chassisDeadline (p : Port) (f : PortState → PortState) : (s.modPort p f).chassisDeadline = s.chassisDeadline := by cases p <;> rfl
@[simp] theorem modPort_sections (p : Port) (f : PortState → PortState) : (s.modPort p f).sections = s.sections := by cases p <;> rfl
@[simp] theorem modPort_storeOp (p : Port) (f : PortState → PortState) : (s.modPort p f).storeOp = s.storeOp := by cases p <;> rfl
@[simp] theorem modPort_chassisAddress (p : Port) (f : PortState → PortState) : (s.modPort p f).chassisAddress = s.chassisAddress := by cases p <;> rfl
@[simp] theorem modPort_pending (p : Port) (f : PortState → PortState) : (s.modPort p f).pending = s.pending := by cases p <;> rfl
@[simp] theorem modPort_entry (p : Port) (f : PortState → PortState) (j : Fin 64) : (s.modPort p f).entry j = s.entry j := by cases p <;> rfl
@[simp] theorem modPort_engine (p : Port) (f : PortState → PortState) (j : Fin 6) : (s.modPort p f).engine j = s.engine j := by cases p <;> rfl
@[simp] theorem modPort_link (p : Port) (f : PortState → PortState) (j : Fin 4) : (s.modPort p f).link j = s.link j := by cases p <;> rfl
@[simp] theorem modPort_linkUp (p : Port) (f : PortState → PortState) (j : Fin 4) : (s.modPort p f).linkUp j = s.linkUp j := by cases p <;> rfl
@[simp] theorem modPort_storeSection (p : Port) (f : PortState → PortState) (j : Fin 64) : (s.modPort p f).storeSection j = s.storeSection j := by cases p <;> rfl
@[simp] theorem modPort_deadline (p : Port) (f : PortState → PortState) (j : DeadlineName) : (s.modPort p f).deadline j = s.deadline j := by cases p <;> rfl

/-! ### setDeadline -/

@[simp] theorem setDeadline_table (d : DeadlineName) (v : Option Time) : (s.setDeadline d v).table = s.table := by cases d <;> rfl
@[simp] theorem setDeadline_poolFree (d : DeadlineName) (v : Option Time) : (s.setDeadline d v).poolFree = s.poolFree := by cases d <;> rfl
@[simp] theorem setDeadline_elements (d : DeadlineName) (v : Option Time) : (s.setDeadline d v).elements = s.elements := by cases d <;> rfl
@[simp] theorem setDeadline_directory (d : DeadlineName) (v : Option Time) : (s.setDeadline d v).directory = s.directory := by cases d <;> rfl
@[simp] theorem setDeadline_workQueue (d : DeadlineName) (v : Option Time) : (s.setDeadline d v).workQueue = s.workQueue := by cases d <;> rfl
@[simp] theorem setDeadline_parking (d : DeadlineName) (v : Option Time) : (s.setDeadline d v).parking = s.parking := by cases d <;> rfl
@[simp] theorem setDeadline_analysisQueue (d : DeadlineName) (v : Option Time) : (s.setDeadline d v).analysisQueue = s.analysisQueue := by cases d <;> rfl
@[simp] theorem setDeadline_analysing (d : DeadlineName) (v : Option Time) : (s.setDeadline d v).analysing = s.analysing := by cases d <;> rfl
@[simp] theorem setDeadline_engineTable (d : DeadlineName) (v : Option Time) : (s.setDeadline d v).engineTable = s.engineTable := by cases d <;> rfl
@[simp] theorem setDeadline_linkTable (d : DeadlineName) (v : Option Time) : (s.setDeadline d v).linkTable = s.linkTable := by cases d <;> rfl
@[simp] theorem setDeadline_now (d : DeadlineName) (v : Option Time) : (s.setDeadline d v).now = s.now := by cases d <;> rfl
@[simp] theorem setDeadline_sections (d : DeadlineName) (v : Option Time) : (s.setDeadline d v).sections = s.sections := by cases d <;> rfl
@[simp] theorem setDeadline_storeOp (d : DeadlineName) (v : Option Time) : (s.setDeadline d v).storeOp = s.storeOp := by cases d <;> rfl
@[simp] theorem setDeadline_cardPort (d : DeadlineName) (v : Option Time) : (s.setDeadline d v).cardPort = s.cardPort := by cases d <;> rfl
@[simp] theorem setDeadline_chassisPort (d : DeadlineName) (v : Option Time) : (s.setDeadline d v).chassisPort = s.chassisPort := by cases d <;> rfl
@[simp] theorem setDeadline_chassisAddress (d : DeadlineName) (v : Option Time) : (s.setDeadline d v).chassisAddress = s.chassisAddress := by cases d <;> rfl
@[simp] theorem setDeadline_pending (d : DeadlineName) (v : Option Time) : (s.setDeadline d v).pending = s.pending := by cases d <;> rfl
@[simp] theorem setDeadline_entry (d : DeadlineName) (v : Option Time) (j : Fin 64) : (s.setDeadline d v).entry j = s.entry j := by cases d <;> rfl
@[simp] theorem setDeadline_engine (d : DeadlineName) (v : Option Time) (j : Fin 6) : (s.setDeadline d v).engine j = s.engine j := by cases d <;> rfl
@[simp] theorem setDeadline_link (d : DeadlineName) (v : Option Time) (j : Fin 4) : (s.setDeadline d v).link j = s.link j := by cases d <;> rfl
@[simp] theorem setDeadline_linkUp (d : DeadlineName) (v : Option Time) (j : Fin 4) : (s.setDeadline d v).linkUp j = s.linkUp j := by cases d <;> rfl
@[simp] theorem setDeadline_storeSection (d : DeadlineName) (v : Option Time) (j : Fin 64) : (s.setDeadline d v).storeSection j = s.storeSection j := by cases d <;> rfl
@[simp] theorem setDeadline_port (d : DeadlineName) (v : Option Time) (j : Port) : (s.setDeadline d v).port j = s.port j := by cases d <;> rfl

/-! ### What an update writes -/

@[simp] theorem entry_setEntry (i j : Fin 64) (e : Entry) :
    (s.setEntry i e).entry j = if j = i then e else s.entry j := by
  by_cases h : j = i
  · subst h; simp [entry, setEntry]
  · have h' : i.val ≠ j.val := fun x => h (Fin.ext x.symm)
    simp [entry, setEntry, h, h']

@[simp] theorem entry_modEntry (i j : Fin 64) (f : Entry → Entry) :
    (s.modEntry i f).entry j = if j = i then f (s.entry i) else s.entry j := entry_setEntry s i j _

@[simp] theorem engine_setEngine (i j : Fin 6) (e : Engine) :
    (s.setEngine i e).engine j = if j = i then e else s.engine j := by
  by_cases h : j = i
  · subst h; simp [engine, setEngine]
  · have h' : i.val ≠ j.val := fun x => h (Fin.ext x.symm)
    simp [engine, setEngine, h, h']

@[simp] theorem engine_modEngine (i j : Fin 6) (f : Engine → Engine) :
    (s.modEngine i f).engine j = if j = i then f (s.engine i) else s.engine j := engine_setEngine s i j _

@[simp] theorem link_setLink (i j : Fin 4) (k : Link) :
    (s.setLink i k).link j = if j = i then k else s.link j := by
  by_cases h : j = i
  · subst h; simp [link, setLink]
  · have h' : i.val ≠ j.val := fun x => h (Fin.ext x.symm)
    simp [link, setLink, h, h']

@[simp] theorem link_modLink (i j : Fin 4) (f : Link → Link) :
    (s.modLink i f).link j = if j = i then f (s.link i) else s.link j := link_setLink s i j _

@[simp] theorem storeSection_setSection (i j : Fin 64) (c : StoreSection) :
    (s.setSection i c).storeSection j = if j = i then c else s.storeSection j := by
  by_cases h : j = i
  · subst h; simp [storeSection, setSection]
  · have h' : i.val ≠ j.val := fun x => h (Fin.ext x.symm)
    simp [storeSection, setSection, h, h']

@[simp] theorem port_setPort (p r : Port) (q : PortState) : (s.setPort p q).port r = if r = p then q else s.port r := by
  cases p <;> cases r <;> rfl

@[simp] theorem port_modPort (p r : Port) (f : PortState → PortState) :
    (s.modPort p f).port r = if r = p then f (s.port p) else s.port r := port_setPort s p r _

@[simp] theorem deadline_setDeadline (d c : DeadlineName) (v : Option Time) :
    (s.setDeadline d v).deadline c = if c = d then v else s.deadline c := by
  cases d <;> cases c <;> rfl

/-! ### Reading a part of a state written with other fields changed -/

variable (table : Vector Entry 64) (poolFree : Nat) (elements : Vector Element 256) (directory : Vector (Option
  DirectoryEntry) 32) (workQueue : List QueueEntry) (parking : List ParkEntry) (analysisQueue : List AnalysisEntry)
  (analysing : Bool) (engineTable : Vector Engine 6) (linkTable : Vector Link 4) (now : Time) (cardDeadline
  chassisDeadline : Option Time) (sections : Vector StoreSection 64) (storeOp : Option StoreOp) (cardPort
  chassisPort : PortState) (chassisAddress : BitVec 7) (pending : List Instr)

@[simp] theorem entry_mk (j : Fin 64) : (State.mk table poolFree elements directory workQueue parking analysisQueue
    analysing engineTable linkTable now cardDeadline chassisDeadline sections storeOp cardPort chassisPort
    chassisAddress pending).entry j = table[j] := rfl
@[simp] theorem engine_mk (j : Fin 6) : (State.mk table poolFree elements directory workQueue parking analysisQueue
    analysing engineTable linkTable now cardDeadline chassisDeadline sections storeOp cardPort chassisPort
    chassisAddress pending).engine j = engineTable[j] := rfl
@[simp] theorem link_mk (j : Fin 4) : (State.mk table poolFree elements directory workQueue parking analysisQueue
    analysing engineTable linkTable now cardDeadline chassisDeadline sections storeOp cardPort chassisPort
    chassisAddress pending).link j = linkTable[j] := rfl
@[simp] theorem storeSection_mk (j : Fin 64) : (State.mk table poolFree elements directory workQueue parking
    analysisQueue analysing engineTable linkTable now cardDeadline chassisDeadline sections storeOp cardPort
    chassisPort chassisAddress pending).storeSection j = sections[j] := rfl
@[simp] theorem directoryEntry_mk (j : Fin 32) : (State.mk table poolFree elements directory workQueue parking
    analysisQueue analysing engineTable linkTable now cardDeadline chassisDeadline sections storeOp cardPort
    chassisPort chassisAddress pending).directoryEntry j = directory[j] := rfl

@[simp] theorem table_get (n : Nat) (h : n < 64) : s.table[n] = s.entry ⟨n, h⟩ := rfl
@[simp] theorem engineTable_get (n : Nat) (h : n < 6) : s.engineTable[n] = s.engine ⟨n, h⟩ := rfl
@[simp] theorem linkTable_get (n : Nat) (h : n < 4) : s.linkTable[n] = s.link ⟨n, h⟩ := rfl
@[simp] theorem sections_get (n : Nat) (h : n < 64) : s.sections[n] = s.storeSection ⟨n, h⟩ := rfl
@[simp] theorem directory_get (n : Nat) (h : n < 32) : s.directory[n] = s.directoryEntry ⟨n, h⟩ := rfl

/-! ### Equal states -/

/-- Two states are equal when every part of them reads the same. -/
theorem ext_parts {s t : State} (h1 : ∀ i, s.entry i = t.entry i) (h2 : s.poolFree = t.poolFree)
    (h3 : s.elements = t.elements) (h4 : s.directory = t.directory) (h5 : s.workQueue = t.workQueue)
    (h6 : s.parking = t.parking) (h7 : s.analysisQueue = t.analysisQueue) (h8 : s.analysing = t.analysing)
    (h9 : ∀ e, s.engine e = t.engine e) (h10 : ∀ l, s.link l = t.link l) (h11 : s.now = t.now)
    (h12 : s.cardDeadline = t.cardDeadline) (h13 : s.chassisDeadline = t.chassisDeadline) (h14 : s.sections = t.sections)
    (h15 : s.storeOp = t.storeOp) (h16 : s.cardPort = t.cardPort) (h17 : s.chassisPort = t.chassisPort)
    (h18 : s.chassisAddress = t.chassisAddress) (h19 : s.pending = t.pending) : s = t := by
  have a : s.table = t.table := Vector.ext fun n h => h1 ⟨n, h⟩
  have b : s.engineTable = t.engineTable := Vector.ext fun n h => h9 ⟨n, h⟩
  have c : s.linkTable = t.linkTable := Vector.ext fun n h => h10 ⟨n, h⟩
  cases s; cases t
  simp_all

end Sys2Proof.Machine.State
end

