-- ==== Sys2Proof/Laws/Kept.lean ====
section
/-!
SUPPORT. `Kept s t`: what the work of the part (queues, engines, links, Fail Capture, analysis) never touches in going from `s`
to `t`, and how the fail records stay accounted for; with one lemma per shared operation.
-/

namespace Sys2Proof.Machine

open Sys2Proof

/-- Owner and descriptor stand, and the guard ranges stand or are removed. -/
structure EntryKept (a b : Entry) : Prop where
  owner : b.owner = a.owner
  descriptor : b.descriptor = a.descriptor
  guards : b.guards = a.guards ∨ b.guards = []

/-- The response, the mask and the CLAIM_LOST notice of a port stand. -/
structure PortKept (a b : PortState) : Prop where
  response : b.response = a.response
  mask : b.mask = a.mask
  lost : b.notices.claimLost = a.notices.claimLost

/-- What all of the part's own work keeps, the loss and the return of a link included. -/
structure Managed (s t : State) : Prop where
  elements : t.elements = s.elements
  directory : t.directory = s.directory
  now : t.now = s.now
  cardDeadline : t.cardDeadline = s.cardDeadline
  chassisDeadline : t.chassisDeadline = s.chassisDeadline
  sections : t.sections = s.sections
  storeOp : t.storeOp = s.storeOp
  chassisAddress : t.chassisAddress = s.chassisAddress
  pending : t.pending = s.pending
  card : PortKept s.cardPort t.cardPort
  chassis : PortKept s.chassisPort t.chassisPort
  entry : ∀ i, EntryKept (s.entry i) (t.entry i)
  balance : t.poolFree + t.logTotal = s.poolFree + s.logTotal
  logs : ∀ i, (s.entry i).failLog.length ≤ Config.logCapacity → (t.entry i).failLog.length ≤ Config.logCapacity

/-- What the part's own work keeps while no link changes its state: each link's down reason stands too (R98). -/
structure Kept (s t : State) : Prop extends Managed s t where
  down : ∀ l, (t.link l).down = (s.link l).down

theorem EntryKept.refl (a : Entry) : EntryKept a a := ⟨rfl, rfl, .inl rfl⟩

theorem EntryKept.trans {a b c : Entry} (h : EntryKept a b) (k : EntryKept b c) : EntryKept a c :=
  ⟨k.owner.trans h.owner, k.descriptor.trans h.descriptor, by
    rcases k.guards with hk | hk
    · rw [hk]; exact h.guards
    · exact .inr hk⟩

theorem PortKept.refl (a : PortState) : PortKept a a := ⟨rfl, rfl, rfl⟩

theorem PortKept.trans {a b c : PortState} (h : PortKept a b) (k : PortKept b c) : PortKept a c :=
  ⟨k.response.trans h.response, k.mask.trans h.mask, k.lost.trans h.lost⟩

/-! ### The sum of the logs -/

/-- Two lists of numbers that differ at most in what one index contributes. -/
theorem sum_map_update (l : List (Fin 64)) (hl : l.Nodup) (i : Fin 64) (hi : i ∈ l) (f g : Fin 64 → Nat)
    (h : ∀ j, j ≠ i → f j = g j) : (l.map f).sum + g i = (l.map g).sum + f i := by
  induction l with
  | nil => simp at hi
  | cons a t ih =>
    rw [List.nodup_cons] at hl
    by_cases ha : a = i
    · subst ha
      have ht : t.map f = t.map g := List.map_congr_left fun j hj => h j fun e => hl.1 (e ▸ hj)
      simp [ht]; omega
    · have := ih hl.2 (by simpa [Ne.symm ha] using hi)
      simp [h a ha]; omega

theorem logTotal_modEntry (s : State) (i : Fin 64) (f : Entry → Entry) :
    (s.modEntry i f).logTotal + (s.entry i).failLog.length = s.logTotal + (f (s.entry i)).failLog.length := by
  have h := sum_map_update allInsts (List.nodup_finRange 64) i (List.mem_finRange i)
    (fun j => ((s.modEntry i f).entry j).failLog.length) (fun j => (s.entry j).failLog.length)
    (fun j hj => by simp [hj])
  simpa [State.logTotal] using h

/-- Equal tables hold equal totals. -/
theorem logTotal_congr {s t : State} (h : t.table = s.table) : t.logTotal = s.logTotal := by
  unfold State.logTotal State.entry; rw [h]

namespace Managed

theorem refl (s : State) : Managed s s where
  elements := rfl
  directory := rfl
  now := rfl
  cardDeadline := rfl
  chassisDeadline := rfl
  sections := rfl
  storeOp := rfl
  chassisAddress := rfl
  pending := rfl
  card := .refl _
  chassis := .refl _
  entry _ := .refl _
  balance := rfl
  logs _ h := h

theorem trans {s t u : State} (h : Managed s t) (k : Managed t u) : Managed s u where
  elements := k.elements.trans h.elements
  directory := k.directory.trans h.directory
  now := k.now.trans h.now
  cardDeadline := k.cardDeadline.trans h.cardDeadline
  chassisDeadline := k.chassisDeadline.trans h.chassisDeadline
  sections := k.sections.trans h.sections
  storeOp := k.storeOp.trans h.storeOp
  chassisAddress := k.chassisAddress.trans h.chassisAddress
  pending := k.pending.trans h.pending
  card := h.card.trans k.card
  chassis := h.chassis.trans k.chassis
  entry i := (h.entry i).trans (k.entry i)
  balance := k.balance.trans h.balance
  logs i hi := k.logs i (h.logs i hi)

/-- An update that leaves the table, the pool and every kept field alone. -/
theorem quiet {t u : State} (htable : u.table = t.table) (hpool : u.poolFree = t.poolFree)
    (he : u.elements = t.elements) (hd : u.directory = t.directory) (hn : u.now = t.now)
    (hc : u.cardDeadline = t.cardDeadline) (hk : u.chassisDeadline = t.chassisDeadline)
    (hs : u.sections = t.sections) (ho : u.storeOp = t.storeOp) (ha : u.chassisAddress = t.chassisAddress)
    (hp : u.pending = t.pending) (hcp : u.cardPort = t.cardPort) (hkp : u.chassisPort = t.chassisPort) : Managed t u where
  elements := he
  directory := hd
  now := hn
  cardDeadline := hc
  chassisDeadline := hk
  sections := hs
  storeOp := ho
  chassisAddress := ha
  pending := hp
  card := by rw [hcp]; exact .refl _
  chassis := by rw [hkp]; exact .refl _
  entry i := by
    have : u.entry i = t.entry i := by unfold State.entry; rw [htable]
    rw [this]; exact .refl _
  balance := by rw [hpool, logTotal_congr htable]
  logs i hi := by
    have : u.entry i = t.entry i := by unfold State.entry; rw [htable]
    rw [this]; exact hi

/-- Any change of a link record. -/
theorem modLink {s t : State} (h : Managed s t) (l : Fin 4) (f : Link → Link) : Managed s (t.modLink l f) :=
  h.trans (quiet rfl rfl rfl rfl rfl rfl rfl rfl rfl rfl rfl rfl rfl)

end Managed

namespace Kept

variable {s t : State}

theorem refl (s : State) : Kept s s := ⟨.refl s, fun _ => rfl⟩

theorem trans {s t u : State} (h : Kept s t) (k : Kept t u) : Kept s u :=
  ⟨h.toManaged.trans k.toManaged, fun l => (k.down l).trans (h.down l)⟩

/-! ### Primitive updates -/

theorem workQueue (h : Kept s t) (q : List QueueEntry) : Kept s { t with workQueue := q } :=
  h.trans ⟨.quiet rfl rfl rfl rfl rfl rfl rfl rfl rfl rfl rfl rfl rfl, fun _ => rfl⟩

theorem parking (h : Kept s t) (q : List ParkEntry) : Kept s { t with parking := q } :=
  h.trans ⟨.quiet rfl rfl rfl rfl rfl rfl rfl rfl rfl rfl rfl rfl rfl, fun _ => rfl⟩

theorem analysis (h : Kept s t) (q : List AnalysisEntry) (b : Bool) :
    Kept s { t with analysisQueue := q, analysing := b } :=
  h.trans ⟨.quiet rfl rfl rfl rfl rfl rfl rfl rfl rfl rfl rfl rfl rfl, fun _ => rfl⟩

theorem modEngine (h : Kept s t) (e : Fin 6) (f : Engine → Engine) : Kept s (t.modEngine e f) :=
  h.trans ⟨.quiet rfl rfl rfl rfl rfl rfl rfl rfl rfl rfl rfl rfl rfl, fun _ => rfl⟩

/-- A change of a link record that leaves its down reason alone. -/
theorem modLink (h : Kept s t) (l : Fin 4) (f : Link → Link)
    (hf : (f (t.link l)).down = (t.link l).down := by rfl) : Kept s (t.modLink l f) :=
  h.trans ⟨.quiet rfl rfl rfl rfl rfl rfl rfl rfl rfl rfl rfl rfl rfl, fun j => by
    rw [State.link_modLink]; split
    · rename_i hj; rw [hj, hf]
    · rfl⟩

/-- A change of one entry and of the pool that keeps the account. -/
theorem modEntryPool (h : Kept s t) (i : Fin 64) (f : Entry → Entry) (pool : Nat)
    (hf : EntryKept (t.entry i) (f (t.entry i)))
    (hb : pool + (f (t.entry i)).failLog.length = t.poolFree + (t.entry i).failLog.length)
    (hl : (t.entry i).failLog.length ≤ Config.logCapacity → (f (t.entry i)).failLog.length ≤ Config.logCapacity) :
    Kept s ({ t with poolFree := pool }.modEntry i f) :=
  h.trans
    { down := fun _ => rfl, elements := rfl, directory := rfl, now := rfl, cardDeadline := rfl, chassisDeadline := rfl, sections := rfl,
      storeOp := rfl, chassisAddress := rfl, pending := rfl, card := .refl _, chassis := .refl _
      entry := fun j => by
        have : ({ t with poolFree := pool }.modEntry i f).entry j = if j = i then f (t.entry i) else t.entry j :=
          State.entry_modEntry { t with poolFree := pool } i j f
        rw [this]
        by_cases hj : j = i
        · subst hj; simpa using hf
        · simpa [hj] using EntryKept.refl _
      balance := by
        have h1 := logTotal_modEntry { t with poolFree := pool } i f
        have h2 : ({ t with poolFree := pool } : State).logTotal = t.logTotal := rfl
        have h3 : ({ t with poolFree := pool } : State).entry i = t.entry i := rfl
        rw [h2, h3] at h1
        show pool + _ = _
        omega
      logs := fun j hj => by
        have : ({ t with poolFree := pool }.modEntry i f).entry j = if j = i then f (t.entry i) else t.entry j :=
          State.entry_modEntry { t with poolFree := pool } i j f
        rw [this]
        by_cases hji : j = i
        · subst hji; simpa using hl hj
        · simpa [hji] using hj }

/-- A change of one entry that leaves its owner, descriptor, guard ranges and fail log alone. -/
theorem modEntry (h : Kept s t) (i : Fin 64) (f : Entry → Entry)
    (ho : (f (t.entry i)).owner = (t.entry i).owner := by rfl)
    (hd : (f (t.entry i)).descriptor = (t.entry i).descriptor := by rfl)
    (hg : (f (t.entry i)).guards = (t.entry i).guards := by rfl)
    (hl : (f (t.entry i)).failLog = (t.entry i).failLog := by rfl) : Kept s (t.modEntry i f) :=
  h.modEntryPool i f t.poolFree ⟨ho, hd, .inl hg⟩ (by rw [hl]) (by rw [hl]; exact id)

theorem raise (h : Kept s t) (p : Port) (n : Notice) (hn : ∀ m, n ≠ .claimLost m) : Kept s (t.raise p n) := by
  have key : ∀ a : PortState, PortKept a { a with notices := a.notices.raise n } := fun a =>
    ⟨rfl, rfl, by cases n <;> first | rfl | exact absurd rfl (hn _)⟩
  refine h.trans ?_
  cases p
  · exact { Kept.refl t with card := key _ }
  · exact { Kept.refl t with chassis := key _ }

theorem raiseBoth (h : Kept s t) (n : Notice) (hn : ∀ m, n ≠ .claimLost m) : Kept s (t.raiseBoth n) :=
  (h.raise _ _ hn).raise _ _ hn

/-! ### Instances -/

theorem send (h : Kept s t) (l : Fin 4) (m : LinkMsg) : Kept s (t.send l m) := by
  unfold State.send; split
  · exact h.modLink _ _
  · exact h

theorem emptyLog (h : Kept s t) (i : Fin 64) : Kept s (t.emptyLog i) := by
  unfold State.emptyLog
  exact h.modEntryPool i _ _ ⟨rfl, rfl, .inl rfl⟩ (by simp) (fun _ => by simp)

theorem takeSlot (h : Kept s t) (i : Fin 64) : Kept s (t.takeSlot i) := by
  unfold State.takeSlot; split
  · exact h
  · exact h.modLink _ _

theorem reserveSlot (h : Kept s t) (i : Fin 64) : Kept s (t.reserveSlot i) := by
  unfold State.reserveSlot; split
  · exact h
  · exact h.modLink _ _

theorem releaseSlot (h : Kept s t) (i : Fin 64) : Kept s (t.releaseSlot i) := by
  unfold State.releaseSlot; split
  · exact h
  · exact h.modLink _ _

theorem requalifyReset (h : Kept s t) (i : Fin 64) (c : StoreSection) : Kept s (t.requalifyReset i c) := by
  unfold State.requalifyReset; split
  · exact h
  · rename_i d _
    have hc : ∀ e : Entry, ∀ c, (e.cleared d c).owner = e.owner ∧ (e.cleared d c).descriptor = e.descriptor ∧
        (e.cleared d c).guards = [] ∧ (e.cleared d c).failLog = e.failLog := fun e c => by
      unfold Entry.cleared; dsimp only; split <;> exact ⟨rfl, rfl, rfl, rfl⟩
    have h1 := h.emptyLog i
    refine h1.modEntryPool i _ _ ⟨?_, ?_, .inr ?_⟩ ?_ ?_
    · exact (hc _ _).1
    · exact (hc _ _).2.1
    · exact (hc _ _).2.2.1
    · simp [(hc _ _).2.2.2, State.emptyLog]
    · simp [(hc _ _).2.2.2]

theorem enqueue (h : Kept s t) (i : Fin 64) (q : Fin 32) (c : EntryClass) (r : Requester) (a : Time) :
    Kept s (t.enqueue i q c r a) := h.workQueue _

theorem newJob (h : Kept s t) (i : Fin 64) (q : Fin 32) (u : Urgency) (r : Requester) : Kept s (t.newJob i q u r) := by
  unfold State.newJob; exact (h.modEntry i _).enqueue ..

theorem takeFollowUp (h : Kept s t) (i : Fin 64) : Kept s (t.takeFollowUp i) := by
  unfold State.takeFollowUp; split
  · exact h
  · dsimp only; split
    · exact ((h.modEntry i _).newJob ..).modEntry i _
    · exact h.modEntry i _

theorem dropFollowUp (h : Kept s t) (i : Fin 64) : Kept s (t.dropFollowUp i) := h.modEntry i _

theorem leaveQueue (h : Kept s t) (i : Fin 64) : Kept s (t.leaveQueue i) := (h.workQueue _).releaseSlot i

theorem leaveStack (h : Kept s t) (i : Fin 64) : Kept s (t.leaveStack i) := by
  unfold State.leaveStack; split
  · exact h
  · exact (h.modEngine _ _).modEntry i _

theorem leaveParking (h : Kept s t) (i : Fin 64) : Kept s (t.leaveParking i) := h.parking _

theorem leaveAnalysis (h : Kept s t) (i : Fin 64) : Kept s (t.leaveAnalysis i) := h.analysis _ _

theorem detach (h : Kept s t) (i : Fin 64) : Kept s (t.detach i) := by
  unfold State.detach; split
  · exact h.leaveQueue i
  · exact h.leaveStack i
  · exact h.leaveParking i
  · exact h.leaveAnalysis i
  · exact h

theorem enterAnalysis (h : Kept s t) (i : Fin 64) (fresh : Bool) (cut : Option CutReason) :
    Kept s (t.enterAnalysis i fresh cut) := by
  unfold State.enterAnalysis
  exact (h.analysis _ _).modEntry i _ (by cases cut <;> rfl) (by cases cut <;> rfl) (by cases cut <;> rfl)
    (by cases cut <;> rfl)

theorem cutShort (h : Kept s t) (i : Fin 64) (r : CutReason) : Kept s (t.cutShort i r) := by
  unfold State.cutShort; exact ((h.detach i).modEntry i _).enterAnalysis ..

theorem becomeRetired (h : Kept s t) (i : Fin 64) : Kept s (t.becomeRetired i) := by
  unfold State.becomeRetired; dsimp only
  refine Kept.raiseBoth ?_ _ (fun _ => nofun)
  split
  · exact h.modEntry i _
  · split
    · exact ((h.modEntry i _).send _ _).modLink _ _
    · exact h.modEntry i _

theorem becomeFaulted (h : Kept s t) (i : Fin 64) : Kept s (t.becomeFaulted i) := h.modEntry i _

theorem answerPull (h : Kept s t) (i : Fin 64) : Kept s (t.answerPull i) := by
  unfold State.answerPull; dsimp only; split
  · exact h
  · split
    · exact h.send _ _
    · exact h.send _ _
    · exact h.send _ _
    · exact (h.send _ _).send _ _
    · exact h.send _ _
    · exact h

theorem takePull (h : Kept s t) (l : Fin 4) (i : Fin 64) : Kept s (t.takePull l i) := by
  unfold State.takePull; split
  · exact h.answerPull i
  · split
    · exact h
    · exact h.modLink _ _

/-! ### Engines -/

theorem vacate (h : Kept s t) (e : Fin 6) : Kept s (t.vacate e) := h.modEngine _ _

theorem writePosition (h : Kept s t) (i : Fin 64) (p : Position) : Kept s (t.writePosition i p) := h.modEntry i _

theorem parkRun (h : Kept s t) (e : Fin 6) (i : Fin 64) (p : Position) (w : Time) : Kept s (t.parkRun e i p w) := by
  unfold State.parkRun
  exact ((((h.writePosition i p).modEntry i _).releaseSlot i).parking _).vacate e

theorem completeRun (h : Kept s t) (e : Fin 6) (i : Fin 64) (p : Position) : Kept s (t.completeRun e i p) := by
  unfold State.completeRun
  exact (((h.writePosition i p).releaseSlot i).enterAnalysis ..).vacate e

theorem reach (h : Kept s t) (e : Fin 6) (k : Nat) (p : Nat × Nat) : Kept s (t.reach e k p).1 := by
  unfold State.reach; split
  · exact h
  · split
    · exact h
    · dsimp only; split <;> try dsimp only
      · exact h.modEngine _ _
      · exact h.parkRun ..
      · exact h.completeRun ..

theorem beginLoad (h : Kept s t) (e : Fin 6) (i : Fin 64) : Kept s (t.beginLoad e i) := by
  unfold State.beginLoad; split
  · exact h
  · exact ((h.send _ _).modLink _ _).modEngine _ _

theorem dispatchRun (h : Kept s t) (e : Fin 6) (q : QueueEntry) : Kept s (t.dispatchRun e q).1 := by
  have h1 := ((h.workQueue (t.workQueue.filter fun x => x.inst != q.inst)).takeSlot q.inst).modEngine e fun en =>
    { en with current := some q.inst, dispatchStamp := some t.now, preemptible := q.cls.preemptible }
  unfold State.dispatchRun; dsimp only
  revert h1
  cases q.cls <;> intro h1
  · exact ((h1.modEntry q.inst (State.dispatchedEntry t.now .wake)).modEngine _ _).reach ..
  · exact ((h1.emptyLog q.inst).modEntry q.inst (State.dispatchedEntry t.now .urgent)).beginLoad ..
  · exact ((h1.emptyLog q.inst).modEntry q.inst (State.dispatchedEntry t.now .verify)).beginLoad ..
  · exact ((h1.emptyLog q.inst).modEntry q.inst (State.dispatchedEntry t.now .normal)).beginLoad ..

theorem resumeRun (h : Kept s t) (e : Fin 6) (i : Fin 64) : Kept s (t.resumeRun e i).1 := by
  have h1 := ((h.takeSlot i).modEntry i fun x => { x with state := .running, suspending := none })
  unfold State.resumeRun; dsimp only; split <;> try dsimp only
  · exact (h1.modEngine _ _).beginLoad ..
  · exact h1.modEngine _ _
  · exact (h1.modEngine _ _).reach ..

theorem waitFor (h : Kept s t) (e : Fin 6) (i : Fin 64) : Kept s (t.waitFor e i).1 := by
  unfold State.waitFor; dsimp only; split <;> try dsimp only
  · exact (h.modEngine _ _).resumeRun ..
  · exact h.modEngine _ _

theorem turnOnce (h : Kept s t) (e : Fin 6) : Kept s (t.turnOnce e).1 := by
  unfold State.turnOnce; dsimp only; split
  · split
    · exact h.dispatchRun ..
    · split
      · exact h
      · exact h.waitFor ..
  · split
    · exact h.vacate e
    · split
      · exact h
      · exact h.waitFor ..
  · exact h

theorem turnFor (e : Fin 6) (n : Nat) {s t : State} (h : Kept s t) : Kept s (State.turnFor e n t) := by
  induction n generalizing t with
  | zero => exact h
  | succ n ih =>
    unfold State.turnFor; split
    · exact ih (h.turnOnce e)
    · exact h.turnOnce e

theorem turn (h : Kept s t) (e : Fin 6) : Kept s (t.turn e) := turnFor e _ h

theorem settle {e : Fin 6} {r : State × Bool} (h : Kept s r.1) : Kept s (State.settle e r) := by
  unfold State.settle; split
  · exact h.turn e
  · exact h

/-- A fold keeps what each of its steps keeps. -/
theorem foldl {α : Type} (f : State → α → State) (hf : ∀ {t : State} (a : α), Kept s t → Kept s (f t a)) (l : List α)
    (h : Kept s t) : Kept s (l.foldl f t) := by
  induction l generalizing t with
  | nil => exact h
  | cons a l ih => exact ih (hf a h)

theorem turnAll (h : Kept s t) : Kept s t.turnAll := foldl State.turn (fun e k => k.turn e) _ h

theorem turnSuspender (h : Kept s t) (o : Option (Fin 6)) : Kept s (t.turnSuspender o) := by
  cases o
  · exact h
  · exact h.turn _

theorem requestDrain (h : Kept s t) (e : Fin 6) (r : DrainReason) : Kept s (t.requestDrain e r) := h.modEngine _ _

theorem disposeDrained (h : Kept s t) (e : Fin 6) (i : Fin 64) : Kept s (t.disposeDrained e i) := by
  unfold State.disposeDrained; split
  · dsimp only; split
    · exact (h.modEntry i _).modEngine _ _
    · exact (((h.modEntry i _).modEngine _ _).leaveStack i).enterAnalysis ..
  · exact h.enterAnalysis ..
  · exact h.becomeRetired i
  · exact (h.requalifyReset i _).takeFollowUp i
  · exact h

theorem finishDrain (h : Kept s t) (e : Fin 6) : Kept s (t.finishDrain e) := by
  unfold State.finishDrain; split
  · exact h.vacate e
  · dsimp only
    refine Kept.vacate (Kept.disposeDrained (Kept.releaseSlot ?_ _) _ _) _
    split
    · exact h
    · exact h.writePosition ..

theorem drainEnd (h : Kept s t) (e : Fin 6) : Kept s (t.drainEnd e) := (h.finishDrain e).turn e

theorem saveSection (h : Kept s t) (e : Fin 6) (i : Fin 64) : Kept s (t.saveSection e i) := h.modEngine _ _

theorem endElement (h : Kept s t) (e : Fin 6) : Kept s (t.endElement e) := by
  unfold State.endElement; split
  · exact h
  · exact settle (h.reach ..)

theorem checkEnd (h : Kept s t) (e : Fin 6) : Kept s (t.checkEnd e) := by
  unfold State.checkEnd; split
  · exact h.drainEnd e
  · split
    · exact h.endElement e
    · exact h

theorem drainFor (h : Kept s t) (e : Fin 6) (r : DrainReason) : Kept s (t.drainFor e r) := by
  unfold State.drainFor; dsimp only; split
  · exact (h.requestDrain e r).drainEnd e
  · exact h.requestDrain e r

theorem drainAmong (h : Kept s t) (e : Fin 6) (r : DrainReason) : Kept s (t.drainAmong e r) := by
  unfold State.drainAmong; dsimp only; split
  · exact (h.requestDrain e r).finishDrain e
  · exact h.requestDrain e r

end Kept

end Sys2Proof.Machine
end

