-- ==== Sys2Proof/Laws/Capture.lean ====
section
/-!
SUPPORT. Fail Capture: what placing a fail does to the length of a log and to the pool (R119, R129, R130), and what it keeps.
-/

namespace Sys2Proof.Machine

open Sys2Proof

/-- A placement keeps the account of records, and a log no longer than it may be. -/
structure Placed.Accounts (r : Placed) (log : List FailRecord) (pool : Nat) : Prop where
  balance : r.pool + r.log.length = pool + log.length
  bound : log.length ≤ Config.logCapacity → r.log.length ≤ Config.logCapacity

theorem length_updateFirst (p : FailRecord → Bool) (f : FailRecord → FailRecord) (l : List FailRecord) :
    (updateFirst p f l).length = l.length := by
  induction l with
  | nil => rfl
  | cons r t ih => unfold updateFirst; split <;> simp [ih]

/-- R129: of the records gathered, one place is kept. -/
theorem length_gather (p : FailRecord → Bool) (make : FailRecord → FailRecord) (l : List FailRecord)
    (h : l.filter p ≠ []) : (gather p make l).length + (l.filter p).length = l.length + 1 := by
  induction l with
  | nil => simp at h
  | cons r t ih =>
    unfold gather
    by_cases hr : p r
    · have h1 := List.length_eq_length_filter_add (l := t) p
      simp [hr]; omega
    · simp [hr] at h ⊢
      have := ih (by simpa using h)
      omega

theorem addRecord_accounts (log : List FailRecord) (pool : Nat) (r : FailRecord) :
    (addRecord log pool r).Accounts log pool := by
  unfold addRecord
  split
  · exact ⟨rfl, id⟩
  · split
    · exact ⟨rfl, id⟩
    · refine ⟨?_, ?_⟩ <;> simp at * <;> omega

theorem sparesCheck_accounts (cx : CaptureContext) {r : Placed} {log : List FailRecord} {pool : Nat}
    (h : r.Accounts log pool) : (sparesCheck cx r).Accounts log pool := by
  unfold sparesCheck; split
  · exact h
  · split
    · exact ⟨h.balance, h.bound⟩
    · exact h

theorem collapse_accounts (cx : CaptureContext) (log : List FailRecord) (pool : Nat) (p : FailRecord → Bool)
    (place : FailPlace) (mark : Option Bool) : (collapse cx log pool p place mark).Accounts log pool := by
  unfold collapse; dsimp only; split
  · exact sparesCheck_accounts cx (addRecord_accounts ..)
  · rename_i r t hg
    refine sparesCheck_accounts cx ?_
    have hpos : log.filter p ≠ [] := by rw [hg]; simp
    have h1 : (log.filter p).length = t.length + 1 := by rw [hg]; rfl
    constructor
    · have := length_gather p (fun r' : FailRecord => ⟨place, none,
        min Config.counterTop (((log.filter p).map FailRecord.hits).sum + 1), r'.firstSeen, r'.ordinal, .uncovered, mark⟩)
        log hpos
      rw [hg] at this ⊢
      simp at this ⊢; omega
    · intro hb
      have := length_gather p (fun r' : FailRecord => ⟨place, none,
        min Config.counterTop (((log.filter p).map FailRecord.hits).sum + 1), r'.firstSeen, r'.ordinal, .uncovered, mark⟩)
        log hpos
      rw [hg] at this ⊢
      simp at this ⊢; omega

/-- R125 to R131: placing a fail keeps the account. -/
theorem placeFail_accounts (cx : CaptureContext) (log : List FailRecord) (pool : Nat) (f : Fail) :
    (placeFail cx log pool f).Accounts log pool := by
  have hu : ∀ p g, Placed.Accounts ⟨updateFirst p g log, pool, none⟩ log pool := fun p g =>
    ⟨by simp [length_updateFirst], by simp [length_updateFirst]⟩
  unfold placeFail; dsimp only
  split
  · exact hu _ _
  · split
    · exact hu _ _
    · split
      · exact hu _ _
      · split
        · unfold placeUncovered
          split
          · exact collapse_accounts ..
          · split
            · exact collapse_accounts ..
            · exact addRecord_accounts ..
        · exact addRecord_accounts ..

namespace Kept

variable {s t : State}

theorem captureEntry (h : Kept s t) (e : Fin 6) (i : Fin 64) (b : Burst) (m : Mismatch) :
    Kept s (t.captureEntry e i b m) := by
  unfold State.captureEntry; split
  · exact h
  · rename_i f _
    have ha := placeFail_accounts (t.captureContext i b) (t.entry i).failLog t.poolFree f
    have h1 : Kept s ({ t with poolFree := (placeFail (t.captureContext i b) (t.entry i).failLog t.poolFree f).pool }.modEntry i
        fun x => { x with failLog := (placeFail (t.captureContext i b) (t.entry i).failLog t.poolFree f).log }) :=
      h.modEntryPool i _ _ ⟨rfl, rfl, .inl rfl⟩ ha.balance ha.bound
    dsimp only; split
    · exact h1
    · exact h1.requestDrain ..

theorem captureResult (h : Kept s t) (e : Fin 6) (i : Fin 64) (b : Burst) (ms : List Mismatch) :
    Kept s (t.captureResult e i b ms) := foldl _ (fun m k => k.captureEntry e i b m) ms h

end Kept

end Sys2Proof.Machine
end

