-- ==== Sys2Proof/Laws/Ops.lean ====
section
/-!
SUPPORT. The shared operations: masks, owners, the library's writes, engines that do not turn, and a Time Base with nothing due.
-/

namespace Sys2Proof.Machine

open Sys2Proof

/-! ### Masks -/

@[simp] theorem inMask_zero (i : Fin 64) : inMask 0#64 i = false := by simp [inMask]

@[simp] theorem inMask_or (a b : Mask) (i : Fin 64) : inMask (a ||| b) i = (inMask a i || inMask b i) := by simp [inMask]

@[simp] theorem inMask_maskBit (i j : Fin 64) : inMask (maskBit i) j = decide (j = i) := by
  revert i j; decide +kernel

theorem inMask_fold (p : Fin 64 → Bool) (l : List (Fin 64)) (m : Mask) (j : Fin 64) :
    inMask (l.foldl (fun m i => if p i then m ||| maskBit i else m) m) j = (inMask m j || (decide (j ∈ l) && p j)) := by
  induction l generalizing m with
  | nil => simp
  | cons a t ih =>
    rw [List.foldl_cons, ih]
    by_cases ha : p a
    · by_cases hj : j = a
      · subst hj; simp [ha]
      · simp [ha, hj]
    · by_cases hj : j = a
      · subst hj; simp [ha]
      · simp [ha, hj]

/-- Position `j` of a mask made from a condition. -/
@[simp] theorem inMask_maskOf (p : Fin 64 → Bool) (j : Fin 64) : inMask (maskOf p) j = p j := by
  simp [maskOf, inMask_fold, allInsts, List.mem_finRange]

/-- Two masks with the same positions are the same. -/
theorem mask_ext {a b : Mask} (h : ∀ i, inMask a i = inMask b i) : a = b := by
  apply BitVec.eq_of_getLsbD_eq
  intro i hi
  exact h ⟨i, hi⟩

theorem maskOf_eq_zero (p : Fin 64 → Bool) : maskOf p = 0 ↔ ∀ i, p i = false := by
  constructor
  · intro h i; have := inMask_maskOf p i; rw [h] at this; simpa using this.symm
  · intro h; exact mask_ext fun i => by simp [h]

/-- A mask made of its own positions. -/
theorem maskOf_inMask (m : Mask) : maskOf (inMask m) = m := mask_ext fun i => by simp

/-! ### Folds over the instances -/

/-- A fold that changes one entry at each of some instances. -/
theorem entry_foldl_modEntry (p : Fin 64 → Bool) (f : Entry → Entry) (l : List (Fin 64)) (hl : l.Nodup) (s : State)
    (j : Fin 64) :
    (l.foldl (fun t i => if p i then t.modEntry i f else t) s).entry j =
      if j ∈ l ∧ p j = true then f (s.entry j) else s.entry j := by
  induction l generalizing s with
  | nil => simp
  | cons a t ih =>
    rw [List.nodup_cons] at hl
    rw [List.foldl_cons, ih hl.2]
    by_cases hj : j = a
    · subst hj
      by_cases hp : p j
      · simp [hp, hl.1]
      · simp [hp, hl.1]
    · by_cases hp : p a <;> simp [hj, hp]

/-- Such a fold changes the table alone. -/
theorem table_foldl_modEntry (p : Fin 64 → Bool) (f : Entry → Entry) (l : List (Fin 64)) (s : State) :
    ∃ tb, l.foldl (fun t i => if p i then t.modEntry i f else t) s = { s with table := tb } := by
  induction l generalizing s with
  | nil => exact ⟨_, rfl⟩
  | cons a t ih =>
    rw [List.foldl_cons]
    obtain ⟨tb, h⟩ := ih (if p a then s.modEntry a f else s)
    refine ⟨tb, h.trans ?_⟩
    split <;> rfl

/-- R24: the owners after some are set. -/
@[simp] theorem entry_setOwners (s : State) (p : Fin 64 → Bool) (o : Owner) (j : Fin 64) :
    (s.setOwners p o).entry j = if p j then { s.entry j with owner := o } else s.entry j := by
  simp [State.setOwners, entry_foldl_modEntry _ _ _ (List.nodup_finRange 64), allInsts, List.mem_finRange]

/-- Setting owners changes the table alone. -/
theorem setOwners_table (s : State) (p : Fin 64 → Bool) (o : Owner) : ∃ tb, s.setOwners p o = { s with table := tb } :=
  table_foldl_modEntry ..

/-! ### The library -/

/-- R47: what the Element Store holds after a list is written into it. -/
theorem element_writeElements (es : List Element) (s : State) (start k : Nat) :
    (s.writeElements start es).element k =
      if h : start ≤ k ∧ k < start + es.length ∧ k < 256 then es[k - start]'(by omega) else s.element k := by
  induction es generalizing s start with
  | nil => simp [State.writeElements]; omega
  | cons e t ih =>
    unfold State.writeElements; dsimp only
    rw [ih]
    by_cases h1 : start + 1 ≤ k ∧ k < start + 1 + t.length ∧ k < 256
    · rw [dif_pos h1, dif_pos (by simp; omega)]
      have : k - start = (k - (start + 1)) + 1 := by omega
      simp [this]
    · rw [dif_neg h1]
      by_cases hk : k = start
      · subst hk
        by_cases h2 : k < 256
        · rw [dif_pos h2, dif_pos (by simp; omega)]
          simp [State.element, h2]
        · rw [dif_neg h2, dif_neg (by simp; omega)]
      · have hn : ¬(start ≤ k ∧ k < start + (e :: t).length ∧ k < 256) := by simp only [List.length_cons]; omega
        rw [dif_neg hn]
        split
        · simp [State.element, Ne.symm hk]
        · rfl

/-- R48: what the Sequence Directory holds after a list is written into it. -/
theorem directoryEntry_writeDirectory (es : List (Option DirectoryEntry)) (s : State) (start : Nat) (q : Fin 32) :
    (s.writeDirectory start es).directoryEntry q =
      if h : start ≤ q.val ∧ q.val < start + es.length then es[q.val - start]'(by omega) else s.directoryEntry q := by
  induction es generalizing s start with
  | nil => simp [State.writeDirectory]
  | cons e t ih =>
    unfold State.writeDirectory; dsimp only
    rw [ih]
    have hq := q.isLt
    by_cases h1 : start + 1 ≤ q.val ∧ q.val < start + 1 + t.length
    · rw [dif_pos h1, dif_pos (by simp; omega)]
      have : q.val - start = (q.val - (start + 1)) + 1 := by omega
      simp [this]
    · rw [dif_neg h1]
      by_cases hk : q.val = start
      · have hp : start ≤ q.val ∧ q.val < start + (e :: t).length := by simp only [List.length_cons]; omega
        rw [dif_pos hp, dif_pos (by omega : start < 32)]
        simp [hk]
      · have hn : ¬(start ≤ q.val ∧ q.val < start + (e :: t).length) := by simp only [List.length_cons]; omega
        rw [dif_neg hn]
        split
        · simp [Ne.symm hk]
        · rfl

/-- Writing elements changes the Element Store alone. -/
theorem writeElements_elements (es : List Element) (s : State) (start : Nat) :
    ∃ v, s.writeElements start es = { s with elements := v } := by
  induction es generalizing s start with
  | nil => exact ⟨_, rfl⟩
  | cons e t ih =>
    unfold State.writeElements; dsimp only
    split
    · obtain ⟨v, h⟩ := ih { s with elements := s.elements.set start e } (start + 1)
      exact ⟨v, h⟩
    · exact ih s (start + 1)

/-- Writing directory entries changes the Sequence Directory alone. -/
theorem writeDirectory_directory (es : List (Option DirectoryEntry)) (s : State) (start : Nat) :
    ∃ v, s.writeDirectory start es = { s with directory := v } := by
  induction es generalizing s start with
  | nil => exact ⟨_, rfl⟩
  | cons e t ih =>
    unfold State.writeDirectory; dsimp only
    split
    · obtain ⟨v, h⟩ := ih { s with directory := s.directory.set start e } (start + 1)
      exact ⟨v, h⟩
    · exact ih s (start + 1)

/-! ### Engines that do not turn -/

/-- An engine with a run does nothing of its own. -/
theorem turn_of_run (s : State) (e : Fin 6) (h : (s.engine e).state ≠ .idle) (hw : (s.engine e).state ≠ .waitingSlot) :
    s.turn e = s := by
  have h1 : s.turnOnce e = (s, false) := by
    unfold State.turnOnce; dsimp only; split
    · exact absurd ‹_› h
    · exact absurd ‹_› hw
    · rfl
  simp [State.turn, State.turnFor, h1]

/-- An idle engine with an empty stack and no reserved entry stays idle. -/
theorem turn_of_free (s : State) (e : Fin 6) (h : (s.engine e).state = .idle) (hs : (s.engine e).stack = [])
    (hr : s.reservedFor e = none) : s.turn e = s := by
  have h1 : s.turnOnce e = (s, false) := by
    unfold State.turnOnce; dsimp only; rw [h]; dsimp only; rw [hr]; dsimp only; rw [hs]
  simp [State.turn, State.turnFor, h1]

/-- R71, R73: an engine with nothing to turn to, and one with a run, does nothing of its own. -/
theorem turn_of_steady (s : State) (h : s.EnginesSteady) (e : Fin 6) : s.turn e = s := by
  rcases h e with h | ⟨hi, hs, hq⟩
  · exact turn_of_run s e (by rcases h with h | h | h <;> simp [h]) (by rcases h with h | h | h <;> simp [h])
  · refine turn_of_free s e hi hs ?_
    unfold State.reservedFor
    rw [List.find?_eq_none]
    intro q h
    simp [hq q h]

/-- R71, R73: when every engine is so, none turns. -/
theorem turnAll_of_steady (s : State) (h : s.EnginesSteady) : s.turnAll = s := by
  unfold State.turnAll
  have : ∀ l : List (Fin 6), l.foldl State.turn s = s := fun l => by
    induction l with
    | nil => rfl
    | cons a t ih => rw [List.foldl_cons, turn_of_steady s h, ih]
  exact this _

/-! ### The Time Base -/

theorem foldl_id {α : Type} (f : State → α → State) (s : State) (h : ∀ a, f s a = s) (l : List α) : l.foldl f s = s := by
  induction l with
  | nil => rfl
  | cons a t ih => rw [List.foldl_cons, h a, ih]

/-- With nothing due, nothing falls due. -/
theorem takeDue_of_nothing (s : State) (h : s.NothingDue) : s.takeDue = s := by
  have h1 : (s.expiry .card).expiry .chassis = s := by simp [State.expiry, h.1]
  unfold State.takeDue; dsimp only
  rw [h1, foldl_id State.wake s (fun i => by simp [State.wake, h.2.1]),
    foldl_id State.burstTimeout s (fun l => by simp [State.burstTimeout, (h.2.2 l).1]),
    foldl_id State.loadTimeout s (fun l => by simp [State.loadTimeout, (h.2.2 l).2])]

end Sys2Proof.Machine
end

