-- ==== Sys2Proof/Laws/Effects.lean ====
section
/-!
SUPPORT. What the shared operations over links, slots, logs and engines come to, as writes of one record each, where the instance's
link is known.
-/

namespace Sys2Proof.Machine

open Sys2Proof

variable {s : State} {i : Fin 64} {l : Fin 4}

/-! ### Links and slots (R68, R99) -/

theorem send_up (h : s.linkUp l = true) (m : LinkMsg) :
    s.send l m = s.setLink l { s.link l with sent := (s.link l).sent ++ [m] } := by
  simp [State.send, h, State.modLink]

theorem send_down (h : s.linkUp l = false) (m : LinkMsg) : s.send l m = s := by simp [State.send, h]

theorem linkOf_some {d : Descriptor} (h : (s.entry i).descriptor = some d) : s.linkOf i = some d.link := by
  simp [State.linkOf, h]

theorem linkOf_eq_some : s.linkOf i = some l ↔ ∃ d, (s.entry i).descriptor = some d ∧ d.link = l := by
  simp [State.linkOf]

theorem linkOf_congr {t : State} (h : (t.entry i).descriptor = (s.entry i).descriptor) : t.linkOf i = s.linkOf i := by
  simp [State.linkOf, h]

theorem releaseSlot_of (h : s.linkOf i = some l) :
    s.releaseSlot i = s.setLink l { s.link l with slots := slotsWithout (s.link l).slots i } := by
  simp [State.releaseSlot, h, State.modLink, slotsWithout]

theorem releaseSlot_none (h : s.linkOf i = none) : s.releaseSlot i = s := by simp [State.releaseSlot, h]

theorem takeSlot_of (h : s.linkOf i = some l) :
    s.takeSlot i = s.setLink l { s.link l with slots := (s.link l).slots.filter (· != .reserved i) ++ [.running i] } := by
  simp [State.takeSlot, h, State.modLink]

theorem reserveSlot_of (h : s.linkOf i = some l) :
    s.reserveSlot i = s.setLink l { s.link l with slots := (s.link l).slots ++ [.reserved i] } := by
  simp [State.reserveSlot, h, State.modLink]

/-! ### Writes over one another -/

@[simp] theorem setEntry_setEntry (s : State) (i : Fin 64) (a b : Entry) : (s.setEntry i a).setEntry i b = s.setEntry i b := by
  simp [State.setEntry]

@[simp] theorem setEngine_setEngine (s : State) (e : Fin 6) (a b : Engine) :
    (s.setEngine e a).setEngine e b = s.setEngine e b := by
  simp [State.setEngine]

@[simp] theorem setLink_setLink (s : State) (l : Fin 4) (a b : Link) : (s.setLink l a).setLink l b = s.setLink l b := by
  simp [State.setLink]

/-! ### Fail logs (R120) -/

theorem emptyLog_eq (s : State) (i : Fin 64) :
    s.emptyLog i =
      { s with poolFree := s.poolFree + (s.entry i).failLog.length }.setEntry i { s.entry i with failLog := [] } := by
  simp [State.emptyLog, State.modEntry]

/-! ### Loads (R82) -/

theorem beginLoad_eq {d : Descriptor} (hd : (s.entry i).descriptor = some d) (h : s.linkUp d.link = true) (e : Fin 6) :
    s.beginLoad e i =
      (s.setLink d.link
          { s.link d.link with
            sent := (s.link d.link).sent ++ [.mapLoad d.memId (s.entry i).repairMap]
            loads := (s.link d.link).loads ++ [⟨e, d.memId, s.now⟩] }).setEngine e
        { s.engine e with
          state := .loading, loadOutstanding := true, position := some (s.entry i).run.position } := by
  simp [State.beginLoad, hd, send_up h, State.modLink, State.modEngine]

/-! ### Engines (R71, R73, R93) -/

theorem turn_of_hasRun (s : State) (e : Fin 6) (h : (s.engine e).hasRun) : s.turn e = s := by
  apply turn_of_run <;> rcases h with h | h | h <;> simp [h]

theorem turn_of_nothing (s : State) (e : Fin 6) (h : (s.engine e).state = .idle) (hn : s.nothingWaits e) : s.turn e = s := by
  refine turn_of_free s e h hn.1 ?_
  unfold State.reservedFor
  rw [List.find?_eq_none]
  intro q hq
  simp [hn.2 q hq]

/-- R93, R95: a drain request leaves what is outstanding. -/
theorem drainRequested_outstanding (en : Engine) (r : DrainReason) :
    (en.drainRequested r).inFlight = en.inFlight ∧ (en.drainRequested r).loadOutstanding = en.loadOutstanding := by
  unfold Engine.drainRequested
  split <;> try exact ⟨rfl, rfl⟩
  unfold Engine.redrain
  split <;> exact ⟨rfl, rfl⟩

/-- R93: a drain that has something to await does not end in the step of its request. -/
theorem not_endsAtOnce (s : State) (e : Fin 6) (r : DrainReason) (h : (s.engine e).outstanding) :
    s.drainEndsAtOnce (s.requestDrain e r) e = false := by
  have hk := drainRequested_outstanding (s.engine e) r
  simp only [State.drainEndsAtOnce, State.drainDone, State.requestDrain, State.engine_modEngine, if_true, hk.1, hk.2]
  rcases h with h | h
  · simp [h]
  · simp [h]

theorem drainFor_of_outstanding (s : State) (e : Fin 6) (r : DrainReason) (h : (s.engine e).outstanding) :
    s.drainFor e r = s.setEngine e ((s.engine e).drainRequested r) := by
  unfold State.drainFor; dsimp only
  rw [not_endsAtOnce s e r h]
  rfl

theorem drainAmong_of_outstanding (s : State) (e : Fin 6) (r : DrainReason) (h : (s.engine e).outstanding) :
    s.drainAmong e r = s.setEngine e ((s.engine e).drainRequested r) := by
  unfold State.drainAmong; dsimp only
  rw [not_endsAtOnce s e r h]
  rfl

end Sys2Proof.Machine
end

