-- ==== Sys2Proof/Laws/Guards.lean ====
section
/-!
SUPPORT. The guard ranges: GUARD adds exactly its rows and UNGUARD removes exactly its rows, and both keep the list canonical
(R30 to R32).
-/

namespace Sys2Proof.Machine

open Sys2Proof

/-- Row `r` lies in range `g`. -/
def GuardRange.holds (g : GuardRange) (r : Nat) : Prop := g.first ≤ r ∧ r ≤ g.last

theorem guarded_iff (gs : List GuardRange) (r : Nat) : guarded gs r = true ↔ ∃ g ∈ gs, g.holds r := by
  simp [guarded, GuardRange.holds]

theorem rangesFrom_mono {rows a b : Nat} (h : b ≤ a) {gs : List GuardRange} (hg : rangesFrom rows a gs) :
    rangesFrom rows b gs := by
  cases gs with
  | nil => trivial
  | cons g t => exact ⟨h.trans hg.1, hg.2⟩

theorem rangesFrom_mem {rows low : Nat} {gs : List GuardRange} (h : rangesFrom rows low gs) :
    ∀ g ∈ gs, low ≤ g.first ∧ g.first ≤ g.last ∧ g.last < rows := by
  induction gs generalizing low with
  | nil => simp
  | cons a t ih =>
    obtain ⟨h1, h2, h3, h4⟩ := h
    intro g hg
    rcases List.mem_cons.1 hg with rfl | hg
    · exact ⟨h1, h2, h3⟩
    · have := ih h4 g hg; omega

/-! ### Insertion and merging -/

theorem mem_insertRange (g h : GuardRange) (gs : List GuardRange) : h ∈ insertRange g gs ↔ h = g ∨ h ∈ gs := by
  induction gs with
  | nil => simp [insertRange]
  | cons a t ih =>
    unfold insertRange; split
    · simp
    · simp only [List.mem_cons, ih]; tauto

/-- The range that some ranges make with `m` (R31). -/
def joinRanges (m : GuardRange) (l : List GuardRange) : GuardRange :=
  l.foldl (fun m h => ⟨min m.first h.first, max m.last h.last⟩) m

theorem joinRanges_first (k : Nat) (l : List GuardRange) (m : GuardRange) (hm : k ≤ m.first) (hl : ∀ h ∈ l, k ≤ h.first) :
    k ≤ (joinRanges m l).first := by
  induction l generalizing m with
  | nil => exact hm
  | cons a t ih =>
    simp only [List.mem_cons, forall_eq_or_imp] at hl
    exact ih _ (by simp; exact ⟨hm, hl.1⟩) hl.2

/-- R31: the range that touching ranges make holds exactly their rows. -/
theorem joinRanges_holds (g : GuardRange) (r : Nat) (l : List GuardRange) (m : GuardRange)
    (hm : m.first ≤ g.first ∧ g.first ≤ g.last ∧ g.last ≤ m.last) (hl : ∀ h ∈ l, g.touches h = true ∧ h.first ≤ h.last) :
    (joinRanges m l).holds r ↔ m.holds r ∨ ∃ h ∈ l, h.holds r := by
  induction l generalizing m with
  | nil => simp [joinRanges]
  | cons a t ih =>
    simp only [List.mem_cons, forall_eq_or_imp] at hl
    have h1 : (joinRanges m (a :: t)) = joinRanges ⟨min m.first a.first, max m.last a.last⟩ t := rfl
    rw [h1, ih _ ⟨by simp; omega, hm.2.1, by simp; omega⟩ hl.2]
    have ha := hl.1
    simp only [GuardRange.touches, Bool.and_eq_true, decide_eq_true_eq] at ha
    simp only [GuardRange.holds, List.mem_cons, exists_eq_or_imp]
    constructor
    · rintro (h | h)
      · by_cases hx : m.first ≤ r ∧ r ≤ m.last
        · exact .inl hx
        · exact .inr (.inl (by omega))
      · exact .inr (.inr h)
    · rintro (h | h | h)
      · exact .inl (by omega)
      · exact .inl (by omega)
      · exact .inr h

/-- R31: GUARD guards exactly its rows besides those guarded before. -/
theorem guarded_addRange (rows low : Nat) (gs : List GuardRange) (g : GuardRange) (hs : rangesFrom rows low gs)
    (hg : g.first ≤ g.last) (r : Nat) :
    guarded (addRange gs g) r = true ↔ guarded gs r = true ∨ (g.first ≤ r ∧ r ≤ g.last) := by
  have hj := joinRanges_holds g r (gs.filter g.touches) g ⟨le_refl _, hg, le_refl _⟩ (by
    intro h hh
    rw [List.mem_filter] at hh
    exact ⟨hh.2, (rangesFrom_mem hs h hh.1).2.1⟩)
  rw [guarded_iff, guarded_iff]
  unfold addRange mergedRange
  constructor
  · rintro ⟨h, hm, hr⟩
    rcases (mem_insertRange _ _ _).1 hm with rfl | hm
    · rcases hj.1 hr with hx | ⟨x, hx, hxr⟩
      · exact .inr hx
      · exact .inl ⟨x, (List.mem_filter.1 hx).1, hxr⟩
    · exact .inl ⟨h, (List.mem_filter.1 hm).1, hr⟩
  · rintro (⟨h, hm, hr⟩ | hr)
    · by_cases ht : g.touches h = true
      · exact ⟨_, (mem_insertRange _ _ _).2 (.inl rfl), hj.2 (.inr ⟨h, List.mem_filter.2 ⟨hm, ht⟩, hr⟩)⟩
      · exact ⟨h, (mem_insertRange _ _ _).2 (.inr (List.mem_filter.2 ⟨hm, by simp [ht]⟩)), hr⟩
    · exact ⟨_, (mem_insertRange _ _ _).2 (.inl rfl), hj.2 (.inl hr)⟩

/-! ### The list stays canonical -/

/-- Ranges that all lie beyond the range `m`, none touching `g`: `m` goes in front. -/
theorem insert_beyond (rows low : Nat) (g m : GuardRange) (gs : List GuardRange) (hs : rangesFrom rows low gs)
    (hm : m.first ≤ m.last ∧ m.last < rows ∧ m.last + 2 ≤ low) (hg : g.last + 2 ≤ low) :
    rangesFrom rows m.first
      (insertRange (joinRanges m (gs.filter g.touches)) (gs.filter fun h => !g.touches h)) := by
  have hno : ∀ h ∈ gs, g.touches h = false := fun h hh => by
    have := rangesFrom_mem hs h hh
    simp [GuardRange.touches]; omega
  have h1 : gs.filter g.touches = [] := by rw [List.filter_eq_nil_iff]; intro h hh; simp [hno h hh]
  have h2 : (gs.filter fun h => !g.touches h) = gs := by rw [List.filter_eq_self]; intro h hh; simp [hno h hh]
  rw [h1, h2]
  show rangesFrom rows m.first (insertRange m gs)
  cases gs with
  | nil => exact ⟨le_refl _, hm.1, hm.2.1, trivial⟩
  | cons a t =>
    have ha := hs.1
    unfold insertRange
    rw [if_pos (by omega)]
    exact ⟨le_refl _, hm.1, hm.2.1, by omega, hs.2⟩

/-- Ranges from the first that touches `g` on, those before them gathered into `m`. -/
theorem insert_touching (rows low : Nat) (g m : GuardRange) (gs : List GuardRange) (hs : rangesFrom rows low gs)
    (hg : g.first ≤ g.last ∧ g.last < rows) (hlow : g.first ≤ low + 1)
    (hm : m.first ≤ g.first ∧ g.last ≤ m.last ∧ m.last < rows) (hml : m.last = g.last ∨ m.last + 2 ≤ low) :
    ∃ k, k ≤ m.first ∧ min low m.first ≤ k ∧
      rangesFrom rows k (insertRange (joinRanges m (gs.filter g.touches)) (gs.filter fun h => !g.touches h)) := by
  induction gs generalizing low m with
  | nil => exact ⟨m.first, le_refl _, by omega, le_refl _, by show m.first ≤ m.last; omega, hm.2.2, trivial⟩
  | cons a t ih =>
    obtain ⟨h1, h2, h3, h4⟩ := hs
    by_cases ht : g.touches a = true
    · simp only [List.filter_cons, ht, if_true, Bool.not_true, Bool.false_eq_true, if_false]
      have hj : joinRanges m (a :: t.filter g.touches) =
          joinRanges ⟨min m.first a.first, max m.last a.last⟩ (t.filter g.touches) := rfl
      rw [hj]
      obtain ⟨k, hk1, hk2, hk3⟩ := ih (a.last + 2) ⟨min m.first a.first, max m.last a.last⟩ h4 (by omega)
        (by simp; omega) (by simp; omega)
      simp only at hk1 hk2
      exact ⟨k, by omega, by omega, hk3⟩
    · have ht' : g.touches a = false := by simpa using ht
      have hfar : g.last + 2 ≤ a.first := by
        simp [GuardRange.touches] at ht'; omega
      refine ⟨m.first, le_refl _, by omega, ?_⟩
      exact insert_beyond rows a.first g m (a :: t) ⟨le_refl _, h2, h3, h4⟩ ⟨by omega, hm.2.2, by omega⟩ hfar

/-- R30, R31: GUARD keeps the ranges canonical. -/
theorem rangesFrom_addRange (rows low : Nat) (gs : List GuardRange) (g : GuardRange) (hs : rangesFrom rows low gs)
    (hg : g.first ≤ g.last ∧ g.last < rows) : ∃ k, min low g.first ≤ k ∧ rangesFrom rows k (addRange gs g) := by
  show ∃ k, min low g.first ≤ k ∧
    rangesFrom rows k (insertRange (joinRanges g (gs.filter g.touches)) (gs.filter fun h => !g.touches h))
  induction gs generalizing low with
  | nil => exact ⟨g.first, by omega, le_refl _, hg.1, hg.2, trivial⟩
  | cons a t ih =>
    obtain ⟨h1, h2, h3, h4⟩ := hs
    by_cases hb : a.last + 1 < g.first
    · have ht : g.touches a = false := by simp [GuardRange.touches]; omega
      simp only [List.filter_cons, ht, Bool.false_eq_true, if_false, Bool.not_false, if_true]
      obtain ⟨k, hk, hr⟩ := ih (a.last + 2) h4
      have hf : a.last + 2 ≤ (joinRanges g (t.filter g.touches)).first :=
        joinRanges_first _ _ _ (by omega) fun h hh => (rangesFrom_mem h4 h (List.mem_filter.1 hh).1).1
      unfold insertRange
      rw [if_neg (by omega)]
      exact ⟨low, by omega, h1, h2, h3, rangesFrom_mono (by omega) hr⟩
    · by_cases ht : g.touches a = true
      · simp only [List.filter_cons, ht, if_true, Bool.not_true, Bool.false_eq_true, if_false]
        have hj : joinRanges g (a :: t.filter g.touches) =
            joinRanges ⟨min g.first a.first, max g.last a.last⟩ (t.filter g.touches) := rfl
        rw [hj]
        obtain ⟨k, hk1, hk2, hk3⟩ := insert_touching rows (a.last + 2) g ⟨min g.first a.first, max g.last a.last⟩ t h4 hg
          (by omega) (by simp; omega) (by simp; omega)
        simp only at hk1 hk2
        exact ⟨k, by omega, hk3⟩
      · have ht' : g.touches a = false := by simpa using ht
        have hfar : g.last + 2 ≤ a.first := by
          simp [GuardRange.touches] at ht'; omega
        exact ⟨g.first, by omega,
          insert_beyond rows a.first g g (a :: t) ⟨le_refl _, h2, h3, h4⟩ ⟨hg.1, hg.2, by omega⟩ hfar⟩

/-! ### Removal -/

/-- R32: UNGUARD leaves guarded exactly the rows outside its own. -/
theorem guarded_removeRange (gs : List GuardRange) (a b r : Nat) (hab : a ≤ b) :
    guarded (removeRange gs a b) r = true ↔ guarded gs r = true ∧ ¬(a ≤ r ∧ r ≤ b) := by
  have hc : ∀ g : GuardRange, (∃ h ∈ cutRange a b g, h.holds r) ↔ g.holds r ∧ ¬(a ≤ r ∧ r ≤ b) := fun g => by
    unfold cutRange
    split
    · simp [GuardRange.holds]; omega
    · split <;> split <;> simp [GuardRange.holds] <;> omega
  rw [guarded_iff, guarded_iff]
  unfold removeRange
  constructor
  · rintro ⟨h, hm, hr⟩
    obtain ⟨g, hg, hh⟩ := List.mem_flatMap.1 hm
    have := (hc g).1 ⟨h, hh, hr⟩
    exact ⟨⟨g, hg, this.1⟩, this.2⟩
  · rintro ⟨⟨g, hg, hr⟩, hn⟩
    obtain ⟨h, hh, hhr⟩ := (hc g).2 ⟨hr, hn⟩
    exact ⟨h, List.mem_flatMap.2 ⟨g, hg, hh⟩, hhr⟩

/-- R30, R32: UNGUARD keeps the ranges canonical. -/
theorem rangesFrom_removeRange (rows low : Nat) (gs : List GuardRange) (a b : Nat) (hab : a ≤ b)
    (hs : rangesFrom rows low gs) : rangesFrom rows low (removeRange gs a b) := by
  induction gs generalizing low with
  | nil => trivial
  | cons g t ih =>
    obtain ⟨h1, h2, h3, h4⟩ := hs
    have ht := ih (g.last + 2) h4
    show rangesFrom rows low (cutRange a b g ++ removeRange t a b)
    unfold cutRange
    split
    · exact ⟨h1, h2, h3, ht⟩
    · split <;> split
      · refine ⟨h1, ?_, ?_, ?_, ?_, h3, ht⟩ <;> simp <;> omega
      · refine ⟨h1, ?_, ?_, rangesFrom_mono ?_ ht⟩ <;> simp <;> omega
      · refine ⟨?_, ?_, h3, ht⟩ <;> simp <;> omega
      · exact rangesFrom_mono (by omega) ht

/-! ### The checks -/

/-- R30 to R32: an accepted change keeps the entry's ranges sound. -/
theorem guardCheck_sound (e : Entry) (a b : Nat) (set : Bool) (after : List GuardRange) (h : guardCheck e a b set = .ok after)
    (he : e.guardsSound) : ({ e with guards := after } : Entry).guardsSound := by
  unfold guardCheck at h
  split at h
  · cases h
  · rename_i d hd
    simp only [Entry.guardsSound, hd] at he ⊢
    split at h
    · cases h
    · split at h
      · cases h
      · split at h
        · cases h
        · rename_i hr
          dsimp only at h
          split at h
          · rename_i hlen
            simp only [Except.ok.injEq] at h
            subst h
            refine ⟨?_, hlen⟩
            unfold changedRanges
            split
            · obtain ⟨k, _, hk⟩ := rangesFrom_addRange d.rows 0 e.guards ⟨a, b⟩ he.1 (by simp; omega)
              exact rangesFrom_mono (Nat.zero_le _) hk
            · exact rangesFrom_removeRange _ _ _ _ _ (by omega) he.1
          · cases h

end Sys2Proof.Machine
end

