-- ==== Sys2Proof/Laws/KeptWork.lean ====
section
/-!
SUPPORT. `Kept` for the operations of the links, the queue, the life cycle, the deadlines and the analyser.
-/

namespace Sys2Proof.Machine

open Sys2Proof

namespace Kept

variable {s t : State}

/-! ### Links -/

theorem loseRun (h : Kept s t) (e : Fin 6) (i : Fin 64) : Kept s (t.loseRun e i) := by
  unfold State.loseRun; dsimp only
  refine Kept.vacate ?_ e
  split
  · exact (h.writePosition i _).becomeRetired i
  · split
    · exact (h.dropFollowUp i).requalifyReset i _
    · exact h.becomeFaulted i

theorem loseInst (h : Kept s t) (i : Fin 64) : Kept s (t.loseInst i) := by
  have h1 := h.modEntry i fun x => { x with live := false }
  unfold State.loseInst; dsimp only; split
  · exact (h1.detach i).becomeFaulted i
  · exact (h1.detach i).becomeFaulted i
  · exact (h1.detach i).becomeFaulted i
  · split
    · exact h1.loseRun ..
    · exact h1.becomeFaulted i
  · exact h1

/-- The state right after link `l` has gone DOWN, before its instances are acted on (R108 steps 1 to 3). -/
theorem linkDown (s : State) (l : Fin 4) (r : DownReason) :
    Kept (s.modLink l fun k => { k with down := some r, tags := [], loads := [], pulls := [], slots := [] })
      (s.linkDown l r) := by
  unfold State.linkDown; dsimp only
  refine Kept.raiseBoth (Kept.raiseBoth (Kept.turnAll (foldl _ (fun {u} i k => ?_) _ (Kept.refl _))) _
    (by intro _ hn; cases hn)) _ (by intro _ hn; cases hn)
  split
  · exact k.loseInst i
  · exact k

/-- R110: a READY is `Kept` but for the link's coming up. -/
theorem linkReady (s : State) (l : Fin 4) : Kept (s.modLink l fun k => { k with down := none }) (s.linkReady l) := by
  unfold State.linkReady; dsimp only
  refine Kept.raiseBoth ?_ _ (by intro _ hn; cases hn)
  unfold State.recordPulls
  refine foldl _ (fun {u} i k => ?_) _ ?_
  · split
    · exact k.takePull ..
    · exact k
  · unfold State.clearFaults
    refine foldl _ (fun {u} i k => ?_) _ (Kept.refl _)
    split
    · exact k.modEntry i _
    · exact k

theorem giveTag (h : Kept s t) (l : Fin 4) (g : Fin 8) : Kept s (t.giveTag l g) := by
  unfold State.giveTag; split
  · split
    · exact h
    · exact h.modEngine _ _
  · exact h

theorem takeResult (h : Kept s t) (l : Fin 4) (e : Fin 6) (i : Fin 64) (b : Burst) (o : ResultOutcome)
    (ms : List Mismatch) : Kept s (t.takeResult l e i b o ms) := by
  have h1 := (h.modLink l fun k => { k with tags := k.tags.tail }).modEngine e fun en =>
    { en with inFlight := en.inFlight.filter fun x => x.tag != b.tag }
  unfold State.takeResult; dsimp only
  refine (Kept.giveTag ?_ l b.tag).checkEnd e
  split
  · exact h1
  · split
    · exact h1
    · exact h1.captureResult ..

theorem takeLoadDone (h : Kept s t) (l : Fin 4) (m : Fin 256) (e : Fin 6) : Kept s (t.takeLoadDone l m e) := by
  have h1 := (h.modLink l fun k => { k with loads := k.loads.filter fun u => u.memId != m }).modEngine e fun en =>
    { en with loadOutstanding := false }
  unfold State.takeLoadDone; dsimp only; split
  · exact settle (h1.reach ..)
  · exact h1.checkEnd e

/-! ### The Work Queue -/

theorem reserve (h : Kept s t) (i : Fin 64) (v : Fin 6) : Kept s (t.reserve i v) := by
  unfold State.reserve; dsimp only; split
  · exact (h.workQueue _).reserveSlot i
  · exact h.workQueue _

theorem mergeTest (h : Kept s t) (i : Fin 64) (q : Fin 32) (u : Urgency) : Kept s (t.mergeTest i q u) := by
  unfold State.mergeTest; exact (h.workQueue _).modEntry i _

theorem placeFollowUp (h : Kept s t) (i : Fin 64) (f : FollowUp) : Kept s (t.placeFollowUp i f) := h.modEntry i _

theorem acceptTest (h : Kept s t) (p : Port) (i : Fin 64) (q : Fin 32) (u : Urgency) : Kept s (t.acceptTest p i q u) := by
  unfold State.acceptTest; split
  · exact h.newJob ..
  · exact h.mergeTest ..
  · exact h.placeFollowUp ..

theorem stopRunning (h : Kept s t) (i : Fin 64) : Kept s (t.stopRunning i) := by
  unfold State.stopRunning; split
  · exact h
  · exact h.drainFor ..

theorem wake (h : Kept s t) (i : Fin 64) : Kept s (t.wake i) := by
  unfold State.wake; split
  · exact ((h.leaveParking i).modEntry i _).enqueue ..
  · exact h

/-! ### Retirement and requalification -/

theorem retire (h : Kept s t) (i : Fin 64) : Kept s (t.retire i) := by
  have h1 := h.modEntry i fun e => { e with followUp := none, live := false }
  unfold State.retire; dsimp only; split
  · split
    · exact h1
    · exact h1.drainFor ..
  · exact ((h1.detach i).becomeRetired i).turnSuspender _
  · exact (h1.detach i).becomeRetired i

theorem requalifyInst (h : Kept s t) (i : Fin 64) : Kept s (t.requalifyInst i) := by
  unfold State.requalifyInst; dsimp only; split
  · split
    · exact h.dropFollowUp i
    · exact ((h.dropFollowUp i).saveSection _ i).drainAmong ..
  · exact ((h.dropFollowUp i).detach i).requalifyReset i _

theorem requalifyAll (h : Kept s t) : Kept s t.requalifyAll := by
  unfold State.requalifyAll
  refine Kept.turnAll (foldl _ (fun {u} i k => ?_) _ h)
  split
  · exact k.requalifyInst i
  · exact k

/-! ### Deadlines -/

theorem expireInst (h : Kept s t) (i : Fin 64) : Kept s (t.expireInst i) := by
  unfold State.expireInst; split
  · exact h.cutShort ..
  · exact h.cutShort ..
  · exact h.cutShort ..
  · exact h.cutShort ..
  · split
    · exact h.dropFollowUp i
    · exact (h.dropFollowUp i).drainAmong ..
  · exact h

/-- R154: an expiry is `Kept` but for the compare it disarms. -/
theorem expire (s : State) (d : DeadlineName) : Kept (s.setDeadline d none) (s.expire d) := by
  unfold State.expire; dsimp only
  exact Kept.turnAll (foldl _ (fun i k => k.expireInst i) _ ((Kept.refl _).raiseBoth _ (by intro _ hn; cases hn)))

/-! ### Analysis -/

theorem settleVerdict (h : Kept s t) (i : Fin 64) (st : InstState) (r : VerdictReason) :
    Kept s (t.settleVerdict i st r) := by
  have ha : ∀ {u : State}, Kept s u → Kept s (u.answerPending i) := fun k => by
    unfold State.answerPending; split
    · exact k
    · split
      · exact (k.answerPull i).modLink _ _
      · exact k
  unfold State.settleVerdict; dsimp only
  exact ((ha (h.modEntry i _)).raiseBoth _ (by intro _ hn; cases hn)).takeFollowUp i

theorem orderVerify (h : Kept s t) (i : Fin 64) : Kept s (t.orderVerify i) := by
  unfold State.orderVerify; exact (h.modEntry i _).enqueue ..

theorem completeAnalysis (h : Kept s t) (a : AnalysisEntry) (rest : List AnalysisEntry) :
    Kept s (t.completeAnalysis a rest) := by
  unfold State.completeAnalysis; dsimp only; split
  · exact ((h.analysis rest false).modEntry a.inst _).settleVerdict ..
  · exact ((h.analysis rest false).modEntry a.inst _).orderVerify ..

/-! ### Bursts -/

theorem issueBurst (h : Kept s t) (e : Fin 6) (i : Fin 64) (d : Descriptor) (p : Position) (g : Fin 8) :
    Kept s (t.issueBurst e i d p g) := by
  unfold State.issueBurst; split
  · exact h
  · dsimp only; split
    · unfold State.sendBurst; exact ((h.send _ _).modLink _ _).modEngine _ _
    · exact (h.modEngine _ _).checkEnd e

end Kept

/-! ### Links that change their state, and the Time Base -/

namespace Managed

variable {s t : State}

theorem linkDown (h : Managed s t) (l : Fin 4) (r : DownReason) : Managed s (t.linkDown l r) :=
  (h.modLink l _).trans (Kept.linkDown t l r).toManaged

theorem linkReady (h : Managed s t) (l : Fin 4) : Managed s (t.linkReady l) :=
  (h.modLink l _).trans (Kept.linkReady t l).toManaged

theorem burstTimeout (h : Managed s t) (l : Fin 4) : Managed s (t.burstTimeout l) := by
  unfold State.burstTimeout; split
  · exact h.linkDown ..
  · exact h

theorem loadTimeout (h : Managed s t) (l : Fin 4) : Managed s (t.loadTimeout l) := by
  unfold State.loadTimeout; split
  · exact h.linkDown ..
  · exact h

theorem foldl {α : Type} (f : State → α → State) (hf : ∀ {t : State} (a : α), Managed s t → Managed s (f t a)) (l : List α)
    (h : Managed s t) : Managed s (l.foldl f t) := by
  induction l generalizing t with
  | nil => exact h
  | cons a l ih => exact ih (hf a h)

/-- R150: what falls due is `Managed` but for the deadlines that expire. -/
theorem takeDue (s : State) : Managed ((s.expiry .card).expiry .chassis) s.takeDue := by
  unfold State.takeDue; dsimp only
  refine foldl _ (fun l k => k.loadTimeout l) _ (foldl _ (fun l k => k.burstTimeout l) _ ?_)
  exact (Kept.foldl State.wake (fun i k => k.wake i) _ (Kept.refl _)).toManaged

end Managed

end Sys2Proof.Machine
end

