-- ==== Sys2Proof/Laws/Library.lean ====
section
/-!
SUPPORT. The library and the devices' names: what the model's checks of records, its references, its skip conditions and its lookup come
to, as `legalElement`, `spellsElement`, `State.holdsRecord`, `State.skipHolds` and `State.names` say it.
-/

namespace Sys2Proof.Machine

open Sys2Proof

/-! ### Records (R41, R47, R48) -/

theorem operationOf_some {n : Nat} {o : Operation} :
    operationOf n = some o ↔ n = (match o with | .write => 0 | .writeInv => 1 | .read => 2 | .readInv => 3) := by
  unfold operationOf
  split <;> cases o <;> simp_all

theorem operationOf_none {n : Nat} : operationOf n = none ↔ ¬n ≤ 3 := by
  unfold operationOf
  split <;> simp_all
  omega

/-- Section 11.5: a list of bytes spells the operations it is read as. -/
theorem mapM_operationOf {l : List Nat} {ops : List Operation} :
    l.mapM operationOf = some ops ↔
      l = ops.map (fun o => match o with | .write => 0 | .writeInv => 1 | .read => 2 | .readInv => 3) := by
  induction l generalizing ops with
  | nil => cases ops <;> simp
  | cons n t ih =>
    rw [List.mapM_cons]
    cases ops with
    | nil => simp [Option.bind_eq_some_iff]
    | cons o os =>
      simp only [bind, Option.bind_eq_some_iff, pure, Option.some.injEq, List.cons.injEq, List.map_cons]
      constructor
      · rintro ⟨a, ha, b, hb, rfl, rfl⟩
        exact ⟨operationOf_some.1 ha, ih.1 hb⟩
      · rintro ⟨h1, h2⟩
        exact ⟨o, operationOf_some.2 h1, os, ih.2 h2, rfl, rfl⟩

/-- A list is read as a whole exactly when every member is. -/
theorem mapM_isSome {α β : Type} (f : α → Option β) (l : List α) : (l.mapM f).isSome = true ↔ ∀ x ∈ l, (f x).isSome = true := by
  induction l with
  | nil => simp
  | cons a t ih =>
    rw [List.mapM_cons, List.forall_mem_cons, ← ih]
    cases f a <;> cases t.mapM f <;> simp

theorem mapM_none {α β : Type} (f : α → Option β) (l : List α) : l.mapM f = none ↔ ∃ x ∈ l, f x = none := by
  rw [← Option.not_isSome_iff_eq_none, mapM_isSome]
  simp

/-- What is read at a place of a list read as a whole. -/
theorem mapM_getElem? {α β : Type} {f : α → Option β} {l : List α} {m : List β} (h : l.mapM f = some m) (k : Nat) :
    m[k]? = l[k]?.bind f := by
  induction l generalizing m k with
  | nil => simp at h; subst h; simp
  | cons a t ih =>
    rw [List.mapM_cons] at h
    simp only [bind, Option.bind_eq_some_iff, pure, Option.some.injEq] at h
    obtain ⟨b, hb, bs, hbs, rfl⟩ := h
    cases k with
    | zero => simp [hb]
    | succ k => simpa using ih hbs k

theorem rawOperations_some (r : RawElement) (ops : List Operation) :
    rawOperations r = some ops ↔
      (1 ≤ r.operationCount ∧ r.operationCount ≤ 6) ∧
        r.operations.take r.operationCount =
          ops.map (fun o => match o with | .write => 0 | .writeInv => 1 | .read => 2 | .readInv => 3) := by
  unfold rawOperations
  split
  · rename_i h
    simp [mapM_operationOf, h]
  · rename_i h
    simp [h]

theorem directionOf_some {n : Nat} {d : Direction} : directionOf n = some d ↔ n = (match d with | .up => 0 | .down => 1) := by
  unfold directionOf
  split <;> cases d <;> simp_all

theorem backgroundOf_some {n k : Nat} {b : Background} :
    backgroundOf n k = some b ↔
      (match b with
       | .solid => n = 0
       | .checker => n = 1
       | .rowStripe => n = 2
       | .columnStripe => n = 3
       | .walk offset => n = 4 ∧ offset = k) ∧ (n = 4 → k ≤ 143) := by
  unfold backgroundOf
  split <;> cases b <;> simp_all
  exact ⟨fun ⟨h, e⟩ => ⟨e.symm, h⟩, fun ⟨e, h⟩ => ⟨h, e.symm⟩⟩

theorem rawBody_some (r : RawElement) (b : ElementBody) :
    rawBody r = some b ↔
      (match b with
       | .march dir ops bg => r.kind = 0 ∧ directionOf r.direction = some dir ∧ rawOperations r = some ops ∧
           backgroundOf r.background r.walkOffset = some bg
       | .hold time => r.kind = 1 ∧ time = r.holdTime ∧ 1 ≤ r.holdTime ∧ r.holdTime ≤ 10000) := by
  unfold rawBody
  split
  · cases directionOf r.direction <;> cases rawOperations r <;> cases backgroundOf r.background r.walkOffset <;> cases b <;> simp_all
  · cases b <;> simp_all
    exact ⟨fun ⟨h, e⟩ => ⟨e.symm, h⟩, fun ⟨e, h⟩ => ⟨h, e.symm⟩⟩
  · cases b <;> simp_all

theorem rawSkip_some (r : RawElement) (k : SkipSet) :
    rawSkip r = some k ↔
      (r.skipSet < 16 ∧ (r.skipSet.testBit 2 = true → r.margin ≤ 60000)) ∧
        k = ⟨r.skipSet.testBit 0, r.skipSet.testBit 1, if r.skipSet.testBit 2 then some r.margin else none, r.skipSet.testBit 3⟩ := by
  unfold rawSkip
  split
  · cases r.skipSet.testBit 2
    · simp_all [eq_comm]
    · by_cases h : r.margin ≤ 60000 <;> simp_all [eq_comm]
  · simp_all

/-- Section 11.5: bytes up to 3 spell operations. -/
theorem exists_operations {l : List Nat} (h : ∀ n ∈ l, n ≤ 3) : ∃ ops : List Operation,
    l = ops.map (fun o => match o with | .write => 0 | .writeInv => 1 | .read => 2 | .readInv => 3) := by
  cases hm : l.mapM operationOf with
  | some ops => exact ⟨ops, mapM_operationOf.1 hm⟩
  | none =>
    obtain ⟨n, hn, ho⟩ := (mapM_none operationOf l).1 hm
    exact absurd (h n hn) (operationOf_none.1 ho)

/-- R47: an element is stored for a record exactly when the record is legal and spells it. -/
theorem checkElement_some (r : RawElement) (x : Element) : checkElement r = some x ↔ legalElement r ∧ spellsElement r x := by
  obtain ⟨b, k⟩ := x
  have hc : checkElement r = some ⟨b, k⟩ ↔ rawBody r = some b ∧ rawSkip r = some k := by
    unfold checkElement
    cases rawBody r <;> cases rawSkip r <;> simp
  rw [hc, rawBody_some, rawSkip_some]
  unfold legalElement spellsElement
  cases b with
  | march dir ops bg =>
    simp only [directionOf_some, rawOperations_some, backgroundOf_some]
    constructor
    · rintro ⟨⟨hk, hd, ⟨⟨h1, h6⟩, ho⟩, hb, hw⟩, hs, rfl⟩
      refine ⟨⟨by omega, fun _ => ⟨?_, h1, h6, ?_, ?_, hw⟩, by omega, hs⟩, ⟨hk, hd, ho, hb⟩, rfl⟩
      · cases dir <;> simp_all
      · rw [ho]
        intro n hn
        obtain ⟨o, _, rfl⟩ := List.mem_map.1 hn
        cases o <;> simp
      · cases bg <;> simp_all
    · rintro ⟨⟨_, h0, _, hs⟩, ⟨hk, hd, ho, hb⟩, rfl⟩
      obtain ⟨_, h1, h6, _, _, hw⟩ := h0 hk
      exact ⟨⟨hk, hd, ⟨⟨h1, h6⟩, ho⟩, hb, hw⟩, hs, rfl⟩
  | hold time =>
    dsimp only
    constructor
    · rintro ⟨⟨hk, ht, h1, h2⟩, hs, rfl⟩
      exact ⟨⟨by omega, by omega, fun _ => ⟨h1, h2⟩, hs⟩, ⟨hk, ht⟩, rfl⟩
    · rintro ⟨⟨_, _, h1, hs⟩, ⟨hk, ht⟩, rfl⟩
      exact ⟨⟨hk, ht, h1 hk⟩, hs, rfl⟩

/-- R41: a legal record spells an element. -/
theorem exists_spellsElement {r : RawElement} (h : legalElement r) : ∃ x, spellsElement r x := by
  obtain ⟨hk, h0, _, _⟩ := h
  rcases Nat.le_one_iff_eq_zero_or_eq_one.1 hk with hk | hk
  · obtain ⟨hd, _, _, ho, hb, _⟩ := h0 hk
    obtain ⟨ops, ho⟩ := exists_operations ho
    have hdir : ∃ dir : Direction, r.direction = (match dir with | .up => 0 | .down => 1) := by
      rcases Nat.le_one_iff_eq_zero_or_eq_one.1 hd with h | h
      exacts [⟨.up, h⟩, ⟨.down, h⟩]
    have hbg : ∃ bg : Background,
        (match bg with
         | .solid => r.background = 0
         | .checker => r.background = 1
         | .rowStripe => r.background = 2
         | .columnStripe => r.background = 3
         | .walk offset => r.background = 4 ∧ offset = r.walkOffset) := by
      have : r.background = 0 ∨ r.background = 1 ∨ r.background = 2 ∨ r.background = 3 ∨ r.background = 4 := by omega
      rcases this with h | h | h | h | h
      exacts [⟨.solid, h⟩, ⟨.checker, h⟩, ⟨.rowStripe, h⟩, ⟨.columnStripe, h⟩, ⟨.walk r.walkOffset, h, rfl⟩]
    obtain ⟨dir, hdir⟩ := hdir
    obtain ⟨bg, hbg⟩ := hbg
    exact ⟨⟨.march dir ops bg, _⟩, ⟨hk, hdir, ho, hbg⟩, rfl⟩
  · exact ⟨⟨.hold r.holdTime, _⟩, ⟨hk, rfl⟩, rfl⟩

theorem checkElement_none (r : RawElement) : checkElement r = none ↔ ¬legalElement r := by
  constructor
  · intro h hl
    obtain ⟨x, hx⟩ := exists_spellsElement hl
    rw [(checkElement_some r x).2 ⟨hl, hx⟩] at h
    cases h
  · intro h
    cases hc : checkElement r with
    | none => rfl
    | some x => exact absurd ((checkElement_some r x).1 hc).1 h

theorem kindMaskOf_isEmpty (n : Nat) : (kindMaskOf n).isEmpty = true ↔ n % 8 = 0 := by
  have h0 : n.testBit 0 = decide (n % 2 = 1) := by simp [Nat.testBit_zero]
  have h1 : n.testBit 1 = decide (n / 2 % 2 = 1) := by simp [Nat.testBit_succ, Nat.testBit_zero]
  have h2 : n.testBit 2 = decide (n / 2 / 2 % 2 = 1) := by simp [Nat.testBit_succ, Nat.testBit_zero]
  unfold KindMask.isEmpty kindMaskOf
  simp only [h0, h1, h2, Bool.not_eq_true', Bool.or_eq_false_iff, decide_eq_false_iff_not]
  omega

/-- R48: an entry is stored for a record exactly when the record is legal and spells it. -/
theorem checkDirectoryEntry_some (r : RawDirectoryEntry) (x : Option DirectoryEntry) :
    checkDirectoryEntry r = some x ↔ legalDirectoryEntry r ∧ spellsDirectoryEntry r x := by
  have hk := kindMaskOf_isEmpty r.kindMask
  unfold checkDirectoryEntry legalDirectoryEntry spellsDirectoryEntry namesNoKind
  dsimp only
  by_cases h : r.kindMask % 8 = 0
  · simp [hk.2 h, h, eq_comm]
  · rw [if_neg (fun e => h (hk.1 e))]
    have hr : (r.first ≤ 255 ∧ 1 ≤ r.count ∧ r.count ≤ 32 ∧ r.first + r.count - 1 ≤ 255) ↔
        (r.first ≤ 255 ∧ 1 ≤ r.count ∧ r.count ≤ 32 ∧ r.first + r.count ≤ 256) := by omega
    simp only [h, hr, false_or, false_implies, not_false_eq_true, true_implies, true_and]
    split
    · rename_i hc
      simp only [hc, true_and, Option.some.injEq]
      exact eq_comm
    · rename_i hc
      simp [hc]

theorem checkDirectoryEntry_none (r : RawDirectoryEntry) : checkDirectoryEntry r = none ↔ ¬legalDirectoryEntry r := by
  constructor
  · intro h hl
    by_cases hn : namesNoKind r
    · rw [(checkDirectoryEntry_some r none).2 ⟨hl, fun _ => rfl, fun c => absurd hn c⟩] at h
      cases h
    · rw [(checkDirectoryEntry_some r _).2 ⟨hl, fun c => absurd c hn, fun _ => rfl⟩] at h
      cases h
  · intro h
    cases hc : checkDirectoryEntry r with
    | none => rfl
    | some x => exact absurd ((checkDirectoryEntry_some r x).1 hc).1 h

/-! ### References (R49) -/

theorem busy_iff (st : InstState) :
    st.busy = true ↔ (st = .queued ∨ st = .running ∨ st = .suspended ∨ st = .parked ∨ st = .analysing) := by
  cases st <;> decide

variable (s : State)

theorem mem_heldSequences (i : Fin 64) (q : Fin 32) : q ∈ s.heldSequences i ↔ s.holdsSequence i q := by
  unfold State.heldSequences State.holdsSequence
  dsimp only
  rw [← busy_iff]
  by_cases h : (s.entry i).state.busy = true
  · simp only [h, if_true, List.mem_append, Option.mem_toList, Option.map_eq_some_iff, true_and]
  · simp [h]

theorem holdsEntry_iff (i : Fin 64) (q : Fin 32) : s.holdsEntry i q.val = true ↔ s.holdsSequence i q := by
  rw [← mem_heldSequences]
  unfold State.holdsEntry
  simp only [List.any_eq_true, beq_iff_eq]
  exact ⟨fun ⟨p, hp, h⟩ => Fin.ext h ▸ hp, fun h => ⟨q, h, rfl⟩⟩

theorem holdsElement_iff (i : Fin 64) (k : Nat) : s.holdsElement i k = true ↔ s.holdsRecord i k := by
  unfold State.holdsElement State.holdsRecord
  simp only [List.any_eq_true, mem_heldSequences, Option.any_eq_true, Bool.and_eq_true, decide_eq_true_eq]
  exact ⟨fun ⟨q, h, d, hd, a, b⟩ => ⟨q, d, h, hd, a, b⟩, fun ⟨q, d, h, hd, a, b⟩ => ⟨q, h, d, hd, a, b⟩⟩

theorem entryReferenced_iff (q : Fin 32) : s.entryReferenced q.val = true ↔ ∃ i, s.holdsSequence i q := by
  unfold State.entryReferenced
  simp [allInsts, holdsEntry_iff]

theorem elementReferenced_iff (k : Nat) : s.elementReferenced k = true ↔ ∃ i, s.holdsRecord i k := by
  unfold State.elementReferenced
  simp [allInsts, holdsElement_iff]

/-! ### Skip conditions (R51, R52, R159) -/

theorem shortOf_iff (margin : Nat) :
    s.shortOf margin = true ↔ ∃ name value, s.deadline name = some value ∧ (value - s.now).toNat < margin := by
  have key : (∃ name value, s.deadline name = some value ∧ (value - s.now).toNat < margin) ↔
      (∃ v, s.cardDeadline = some v ∧ (v - s.now).toNat < margin) ∨ ∃ v, s.chassisDeadline = some v ∧ (v - s.now).toNat < margin :=
    ⟨fun ⟨n, v, h⟩ => by cases n; exacts [.inl ⟨v, h⟩, .inr ⟨v, h⟩],
      fun h => by rcases h with ⟨v, h⟩ | ⟨v, h⟩; exacts [⟨.card, v, h⟩, ⟨.chassis, v, h⟩]⟩
  rw [key]
  unfold State.shortOf State.earliestRemaining remaining
  cases s.cardDeadline <;> cases s.chassisDeadline <;> simp

/-- R51: the model skips an element exactly when a condition of its skip set holds. -/
theorem skips_iff (i : Fin 64) (k : SkipSet) : s.skips i k = true ↔ s.skipHolds i k := by
  have hk : ∀ m : MemKind, (m != .dram) = true ↔ m = .sram ∨ m = .cam := by intro m; cases m <;> decide
  unfold State.skips State.skipHolds
  dsimp only
  simp only [Bool.or_eq_true, Bool.and_eq_true, Option.any_eq_true, hk, List.any_eq_true, beq_iff_eq, shortOf_iff, Bool.not_eq_true',
    List.isEmpty_eq_false_iff]
  rw [or_assoc, or_assoc]

/-! ### A device's memories (R3) -/

theorem namedBy_iff (l : Fin 4) (m : Fin 256) (i : Fin 64) :
    s.namedBy l m i ↔
      ((s.entry i).state != .vacant && (s.entry i).descriptor.any fun d => d.link == l && d.memId == m) = true := by
  unfold State.namedBy
  simp [Option.any_eq_true]

/-- R3: the model's lookup finds the instance that a message names. -/
theorem lookup_eq_some (l : Fin 4) (m : Fin 256) (i : Fin 64) : s.lookup l m = some i ↔ s.names l m i := by
  unfold State.lookup State.names allInsts
  rw [List.find?_eq_some_iff_getElem]
  simp only [namedBy_iff, List.getElem_finRange, List.length_finRange, Bool.not_eq_true', Bool.not_eq_true]
  constructor
  · rintro ⟨h, k, hk, rfl, hj⟩
    exact ⟨h, fun j hjk => hj j.val hjk⟩
  · rintro ⟨h, hj⟩
    exact ⟨h, i.val, i.isLt, rfl, fun j hjk => hj ⟨j, by omega⟩ hjk⟩

/-- R3, R116: it finds none exactly where there is none. -/
theorem lookup_eq_none (l : Fin 4) (m : Fin 256) : s.lookup l m = none ↔ ∀ i, ¬s.namedBy l m i := by
  unfold State.lookup allInsts
  simp only [List.find?_eq_none, namedBy_iff, List.mem_finRange, true_implies]

end Sys2Proof.Machine
end

