-- ==== Sys2Proof/Laws/Order.lean ====
section
/-!
SUPPORT. Dispatch order (R65): what `ranksBefore` decides, and that `dispatchOrder` lists the Work Queue in that order.
-/

namespace Sys2Proof.Machine

open Sys2Proof

theorem rank_inj (a b : EntryClass) : a.rank = b.rank ↔ a = b := by cases a <;> cases b <;> simp [EntryClass.rank]

/-- R65: the arbiter's comparison is the rule's. -/
theorem ranksBefore_iff (s : State) (a b : QueueEntry) : s.ranksBefore a b = true ↔ s.goesBefore a b := by
  unfold State.ranksBefore State.goesBefore State.entryPriority
  dsimp only
  by_cases h : a.cls = b.cls
  · have hc : a.cls.rank = b.cls.rank := by rw [h]
    rw [if_neg (by simp [hc])]
    generalize (if a.cls = EntryClass.normal then s.priorityOf a.inst else 0) = x
    generalize (if b.cls = EntryClass.normal then s.priorityOf b.inst else 0) = y
    split
    · simp [h]; omega
    · split
      · simp [h]; omega
      · simp [h]; omega
  · have hc : a.cls.rank ≠ b.cls.rank := fun x => h ((rank_inj _ _).1 x)
    rw [if_pos hc]
    simp [h]

theorem goesBefore_total (s : State) (a b : QueueEntry) : s.goesBefore a b ∨ s.goesBefore b a := by
  unfold State.goesBefore
  dsimp only
  rcases Nat.lt_trichotomy a.cls.rank b.cls.rank with h | h | h
  · exact .inl (.inl h)
  · have := (rank_inj _ _).1 h
    simp only [this, Nat.lt_irrefl, false_or, true_and]
    omega
  · exact .inr (.inl h)

theorem goesBefore_trans {s : State} {a b c : QueueEntry} (h : s.goesBefore a b) (k : s.goesBefore b c) :
    s.goesBefore a c := by
  revert h k
  unfold State.goesBefore
  dsimp only
  rintro (h | ⟨h, h1⟩) (k | ⟨k, k1⟩)
  · exact .inl (h.trans k)
  · exact .inl (k ▸ h)
  · exact .inl (h ▸ k)
  · refine .inr ⟨h.trans k, ?_⟩
    omega

theorem insertRanked_perm (s : State) (q : QueueEntry) (l : List QueueEntry) : (s.insertRanked q l).Perm (q :: l) := by
  induction l with
  | nil => exact .refl _
  | cons h t ih =>
    unfold State.insertRanked; split
    · exact .refl _
    · exact (ih.cons h).trans (.swap ..)

theorem insertRanked_sorted (s : State) (q : QueueEntry) (l : List QueueEntry) (hl : l.Pairwise s.goesBefore) :
    (s.insertRanked q l).Pairwise s.goesBefore := by
  induction l with
  | nil => simp [State.insertRanked]
  | cons h t ih =>
    rw [List.pairwise_cons] at hl
    unfold State.insertRanked; split
    · rename_i hq
      rw [ranksBefore_iff] at hq
      refine List.pairwise_cons.2 ⟨?_, List.pairwise_cons.2 hl⟩
      intro x hx
      rcases List.mem_cons.1 hx with rfl | hx
      · exact hq
      · exact goesBefore_trans hq (hl.1 x hx)
    · rename_i hq
      rw [ranksBefore_iff] at hq
      refine List.pairwise_cons.2 ⟨?_, ih hl.2⟩
      intro x hx
      rcases List.mem_cons.1 ((insertRanked_perm s q t).mem_iff.1 hx) with rfl | hx
      · exact (goesBefore_total s _ _).resolve_right hq
      · exact hl.1 x hx

/-- R57, R65: dispatch order lists the Work Queue's entries, each once. -/
theorem dispatchOrder_perm (s : State) : s.dispatchOrder.Perm s.workQueue := by
  unfold State.dispatchOrder
  induction s.workQueue with
  | nil => exact .refl _
  | cons h t ih => exact (insertRanked_perm ..).trans (ih.cons h)

/-- R65: dispatch order is sorted. -/
theorem dispatchOrder_sorted (s : State) : s.dispatchOrder.Pairwise s.goesBefore := by
  unfold State.dispatchOrder
  induction s.workQueue with
  | nil => simp
  | cons h t ih => exact insertRanked_sorted _ _ _ ih

/-- The entry that meets a condition and goes before every other that does is the first found in dispatch order. -/
theorem find_dispatchOrder (s : State) (p : QueueEntry → Bool) (q : QueueEntry) (hq : q ∈ s.workQueue) (hp : p q = true)
    (hb : ∀ x ∈ s.workQueue, p x = true → x ≠ q → ¬s.goesBefore x q) : s.dispatchOrder.find? p = some q := by
  have hm := (dispatchOrder_perm s).mem_iff (a := q)
  have hs := dispatchOrder_sorted s
  have hb' : ∀ x ∈ s.dispatchOrder, p x = true → x ≠ q → ¬s.goesBefore x q := fun x hx =>
    hb x ((dispatchOrder_perm s).mem_iff.1 hx)
  rw [← hm] at hq
  generalize s.dispatchOrder = l at hq hs hb'
  induction l with
  | nil => simp at hq
  | cons h t ih =>
    rw [List.pairwise_cons] at hs
    by_cases he : h = q
    · subst he; simp [List.find?, hp]
    · have hqt : q ∈ t := (List.mem_cons.1 hq).resolve_left (Ne.symm he)
      have hph : p h = false := by
        rw [Bool.eq_false_iff]
        intro hh
        exact hb' h (by simp) hh he (hs.1 q hqt)
      rw [List.find?_cons_of_neg (by simp [hph])]
      exact ih hqt hs.2 fun x hx => hb' x (List.mem_cons_of_mem _ hx)

end Sys2Proof.Machine
end

