-- ==== Sys2Proof/Laws/PerInstr.lean ====
section
/-!
SUPPORT. The family `Spelled`: every request that fits the wire is spelled by its payload, of a length its request admits
(section 11.5).
-/

namespace Sys2Proof.Machine

open Sys2Proof

theorem byte_eq (n : Nat) : byte n = [BitVec.ofNat 8 n] := rfl

theorem bytesOf_two (n : Nat) : bytesOf 2 n = [BitVec.ofNat 8 (n / 256), BitVec.ofNat 8 n] := by simp [bytesOf]

theorem bytesOf_three (n : Nat) :
    bytesOf 3 n = [BitVec.ofNat 8 (n / 65536), BitVec.ofNat 8 (n / 256), BitVec.ofNat 8 n] := by simp [bytesOf]

theorem bytesOf_eight (n : Nat) :
    bytesOf 8 n = [BitVec.ofNat 8 (n / 72057594037927936), BitVec.ofNat 8 (n / 281474976710656),
      BitVec.ofNat 8 (n / 1099511627776), BitVec.ofNat 8 (n / 4294967296), BitVec.ofNat 8 (n / 16777216),
      BitVec.ofNat 8 (n / 65536), BitVec.ofNat 8 (n / 256), BitVec.ofNat 8 n] := by simp [bytesOf]

theorem mask_of_bytes (m : Mask) : BitVec.ofNat 64 (numberOf (bytesOf 8 m.toNat)) = m := by
  rw [bytesOf_eight]
  apply BitVec.eq_of_toNat_eq
  have := m.isLt
  simp only [numberOf, List.foldl_cons, List.foldl_nil, BitVec.toNat_ofNat]
  omega

/-- Records of one size, written one after another, are read back in turn. -/
theorem recordsAt_flatMap {α : Type} (enc : α → List Byte) (dec : List Byte → α) (k : Nat) (head : List Byte) (l : List α)
    (hk : ∀ a ∈ l, (enc a).length = k) (hd : ∀ a ∈ l, dec (enc a) = a) :
    recordsAt dec (head ++ l.flatMap enc) head.length k l.length = l := by
  apply List.ext_getElem
  · simp [recordsAt]
  · intro j h1 h2
    simp only [recordsAt, List.getElem_map, List.getElem_range]
    have hx : ∀ (l : List α), (∀ a ∈ l, (enc a).length = k) → ∀ j (h : j < l.length),
        ((l.flatMap enc).drop (k * j)).take k = enc l[j] := by
      intro l
      induction l with
      | nil => intro _ j h; simp at h
      | cons a t ih =>
        intro ha j h
        cases j with
        | zero => simp [← ha a (by simp)]
        | succ j =>
          have hka := ha a (by simp)
          have : k * (j + 1) = (enc a).length + k * j := by rw [hka, Nat.mul_succ]; omega
          have hz : List.drop ((enc a).length + k * j) (enc a) = [] := by rw [List.drop_eq_nil_iff]; omega
          rw [List.flatMap_cons, this, List.drop_append, hz]
          simpa using ih (fun b hb => ha b (by simp [hb])) j (by simpa using h)
    rw [List.drop_append]
    have hz : List.drop (head.length + k * j) head = [] := by rw [List.drop_eq_nil_iff]; omega
    rw [hz]
    simp only [List.nil_append, Nat.add_sub_cancel_left]
    rw [hx l hk j h2]
    exact hd _ (List.getElem_mem h2)

end Sys2Proof.Machine

namespace Sys2Proof.Laws.Spelled

open Sys2Proof Sys2Proof.Machine

/-- A request that fits the wire is what its payload spells at its port, and the payload has a length the request admits. -/
def Statement (i : Instr) : Prop :=
  ∀ p k, requestKindOf i = some (p, k) → i.wf = true →
    admits k (payloadOf i) = true ∧ requestCommand p k (payloadOf i) = i

theorem define (p : Port) (i : Nat) (d : RawDescriptor) : Statement (.define p i d) := by
  intro q k h hw
  cases h
  obtain ⟨l, m, kd, r, c, w, sr, sc, ds, pr, v, sg⟩ := d
  simp [Instr.wf, RawDescriptor.wf, fitsBytes] at hw
  refine ⟨by simp [admits, payloadOf, rawDescriptorBytes, byte, bytesOf], ?_⟩
  simp [requestCommand, payloadOf, rawDescriptorBytes, rawDescriptorOf, byte, bytesOf_two, bytesOf_three, numberAt,
    numberOf]
  omega

theorem test (p : Port) (i : Nat) (o : Option Nat) (u : Nat) : Statement (.test p i o u) := by
  intro q k h hw
  cases h
  cases o <;> simp [Instr.wf, fitsBytes] at hw <;>
    simp [admits, requestCommand, payloadOf, optField, byte, numberAt, numberOf] <;> omega

theorem guard (p : Port) (i a b : Nat) : Statement (.guard p i a b) := by
  intro q k h hw
  cases h
  simp [Instr.wf, fitsBytes] at hw
  refine ⟨by simp [admits, payloadOf, byte, bytesOf], ?_⟩
  simp [requestCommand, payloadOf, byte, bytesOf_three, numberAt, numberOf]
  omega

theorem unguard (p : Port) (i a b : Nat) : Statement (.unguard p i a b) := by
  intro q k h hw
  cases h
  simp [Instr.wf, fitsBytes] at hw
  refine ⟨by simp [admits, payloadOf, byte, bytesOf], ?_⟩
  simp [requestCommand, payloadOf, byte, bytesOf_three, numberAt, numberOf]
  omega

/-- The mask at the front of a payload. -/
theorem maskAt_front (m : Mask) (rest : List Byte) : maskAt (maskField m ++ rest) 0 = m := by
  have h : (maskField m).length = 8 := by simp [maskField, bytesOf]
  unfold maskAt numberAt
  rw [List.drop_zero, ← h, List.take_left]
  exact mask_of_bytes m

theorem claim (p : Port) (m : Mask) (mode : Nat) : Statement (.claim p m mode) := by
  intro q k h hw
  cases h
  simp [Instr.wf, fitsBytes] at hw
  refine ⟨by simp [admits, payloadOf, byte, maskField, bytesOf], ?_⟩
  simp only [requestCommand, payloadOf, maskAt_front, Instr.claim.injEq, true_and]
  have h : (maskField m).length = 8 := by simp [maskField, bytesOf]
  unfold numberAt
  rw [List.drop_append_of_le_length (by omega), ← h, List.drop_length]
  simp [byte, numberOf]; omega

theorem release (p : Port) (m : Mask) : Statement (.release p m) := by
  intro q k h _
  cases h
  refine ⟨by simp [admits, payloadOf, maskField, bytesOf], ?_⟩
  simpa [requestCommand, payloadOf] using maskAt_front m []

theorem breakClaim (p : Port) (m : Mask) : Statement (.breakClaim p m) := by
  intro q k h _
  cases h
  refine ⟨by simp [admits, payloadOf, maskField, bytesOf], ?_⟩
  simpa [requestCommand, payloadOf] using maskAt_front m []

theorem commit (p : Port) (m : Mask) : Statement (.commit p m) := by
  intro q k h _
  cases h
  refine ⟨by simp [admits, payloadOf, maskField, bytesOf], ?_⟩
  simpa [requestCommand, payloadOf] using maskAt_front m []

theorem clearStore (p : Port) (m : Mask) : Statement (.clearStore p m) := by
  intro q k h _
  cases h
  refine ⟨by simp [admits, payloadOf, maskField, bytesOf], ?_⟩
  simpa [requestCommand, payloadOf] using maskAt_front m []

/-- The records of one size, read back from a payload of a start index, their number and the records. -/
theorem records_back {α : Type} (enc : α → List Byte) (dec : List Byte → α) (size a : Nat) (rs : List α)
    (hn : rs.length < 256) (hk : ∀ r ∈ rs, (enc r).length = size) (hd : ∀ r ∈ rs, dec (enc r) = r) :
    recordsAt dec (byte a ++ byte rs.length ++ rs.flatMap enc) 2 size
      (numberAt (byte a ++ byte rs.length ++ rs.flatMap enc) 1 1) = rs := by
  have h1 : numberAt (byte a ++ byte rs.length ++ rs.flatMap enc) 1 1 = rs.length := by
    simp [numberAt, byte, numberOf]; omega
  rw [h1]
  exact recordsAt_flatMap enc dec size (byte a ++ byte rs.length) rs hk hd

theorem length_records {α : Type} (enc : α → List Byte) (size : Nat) (rs : List α)
    (hk : ∀ r ∈ rs, (enc r).length = size) : (rs.flatMap enc).length = size * rs.length := by
  induction rs with
  | nil => simp
  | cons r t ih =>
    rw [List.flatMap_cons, List.length_append, hk r (by simp), ih fun x hx => hk x (by simp [hx])]
    simp [Nat.mul_succ]; omega

theorem loadElements (p : Port) (a : Nat) (rs : List RawElement) : Statement (.loadElements p a rs) := by
  intro q k h hw
  cases h
  simp only [Instr.wf, fitsBytes, Bool.and_eq_true, decide_eq_true_eq, List.all_eq_true] at hw
  obtain ⟨⟨ha, hn⟩, hr⟩ := hw
  have hk : ∀ r ∈ rs, (rawElementBytes r).length = 16 := fun r h => by
    have := hr r h
    simp [RawElement.wf] at this
    simp [rawElementBytes, byte, bytesOf]; omega
  have hd : ∀ r ∈ rs, rawElementOf (rawElementBytes r) = r := fun r h => by
    have := hr r h
    obtain ⟨kd, dr, oc, ops, bg, wo, ht, sk, mg⟩ := r
    simp [RawElement.wf, fitsBytes] at this
    obtain ⟨⟨⟨⟨⟨⟨⟨⟨⟨h1, h2⟩, h3⟩, h4⟩, h5⟩, h6⟩, h7⟩, h8⟩, h9⟩, h10⟩ := this
    match ops, h4, h5 with
    | [a, b, c, d, e, f], _, h5 =>
      simp at h5
      simp [rawElementOf, rawElementBytes, byte, bytesOf_two, numberAt, numberOf]
      omega
  refine ⟨?_, ?_⟩
  · have h1 : numberAt (payloadOf (.loadElements p a rs)) 1 1 = rs.length := by
      simp [payloadOf, numberAt, byte, numberOf]; omega
    have h2 : (payloadOf (.loadElements p a rs)).length = 2 + 16 * rs.length := by
      simp [payloadOf, byte, length_records rawElementBytes 16 rs hk]; omega
    simp only [admits, h1, h2]; simp
  · simp only [requestCommand, payloadOf, Instr.loadElements.injEq, true_and]
    refine ⟨?_, records_back rawElementBytes rawElementOf 16 a rs (by omega) hk hd⟩
    simp [numberAt, byte, numberOf]; omega

theorem loadDirectory (p : Port) (a : Nat) (rs : List RawDirectoryEntry) : Statement (.loadDirectory p a rs) := by
  intro q k h hw
  cases h
  simp only [Instr.wf, fitsBytes, Bool.and_eq_true, decide_eq_true_eq, List.all_eq_true] at hw
  obtain ⟨⟨⟨ha, hn⟩, _⟩, hr⟩ := hw
  have hk : ∀ r ∈ rs, (rawDirectoryBytes r).length = 3 := fun r _ => by simp [rawDirectoryBytes, byte]
  have hd : ∀ r ∈ rs, rawDirectoryOf (rawDirectoryBytes r) = r := fun r h => by
    have := hr r h
    obtain ⟨f, c, m⟩ := r
    simp [RawDirectoryEntry.wf, fitsBytes] at this
    simp [rawDirectoryOf, rawDirectoryBytes, byte, numberAt, numberOf]; omega
  refine ⟨?_, ?_⟩
  · have h1 : numberAt (payloadOf (.loadDirectory p a rs)) 1 1 = rs.length := by
      simp [payloadOf, numberAt, byte, numberOf]; omega
    have h2 : (payloadOf (.loadDirectory p a rs)).length = 2 + 3 * rs.length := by
      simp [payloadOf, byte, length_records rawDirectoryBytes 3 rs hk]; omega
    simp only [admits, h1, h2]; simp
  · simp only [requestCommand, payloadOf, Instr.loadDirectory.injEq, true_and]
    refine ⟨?_, records_back rawDirectoryBytes rawDirectoryOf 3 a rs (by omega) hk hd⟩
    simp [numberAt, byte, numberOf]; omega

theorem noticeMask (p : Port) (m : Byte) : Statement (.noticeMask p m) := by
  intro q k h _
  cases h
  refine ⟨by simp [admits, payloadOf], ?_⟩
  simp [requestCommand, payloadOf, numberAt, numberOf]

theorem retire (p : Port) (i : Nat) : Statement (.retire p i) := by
  intro q k' h hw
  cases h
  simp [Instr.wf, fitsBytes] at hw
  simp [admits, requestCommand, payloadOf, byte, numberAt, numberOf]; omega

theorem stop (p : Port) (i : Nat) : Statement (.stop p i) := by
  intro q k' h hw
  cases h
  simp [Instr.wf, fitsBytes] at hw
  simp [admits, requestCommand, payloadOf, byte, numberAt, numberOf]; omega

theorem status (p : Port) (i : Nat) : Statement (.status p i) := by
  intro q k' h hw
  cases h
  simp [Instr.wf, fitsBytes] at hw
  simp [admits, requestCommand, payloadOf, byte, numberAt, numberOf]; omega

theorem map (p : Port) (i : Nat) : Statement (.map p i) := by
  intro q k' h hw
  cases h
  simp [Instr.wf, fitsBytes] at hw
  simp [admits, requestCommand, payloadOf, byte, numberAt, numberOf]; omega

theorem takeNotice (p : Port) (k : Nat) : Statement (.takeNotice p k) := by
  intro q k' h hw
  cases h
  simp [Instr.wf, fitsBytes] at hw
  simp [admits, requestCommand, payloadOf, byte, numberAt, numberOf]; omega

theorem fails (p : Port) (i a : Nat) : Statement (.fails p i a) := by
  intro q k' h hw
  cases h
  simp [Instr.wf, fitsBytes] at hw
  simp [admits, requestCommand, payloadOf, byte, numberAt, numberOf]; omega

theorem library (p : Port) (a b c : Nat) : Statement (.library p a b c) := by
  intro q k' h hw
  cases h
  simp [Instr.wf, fitsBytes] at hw
  simp [admits, requestCommand, payloadOf, byte, numberAt, numberOf]; omega

theorem budget (p : Port) (d : Nat) : Statement (.budget p d) := by
  intro q k h hw
  cases h
  simp [Instr.wf, fitsBytes] at hw
  simp [admits, requestCommand, payloadOf, bytesOf_three, numberAt, numberOf]; omega

theorem cap (p : Port) (d : Nat) : Statement (.cap p d) := by
  intro q k h hw
  cases h
  simp [Instr.wf, fitsBytes] at hw
  simp [admits, requestCommand, payloadOf, bytesOf_three, numberAt, numberOf]; omega

theorem requalify (p : Port) : Statement (.requalify p) := by
  intro q k h _
  cases h
  exact ⟨rfl, rfl⟩

theorem queue (p : Port) : Statement (.queue p) := by
  intro q k h _
  cases h
  exact ⟨rfl, rfl⟩

theorem engines (p : Port) : Statement (.engines p) := by
  intro q k h _
  cases h
  exact ⟨rfl, rfl⟩

theorem links (p : Port) : Statement (.links p) := by
  intro q k h _
  cases h
  exact ⟨rfl, rfl⟩

theorem time (p : Port) : Statement (.time p) := by
  intro q k h _
  cases h
  exact ⟨rfl, rfl⟩

theorem badFrame (port : Port) (bytes : List Byte) : Statement (.badFrame port bytes) := fun _ _ h => nomatch h

theorem result (link : Fin 4) (tag : Fin 8) (outcome : ResultOutcome) (entries : List Mismatch) : Statement (.result link tag outcome entries) := fun _ _ h => nomatch h

theorem loadDone (link : Fin 4) (memId : Fin 256) : Statement (.loadDone link memId) := fun _ _ h => nomatch h

theorem ready (link : Fin 4) : Statement (.ready link) := fun _ _ h => nomatch h

theorem resetNotice (link : Fin 4) : Statement (.resetNotice link) := fun _ _ h => nomatch h

theorem pull (link : Fin 4) (memId : Fin 256) : Statement (.pull link memId) := fun _ _ h => nomatch h

theorem inService (link : Fin 4) (memId : Fin 256) : Statement (.inService link memId) := fun _ _ h => nomatch h

theorem outOfService (link : Fin 4) (memId : Fin 256) : Statement (.outOfService link memId) := fun _ _ h => nomatch h

theorem deviceGuard (link : Fin 4) (memId : Fin 256) (first last : Nat) (set : Bool) : Statement (.deviceGuard link memId first last set) := fun _ _ h => nomatch h

theorem malformed (link : Fin 4) (bytes : List Byte) : Statement (.malformed link bytes) := fun _ _ h => nomatch h

theorem partReset (pins : Fin 4) : Statement (.partReset pins) := fun _ _ h => nomatch h

theorem wrap : Statement (.wrap) := fun _ _ h => nomatch h

theorem deadlineExpiry (which : DeadlineName) : Statement (.deadlineExpiry which) := fun _ _ h => nomatch h

theorem wake (inst : Fin 64) : Statement (.wake inst) := fun _ _ h => nomatch h

theorem burstTimeout (link : Fin 4) : Statement (.burstTimeout link) := fun _ _ h => nomatch h

theorem loadTimeout (link : Fin 4) : Statement (.loadTimeout link) := fun _ _ h => nomatch h

theorem dispatch : Statement (.dispatch) := fun _ _ h => nomatch h

theorem preemption : Statement (.preemption) := fun _ _ h => nomatch h

theorem resume (engine : Fin 6) : Statement (.resume engine) := fun _ _ h => nomatch h

theorem burstIssue (engine : Fin 6) : Statement (.burstIssue engine) := fun _ _ h => nomatch h

theorem elementEnd (engine : Fin 6) : Statement (.elementEnd engine) := fun _ _ h => nomatch h

theorem drainEnd (engine : Fin 6) : Statement (.drainEnd engine) := fun _ _ h => nomatch h

theorem analysisBegin : Statement (.analysisBegin) := fun _ _ h => nomatch h

theorem analysisComplete : Statement (.analysisComplete) := fun _ _ h => nomatch h

theorem commitWriteEnd (verified : Bool) : Statement (.commitWriteEnd verified) := fun _ _ h => nomatch h

theorem clearWriteEnd (verified : Bool) : Statement (.clearWriteEnd verified) := fun _ _ h => nomatch h

theorem timeBaseAdvance : Statement (.timeBaseAdvance) := fun _ _ h => nomatch h

end Sys2Proof.Laws.Spelled
end

