-- ==== Sys2Proof/Laws/Tags.lean ====
section
/-!
SUPPORT. The tag arbiter (R88), said as `State.tagOpen`, `State.issuesOn` and `State.givesTag`; and what falls due before the counter moves on
(R150), said as `dueCommands`.
-/

namespace Sys2Proof.Machine

open Sys2Proof

variable (s : State)

/-! ### Tags (R88) -/

theorem mem_openTags (l : Fin 4) (t : Fin 8) : t ∈ s.openTags l ↔ s.tagOpen l t := by
  unfold State.openTags State.freeTags State.tagOpen
  simp only [allEngines, List.mem_filter, List.mem_finRange, true_and, Bool.not_eq_true', List.any_eq_false, beq_iff_eq,
    Bool.and_eq_true, Option.any_eq_true, not_and, not_exists]
  exact ⟨fun ⟨a, b⟩ => ⟨a, fun e i h c k => b e trivial h i c k⟩, fun ⟨a, b⟩ => ⟨a, fun e _ h i c k => b e i h c k⟩⟩

theorem openTags_eq_singleton (l : Fin 4) (t : Fin 8) :
    s.openTags l = [t] ↔ s.tagOpen l t ∧ ∀ g, s.tagOpen l g → g = t := by
  have hn : (s.openTags l).Nodup := ((List.nodup_finRange 8).filter _).filter _
  simp only [← mem_openTags]
  constructor
  · intro h; simp [h]
  · rintro ⟨h, hu⟩
    match ho : s.openTags l with
    | [] => simp [ho] at h
    | [a] => rw [hu a (by simp [ho])]
    | a :: b :: r =>
      have ha := hu a (by simp [ho])
      have hb := hu b (by simp [ho])
      rw [ho, ha, hb] at hn
      simp at hn

theorem wantsTag_iff (l : Fin 4) (e : Fin 6) : s.wantsTag l e = true ↔ s.issuesOn l e := by
  unfold State.wantsTag State.issuesOn
  simp only [Bool.and_eq_true, Option.any_eq_true, beq_iff_eq, decide_eq_true_eq, and_assoc]
  exact Iff.rfl

theorem mem_tagWaiters (l : Fin 4) (e : Fin 6) : e ∈ s.tagWaiters l ↔ s.issuesOn l e ∧ (s.engine e).given = none := by
  unfold State.tagWaiters
  simp [allEngines, wantsTag_iff]

theorem tagBefore_iff (a b : Fin 6) :
    s.tagBefore a b = true ↔
      (s.engine a).inFlight.length < (s.engine b).inFlight.length ∨
        ((s.engine a).inFlight.length = (s.engine b).inFlight.length ∧ a ≤ b) := by
  unfold State.tagBefore
  split
  · simp; omega
  · simp_all

/-- Of some engines, the arbiter prefers one. -/
theorem exists_preferred (l : List (Fin 6)) (h : l ≠ []) : ∃ e ∈ l, l.all (s.tagBefore e) = true := by
  induction l with
  | nil => exact absurd rfl h
  | cons a t ih =>
    by_cases ht : t = []
    · exact ⟨a, by simp, by simp [ht, tagBefore_iff]⟩
    · obtain ⟨e, he, hp⟩ := ih ht
      simp only [List.all_eq_true, tagBefore_iff] at hp ⊢
      by_cases hb : s.tagBefore a e = true
      · rw [tagBefore_iff] at hb
        refine ⟨a, by simp, fun x hx => ?_⟩
        rcases List.mem_cons.1 hx with rfl | hx
        · exact .inr ⟨rfl, le_refl _⟩
        · have := hp x hx; omega
      · rw [tagBefore_iff] at hb
        refine ⟨e, by simp [he], fun x hx => ?_⟩
        rcases List.mem_cons.1 hx with rfl | hx
        · omega
        · exact hp x hx

/-- R88: what the arbiter does with a freed tag. -/
theorem giveTag_givesTag (l : Fin 4) (t : Fin 8) : s.givesTag l t (s.giveTag l t) := by
  have hs := openTags_eq_singleton s l t
  unfold State.givesTag State.giveTag
  dsimp only
  constructor
  · intro e sc w p
    rw [if_pos (hs.2 sc)]
    cases hf : (s.tagWaiters l).find? fun e => (s.tagWaiters l).all (s.tagBefore e) with
    | none =>
      rw [List.find?_eq_none] at hf
      refine absurd ?_ (hf e ((mem_tagWaiters s l e).2 w))
      simp only [List.all_eq_true, tagBefore_iff, mem_tagWaiters]
      exact p
    | some a =>
      have ha := List.find?_some hf
      have hm := (mem_tagWaiters s l a).1 (List.mem_of_find?_eq_some hf)
      simp only [List.all_eq_true, tagBefore_iff, mem_tagWaiters] at ha
      have h1 := ha e w
      have h2 := p a hm
      obtain rfl : a = e := by omega
      rfl
  · rintro (ns | nw)
    · rw [if_neg (fun h => ns (hs.1 h))]
    · have hw : s.tagWaiters l = [] := List.eq_nil_iff_forall_not_mem.2 fun e he => nw e ((mem_tagWaiters s l e).1 he)
      simp [hw]

/-- R88: an engine with no tag to issue with. -/
theorem tagFor_eq_none (l : Fin 4) (e : Fin 6) :
    s.tagFor l e = none ↔ (s.engine e).given = none ∧ ∀ g, ¬s.tagOpen l g := by
  unfold State.tagFor
  split
  · simp [*]
  · simp [*, ← mem_openTags, List.head?_eq_none_iff, List.eq_nil_iff_forall_not_mem]

/-- R88: the tag an engine issues with: its own, else the lowest-numbered open one. -/
theorem tagFor_eq_some (l : Fin 4) (e : Fin 6) (g : Fin 8) :
    s.tagFor l e = some g ↔
      (s.engine e).given = some g ∨
        ((s.engine e).given = none ∧ s.tagOpen l g ∧ ∀ h, h < g → ¬s.tagOpen l h) := by
  have hp : (s.openTags l).Pairwise (· < ·) := ((List.pairwise_lt_finRange 8).filter _).filter _
  unfold State.tagFor
  split
  · simp [*]
  · rename_i hg
    simp only [hg, reduceCtorEq, true_and, false_or, ← mem_openTags]
    cases ho : s.openTags l with
    | nil => simp
    | cons a t =>
      rw [ho] at hp
      simp only [List.head?_cons, Option.some.injEq, List.mem_cons, not_or]
      have ht : ∀ x ∈ t, a < x := (List.pairwise_cons.1 hp).1
      constructor
      · rintro rfl
        exact ⟨.inl rfl, fun h hh => ⟨by omega, fun hm => by have := ht _ hm; omega⟩⟩
      · rintro ⟨rfl | hm, hn⟩
        · rfl
        · exact absurd rfl (hn a (ht _ hm)).1

/-! ### What falls due (R150) -/

/-- A fold of one kind of command runs through those commands. -/
theorem runsThrough_foldl {α : Type} (c : α → Instr) (f : State → α → State) (h : ∀ s a, exec (c a) s = .next (f s a)) (l : List α)
    (s : State) : runsThrough (l.map c) s (l.foldl f s) := by
  induction l generalizing s with
  | nil => rfl
  | cons a t ih => exact ⟨f s a, h s a, ih _⟩

theorem runsThrough_append {a b : List Instr} {s t u : State} (h : runsThrough a s t) (k : runsThrough b t u) :
    runsThrough (a ++ b) s u := by
  induction a generalizing s with
  | nil => cases h; exact k
  | cons c cs ih => obtain ⟨v, hv, hr⟩ := h; exact ⟨v, hv, ih hr⟩

/-- R150: what falls due is what the commands of it come to, one after another. -/
theorem takeDue_runsThrough : runsThrough dueCommands s s.takeDue := by
  have h1 : runsThrough [.deadlineExpiry .card, .deadlineExpiry .chassis] s ((s.expiry .card).expiry .chassis) :=
    ⟨_, rfl, _, rfl, rfl⟩
  have h2 := runsThrough_append h1 (runsThrough_foldl .wake State.wake (fun _ _ => rfl) allInsts _)
  have h3 := runsThrough_append h2 (runsThrough_foldl .burstTimeout State.burstTimeout (fun _ _ => rfl) allLinks _)
  exact runsThrough_append h3 (runsThrough_foldl .loadTimeout State.loadTimeout (fun _ _ => rfl) allLinks _)

end Sys2Proof.Machine
end

