-- ==== Sys2Proof/Laws/Turn.lean ====
section
/-!
SUPPORT. What an engine's turn to its reservation or its Resume Stack comes to (R71, R73, R74), said as `State.turnsTo`; and what the check
for an end of drain and element comes to (R89), said as `State.checksEnd`. A statement about a command that ends in a turn cites these and
never unfolds the turn.
-/

namespace Sys2Proof.Machine

open Sys2Proof

variable (s : State) (e : Fin 6)

/-! ### Slots leave the queue and the engines alone -/

@[simp] theorem releaseSlot_workQueue (i : Fin 64) : (s.releaseSlot i).workQueue = s.workQueue := by
  unfold State.releaseSlot; split <;> rfl

@[simp] theorem releaseSlot_engine (i : Fin 64) (m : Fin 6) : (s.releaseSlot i).engine m = s.engine m := by
  unfold State.releaseSlot; split <;> rfl

@[simp] theorem takeSlot_workQueue (i : Fin 64) : (s.takeSlot i).workQueue = s.workQueue := by
  unfold State.takeSlot; split <;> rfl

@[simp] theorem takeSlot_engine (i : Fin 64) (m : Fin 6) : (s.takeSlot i).engine m = s.engine m := by
  unfold State.takeSlot; split <;> rfl

@[simp] theorem enterAnalysis_workQueue (i : Fin 64) (f : Bool) (c : Option CutReason) :
    (s.enterAnalysis i f c).workQueue = s.workQueue := rfl

@[simp] theorem enterAnalysis_engine (i : Fin 64) (f : Bool) (c : Option CutReason) (m : Fin 6) :
    (s.enterAnalysis i f c).engine m = s.engine m := rfl

/-! ### Reaching an element keeps the Work Queue and the Resume Stack -/

@[simp] theorem parkRun_workQueue (i : Fin 64) (p : Position) (w : Time) : (s.parkRun e i p w).workQueue = s.workQueue := by
  simp [State.parkRun, State.vacate, State.writePosition]

@[simp] theorem completeRun_workQueue (i : Fin 64) (p : Position) : (s.completeRun e i p).workQueue = s.workQueue := by
  simp [State.completeRun, State.vacate, State.writePosition]

@[simp] theorem parkRun_stack (i : Fin 64) (p : Position) (w : Time) : ((s.parkRun e i p w).engine e).stack = (s.engine e).stack := by
  simp [State.parkRun, State.vacate, State.writePosition, Engine.vacated]

@[simp] theorem completeRun_stack (i : Fin 64) (p : Position) : ((s.completeRun e i p).engine e).stack = (s.engine e).stack := by
  simp [State.completeRun, State.vacate, State.writePosition, Engine.vacated]

theorem reach_workQueue (k : Nat) (p : Nat × Nat) : (s.reach e k p).1.workQueue = s.workQueue := by
  unfold State.reach
  repeat' first | split | dsimp only
  all_goals simp

theorem reach_stack (k : Nat) (p : Nat × Nat) : ((s.reach e k p).1.engine e).stack = (s.engine e).stack := by
  unfold State.reach
  repeat' first | split | dsimp only
  all_goals simp

/-! ### The turn -/

/-- A turn is one turn, and a second one where the run has left the engine again. -/
theorem turn_eq : s.turn e = if (s.turnOnce e).2 then State.turnFor e ((s.engine e).stack.length + s.workQueue.length) (s.turnOnce e).1
    else (s.turnOnce e).1 := rfl

/-- R73: a resumed run leaves as many turns as its turn has left: the Work Queue stands and the stack is shorter by one. -/
theorem resumeRun_fuel (i : Fin 64) {rest : List (Fin 64)} (h : (s.engine e).stack = i :: rest) :
    ((s.resumeRun e i).1.engine e).stack = rest ∧ (s.resumeRun e i).1.workQueue = s.workQueue ∨ (s.resumeRun e i).2 = false := by
  unfold State.resumeRun; dsimp only
  split
  · exact .inr rfl
  · exact .inr rfl
  · left
    rw [reach_stack, reach_workQueue]
    simp [h]

theorem resume_eq (w : State) (i : Fin 64) (rest : List (Fin 64)) (l : Fin 4) (hs : (w.engine e).state = .waitingSlot)
    (hl : (w.engine e).waitingLink = some l) (hst : (w.engine e).stack = i :: rest) (hg : w.slotGranted e l = true) :
    exec (.resume e) w = .next (if (w.resumeRun e i).2 then State.turnFor e (rest.length + w.workQueue.length + 1) (w.resumeRun e i).1
      else (w.resumeRun e i).1) := by
  show execResume e w = _
  unfold execResume
  rw [if_pos ⟨hs, by simp [hl, hg]⟩, hst]
  dsimp only
  unfold State.settle
  split
  · rename_i h
    rcases resumeRun_fuel w e i hst with ⟨h1, h2⟩ | h1
    · simp only [State.turn, h1, h2]
    · simp [h1] at h
  · rfl

theorem slotGranted_iff (w : State) (l : Fin 4) : w.slotGranted e l = true ↔ w.slotComesTo l e := by
  unfold State.slotGranted State.slotComesTo State.slotOpen State.waiters
  simp only [Bool.and_eq_true, List.all_eq_true, List.mem_filter, allEngines, List.mem_finRange, true_and, beq_iff_eq]
  refine and_congr decide_eq_true_iff <| forall_congr' fun m => ?_
  constructor
  · exact fun h hm k => Nat.not_le.2 hm (of_decide_eq_true (h k))
  · exact fun h k => decide_eq_true (Nat.le_of_not_lt fun x => h x k)

/-- Only engines count for the slot arbiter: an engine that waits itself stands in nobody's way. -/
theorem slotComesTo_wait (l : Fin 4) (en : Engine) : (s.setEngine e en).slotComesTo l e ↔ s.slotComesTo l e := by
  unfold State.slotComesTo
  simp only [State.setEngine_link]
  refine and_congr_right fun _ => forall_congr' fun m => imp_congr_right fun hm => ?_
  rw [State.engine_setEngine, if_neg (Fin.ne_of_lt hm)]

/-- R73: an engine that turns to instance `i`, the top of its stack, waits for its link, or takes a slot there at once and resumes. -/
theorem turn_waits (i : Fin 64) (rest : List (Fin 64)) (l : Fin 4) (hst : (s.engine e).stack = i :: rest)
    (hl : s.linkOf i = some l) (ho : s.turnOnce e = s.waitFor e i) :
    let w := s.setEngine e { s.engine e with state := .waitingSlot, waitingLink := some l }
    (s.slotComesTo l e → exec (.resume e) w = .next (s.turn e)) ∧ (¬s.slotComesTo l e → s.turn e = w) := by
  intro w
  have hw : (w.engine e).stack = i :: rest := by simp [w, hst]
  have hg : w.slotGranted e l = true ↔ s.slotComesTo l e := by rw [slotGranted_iff, slotComesTo_wait]
  have hf : s.waitFor e i = if w.slotGranted e l then w.resumeRun e i else (w, false) := by
    unfold State.waitFor State.modEngine
    simp [hl, w]
  rw [turn_eq, ho, hf]
  refine ⟨fun h => ?_, fun h => ?_⟩
  · have hk := hg.2 h
    rw [resume_eq e w i rest l (by simp [w]) (by simp [w]) hw hk, if_pos hk, hst]
    have : (i :: rest).length + s.workQueue.length = rest.length + w.workQueue.length + 1 := by
      simp [w]; omega
    rw [this]
  · have hk : w.slotGranted e l = false := by rw [Bool.eq_false_iff]; exact fun x => h (hg.1 x)
    simp [hk]

/-- R71: the reserved entry that an engine turns to starts its run. -/
theorem dispatchRun_starts (q : QueueEntry) (d : Descriptor) (hc : q.cls ≠ .wake) (hd : (s.entry q.inst).descriptor = some d)
    (hu : s.linkUp d.link = true) : s.dispatchRun e q = (s.startsRun e q d, false) := by
  have hl := linkOf_some hd
  have hw : ({ s with workQueue := s.workQueue.filter fun x => x.inst != q.inst } : State).linkOf q.inst = some d.link := hl
  unfold State.dispatchRun; dsimp only
  rw [takeSlot_of hw]
  cases hk : q.cls with
  | wake => exact absurd hk hc
  | _ =>
    have hd' : (s.table[q.inst.val]).descriptor = some d := hd
    have hu' : (s.linkTable[d.link.val]).down = none := Option.isNone_iff_eq_none.1 hu
    dsimp only
    simp [emptyLog_eq, State.modEngine, State.modEntry, State.modLink, State.beginLoad, State.send, State.linkUp, State.startsRun, State.setEntry,
      State.setEngine, State.setLink, State.entry, State.engine, State.link, State.dispatchedEntry, EntryClass.preemptible, hk, hd', hu', Position.zero,
      -State.table_get, -State.engineTable_get, -State.linkTable_get]
    all_goals rfl

/-- R71, R73, R74: a turn comes to what `turnsTo` says. -/
theorem turn_turnsTo : s.turnsTo e (s.turn e) := by
  refine ⟨turn_of_hasRun s e, turn_of_nothing s e, ?_, ?_, ?_⟩
  · intro q d hs hq hr hu hc hd hl
    have hf : s.reservedFor e = some q := by
      unfold State.reservedFor
      cases h : s.workQueue.find? fun q => q.reserved == some e with
      | none => exact absurd (List.find?_eq_none.1 h q hq) (by simp [hr])
      | some x =>
        have := List.find?_some h
        rw [hu x (List.mem_of_find?_eq_some h) (by simpa using this)]
    have ho : s.turnOnce e = (s.startsRun e q d, false) := by
      unfold State.turnOnce; dsimp only; rw [hs]; dsimp only; rw [hf]; exact dispatchRun_starts s e q d hc hd hl
    rw [turn_eq, ho]; rfl
  · intro hs hst
    have ho : s.turnOnce e = (s.vacate e, false) := by
      unfold State.turnOnce; dsimp only; rw [hs]; dsimp only; rw [hst]
    rw [turn_eq, ho]
    simp [State.vacate, State.modEngine, Engine.vacated, hst, Engine.reset]
  · intro i rest l hst hl
    refine ⟨fun hs hw => ?_, fun h => ?_⟩
    · have ho : s.turnOnce e = (s, false) := by
        unfold State.turnOnce; dsimp only; rw [hs]; dsimp only; rw [hst]; dsimp only; rw [if_pos (by rw [hl, hw])]
      rw [turn_eq, ho]; rfl
    · refine turn_waits s e i rest l hst hl ?_
      rcases h with ⟨hs, hw⟩ | ⟨hs, hn⟩
      · unfold State.turnOnce; dsimp only; rw [hs]; dsimp only; rw [hst]; dsimp only
        rw [if_neg (by rw [hl]; exact Ne.symm hw)]
      · have hf : s.reservedFor e = none := by
          unfold State.reservedFor; rw [List.find?_eq_none]; intro q hq; simp [hn q hq]
        unfold State.turnOnce; dsimp only; rw [hs]; dsimp only; rw [hf]; dsimp only; rw [hst]

/-- Every engine's turn in ascending number (notes/assumptions/3.md) comes to what `turnAllTo` says. -/
theorem turnAll_turnAllTo : s.turnAllTo s.turnAll := by
  refine ⟨fun n => ((allEngines.take n).foldl State.turn s), rfl, rfl, fun e => ?_⟩
  have : allEngines.take (e.val + 1) = allEngines.take e.val ++ [e] := by revert e; decide
  simp only [this, List.foldl_append, List.foldl_cons, List.foldl_nil]
  exact turn_turnsTo _ e

/-- R89: the check of an engine comes to what `checksEnd` says. -/
theorem checkEnd_checksEnd : s.checksEnd e (.next (s.checkEnd e)) := by
  have hd : s.drainDone e = true ↔ (s.engine e).state = .draining ∧ ¬(s.engine e).outstanding := by
    unfold State.drainDone Engine.outstanding
    simp [List.isEmpty_iff, and_assoc]
  have he : s.elementEnded e = true ↔
      (s.engine e).state = .walking ∧ (s.engine e).inFlight = [] ∧ ∃ p, (s.engine e).position = some p ∧ p.mark = .elementEnd := by
    unfold State.elementEnded
    simp [List.isEmpty_iff, Option.any_eq_true, and_assoc]
    tauto
  unfold State.checksEnd State.checkEnd
  refine ⟨fun h => ?_, fun h => ?_, fun h k => ?_⟩
  · show _ = execDrainEnd e s
    rw [← hd] at h
    simp [execDrainEnd, h]
  · show _ = execElementEnd e s
    have hn : s.drainDone e = false := by rw [Bool.eq_false_iff]; intro x; have := hd.1 x; simp [h.1] at this
    rw [← he] at h
    simp [execElementEnd, h, hn]
  · rw [← hd] at h
    rw [← he] at k
    simp [h, k]

/-- R53: a step that gives an engine work comes to what `comesToReach` says. -/
theorem settle_comesToReach (k : Nat) (p : Nat × Nat) : s.comesToReach e k p (.next (State.settle e (s.reach e k p))) := by
  refine ⟨fun t h => ?_, fun t h => ⟨t.turn e, turn_turnsTo t e, ?_⟩⟩ <;> simp [State.settle, h]

end Sys2Proof.Machine
end

