-- ==== Sys2Proof/Tests/Slice0.lean ====
section
/-!
SUPPORT. The model's own tests: terms the width check refuses, one command on a small state (many from the worked sequences of
the spec), and for every statement with hypotheses a state and operands that meet them all.
-/

namespace Sys2Proof.Tests

-- One theorem at a time: each is evaluated by the kernel, and their threads together would outgrow the memory limit.
set_option Elab.async false

open Sys2Proof Sys2Proof.Machine

/-! ### Small states -/

/-- The outcome is a next state that passes a check. -/
def nextIs (o : Host.Outcome State Fault Refusal) (p : State → Bool) : Bool :=
  match o with
  | .next t => p t
  | _ => false

/-- Port `p` holds an answer to request `k` with a status and payload. -/
def answers (t : State) (p : Port) (k : RequestKind) (st : Status) (pl : Payload) : Bool :=
  (t.port p).response == some ⟨k.code, st, pl⟩

/-- The mask of some instances. -/
def mask (l : List (Fin 64)) : Mask := l.foldl (fun m i => m ||| maskBit i) 0

/-- A descriptor: link, memory id, rows, columns, and verify ON. -/
def desc (l : Fin 4) (m : Fin 256) (rows columns : Nat) : Descriptor :=
  ⟨l, m, .sram, rows, columns, 16, 2, 2, 0, 1, true, 7⟩

/-- The DEFINE operand that spells `desc 0 9 3 100`. -/
def raw : RawDescriptor := ⟨0, 9, 0, 3, 100, 16, 2, 2, 0, 1, 1, 7⟩

/-- An entry in a state, owned by the card. -/
def inst (d : Descriptor) (st : InstState) : Entry :=
  { Entry.reset with
    descriptor := some d, state := st, owner := .card, rowSpares := [.free, .free], columnSpares := [.free, .free],
    run := ⟨some 0, some .normal, 1, .zero⟩ }

/-- The device of instances 3 to 8: 3 rows of 100 columns on link 0, memory id 9. -/
def d9 : Descriptor := desc 0 9 3 100

/-- The part with every link UP, at time 5,000. -/
def base : State := { State.reset with linkTable := Vector.replicate 4 { Link.reset with down := none }, now := 5000 }

/-- Instance 3 in a state, on link 0. -/
def one (st : InstState) : State := base.setEntry 3 (inst d9 st)

/-- A Work Queue entry of instance `i` for sequence 0. -/
def entry (i : Fin 64) (c : EntryClass) : QueueEntry := ⟨i, 0, c, .card, 1000, none⟩

/-- Instance 3 QUEUED with an entry of a class. -/
def queued (c : EntryClass) : State := { one .queued with workQueue := [entry 3 c] }

/-- Instance 3 in PARKED, its wake due. -/
def parked : State := { one .parked with parking := [⟨3, 5000⟩] }

/-- Instance 3 at the head of the Analysis Queue, under fresh analysis. -/
def analysed : State := { one .analysing with analysisQueue := [⟨3, true⟩], analysing := true }

/-- Instance 3 SUSPENDED on TE0, which waits for link 0, with a position mark. -/
def suspended (m : PosMark) : State :=
  (base.setEntry 3
      { inst d9 .suspended with suspending := some 0, run := ⟨some 0, some .normal, 1, ⟨0, 1, 0, m⟩⟩ }).setEngine 0
    { Engine.reset with state := .waitingSlot, waitingLink := some 0, stack := [3] }

/-- TE0 with instance 3 at a position, its slot held. -/
def running (st : EngineState) (pos : Position) : State :=
  ((one .running).setEngine 0
      { Engine.reset with
        state := st, current := some 3, position := some pos, dispatchStamp := some 4000, preemptible := true }).setLink 0
    { Link.reset with down := none, slots := [.running 3] }

/-- TE0 WALKING element 1 of QUICK in row 1, its one burst in flight with tag 0. -/
def walking : State :=
  ((running .walking ⟨1, 1, 1, .inElement⟩).modEngine 0 fun en => { en with inFlight := [⟨0, 1, 0, 1, false⟩] }).modLink 0
    fun k => { k with tags := [⟨0, 0, 4990⟩] }

/-- TE0 LOADING instance 3, the load outstanding. -/
def loading : State :=
  ((running .loading .zero).modEngine 0 fun en => { en with loadOutstanding := true }).modLink 0 fun k =>
    { k with loads := [⟨0, 9, 4990⟩] }

/-- TE0 draining for a reason, nothing outstanding. -/
def draining (r : DrainReason) : State :=
  (running .draining ⟨1, 1, 1, .inElement⟩).modEngine 0 fun en => { en with drainReason := some r }

/-- A commit of sections 4 and 7 in progress, writing section 4. -/
def committing : State :=
  { State.reset with storeOp := some ⟨.commit, ⟨4, some ⟨7, [⟨.row, 88, 0⟩]⟩⟩, [⟨7, some ⟨7, []⟩⟩], 0⟩ }

/-! ### The width check refuses -/

/-- A well-formed element record. -/
def rawElement : RawElement := ⟨0, 0, 1, [2, 0, 0, 0, 0, 0], 0, 0, 0, 0, 0⟩

theorem test_wellformed_accepts :
    [Instr.define .card 255 raw, .test .card 255 (some 255) 255, .loadElements .card 255 (List.replicate 63 rawElement),
      .loadDirectory .card 255 [⟨255, 255, 255⟩], .claim .card 0 255, .deviceGuard 0 0 16777215 16777215 true,
      .result 0 0 .fail [⟨65535, some (List.replicate 144 true)⟩]].all Instr.wf = true := by
  decide +kernel

theorem test_wellformed_refuses_indices :
    ([Instr.define .card 256 raw, .retire .card 256, .test .card 256 none 0, .test .card 0 (some 256) 0, .test .card 0 none 256,
        .stop .card 256, .guard .card 256 0 0, .guard .card 0 16777216 0, .guard .card 0 0 16777216, .unguard .card 256 0 0,
        .unguard .card 0 16777216 0, .unguard .card 0 0 16777216, .claim .card 0 256, .budget .card 16777216] ++
      [Instr.cap .card 16777216, .status .card 256, .fails .card 256 0, .fails .card 0 256, .map .card 256,
        .library .card 256 0 0, .library .card 0 256 0, .library .card 0 0 256, .takeNotice .card 256,
        .deviceGuard 0 0 16777216 0 true, .deviceGuard 0 0 0 16777216 true]).all (fun c => !c.wf) = true := by
  decide +kernel

theorem test_wellformed_refuses_descriptors :
    [{ raw with link := 256 }, { raw with memId := 256 }, { raw with kind := 256 }, { raw with rows := 16777216 },
      { raw with columns := 65536 }, { raw with width := 256 }, { raw with spareRows := 256 },
      { raw with spareColumns := 256 }, { raw with defaultSequence := 256 }, { raw with priority := 256 },
      { raw with verify := 256 }, { raw with signature := 65536 }].all
      (fun d => !(Instr.define .card 0 d).wf) = true := by
  decide +kernel

theorem test_wellformed_refuses_records :
    ([{ rawElement with kind := 256 }, { rawElement with direction := 256 }, { rawElement with operationCount := 256 },
        { rawElement with operations := [2] }, { rawElement with operations := [256, 0, 0, 0, 0, 0] },
        { rawElement with background := 256 }, { rawElement with walkOffset := 256 }, { rawElement with holdTime := 65536 },
        { rawElement with skipSet := 256 }, { rawElement with margin := 65536 }].all
      (fun e => !(Instr.loadElements .card 0 [e]).wf) &&
    [⟨256, 0, 0⟩, ⟨0, 256, 0⟩, ⟨0, 0, 256⟩].all (fun d => !(Instr.loadDirectory .card 0 [d]).wf) &&
    !(Instr.loadElements .card 256 []).wf && !(Instr.loadElements .card 0 (List.replicate 64 rawElement)).wf &&
    !(Instr.loadDirectory .card 256 []).wf && !(Instr.loadDirectory .card 0 (List.replicate 256 ⟨0, 0, 0⟩)).wf) = true := by
  decide +kernel

theorem test_wellformed_refuses_results :
    [Instr.result 0 0 .fail [⟨65536, none⟩], .result 0 0 .fail [⟨0, some (List.replicate 145 true)⟩],
      .result 0 0 .fail (List.replicate 65 ⟨0, none⟩)].all (fun c => !c.wf) = true := by
  decide +kernel

/-! ### Bytes (section 11.5) -/

/-- The CRC-16 of the text 123456789, the generator's known check value. -/
theorem test_crc : crc16 [49, 50, 51, 52, 53, 54, 55, 56, 57] = 0x29B1#16 := by decide +kernel

/-- R168: the idle frame: code, status and length 0, and the check. -/
theorem test_idle_frame : idleFrame.take 4 = [0, 0, 0, 0] ∧ idleFrame.length = 6 := by decide +kernel

/-- Section 11.5: a frame of GUARD for rows 100 to 199 of instance 20, but for its check. -/
theorem test_guard_frame :
    (requestFrame .guard (payloadOf (.guard .card 20 100 199))).take 10 = [21, 0, 7, 20, 0, 0, 100, 0, 0, 199] := by
  decide +kernel

/-- Section 11.5: the bytes of a BURST with READ and WRITE-INV over CHECKER, columns 64 to 99 of row 2. -/
theorem test_burst_bytes :
    (LinkMsg.burst 5 9 2 64 36 [.read, .writeInv] .checker false).bytes =
      [1, 5, 9, 0, 0, 2, 0, 64, 36, 65, 144, 0] := by
  decide +kernel

/-! ### Requests, one step each -/

/-- R12, R14: a DEFINE against an EMPTY section. -/
theorem test_define :
    nextIs (exec (.define .card 3 raw) (base.setEntry 3 { Entry.reset with owner := .card })) (fun t =>
      answers t .card .define .ok (.define .empty) && (t.entry 3).state == .defined && (t.entry 3).descriptor == some d9 &&
        (t.entry 3).rowSpares == [.free, .free]) = true := by
  decide +kernel

/-- R161, R162: a section of another signature. -/
theorem test_define_mismatch :
    nextIs
      (exec (.define .card 3 raw) ((base.setEntry 3 { Entry.reset with owner := .card }).setSection 3 ⟨some ⟨8, []⟩, true⟩))
      (fun t => answers t .card .define .ok (.define .signatureMismatch) && (t.entry 3).flags.signatureMismatch) = true := by
  decide +kernel

/-- R18, R19: RETIRE of a CLEAN instance. -/
theorem test_retire :
    nextIs (exec (.retire .card 3) (one .clean)) (fun t =>
      answers t .card .retire .ok (.retire .retired) && (t.entry 3).state == .retired && (t.link 0).sent == [.fence 9] &&
        t.chassisPort.notices.verdict == some (mask [3])) = true := by
  decide +kernel

/-- R20: REQUALIFY passes over live instances. -/
theorem test_requalify :
    nextIs
      (exec (.requalify .chassis) ((one .repaired).setEntry 4 { inst (desc 1 9 3 100) .clean with live := true })) (fun t =>
      answers t .chassis .requalify .ok (.requalify (mask [3]) (mask [4])) && (t.entry 3).state == .defined &&
        (t.entry 4).state == .clean) = true := by
  decide +kernel

/-- R21, R162: a RUNNING instance's section is loaded as it stood at the REQUALIFY, here signature 7 and one record, when the drain ends. -/
theorem test_requalify_keeps_section :
    nextIs (exec (.requalify .chassis) (walking.setSection 3 ⟨some ⟨7, [⟨.row, 2, 1⟩]⟩, true⟩)) (fun t =>
      (t.engine 0).state == .draining &&
        nextIs (exec (.result 0 0 .pass []) (t.setSection 3 ⟨none, true⟩)) (fun u =>
          (u.entry 3).state == .defined && (u.entry 3).repairMap == [⟨.row, 2, 1, .stored, false, false⟩] && u.engine 0 == .reset)) =
      true := by
  decide +kernel

/-- Section 4.11, step 1: the TEST for instance 8. -/
theorem test_test :
    nextIs (exec (.test .card 8 none 1) ({ base with now := 2000 }.setEntry 8 (inst d9 .repaired))) (fun t =>
      answers t .card .test .ok (.test .queued) && t.workQueue == [⟨8, 0, .urgent, .card, 2000, none⟩]) = true := by
  decide +kernel

/-- R62: an URGENT TEST merges into a NORMAL entry, which keeps its arrival stamp. -/
theorem test_test_merges :
    nextIs (exec (.test .card 3 (some 1) 1) (queued .normal)) (fun t =>
      answers t .card .test .ok (.test .merged) && t.workQueue == [⟨3, 1, .urgent, .card, 1000, none⟩] &&
        (t.entry 3).absorbed == 1) = true := by
  decide +kernel

/-- Section 4.11, variation: STOP of a reserved entry's instance ends the reservation and gives its slot back. -/
theorem test_stop :
    nextIs
      (exec (.stop .card 3)
        ({ queued .urgent with workQueue := [{ entry 3 .urgent with reserved := some 2 }] }.modLink 0 fun k =>
          { k with slots := [.reserved 3] }))
      (fun t =>
        answers t .card .stop .ok (.stop .cutShort) && t.workQueue == [] && (t.link 0).slots == [] &&
          t.analysisQueue == [⟨3, false⟩] && (t.entry 3).reason == .stop && (t.entry 3).flags.partialRun) = true := by
  decide +kernel

/-- Instance 20 of section 2.2.2 with some guard ranges. -/
def guardedInst (gs : List GuardRange) : State := base.setEntry 20 { inst (desc 0 20 4096 64) .defined with guards := gs }

/-- Section 2.2.2, rows 2, 7 and 6. -/
theorem test_guard :
    (nextIs (exec (.guard .card 20 200 250) (guardedInst [⟨100, 199⟩])) (fun t => (t.entry 20).guards == [⟨100, 250⟩]) &&
    nextIs (exec (.guard .card 20 240 420) (guardedInst [⟨100, 250⟩, ⟨400, 499⟩, ⟨600, 600⟩, ⟨800, 900⟩]))
      (fun t => (t.entry 20).guards == [⟨100, 499⟩, ⟨600, 600⟩, ⟨800, 900⟩]) &&
    nextIs (exec (.guard .card 20 1000 1010) (guardedInst [⟨100, 250⟩, ⟨400, 499⟩, ⟨600, 600⟩, ⟨800, 900⟩]))
      (fun t => answers t .card .guard .guardFull .empty)) = true := by
  decide +kernel

/-- Section 2.2.2, rows 8, 10 and 11. -/
theorem test_unguard :
    (nextIs (exec (.unguard .card 20 300 309) (guardedInst [⟨100, 499⟩, ⟨600, 600⟩, ⟨800, 900⟩]))
      (fun t => (t.entry 20).guards == [⟨100, 299⟩, ⟨310, 499⟩, ⟨600, 600⟩, ⟨800, 900⟩]) &&
    nextIs (exec (.unguard .card 20 700 710) (guardedInst [⟨600, 600⟩, ⟨851, 900⟩]))
      (fun t => answers t .card .unguard .ok (.guards [⟨600, 600⟩, ⟨851, 900⟩])) &&
    nextIs (exec (.unguard .card 20 120 129) (guardedInst [⟨100, 299⟩, ⟨310, 499⟩, ⟨600, 600⟩, ⟨851, 900⟩]))
      (fun t => answers t .card .unguard .guardFull .empty)) = true := by
  decide +kernel

/-- Instances with these owners, from instance 0. -/
def owned (l : List Owner) : State :=
  (List.finRange 64).foldl (fun s i => s.modEntry i fun e => { e with owner := (l[i.val]?).getD .none }) base

/-- Section 2.1.5, the second and third CLAIM. -/
theorem test_claim :
    (nextIs (exec (.claim .chassis (mask [2, 3]) 0) (owned [.card, .card, .card])) (fun t =>
      answers t .chassis .claim .ok (.claim .partGranted (mask [2])) && (t.entry 3).owner == .none) &&
    nextIs (exec (.claim .chassis (mask [2, 3]) 1) (owned [.card, .card, .card])) (fun t =>
      answers t .chassis .claim .ok (.claim .partGranted (mask [2])) && (t.entry 3).owner == .chassis)) = true := by
  decide +kernel

/-- Section 2.1.5, the RELEASE. -/
theorem test_release :
    nextIs (exec (.release .chassis (mask [0, 1])) (owned [.card, .chassis, .chassis, .chassis])) (fun t =>
      answers t .chassis .release .ok (.mask (mask [1])) && (t.entry 0).owner == .card && (t.entry 1).owner == .none) = true := by
  decide +kernel

/-- Section 2.1.5, the BREAK. -/
theorem test_break :
    nextIs (exec (.breakClaim .chassis (mask [1, 2, 3])) (owned [.card, .card, .card, .chassis])) (fun t =>
      answers t .chassis .breakClaim .ok (.mask (mask [1, 2])) && t.cardPort.notices.claimLost == some (mask [1, 2]) &&
        (t.entry 0).owner == .card && (t.entry 2).owner == .chassis) = true := by
  decide +kernel

/-- R47: a record that is illegal, and one that is written. -/
theorem test_load_elements :
    (nextIs (exec (.loadElements .card 33 [rawElement, { rawElement with kind := 1 }]) base) (fun t =>
      answers t .card .loadElements .badRange .empty && t.element 33 == defaultElement) &&
    nextIs (exec (.loadElements .card 255 [{ rawElement with kind := 1, holdTime := 10000 }]) base) (fun t =>
      answers t .card .loadElements .ok (.written 1) && t.element 255 == ⟨.hold 10000, .nothing⟩)) = true := by
  decide +kernel

/-- R48: a directory record, and an EMPTY one. -/
theorem test_load_directory :
    nextIs (exec (.loadDirectory .card 6 [⟨255, 1, 7⟩, ⟨0, 0, 8⟩]) base) (fun t =>
      answers t .card .loadDirectory .ok (.written 2) && t.directoryEntry 6 == some ⟨255, 1, .all⟩ &&
        t.directoryEntry 7 == none) = true := by
  decide +kernel

/-- R152: a duration added modulo 16,777,216, and one too long. -/
theorem test_budget :
    (nextIs (exec (.budget .card 600000) { base with now := 16777215 }) (fun t => t.cardDeadline == some 599999) &&
    nextIs (exec (.budget .card 600001) base) (fun t => answers t .card .budget .badRange .empty)) = true := by
  decide +kernel

theorem test_cap :
    (nextIs (exec (.cap .chassis 0) { base with chassisDeadline := some 6000 }) (fun t =>
      t.chassisDeadline == none && answers t .chassis .cap .ok (.deadline none 5000)) &&
    nextIs (exec (.cap .card 1) base) (fun t => answers t .card .cap .privilege .empty)) = true := by
  decide +kernel

/-- Section 10.7, step 1. -/
theorem test_commit :
    nextIs
      (exec (.commit .card (mask [4, 6, 7]))
        (((base.setEntry 4 { inst (desc 0 4 100 64) .repaired with repairMap := [⟨.row, 88, 0, .found, true, false⟩] }).setEntry
          6 (inst (desc 0 6 100 64) .abandoned)).setEntry 7 (inst (desc 0 7 100 64) .clean)))
      (fun t =>
        answers t .card .commit .ok (.commit (mask [4, 7]) (mask [6])) &&
          t.storeOp == some ⟨.commit, ⟨4, some ⟨7, [⟨.row, 88, 0⟩]⟩⟩, [⟨7, some ⟨7, []⟩⟩], 0⟩) = true := by
  decide +kernel

/-- Section 10.7, step 2; and a CLEAR_STORE that is taken. -/
theorem test_clear_store :
    (nextIs (exec (.clearStore .chassis (mask [6])) committing) (fun t => answers t .chassis .clearStore .storeBusy .empty) &&
    nextIs (exec (.clearStore .chassis (mask [6])) base) (fun t => t.storeOp == some ⟨.clear, ⟨6, none⟩, [], 0⟩)) = true := by
  decide +kernel

/-- R81, R170: a RUNNING instance's position is its engine's. -/
theorem test_status :
    nextIs (exec (.status .chassis 3) walking) (fun t =>
      match t.chassisPort.response with
      | some ⟨_, .ok, .status r⟩ => r.run.position == ⟨1, 1, 1, .inElement⟩ && r.state == .running
      | _ => false) = true := by
  decide +kernel

/-- A CELL record of a row and column, UNCOVERED. -/
def cell (r c : Nat) : FailRecord := ⟨.cell r c, some ⟨0, 1⟩, 1, 100, 1, .uncovered, some false⟩

/-- R118: one read reports at most 8 records. -/
theorem test_fails :
    nextIs
      (exec (.fails .card 3 1) ((one .clean).modEntry 3 fun e => { e with failLog := (List.range 10).map fun k => cell k k }))
      (fun t => answers t .card .fails .ok (.fails ((List.range 8).map fun k => cell (k + 1) (k + 1)) 10 1024)) = true := by
  decide +kernel

theorem test_map :
    nextIs (exec (.map .chassis 3) (one .clean)) (fun t =>
      answers t .chassis .map .ok (.map [] [.free, .free] [.free, .free])) = true := by
  decide +kernel

/-- R65: WAKE goes before URGENT, URGENT before NORMAL. -/
theorem test_queue :
    nextIs (exec (.queue .card) { base with workQueue := [entry 4 .normal, entry 5 .urgent, entry 6 .wake] }) (fun t =>
      answers t .card .queue .ok (.queue [entry 6 .wake, entry 5 .urgent, entry 4 .normal])) = true := by
  decide +kernel

theorem test_engines :
    nextIs (exec (.engines .card) walking) (fun t =>
      match t.cardPort.response with
      | some ⟨_, .ok, .engines (r :: _)⟩ => r == ⟨.walking, some 3, 1, false, none, none, none, []⟩
      | _ => false) = true := by
  decide +kernel

theorem test_links :
    nextIs (exec (.links .card) walking) (fun t =>
      match t.cardPort.response with
      | some ⟨_, .ok, .links (r :: _)⟩ => r == ⟨none, 1, 1, []⟩
      | _ => false) = true := by
  decide +kernel

/-- R46, R49, R55: an element of QUICK, referenced by the job of instance 3. -/
theorem test_library :
    nextIs (exec (.library .card 1 2 1) (queued .normal)) (fun t =>
      answers t .card .library .ok (.elements [(⟨.march .down [.readInv] .solid, .nothing⟩, true)])) = true := by
  decide +kernel

theorem test_time :
    nextIs (exec (.time .card) { base with cardDeadline := some 6000 }) (fun t =>
      answers t .card .time .ok (.time 5000 (some 6000) none)) = true := by
  decide +kernel

/-- A port with the notices of section 11.4.1 after event 2, VERDICT, LINK and CLAIM_LOST enabled. -/
def gathering : State :=
  base.setPort .card ⟨none, { NoticeSet.empty with link := some 2, fault := some (mask [2, 5]), verdict := some (mask [9]) }, 26⟩

/-- Section 11.4.1, event 3. -/
theorem test_take_notice :
    nextIs (exec (.takeNotice .card 4) gathering) (fun t =>
      answers t .card .takeNotice .ok (.notice (some (.link 2))) && t.cardPort.notices.link == none && t.cardPort.line) = true := by
  decide +kernel

/-- Section 11.4.1, event 8: FAULT alone is asserted at once when it is enabled. -/
theorem test_notice_mask :
    nextIs
      (exec (.noticeMask .card 58) (base.setPort .card ⟨none, { NoticeSet.empty with fault := some (mask [2, 5]) }, 26⟩))
      (fun t => answers t .card .noticeMask .ok (.noticeMask 58 32 true) && t.cardPort.line) = true := by
  decide +kernel

/-- R169: a frame of 5 bytes whose check field is wrong, and an unknown code with a right one. -/
theorem test_bad_frame :
    (nextIs (exec (.badFrame .card [16, 0, 0, 0, 0]) base) (fun t =>
      t.cardPort.response == some ⟨16, .badFrame, .empty⟩) &&
    nextIs (exec (.badFrame .chassis ([9, 0, 0] ++ crcBytes [9, 0, 0])) base) (fun t =>
      t.chassisPort.response == some ⟨9, .badRequest, .empty⟩)) = true := by
  decide +kernel

/-! ### Messages of the devices, one step each -/

/-- Section 5.7, event 5: a read-check FAIL. -/
theorem test_result :
    nextIs
      (exec (.result 0 0 .fail [⟨10, none⟩])
        (walking.modEngine 0 fun en => { en with inFlight := [⟨0, 1, 0, 1, true⟩] }))
      (fun t =>
        (t.engine 0).inFlight == [] && (t.link 0).tags == [] && t.poolFree == 1023 &&
          (t.entry 3).failLog == [⟨.cell 1 10, none, 1, 5000, 1, .uncovered, some false⟩]) = true := by
  decide +kernel

/-- R89: the last result of an element ends it in the same step, and so does the last of a drain (R96). -/
theorem test_result_ends :
    (nextIs (exec (.result 0 0 .pass []) (walking.modEngine 0 fun en => { en with position := some ⟨1, 2, 1, .elementEnd⟩ })) (fun t =>
      (t.engine 0).position == some ⟨2, 2, 1, .inElement⟩) &&
    nextIs (exec (.result 0 0 .pass []) (walking.modEngine 0 fun en => en.drainRequested (.cut .deadline))) (fun t =>
      (t.entry 3).state == .analysing && (t.entry 3).reason == .deadline && t.engine 0 == .reset)) = true := by
  decide +kernel

/-- Instance `i` on link 0 and TE`e` WALKING it at a position, with bursts of these tags in flight. -/
def walkedBy (s : State) (e : Fin 6) (i : Fin 64) (p : Position) (tags : List (Fin 8)) : State :=
  (s.setEntry i (inst (desc 0 ⟨i.val, by omega⟩ 8 100) .running)).setEngine e
    { Engine.reset with
      state := .walking, current := some i, position := some p, inFlight := tags.map fun t => ⟨t, 1, 0, p.ordinal, false⟩ }

/-- Link 0 with its 8 tags in use: TE0's last burst of an element, four of TE1 and three of TE2. -/
def crowded : State :=
  (walkedBy (walkedBy (walkedBy base 0 3 ⟨1, 7, 1, .elementEnd⟩ [0]) 1 4 ⟨1, 2, 0, .inElement⟩ [1, 2, 3, 4]) 2 5 ⟨1, 2, 0, .inElement⟩
    [5, 6, 7]).modLink 0 fun k =>
      { k with tags := [0, 1, 2, 3, 4, 5, 6, 7].map fun t => ⟨t, if t = 0 then 0 else if t ≤ 4 then 1 else 2, 4990⟩ }

/-- R88, R89: the tag that TE0's last result frees goes to TE2, which waited, and not to TE0, which begins its next element after it;
TE2 issues with it, TE0 and TE1 issue nothing. -/
theorem test_result_gives_tag :
    nextIs (exec (.result 0 0 .pass []) crowded) (fun t =>
      (t.engine 0).position == some ⟨2, 7, 1, .inElement⟩ && (t.engine 0).given == none && (t.engine 2).given == some 0 &&
        nextIs (exec (.burstIssue 0) t) (· == t) && nextIs (exec (.burstIssue 1) t) (· == t) &&
        nextIs (exec (.burstIssue 2) t) (fun u =>
          (u.engine 2).given == none && (u.engine 2).inFlight.map Burst.tag == [5, 6, 7, 0])) = true := by
  decide +kernel

/-- Section 5.7: LOAD_DONE begins the walk at row 0, chunk 0. -/
theorem test_load_done :
    nextIs (exec (.loadDone 0 9) loading) (fun t =>
      (t.engine 0).state == .walking && (t.engine 0).position == some ⟨0, 0, 0, .inElement⟩ && (t.link 0).loads == []) = true := by
  decide +kernel

/-- Instances of section 6.7 on the DOWN link 1 after event 1. -/
def lostLink : State :=
  ((((base.setEntry 2 (inst (desc 1 10 3 64) .faulted)).setEntry 7 (inst (desc 1 12 3 64) .repaired)).setEntry 15
    (inst (desc 1 14 3 64) .retired)).setEntry 16 (inst (desc 1 15 3 64) .faulted)).setLink 1
      { Link.reset with down := some .reset }

/-- Section 6.7, event 4. -/
theorem test_ready :
    nextIs (exec (.ready 1) lostLink) (fun t =>
      (t.link 1).down == none && (t.link 1).pulls == [2, 16] && (t.entry 16).state == .defined &&
        (t.link 1).sent == [.mapOffer 12 .repaired false (some []), .fence 14]) = true := by
  decide +kernel

/-- Section 6.7, event 1, for a run, a parked run and a live instance. -/
theorem test_reset_notice :
    nextIs (exec (.resetNotice 0) (walking.setEntry 7 { inst (desc 0 12 3 64) .repaired with live := true })) (fun t =>
      (t.link 0) == { Link.reset with down := some .reset } && (t.entry 3).state == .faulted && !(t.entry 7).live &&
        (t.engine 0) == .reset && t.cardPort.notices.fault == some (mask [3]) && t.cardPort.notices.link == some 1) = true := by
  decide +kernel

/-- R19, R81, R97: a run that drains for RETIRE becomes RETIRED as its link goes DOWN, with no FENCE and its position zeroed. -/
theorem test_reset_notice_retires :
    nextIs (exec (.resetNotice 0) (draining .retire)) (fun t =>
      (t.entry 3).state == .retired && (t.entry 3).run.position == .zero && (t.link 0).sent == [] && t.engine 0 == .reset &&
        t.cardPort.notices.verdict == some (mask [3])) = true := by
  decide +kernel

/-- R112, R115: an ABANDONED instance's answer is provisional; section 6.7, event 5: a repeated pull merges. -/
theorem test_pull :
    (nextIs (exec (.pull 0 9) (one .abandoned)) (fun t =>
      (t.link 0).sent == [.mapOffer 9 .abandoned true (some [])]) &&
    nextIs (exec (.pull 0 9) ((one .defined).modLink 0 fun k => { k with pulls := [3] })) (fun t =>
      (t.link 0).sent == [] && (t.link 0).pulls == [3])) = true := by
  decide +kernel

theorem test_in_service :
    (nextIs (exec (.inService 0 9) (one .clean)) (fun t => (t.entry 3).live) &&
    nextIs (exec (.inService 0 9) (one .defined)) (fun t => (t.link 0).sent == [.reject 9 .wrongState])) = true := by
  decide +kernel

theorem test_out_of_service :
    (nextIs (exec (.outOfService 0 9) ((one .clean).modEntry 3 fun e => { e with live := true })) (fun t => !(t.entry 3).live) &&
    nextIs (exec (.outOfService 0 8) (one .clean)) (fun t => (t.link 0).sent == [.reject 8 .unknown])) = true := by
  decide +kernel

/-- Section 2.2.2, rows 4 and 9. -/
theorem test_device_guard :
    (nextIs (exec (.deviceGuard 0 20 600 600 true) (guardedInst [⟨100, 250⟩, ⟨400, 499⟩])) (fun t =>
      (t.entry 20).guards == [⟨100, 250⟩, ⟨400, 499⟩, ⟨600, 600⟩] && (t.link 0).sent == []) &&
    nextIs (exec (.deviceGuard 0 20 650 850 false) (guardedInst [⟨600, 600⟩, ⟨800, 900⟩])) (fun t =>
      (t.entry 20).guards == [⟨600, 600⟩, ⟨851, 900⟩])) = true := by
  decide +kernel

/-- R105: a message code that no device sends; a good message is none of this. -/
theorem test_malformed :
    (nextIs (exec (.malformed 0 [9]) base) (fun t => (t.link 0).down == some .malformed) &&
    nextIs (exec (.malformed 0 [19]) base) (fun t => (t.link 0).down == none)) = true := by
  decide +kernel

/-! ### The pin, the Time Base and the part's own steps -/

/-- Section 10.7, step 6. -/
theorem test_part_reset :
    nextIs (exec (.partReset 3) committing) (fun t =>
      t.chassisAddress == 59 && t.storeOp == none && storeOutcome (t.storeSection 4) d9 == .storeLost) = true := by
  decide +kernel

theorem test_wrap :
    nextIs (exec .wrap { base with now := 16777215 }) (fun t => t.now == 0 && t.cardPort.notices.wrap && t.chassisPort.notices.wrap) =
      true := by
  decide +kernel

theorem test_time_base_advance :
    (nextIs (exec .timeBaseAdvance base) (fun t => t.now == 5001) &&
    nextIs (exec .timeBaseAdvance { parked with cardDeadline := some 5000 }) (fun t =>
      t.now == 5001 && t.cardDeadline == none && (t.entry 3).state == .analysing && t.parking == []) &&
    nextIs (exec .timeBaseAdvance { base with now := 16777215 }) (fun t => t.now == 16777215)) = true := by
  decide +kernel

/-- R5, R15: an expiry reaches a DEFINED instance, which becomes UNTESTED. -/
theorem test_deadline_expiry :
    nextIs (exec (.deadlineExpiry .card) { one .defined with cardDeadline := some 5000 }) (fun t =>
      (t.entry 3).state == .analysing && (t.entry 3).flags.untested && t.analysisQueue == [⟨3, false⟩] &&
        t.cardDeadline == none && t.cardPort.notices.deadline == some ⟨true, false⟩) = true := by
  decide +kernel

theorem test_wake :
    nextIs (exec (.wake 3) parked) (fun t =>
      t.parking == [] && t.workQueue == [⟨3, 0, .wake, .part, 5000, none⟩] && (t.entry 3).state == .queued) = true := by
  decide +kernel

/-- Section 6.7, the timeout of the first variation: at the issue stamp plus 50, not before. -/
theorem test_burst_timeout :
    (nextIs (exec (.burstTimeout 0) { walking with now := 5040 }) (fun t => (t.link 0).down == some .timeout) &&
    nextIs (exec (.burstTimeout 0) { walking with now := 5039 }) (fun t => (t.link 0).down == none)) = true := by
  decide +kernel

theorem test_load_timeout :
    nextIs (exec (.loadTimeout 0) { loading with now := 5040 }) (fun t =>
      (t.link 0).down == some .timeout && (t.entry 3).state == .faulted) = true := by
  decide +kernel

/-- R67, R82: a dispatch sends the map and takes a slot. -/
theorem test_dispatch :
    nextIs (exec .dispatch (queued .normal)) (fun t =>
      (t.engine 0).state == .loading && (t.entry 3).state == .running && (t.entry 3).startStamp == some 5000 &&
        (t.link 0).sent == [.mapLoad 9 []] && (t.link 0).slots == [.running 3] && t.workQueue == []) = true := by
  decide +kernel

/-- The engines of section 4.11, each with a burst in flight: instance, link, priority class, state, stamp, preemptible. -/
def busyEngine (s : State) (e : Fin 6) (i : Fin 64) (l : Fin 4) (c : Nat) (st : EngineState) (t : Time) (p : Bool) : State :=
  ((s.setEntry i { inst { desc l i.val.toUInt8.toFin 8 64 with priority := c } .running with owner := .card }).setEngine e
    { Engine.reset with
      state := st, current := some i, position := some ⟨0, 0, 0, .inElement⟩, inFlight := [⟨0, 0, 0, 0, false⟩],
      dispatchStamp := some t, preemptible := p }).modLink l fun k => { k with slots := k.slots ++ [.running i] }

/-- Section 4.11 at time 2,000, with some entries waiting. -/
def fullLink (w : List QueueEntry) : State :=
  let a := busyEngine (busyEngine { base with now := 2000, workQueue := w } 0 4 0 1 .walking 1000 true) 1 5 0 3 .walking 1200 true
  let b := busyEngine (busyEngine a 2 6 0 3 .walking 1500 true) 3 10 1 3 .walking 1600 false
  let c := busyEngine (busyEngine b 4 11 1 2 .walking 1700 false) 5 20 2 3 .loading 1800 true
  (c.setEntry 8 (inst { desc 0 8 8 64 with priority := 0 } .queued)).setEntry 21 (inst (desc 2 21 8 64) .queued)

/-- Section 4.11, steps 1 and 2: the victims are TE2 (no slot taken yet) and TE5 (a free slot taken at once). -/
theorem test_preemption :
    (nextIs (exec .preemption (fullLink [⟨8, 0, .urgent, .card, 2000, none⟩])) (fun t =>
      t.workQueue == [⟨8, 0, .urgent, .card, 2000, some 2⟩] && (t.engine 2).drainReason == some .preempt &&
        (t.link 0).slots.length == 3) &&
    nextIs (exec .preemption (fullLink [⟨21, 0, .urgent, .card, 2000, none⟩])) (fun t =>
      t.workQueue == [⟨21, 0, .urgent, .card, 2000, some 5⟩] && (t.engine 5).state == .draining &&
        (t.link 2).slots == [.running 20, .reserved 21])) = true := by
  decide +kernel

/-- R73: a run suspended inside an element goes on; one suspended before its load completed loads again. -/
theorem test_resume :
    (nextIs (exec (.resume 0) (suspended .inElement)) (fun t =>
      (t.engine 0).state == .walking && (t.engine 0).position == some ⟨0, 1, 0, .inElement⟩ && (t.engine 0).stack == [] &&
        (t.entry 3).suspending == none) &&
    nextIs (exec (.resume 0) (suspended .loadPending)) (fun t =>
      (t.engine 0).state == .loading && (t.link 0).sent == [.mapLoad 9 []])) = true := by
  decide +kernel

/-- Section 5.7, element 0 at (0, 1): row 1 is guarded and passed. -/
theorem test_burst_issue :
    nextIs
      (exec (.burstIssue 0)
        ((running .walking ⟨0, 0, 1, .inElement⟩).modEntry 3 fun e => { e with guards := [⟨1, 1⟩] }))
      (fun t =>
        (t.link 0).sent == [.burst 0 9 0 64 36 [.write] .solid false] && (t.engine 0).position == some ⟨0, 2, 0, .inElement⟩ &&
          (t.link 0).tags == [⟨0, 0, 5000⟩]) = true := by
  decide +kernel

/-- Section 5.7, element 1 in the guarded row 1: the read alone, as a read-check. -/
theorem test_burst_issue_guarded :
    nextIs
      (exec (.burstIssue 0)
        ((running .walking ⟨1, 1, 0, .inElement⟩).modEntry 3 fun e => { e with guards := [⟨1, 1⟩] }))
      (fun t => (t.link 0).sent == [.burst 0 9 1 0 64 [.read] .solid true]) = true := by
  decide +kernel

/-- Section 5.7: element 2 begins at row 2, chunk 1; after it the run completes. -/
theorem test_element_end :
    (nextIs (exec (.elementEnd 0) (running .walking ⟨1, 2, 1, .elementEnd⟩)) (fun t =>
      (t.engine 0).position == some ⟨2, 2, 1, .inElement⟩) &&
    nextIs (exec (.elementEnd 0) (running .walking ⟨2, 0, 0, .elementEnd⟩)) (fun t =>
      (t.engine 0) == .reset && (t.entry 3).state == .analysing && !(t.entry 3).flags.partialRun &&
        (t.link 0).slots == [] && t.analysisQueue == [⟨3, true⟩])) = true := by
  decide +kernel

/-- Section 4.11, step 3: TE2's drain ends, and it takes the reserved entry with the slot just given up. -/
theorem test_drain_end :
    nextIs
      (exec (.drainEnd 2)
        ((fullLink [⟨8, 0, .urgent, .card, 2000, some 2⟩]).modEngine 2 fun en =>
          { en with state := .draining, drainReason := some .preempt, inFlight := [] }))
      (fun t =>
        (t.engine 2).current == some 8 && (t.engine 2).stack == [6] && !(t.engine 2).preemptible &&
          (t.entry 6).state == .suspended && (t.entry 6).suspending == some 2 && (t.entry 8).run.runClass == some .urgent &&
          (t.link 0).slots == [.running 4, .running 5, .running 8]) = true := by
  decide +kernel

theorem test_analysis_begin :
    nextIs (exec .analysisBegin { analysed with analysing := false }) (fun t => t.analysing) = true := by
  decide +kernel

/-- Instance 22 of section 8.9, with a map, spares, a log and a run count. -/
def verified (m : List RepairRecord) (rows cols : List SpareState) (log : List FailRecord) (n : Nat) : State :=
  { base with analysisQueue := [⟨22, true⟩], analysing := true }.setEntry 22
    { inst { desc 2 5 512 128 with spareRows := 4 } .analysing with
      repairMap := m, rowSpares := rows, columnSpares := cols, failLog := log, guards := [⟨295, 305⟩]
      run := ⟨some 1, some .verify, n, .zero⟩ }

/-- Section 8.9, the map after the first analysis. -/
def firstMap : List RepairRecord :=
  [⟨.row, 40, 1, .found, false, false⟩, ⟨.row, 300, 2, .found, false, true⟩, ⟨.row, 105, 3, .found, false, false⟩,
    ⟨.column, 61, 0, .found, false, true⟩]

/-- Section 8.9, the first analysis. -/
theorem test_analysis_complete :
    nextIs
      (exec .analysisComplete
        (verified [⟨.row, 40, 0, .stored, false, false⟩] [.used, .free, .free, .free] [.free, .free]
          [{ cell 40 7 with attribution := .spareRow 0 }, ⟨.rowLine 300, none, 3, 100, 1, .uncovered, some true⟩, cell 105 60,
            cell 220 61] 1))
      (fun t =>
        (t.entry 22).repairMap == firstMap && (t.entry 22).rowSpares == [.bad, .used, .used, .used] &&
          (t.entry 22).columnSpares == [.used, .free] && t.workQueue == [⟨22, 1, .verify, .part, 5000, none⟩]) = true := by
  decide +kernel

/-- Section 8.9, the second analysis. -/
theorem test_analysis_complete_spares :
    nextIs
      (exec .analysisComplete
        ((verified firstMap [.bad, .used, .used, .used] [.used, .free] [{ cell 300 12 with attribution := .spareRow 2 }] 2).modLink
          2 fun k => { k with pulls := [22] }))
      (fun t =>
        (t.entry 22).state == .unrepairable && (t.entry 22).reason == .spares &&
          (t.entry 22).repairMap == [⟨.row, 40, 1, .found, false, false⟩, ⟨.row, 105, 3, .found, false, false⟩,
            ⟨.column, 61, 0, .found, false, true⟩] &&
          (t.link 2).sent == [.mapOffer 5 .unrepairable false none, .fence 5] && (t.link 2).pulls == []) = true := by
  decide +kernel

/-- R61, R148: a follow-up taken at settling begins a job without a verdict reason; STATUS shows the settled job's until its dispatch. -/
theorem test_status_after_settling :
    nextIs
      (exec .analysisComplete
        ((analysed.modEntry 3 fun e =>
            { e with
              flags := { e.flags with partialRun := true }, reason := .stop, followUp := some ⟨1, .normal, .card⟩ })))
      (fun t =>
        (t.entry 3).state == .queued && (t.entry 3).reason == .none &&
          nextIs (exec (.status .card 3) t) (fun u =>
            match u.cardPort.response with
            | some ⟨_, .ok, .status r⟩ => r.reason == .stop && r.endStamp == some 5000
            | _ => false) &&
          nextIs (exec .dispatch t) (fun d => nextIs (exec (.status .card 3) d) (fun u =>
            match u.cardPort.response with
            | some ⟨_, .ok, .status r⟩ => r.reason == .none && r.endStamp == none
            | _ => false))) = true := by
  decide +kernel

/-- Section 10.7, steps 3 and the variation's failed read-back. -/
theorem test_commit_write_end :
    (nextIs (exec (.commitWriteEnd true) committing) (fun t =>
      t.storeSection 4 == ⟨some ⟨7, [⟨.row, 88, 0⟩]⟩, true⟩ && t.storeOp == some ⟨.commit, ⟨7, some ⟨7, []⟩⟩, [], 0⟩) &&
    nextIs (exec (.commitWriteEnd false) { committing with storeOp := some ⟨.commit, ⟨7, some ⟨7, []⟩⟩, [], 0⟩ }) (fun t =>
      t.storeOp == none && t.chassisPort.notices.store == some (mask [7]))) = true := by
  decide +kernel

theorem test_clear_write_end :
    nextIs (exec (.clearWriteEnd true) { committing with storeOp := some ⟨.clear, ⟨4, none⟩, [], 0⟩ }) (fun t =>
      t.storeSection 4 == .blank && t.storeOp == none && t.cardPort.notices.store == some 0) = true := by
  decide +kernel

/-! ### Fail Capture (section 7.6) -/

/-- Section 7.6: what Fail Capture reads, and the fails 1 to 11 as (time, ordinal, row, column, first bit). -/
def collapseFails : List (Time × Nat × Nat × Nat × Nat) :=
  [(100, 1, 10, 77, 15), (100, 1, 10, 130, 3), (105, 1, 10, 200, 0), (110, 1, 10, 130, 3), (120, 3, 500, 40, 7),
    (130, 3, 600, 40, 7), (140, 3, 700, 40, 7), (150, 3, 800, 41, 2), (150, 3, 800, 42, 2), (160, 3, 900, 5, 30)] ++
  [(160, 3, 900, 6, 30)]

/-- The fails placed one after the other, with the last cut short. -/
def placeFails (l : List (Time × Nat × Nat × Nat × Nat)) : Placed :=
  l.foldl
    (fun p f =>
      placeFail ⟨f.1, f.2.1, [], 2, 1⟩ p.log p.pool
        ⟨f.2.2.1, f.2.2.2.1, some ⟨f.2.2.2.2, 1⟩,
          attributionOf [⟨.column, 77, 0, .stored, false, false⟩] f.2.2.1 f.2.2.2.1⟩)
    ⟨[], 1024, none⟩

/-- Section 7.6: the log after fail 11, and SPARES with it alone. -/
theorem test_collapse :
    (placeFails collapseFails).log.map FailRecord.place =
      [.cell 10 77, .rowLine 10, .columnLine 40, .rowLine 800, .rowLine 900] ∧
    (placeFails collapseFails).log.map FailRecord.hits = [1, 3, 3, 2, 2] ∧
    (placeFails collapseFails).log.map FailRecord.firstSeen = [100, 100, 120, 150, 160] ∧
    (placeFails collapseFails).pool = 1019 ∧ (placeFails collapseFails).cut = some .spares ∧
    (placeFails (collapseFails.take 10)).cut = none := by
  decide +kernel

/-! ### Witnesses: for every statement with hypotheses, a state and operands that meet them

Each theorem names the statement's operands as concrete terms and shows the hypotheses of each clause. -/

theorem witness_StepRunsFrontCommand : { base with pending := [.wrap, .dispatch] }.pending = .wrap :: [.dispatch] := rfl

theorem witness_EmptyQueueIdles : State.reset.pending = [] := rfl

/-- The sections 5 of a part with no store operation, and 5 and 7 of one that writes section 4. -/
theorem witness_PartResetInstances :
    (∀ op, base.storeOp = some op → op.writing.index ≠ 5) ∧ ∀ op, committing.storeOp = some op → op.writing.index ≠ 5 := by
  refine ⟨nofun, ?_⟩
  rintro op ⟨⟩
  decide

theorem witness_PartResetDuringStoreOperation : ∃ op, committing.storeOp = some op ∧ (5 : Fin 64) ≠ op.writing.index :=
  ⟨_, rfl, by decide⟩

/-- A bad mask, a bad mode at its boundary, and the two good modes. -/
theorem witness_ClaimTakesFreeInstances :
    ((0 : Mask) = 0 ∨ 1 < 0) ∧ (mask [0] = 0 ∨ 1 < 2) ∧ (mask [0, 63] ≠ 0 ∧ 0 ≤ 1) ∧ (mask [0, 63] ≠ 0 ∧ 1 ≤ 1) := by
  decide +kernel

theorem witness_BreakTakesForChassis : (0 : Mask) = 0 ∧ mask [63] ≠ 0 := by decide +kernel

theorem witness_OnlyClaimsChangeOwners :
    (∃ t, exec .dispatch (queued .normal) = .next t) ∧ (∀ p m k, Instr.dispatch ≠ .claim p m k) ∧
      (∀ p m, Instr.dispatch ≠ .release p m) ∧ (∀ p m, Instr.dispatch ≠ .breakClaim p m) ∧ ∀ n, Instr.dispatch ≠ .partReset n :=
  ⟨⟨_, rfl⟩, nofun, nofun, nofun, nofun⟩

/-- Three ranges, to which GUARD adds one and UNGUARD, splitting one, another: four at the last row of the memory. -/
theorem witness_GuardAndUnguardChangeRows :
    let e := (guardedInst [⟨0, 0⟩, ⟨10, 20⟩, ⟨4000, 4000⟩]).entry 20
    e.owner = .card ∧ e.descriptor = some (desc 0 20 4096 64) ∧ e.state ≠ .vacant ∧ e.state.busy = false ∧ 4095 ≤ 4095 ∧
      4095 < (desc 0 20 4096 64).rows ∧ (rangesFrom 4096 0 e.guards ∧ e.guards.length ≤ 4) ∧
      (addRange e.guards ⟨4095, 4095⟩).length ≤ 4 ∧ (removeRange e.guards 15 15).length = 4 := by
  simp only [rangesFrom, guardedInst, State.entry_setEntry, if_true]
  decide +kernel

/-- The device's GUARD by memory id 20: taken, BUSY, BAD_RANGE at either boundary, GUARD_FULL by one range; and an id that names none. -/
theorem witness_DeviceGuardChangesRows :
    (let s := guardedInst [⟨10, 20⟩]
     let e := s.entry 20
     s.linkUp 0 = true ∧ (∀ i, ¬s.namedBy 0 21 i) ∧ s.names 0 20 20 ∧ e.descriptor = some (desc 0 20 4096 64) ∧
      e.state.busy = false ∧ (0 ≤ 4095 ∧ 4095 < (desc 0 20 4096 64).rows) ∧ (2 < 3 ∧ (desc 0 20 4096 64).rows ≤ 4096) ∧
      (rangesFrom 4096 0 e.guards ∧ e.guards.length ≤ 4) ∧ (addRange e.guards ⟨0, 4095⟩).length ≤ 4 ∧
      (removeRange e.guards 12 12).length ≤ 4) ∧
    (let s := one .parked
     s.linkUp 0 = true ∧ s.names 0 9 3 ∧ (s.entry 3).descriptor = some d9 ∧ (s.entry 3).state.busy = true) ∧
    (let gs : List GuardRange := [⟨0, 0⟩, ⟨2, 2⟩, ⟨4, 6⟩, ⟨8, 8⟩]
     (guardedInst gs).names 0 20 20 ∧ 4 < (addRange gs ⟨4095, 4095⟩).length ∧ 4 < (removeRange gs 5 5).length) := by
  simp only [← lookup_eq_none, ← lookup_eq_some, rangesFrom, guardedInst, State.entry_setEntry, if_true]
  decide +kernel

/-- The part after reset with one command waiting. -/
def front (c : Instr) : State := { State.reset with pending := [c] }

/-- The invariant states, each with a command in front whose step gives a next state. -/
theorem witness_StepKeepsGuardsSound :
    (front (.partReset 0)).GuardsSound ∧ ∃ t, step (front (.partReset 0)) = .next t := by
  refine ⟨fun i => ?_, ⟨_, rfl⟩⟩
  have h : (front (.partReset 0)).entry i = .reset := by revert i; decide +kernel
  rw [h]
  rfl

theorem witness_StepKeepsBuiltInLibrary :
    (front .wrap).LibraryFixed ∧ ∃ t, step (front .wrap) = .next t :=
  ⟨⟨fun _ _ => rfl, fun _ _ => rfl⟩, ⟨_, rfl⟩⟩

theorem witness_StepKeepsFailRecordsAccounted :
    (front .wrap).PoolSound ∧ ∃ t, step (front .wrap) = .next t := by
  refine ⟨?_, ⟨_, rfl⟩⟩
  simp only [State.PoolSound, State.logTotal]
  decide +kernel

/-- A compare 600,000 ms ahead. -/
theorem witness_StepKeepsDeadlinesWithinReach :
    let s := { State.reset with cardDeadline := some 600000, pending := [.timeBaseAdvance] }
    s.DeadlinesSound ∧ ∃ t, step s = .next t := by
  refine ⟨fun d v h => ?_, ⟨_, rfl⟩⟩
  cases d
  · obtain rfl : 600000 = v := by simpa [State.deadline] using h
    decide +kernel
  · simp [State.deadline, State.reset] at h

theorem witness_StepKeepsClaimLostOnCard :
    (front (.breakClaim .chassis 1)).LostOnCardOnly ∧
      ∃ t, step (front (.breakClaim .chassis 1)) = .next t :=
  ⟨rfl, ⟨_, rfl⟩⟩

/-! #### The library -/

/-- A part without a job references nothing. -/
theorem vacant_holds_none (s : State) (h : ∀ i, (s.entry i).state = .vacant) :
    (∀ i q, ¬s.holdsSequence i q) ∧ ∀ i k, ¬s.holdsRecord i k := by
  have key : ∀ i q, ¬s.holdsSequence i q := fun i q hq => by
    have := hq.1
    rw [h i] at this
    simp at this
  exact ⟨key, fun i k ⟨q, _, hq, _⟩ => key i q hq⟩

/-- Sixteen element records from index 33, one of every kind with its fields at their boundaries at index 255; eight directory records from 6,
one at 31, one that names no kind; and a library that nothing references. -/
theorem witness_LoadsWriteTheLibrary :
    let rs := List.replicate 16 rawElement
    let last : List RawElement := [⟨0, 1, 6, [0, 1, 2, 3, 3, 3], 4, 143, 0, 15, 60000⟩]
    let hold : List RawElement := [⟨1, 9, 9, [9], 9, 200, 10000, 11, 65535⟩]
    let ds : List RawDirectoryEntry := List.replicate 8 ⟨255, 1, 7⟩
    let empty : List RawDirectoryEntry := [⟨255, 255, 248⟩]
    (1 ≤ rs.length ∧ rs.length ≤ 16 ∧ 33 ≤ 33 ∧ 33 + rs.length ≤ 256 ∧ ∀ r ∈ rs, legalElement r) ∧
    (255 + last.length ≤ 256 ∧ (∀ r ∈ last, legalElement r) ∧ ∀ r ∈ hold, legalElement r) ∧
    (1 ≤ ds.length ∧ ds.length ≤ 8 ∧ 6 ≤ 6 ∧ 6 + ds.length ≤ 32 ∧ ∀ r ∈ ds, legalDirectoryEntry r) ∧
    (31 + empty.length ≤ 32 ∧ ∀ r ∈ empty, legalDirectoryEntry r) ∧
    (∀ i q, ¬base.holdsSequence i q) ∧ ∀ i k, ¬base.holdsRecord i k := by
  have h := vacant_holds_none base (by decide +kernel)
  refine ⟨?_, ?_, ?_, ?_, h.1, h.2⟩ <;> simp only [legalElement, legalDirectoryEntry, namesNoKind] <;> decide +kernel

/-- Instance 3 is QUEUED for sequence 6, whose one element is 255. -/
def busyLibrary : State :=
  { (queued .normal).modEntry 3 fun e => { e with run := { e.run with jobSequence := some 6 } } with
    directory := State.reset.directory.set 6 (some ⟨255, 1, .all⟩) }

theorem witness_BusyLibraryRefusesLoads :
    ([rawElement].length ≤ 16 ∧ 33 ≤ 255 ∧ 255 + [rawElement].length ≤ 256 ∧ (∀ r ∈ [rawElement], legalElement r) ∧
      busyLibrary.holdsRecord 3 255) ∧
    ([(⟨255, 1, 7⟩ : RawDirectoryEntry)].length ≤ 8 ∧ 6 ≤ 6 ∧ 6 + 1 ≤ 32 ∧
      (∀ r ∈ [(⟨255, 1, 7⟩ : RawDirectoryEntry)], legalDirectoryEntry r) ∧ busyLibrary.holdsSequence 3 6) := by
  simp only [← holdsElement_iff, ← mem_heldSequences, legalElement, legalDirectoryEntry, namesNoKind]
  decide +kernel

/-! #### Ports -/

/-- A request that is refused and one that is not. -/
theorem witness_RequestsAnsweredOrRefused :
    requestKindOf (.cap .card 5) = some (.card, .cap) ∧ refusedBy (base.refusals (.cap .card 5)) .privilege ∧
      requestKindOf (.cap .chassis 600000) = some (.chassis, .cap) ∧
      ∀ st, ¬refusedBy (base.refusals (.cap .chassis 600000)) st := by
  refine ⟨rfl, .inl ⟨rfl, rfl⟩, rfl, fun st h => ?_⟩
  simp [State.refusals, refusedBy] at h

/-- A read transfer; a frame one byte short; an unknown code; a payload of a wrong length; a good frame. -/
theorem witness_BadFramesAreRefused :
    ([] : List Byte).headD 0 = 0 ∧ ¬(5 ≤ [99, 0, 0, (0 : Byte)].length) ∧
    (let bs : List Byte := [9, 0, 0] ++ crcBytes [9, 0, 0]
     5 ≤ bs.length ∧ bs.length = numberOf ((bs.drop 1).take 2) + 5 ∧
       (crc16 (bs.take (bs.length - 2))).toNat = numberOf (bs.drop (bs.length - 2)) ∧ requestOf (bs.headD 0) = none) ∧
    (let bs := requestFrame .stop []
     5 ≤ bs.length ∧ bs.length = numberOf ((bs.drop 1).take 2) + 5 ∧
       (crc16 (bs.take (bs.length - 2))).toNat = numberOf (bs.drop (bs.length - 2)) ∧
       requestOf (bs.headD 0) = some .stop ∧ admits .stop ((bs.drop 3).take 0) = false) ∧
    (let bs := requestFrame .time []
     requestOf (bs.headD 0) = some .time ∧ admits .time ((bs.drop 3).take 0) = true) := by
  decide +kernel

theorem witness_FramesCarryEveryRequest :
    requestKindOf (.define .card 255 raw) = some (.card, .define) ∧ (Instr.define .card 255 raw).wf = true := by
  decide +kernel

/-- A RUNNING instance on TE0, one that is not RUNNING, and one whose new job waits for its first dispatch. -/
theorem witness_InstanceReadsReport :
    (walking.entry 3).state = .running ∧ walking.engineOf 3 = some 0 ∧
      (walking.engine 0).position = some ⟨1, 1, 1, .inElement⟩ ∧ ((one .clean).entry 3).state ≠ .running ∧
      (((queued .normal).modEntry 3 fun e => { e with run := { e.run with runCount := 0 } }).entry 3).run.runCount = 0 := by
  decide +kernel

/-- Element ranges at their boundaries, and a library with a referenced entry and element. -/
theorem witness_PartReadsReport : (1 ≤ 16 ∧ 16 ≤ 16 ∧ 240 + 16 ≤ 256) ∧ (1 ≤ 1 ∧ 1 ≤ 16 ∧ 255 + 1 ≤ 256) := by decide

theorem witness_TakeNoticeRemovesItsKind :
    ((0 : Nat) = 0 ∨ 7 < 0) ∧ ((8 : Nat) = 0 ∨ 7 < 8) ∧ NoticeKind.store.code = 7 ∧ NoticeKind.verdict.code = 1 ∧
      (base.cardPort.notices.get .store = none) ∧ base.LostOnCardOnly ∧ (gathering.port .card).notices.get .link ≠ none := by
  simp only [State.LostOnCardOnly]
  decide +kernel

/-! #### The life cycle -/

/-- Instance 3 FAULTED with a pull pending on the UP link 1 under memory id 4, and a section of signature 7 for it. -/
def redefined (c : StoreSection) : State :=
  ((base.setEntry 3 (inst (desc 1 4 3 100) .faulted)).modLink 1 fun k => { k with pulls := [3] }).setSection 3 c

theorem runnable_quick (s : State) (h : s.directoryEntry 0 = some ⟨0, 3, .all⟩) (k : MemKind) : s.runnable 0 k :=
  ⟨0, _, rfl, h, by cases k <;> rfl⟩

/-- The checks of DEFINE for instance 3 hold, and the pending pull's link and memory id change. -/
theorem witness_DefineResetsTheEntry :
    let s := redefined .blank
    (s.entry 3).owner = .card ∧ (s.entry 3).state.busy = false ∧ (s.entry 3).live = false ∧ legalDescriptor raw ∧
      (∃ k, memKindOf raw.kind = some k ∧ s.runnable raw.defaultSequence k) ∧
      (∀ j, j ≠ 3 → (s.entry j).state ≠ .vacant → ∀ x, (s.entry j).descriptor = some x →
        ¬(x.link.val = raw.link ∧ x.memId.val = raw.memId)) ∧
      (s.entry 3).descriptor = some (desc 1 4 3 100) ∧ 3 ∈ (s.link 1).pulls ∧ s.linkUp 1 = true ∧
      ¬((desc 1 4 3 100).link = d9.link ∧ (desc 1 4 3 100).memId = d9.memId) := by
  refine ⟨by decide +kernel, by decide +kernel, by decide +kernel, by simp only [legalDescriptor]; decide, ?_, ?_,
    by decide +kernel, by decide +kernel, by decide +kernel, by decide⟩
  · exact ⟨.sram, rfl, runnable_quick _ (by decide +kernel) _⟩
  · intro j hj hv
    exact absurd ((by decide +kernel : ∀ j, j ≠ 3 → ((redefined .blank).entry j).state = .vacant) j hj) hv

/-- Sections: check-failed; EMPTY; unfit (a line at the number of rows, a spare used twice); of another signature; matched. -/
theorem witness_DefineLoadsTheSection :
    let written (sig : Nat) (rs : List StoredRecord) : StoreSection := ⟨some ⟨sig, rs⟩, true⟩
    ((redefined ⟨none, false⟩).storeSection 3).intact = false ∧
    ((redefined .blank).storeSection 3 = ⟨none, true⟩) ∧
    (redefined (written 7 [⟨.row, 3, 0⟩])).storeSection 3 = written 7 [⟨.row, 3, 0⟩] ∧ ¬(3 < raw.rows) ∧
    (redefined (written 7 [⟨.row, 1, 0⟩, ⟨.row, 2, 0⟩])).storeSection 3 = written 7 [⟨.row, 1, 0⟩, ⟨.row, 2, 0⟩] ∧
    ((redefined (written 8 [⟨.row, 2, 1⟩])).storeSection 3 = written 8 [⟨.row, 2, 1⟩] ∧ 8 ≠ raw.signature) ∧
    (redefined (written 7 [⟨.row, 2, 1⟩, ⟨.column, 99, 0⟩])).storeSection 3 = written 7 [⟨.row, 2, 1⟩, ⟨.column, 99, 0⟩] ∧
      (7 = raw.signature ∧ 2 < raw.rows ∧ 1 < raw.spareRows ∧ 99 < raw.columns ∧ 0 < raw.spareColumns) := by
  decide +kernel

/-- Instance 3 SUSPENDED on TE0, which runs instance 4. -/
def suspendedBehind : State :=
  ((base.setEntry 3 { inst d9 .suspended with suspending := some 0 }).setEntry 4 (inst (desc 0 10 3 100) .running)).setEngine 0
    { Engine.reset with state := .walking, current := some 4, position := some ⟨0, 0, 0, .inElement⟩, stack := [3] }

/-- RETIRE of a QUEUED instance by its owner; of one SUSPENDED behind a run; and of the top of a stack whose engine waits. -/
theorem witness_RetireWithoutRunIsAtOnce :
    (let e := (queued .normal).entry 3
     e.owner = .card ∧ e.live = false ∧ e.descriptor = some d9 ∧ e.state ≠ .vacant ∧ e.state ≠ .running ∧ e.suspending = none) ∧
    (let e := suspendedBehind.entry 3
     e.descriptor = some d9 ∧ e.state = .suspended ∧ e.suspending = some 0 ∧ (suspendedBehind.engine 0).hasRun) ∧
    (let s := suspended .inElement
     (s.entry 3).owner = .card ∧ (s.entry 3).live = false ∧ (s.entry 3).descriptor = some d9 ∧ (s.entry 3).state = .suspended ∧
       (s.entry 3).suspending = some 0 ∧ (s.engine 0).state = .waitingSlot ∧ ∀ q ∈ s.workQueue, q.inst ≠ 3) := by
  simp only [Engine.hasRun]
  decide +kernel

/-- TE0 runs instance 3 with a burst in flight; with nothing outstanding; and drains for RETIRE. -/
theorem witness_RequalifyResetsInstances :
    (∀ s ∈ [walking, running .walking ⟨1, 1, 1, .inElement⟩, draining .retire],
      (∀ i, (s.entry i).state = .running → ∃ e, s.engineOf i = some e) ∧
        ∀ i, (s.entry i).state ≠ .vacant → ∃ d, (s.entry i).descriptor = some d) ∧
    (walking.engine 0).endsNow = false ∧ ((running .walking ⟨1, 1, 1, .inElement⟩).engine 0).endsNow = true := by
  simp only [← Option.isSome_iff_exists]
  decide +kernel

/-! #### TEST and STOP -/

theorem witness_TestBeginsNewJob :
    let s := one .unrepairable
    (s.entry 3).owner = portOwner .card ∧ (s.entry 3).descriptor = some d9 ∧
      ((s.entry 3).state = .defined ∨ (s.entry 3).state.usable = true ∨ (s.entry 3).state = .unrepairable) ∧
      (s.entry 3).live = false ∧ ((0 : Fin 32).val = (none : Option Nat).getD d9.defaultSequence.val) ∧ s.runnable 0 d9.kind ∧
      s.linkUp d9.link = true :=
  ⟨by decide +kernel, by decide +kernel, by decide +kernel, by decide +kernel, rfl, runnable_quick _ (by decide +kernel) _,
    by decide +kernel⟩

/-- A NORMAL entry into which a TEST merges; a VERIFY entry, and a run, beside which it becomes the follow-up. -/
theorem witness_TestOfBusyInstance :
    (((queued .normal).entry 3).owner = portOwner .card ∧ ((queued .normal).entry 3).descriptor = some d9 ∧
      ((queued .normal).entry 3).state.busy = true ∧ ((queued .normal).entry 3).live = false ∧
      (queued .normal).linkUp d9.link = true) ∧
    (queued .normal).runnable 0 d9.kind ∧ (queued .normal).queueEntry 3 = some (entry 3 .normal) ∧
    (queued .verify).queueEntry 3 = some (entry 3 .verify) ∧ (walking.entry 3).state ≠ .queued ∧
    ((walking.entry 3).state.busy = true ∧ (walking.entry 3).owner = portOwner .card) :=
  ⟨by decide +kernel, runnable_quick _ (by decide +kernel) _, by decide +kernel, by decide +kernel, by decide +kernel,
    by decide +kernel⟩

/-- A QUEUED, a SUSPENDED and a PARKED instance; and the top of a stack whose engine waits. -/
theorem witness_StopCutsShortWaitingJob :
    (((queued .wake).entry 3).owner = portOwner .card ∧ ((queued .wake).entry 3).state = .queued ∧
      ((queued .wake).entry 3).suspending = none) ∧
    ((suspendedBehind.entry 3).state = .suspended ∧ (suspendedBehind.entry 3).suspending = some 0 ∧
      (suspendedBehind.engine 0).hasRun) ∧
    ((parked.entry 3).owner = portOwner .card ∧ (parked.entry 3).state = .parked) ∧
    (((suspended .inElement).entry 3).state = .suspended ∧ ((suspended .inElement).entry 3).suspending = some 0 ∧
      ((suspended .inElement).engine 0).state = .waitingSlot) := by
  simp only [Engine.hasRun]
  decide +kernel

/-- A run with a burst in flight, one with nothing outstanding, and an ANALYSING instance. -/
theorem witness_StopAndRetireDrainRuns :
    ((walking.entry 3).state = .running ∧ walking.engineOf 3 = some 0 ∧ (walking.engine 0).endsNow = false ∧
      (walking.entry 3).owner = portOwner .card ∧ (walking.entry 3).live = false) ∧
    (let s := running .walking ⟨1, 1, 1, .inElement⟩
     (s.entry 3).state = .running ∧ s.engineOf 3 = some 0 ∧ (s.engine 0).endsNow = true ∧ (s.entry 3).owner = portOwner .card ∧
       (s.entry 3).live = false) ∧
    ((analysed.entry 3).state = .analysing ∧ (analysed.entry 3).owner = portOwner .card) := by
  decide +kernel

theorem witness_DrainRequestsFollowTheirReasons :
    (walking.engine 0).state = .walking ∧ (loading.engine 0).state = .loading ∧
      [DrainReason.preempt, .cut .pool, .requalify, .retire].all (fun r =>
        ((draining r).engine 0).state == .draining && ((draining r).engine 0).drainReason == some r) = true := by
  decide +kernel

/-! #### The arbiters -/

/-- TE0 busy, TE1 free; an URGENT entry before a NORMAL one, and a WAKE entry. -/
theorem witness_DispatchStartsBestEntry :
    (let s := { walking.setEntry 5 (inst (desc 1 5 3 64) .queued) with workQueue := [entry 5 .urgent, entry 6 .normal] }
     (s.engine 1).state = .idle ∧ (s.engine 1).stack = [] ∧
       (∀ m, m < 1 → ¬((s.engine m).state = .idle ∧ (s.engine m).stack = [])) ∧ entry 5 .urgent ∈ s.workQueue ∧
       s.eligible (entry 5 .urgent) = true ∧ (entry 6 .normal).cls.rank > (entry 5 .urgent).cls.rank ∧
       (s.entry 5).descriptor = some (desc 1 5 3 64) ∧ s.linkUp 1 = true ∧ (entry 5 .urgent).cls ≠ .wake) ∧
    (let s := queued .wake
     (s.engine 0).state = .idle ∧ (s.engine 0).stack = [] ∧ entry 3 .wake ∈ s.workQueue ∧ s.eligible (entry 3 .wake) = true ∧
       (∀ x ∈ s.workQueue, x = entry 3 .wake) ∧ (s.entry 3).descriptor = some d9 ∧ s.linkUp 0 = true) := by
  decide +kernel

/-- Section 4.11, step 1: TE2 for the entry of instance 8, over TE0 and TE1; with a burst in flight, and without. -/
theorem witness_PreemptionReservesForVictim :
    let s := fullLink [⟨8, 0, .urgent, .card, 2000, none⟩]
    let counted (e : Fin 6) : Prop :=
      ((s.engine e).state = .loading ∨ (s.engine e).state = .walking) ∧ (s.engine e).preemptible = true ∧
        (s.engine e).stack.length < 3 ∧ (s.slotFree 0 = true ∨ ∃ j, (s.engine e).current = some j ∧ s.linkOf j = some 0)
    (∀ e, ¬((s.engine e).state = .idle ∧ (s.engine e).stack = [])) ∧ s.workQueue = [⟨8, 0, .urgent, .card, 2000, none⟩] ∧
      s.linkOf 8 = some 0 ∧ counted 2 ∧ counted 1 ∧ counted 0 ∧
      (∀ e, counted e → e ≠ 2 →
        s.enginePriority e < s.enginePriority 2 ∨
          (s.enginePriority e = s.enginePriority 2 ∧
            (s.engineAge 2 < s.engineAge e ∨ (s.engineAge 2 = s.engineAge e ∧ e < 2)))) ∧
      (s.engine 2).outstanding ∧ ¬((s.modEngine 2 fun en => { en with inFlight := [] }).engine 2).outstanding := by
  refine ⟨by decide +kernel, by decide +kernel, by decide +kernel, by decide +kernel, by decide +kernel, by decide +kernel, ?_, ?_, ?_⟩
  · decide +kernel
  · exact .inl (by decide +kernel)
  · rintro (h | h) <;> revert h <;> decide +kernel

theorem witness_ResumeContinuesTopRun :
    [PosMark.inElement, .loadPending, .elementEnd].all (fun m =>
      let s := suspended m
      (s.engine 0).state == .waitingSlot && (s.engine 0).stack == [3] && (s.entry 3).descriptor == some d9 &&
        (s.engine 0).waitingLink == some d9.link && s.linkUp 0 && (s.link 0).slots.length < 3 &&
        (s.entry 3).run.position.mark == m) = true := by
  decide +kernel

theorem witness_WakeQueuesParkedRun :
    parked.parking = [⟨3, parked.now⟩] ∧ (parked.entry 3).run.jobSequence = some 0 ∧
      ∀ x ∈ { parked with now := 4999 }.parking, x.inst = 3 → x.wake ≠ 4999 := by
  decide +kernel

/-- `turnsTo`: an engine with a run; an IDLE one with nothing to turn to, with a reserved entry, and with work on its stack, a slot being
open and none; one in WAITING_SLOT with an empty stack, for the top's link, and for another. -/
theorem witness_turnsTo :
    (walking.engine 0).hasRun ∧ ((base.engine 0).state = .idle ∧ (base.engine 0).stack = [] ∧ base.workQueue = []) ∧
    (let q : QueueEntry := { entry 3 .urgent with reserved := some 0 }
     let s := { one .queued with workQueue := [q] }
     (s.engine 0).state = .idle ∧ s.workQueue = [q] ∧ q.cls ≠ .wake ∧ (s.entry 3).descriptor = some d9 ∧ s.linkUp d9.link = true) ∧
    (let s := (suspended .inElement).setEngine 0 { Engine.reset with stack := [3] }
     (s.engine 0).state = .idle ∧ (s.engine 0).stack = [3] ∧ s.linkOf 3 = some 0 ∧ s.workQueue = [] ∧ s.slotComesTo 0 0 ∧
       ¬(s.modLink 0 fun k => { k with slots := [.running 5, .running 6, .running 7] }).slotComesTo 0 0) ∧
    (let s := base.setEngine 0 { Engine.reset with state := .waitingSlot, waitingLink := some 0 }
     (s.engine 0).state = .waitingSlot ∧ (s.engine 0).stack = []) ∧
    (let s := suspended .inElement
     (s.engine 0).stack = [3] ∧ s.linkOf 3 = some 0 ∧ (s.engine 0).state = .waitingSlot ∧ (s.engine 0).waitingLink = some 0 ∧
       ((s.modEngine 0 fun en => { en with waitingLink := some 1 }).engine 0).waitingLink ≠ some 0) := by
  simp only [Engine.hasRun, State.slotComesTo]
  decide +kernel

/-- A pair whose second part is known. -/
theorem of_snd {r : State × Bool} {b : Bool} (h : r.2 = b) : ∃ t, r = (t, b) := ⟨r.1, by rw [← h]⟩

/-- TE0 at an element's end: the next is walked; past the last the run leaves an engine that has nothing to turn to; and no
element has ended. -/
theorem witness_ElementEndReachesNext :
    (∃ t, State.reach (running .walking ⟨1, 2, 1, .elementEnd⟩) 0 2 (2, 1) = (t, false)) ∧
    (let r := State.reach (running .walking ⟨2, 0, 0, .elementEnd⟩) 0 3 (0, 0)
     r.2 = true ∧ ((r.1.engine 0).stack = [] ∧ ∀ q ∈ r.1.workQueue, q.reserved ≠ some 0) ∧ (r.1.engine 0).state = .idle) ∧
    (let s := running .walking ⟨1, 2, 1, .elementEnd⟩
     (s.engine 0).position = some ⟨1, 2, 1, .elementEnd⟩ ∧ (s.engine 0).state = .walking ∧ (s.engine 0).inFlight = []) ∧
    (walking.engine 0).inFlight ≠ [] := by
  refine ⟨of_snd (by decide +kernel), ?_⟩
  decide +kernel

/-- Instance 3 running sequence `q` on TE0, of a kind, with guard ranges. -/
def runningSeq (q : Fin 32) (k : MemKind) (gs : List GuardRange) : State :=
  (running .walking ⟨0, 0, 0, .elementEnd⟩).modEntry 3 fun e =>
    { e with
      descriptor := some { d9 with kind := k }, guards := gs, run := { e.run with jobSequence := some q } }

/-- With every row, the first two and the last guarded: QUICK's end (ordinal 3), its elements 0 (writes alone) and 1 (reads), and RETAIN's HOLD, skipped on SRAM, taken on DRAM. -/
theorem witness_ReachedElementDecidesTheRun :
    (let s := runningSeq 0 .sram [⟨0, 2⟩]
     (s.engine 0).current = some 3 ∧ (s.entry 3).descriptor = some d9 ∧ (s.entry 3).run.jobSequence = some 0 ∧
       s.directoryEntry 0 = some ⟨0, 3, .all⟩ ∧ 3 ≤ 3 ∧ ¬s.skipHolds 3 (s.element 0).skip ∧
       (s.element 0).body = .march .up [.write] .solid ∧ [Operation.write].any Operation.reads = false ∧ 1 ≤ d9.rows ∧
       (∀ n, n < d9.rows → guarded (s.entry 3).guards n = true) ∧ (s.element 1).body = .march .up [.read, .writeInv] .solid ∧
       ¬s.skipHolds 3 (s.element 1).skip) ∧
    (let s := runningSeq 0 .sram [⟨0, 1⟩]
     guarded (s.entry 3).guards 2 = false ∧ ∀ n, n < d9.rows → n < 2 → guarded (s.entry 3).guards n = true) ∧
    (let s := runningSeq 0 .sram [⟨2, 2⟩]
     guarded (s.entry 3).guards 1 = false ∧ ∀ n, n < d9.rows → 1 < n → guarded (s.entry 3).guards n = true) ∧
    (let s := runningSeq 4 .sram []
     s.directoryEntry 4 = some ⟨19, 6, ⟨false, true, false⟩⟩ ∧ s.skipHolds 3 (s.element (19 + 1)).skip) ∧
    (let s := runningSeq 4 .dram []
     ¬s.skipHolds 3 (s.element (19 + 1)).skip ∧ (s.element (19 + 1)).body = .hold 64) := by
  simp only [← skips_iff, Bool.not_eq_true]
  decide +kernel

theorem witness_LoadDoneStartsTheWalk :
    let u : LoadUse := ⟨0, 9, 4990⟩
    loading.linkUp 0 = true ∧ (loading.link 0).loads = [u] ∧ (loading.engine u.engine).current = some 3 ∧
      (loading.entry 3).descriptor = some d9 ∧ (loading.entry 3).run.jobSequence = some 0 ∧
      loading.directoryEntry 0 = some ⟨0, 3, .all⟩ ∧ (loading.element 0).body = .march .up [.write] .solid ∧
      ¬loading.skipHolds 3 (loading.element 0).skip ∧ (loading.entry 3).guards = [] ∧
      (loading.engine u.engine).state = .loading ∧
      ((loading.modEngine 0 fun en => en.drainRequested .retire).engine u.engine).state = .draining := by
  simp only [← skips_iff, Bool.not_eq_true]
  decide +kernel

/-- TE0 with tag 0 in use: tag 1 is the lowest open one; an engine with a given tag; no tag open; an engine that meets no condition. -/
theorem witness_BurstIssueSendsTheCursorsBurst :
    (walking.engine 0).state = .walking ∧ (walking.engine 0).current = some 3 ∧
      (walking.engine 0).position = some ⟨1, 1, 1, .inElement⟩ ∧ (walking.engine 0).inFlight.length < 4 ∧
      (walking.entry 3).descriptor = some d9 ∧ (walking.entry 3).run.jobSequence = some 0 ∧
      walking.directoryEntry 0 = some ⟨0, 3, .all⟩ ∧ (walking.element (0 + 1)).body = .march .up [.read, .writeInv] .solid ∧
      walking.linkUp 0 = true ∧ ((walking.engine 0).given = none ∧ walking.tagOpen 0 1 ∧ ∀ h, h < 1 → ¬walking.tagOpen 0 h) ∧
      ((walking.modEngine 0 fun en => { en with given := some 7 }).engine 0).given = some 7 ∧
      ((crowded.engine 2).given = none ∧ ∀ g, ¬crowded.tagOpen 0 g) ∧ ¬crowded.issuesOn 0 1 ∧
      [Operation.read, .writeInv].any Operation.reads = true := by
  simp only [← mem_openTags, ← wantsTag_iff]
  decide +kernel

/-- An element that only writes, of a memory of 3 rows of 2 chunks: inside a row; at its end with the next row free, guarded and the last
one free, and with every further row guarded; in each direction. -/
theorem witness_BurstIssueSendsTheCursorsBurst_writes :
    let s := running .walking ⟨0, 0, 1, .inElement⟩
    let g (gs : List GuardRange) := guarded gs
    ((s.element 0).body = .march .up [.write] .solid ∧ [Operation.write].any Operation.reads = false ∧ 0 < d9.rows ∧
      (d9.columns + 63) / 64 = 2) ∧
    (0 + 1 < 2 ∧ 1 + 1 = 2 ∧ g [⟨1, 1⟩] 0 = false) ∧
    (∀ n, n < 1 → 0 < n → g [] n = true) ∧ g [] 1 = false ∧
    ((∀ n, n < 2 → 0 < n → g [⟨1, 1⟩] n = true) ∧ g [⟨1, 1⟩] 2 = false) ∧
    (∀ n, n < 3 → 0 < n → g [⟨1, 2⟩] n = true) ∧
    ((∀ n, n < 2 → 0 < n → g [⟨1, 1⟩] n = true) ∧ g [⟨1, 1⟩] 0 = false) ∧
    (∀ n, n < 2 → g [⟨0, 1⟩] n = true) := by
  decide +kernel

/-- A drain for STOP; for PREEMPT with a held POOL; for RETIRE; for REQUALIFY; with link 0 DOWN; with a follow-up; and section 4.11, step 3,
where a reservation is left, or none. -/
theorem witness_DrainEndSettlesTheRun :
    [DrainReason.cut .stop, .preempt, .retire, .requalify].all (fun r =>
      let s := (draining r).modEngine 0 fun en => { en with held := if r = .preempt then some .pool else none }
      (s.engine 0).state == .draining && (s.engine 0).inFlight == [] && !(s.engine 0).loadOutstanding &&
        (s.engine 0).current == some 3 && (s.engine 0).position == some ⟨1, 1, 1, .inElement⟩ &&
        (s.entry 3).descriptor == some d9 && (s.engine 0).drainReason == some r &&
        (s.engine 0).held == (if r = .preempt then some .pool else none) && (s.entry 3).suspending == none &&
        (s.entry 3).followUp == none && s.linkUp 0 && (s.engine 0).stack == [] && s.workQueue == []) = true ∧
    ((draining .retire).modLink 0 fun k => { k with down := some .reset }).linkUp 0 = false ∧
    (((draining .requalify).modEntry 3 fun x => { x with followUp := some ⟨1, .urgent, .card⟩ }).entry 3).followUp =
      some ⟨1, .urgent, .card⟩ ∧
    (let x : QueueEntry := ⟨8, 0, .urgent, .card, 2000, some 2⟩
     let s := (fullLink [x]).modEngine 2 fun en =>
       { en with state := .draining, drainReason := some .preempt, inFlight := [] }
     ({ s with workQueue := [] }.engine 2).held = none ∧ (s.engine 2).current = some 6 ∧ (s.engine 2).held = none ∧ s.workQueue = [x] ∧ x.reserved = some 2 ∧ x.inst ≠ 6 ∧
       (s.entry 8).descriptor = some { desc 0 8 8 64 with priority := 0 } ∧ s.linkUp 0 = true) := by
  decide +kernel

/-! #### Fail Capture -/

/-- A vector without a 1, one with a 1; a column record, a row record and neither. -/
theorem witness_FailLocatorAndAttribution :
    (∀ k : Nat, ([] : List Bool)[k]? ≠ some true) ∧ [false, true][1]? = some true ∧
    (let rs : List RepairRecord := [⟨.row, 5, 0, .stored, false, false⟩, ⟨.column, 7, 1, .stored, false, false⟩]
     (∀ a ∈ rs, ∀ b ∈ rs, a.kind = b.kind → a.line = b.line → a = b) ∧ (∃ r ∈ rs, r.kind = .column ∧ r.line = 7) ∧
       ((∀ r ∈ rs, r.kind = .column → r.line ≠ 8) ∧ ∃ r ∈ rs, r.kind = .row ∧ r.line = 5) ∧
       (∀ r ∈ rs, r.kind = .column → r.line ≠ 8) ∧ ∀ r ∈ rs, r.kind = .row → r.line ≠ 6) := by
  refine ⟨by simp, by decide, ?_⟩
  decide +kernel

/-- Free spares of each kind, for Fail Capture. -/
def free (rows columns : Nat) : CaptureContext := ⟨100, 1, [], rows, columns⟩

/-- Logs that bring a fail at (10, 5) under each clause: a row line, a column line, its cell, a row with no room, a column
with no room, room for a record of its own (log and pool at their boundaries), and no cell in a line without spares. -/
theorem witness_FailIsPlaced :
    let line : FailRecord := ⟨.rowLine 10, none, 255, 100, 1, .uncovered, some false⟩
    let column : FailRecord := ⟨.columnLine 5, none, 2, 100, 1, .uncovered, none⟩
    line.place = .rowLine 10 ∧ column.place = .columnLine 5 ∧ (cell 10 5).place = .cell 10 5 ∧
    ((cell 10 6).uncoveredInRow 10 = true ∧ (cell 10 6).place ≠ .cell 10 5 ∧
      (free 2 1).freeColumns < [cell 10 6].countP (FailRecord.uncoveredInRow 10) + 1) ∧
    ((cell 9 5).uncoveredInColumn 5 = true ∧ [cell 9 5].countP (FailRecord.uncoveredInRow 10) + 1 ≤ (free 1 1).freeColumns ∧
      (free 1 1).freeRows < [cell 9 5].countP (FailRecord.uncoveredInColumn 5) + 1) ∧
    ([cell 9 5].countP (FailRecord.uncoveredInColumn 5) + 1 ≤ (free 2 1).freeRows) ∧
    ((List.replicate 48 (cell 1 1)).length ≥ 48 ∧ ¬(List.replicate 47 (cell 1 1)).length ≥ 48) ∧
    ([cell 9 6].countP (FailRecord.uncoveredInRow 10) = 0 ∧ (free 1 0).freeColumns = 0) ∧
    ([cell 9 6].countP (FailRecord.uncoveredInColumn 5) = 0 ∧ (free 0 1).freeRows = 0) := by
  decide +kernel

/-- The head of the tags names TE0's burst; a FAIL list at the burst's last column; a run that is not discarded, and one that
is; a list that raises no cut short, and one that raises POOL. -/
theorem witness_ResultIsRecorded :
    let b : Burst := ⟨0, 1, 0, 1, false⟩
    let ms : List Mismatch := [⟨63, some (List.replicate 16 true)⟩]
    (walking.linkUp 0 = true ∧ (walking.link 0).tags = [⟨0, 0, 4990⟩] ∧ (walking.engine 0).current = some 3 ∧
      (walking.engine 0).inFlight = [b] ∧ (walking.entry 3).descriptor = some d9) ∧
    (1 ≤ ms.length ∧ ms.length ≤ 64 ∧ ms.length ≤ min 64 (d9.columns - 64 * b.chunk) ∧ (ms.map Mismatch.column).Nodup ∧
      64 * b.chunk ≤ 63 ∧ 63 < 64 * b.chunk + min 64 (d9.columns - 64 * b.chunk) ∧ (List.replicate 16 true).length = d9.width) ∧
    (walking.engine 0).state ≠ .draining ∧
    (placeAll ⟨5000, 1, [], 2, 2⟩ [] 1 ms [] 1024).2.2 = [] ∧ (placeAll ⟨5000, 1, [], 2, 2⟩ [] 1 ms [] 0).2.2 = [.pool] ∧
    ((walking.modEngine 0 fun en => en.drainRequested .retire).engine 0).drainReason = some .retire := by
  decide +kernel

/-! #### Links -/

theorem witness_DownLinkDiscards : State.reset.linkUp 0 = false := by decide +kernel

/-- A memory id that names none; a settled, a pending and a not yet pending instance; usable and not. -/
theorem witness_PullsAndServiceMessages :
    base.linkUp 0 = true ∧ (∀ i, ¬base.namedBy 0 9 i) ∧ (one .clean).names 0 9 3 ∧ ((one .clean).entry 3).descriptor = some d9 ∧
      ((one .clean).entry 3).state.settled = true ∧ ((one .clean).entry 3).state.usable = true ∧
      ((one .defined).entry 3).state.settled = false ∧ 3 ∉ ((one .defined).link 0).pulls ∧
      3 ∈ (((one .defined).modLink 0 fun k => { k with pulls := [3] }).link 0).pulls ∧
      ((one .defined).entry 3).state.usable = false := by
  simp only [← lookup_eq_none, ← lookup_eq_some]
  decide +kernel

theorem witness_ReadyBringsLinkUp :
    lostLink.linkUp 1 = false ∧ (lostLink.link 1).pulls = [] ∧ base.linkUp 1 = true := by
  decide +kernel

/-- The bytes of no message: a code that no device sends. -/
theorem no_message (s : State) (l : Fin 4) : ¬s.takesMessage l [9] := by
  rintro (h | h | ⟨m, h | h | h⟩ | ⟨u, -, h⟩ | ⟨m, c, a, b, -, -, -, h⟩ | ⟨tag, o, ms, -, -, h⟩) <;>
    simp [resultBytes, bytesOf] at h

/-- TE0 runs on link 0: every way to lose link 0; runs that drain for RETIRE and REQUALIFY; and a READY, a LOAD_DONE and a RESULT that the
link takes. -/
theorem witness_LinkLossFaultsItsWork :
    let s := { walking.modLink 0 fun k => { k with loads := [⟨1, 8, 4990⟩] } with now := 5040 }
    s.linkUp 0 = true ∧ LinkLoss s 0 (.resetNotice 0) .reset ∧ LinkLoss s 0 (.malformed 0 [9]) .malformed ∧
      LinkLoss s 0 (.result 0 1 .pass []) .malformed ∧ LinkLoss s 0 (.loadDone 0 9) .malformed ∧
      LinkLoss s 0 (.burstTimeout 0) .timeout ∧ LinkLoss s 0 (.loadTimeout 0) .timeout ∧
      (s.takesMessage 0 [19] ∧ s.takesMessage 0 [18, 8] ∧ s.takesMessage 0 [17, 0, 0, 0]) ∧
      ((draining .retire).engine 0).drainReason = some .retire ∧ ((draining .requalify).engine 0).drainReason = some .requalify ∧
      (draining .retire).linkOf 3 = some 0 ∧ (draining .retire).engineOf 3 = some 0 := by
  refine ⟨by decide +kernel, .resetNotice, .malformed _ (no_message _ _), .result _ _ _ (by decide +kernel),
    .loadDone _ (by decide +kernel), .burstTimeout ⟨0, 0, 4990⟩ (by decide +kernel) (by decide +kernel),
    .loadTimeout ⟨1, 8, 4990⟩ (by decide +kernel) (by decide +kernel),
    ⟨.inl rfl, .inr (.inr (.inr (.inl ⟨⟨1, 8, 4990⟩, by decide +kernel, by decide +kernel⟩))), ?_⟩, ?_⟩
  · exact .inr (.inr (.inr (.inr (.inr ⟨0, .pass, [], by decide +kernel, by simp, by decide +kernel⟩))))
  · decide +kernel

/-! #### Analysis -/

/-- Instance 3 under analysis with a reason, a log and a map. -/
def judged (r : VerdictReason) (log : List FailRecord) (m : List RepairRecord) : State :=
  analysed.modEntry 3 fun e => { e with reason := r, failLog := log, repairMap := m }

/-- An idle analyser with and without an entry; a closing entry; a fresh one for OVERFLOW, with three row lines against two
FREE row spares, with an empty log, and with a faulty spare, a row line and a cell. -/
theorem witness_AnalysisSettlesVerdicts :
    ({ analysed with analysing := false }.analysisQueue ≠ [] ∧ base.analysing = false ∧ base.analysisQueue = []) ∧
    (analysed.analysing = true ∧ analysed.analysisQueue = [⟨3, true⟩] ∧ (analysed.entry 3).descriptor = some d9) ∧
    ((judged .overflow [] []).entry 3).reason = .overflow ∧
    (let lines : List FailRecord := [0, 1, 2].map fun n => ⟨.rowLine n, none, 1, 100, 1, .uncovered, some false⟩
     let e := (judged .none lines []).entry 3
     e.reason ≠ .overflow ∧ (∀ f ∈ e.failLog, f.attribution = .uncovered) ∧ [0, 1, 2].Nodup ∧
       (∀ n ∈ [0, 1, 2], ∃ f ∈ e.failLog, f.place = .rowLine n) ∧ freeCount e.rowSpares < [0, 1, 2].length) ∧
    (let e := (judged .none [] [⟨.row, 1, 0, .found, false, false⟩, ⟨.column, 5, 1, .stored, false, false⟩]).entry 3
     e.reason ≠ .overflow ∧ e.failLog = [] ∧ (e.repairMap.Pairwise fun r n => r.before n = true) ∧ e.flags.partialRun = false) ∧
    (let e := (judged .none [{ cell 0 7 with attribution := .spareRow 0 }, ⟨.rowLine 1, none, 1, 100, 1, .uncovered, some false⟩, cell 2 5]
        [⟨.row, 0, 0, .stored, false, false⟩]).entry 3
     e.reason ≠ .overflow ∧ e.failLog ≠ []) ∧
    { analysed with analysisQueue := [⟨3, false⟩] }.analysisQueue = [⟨3, false⟩] := by
  decide +kernel

/-- One row line, the first FREE spare being spare 0, verify ON, after run 1 with the link UP. -/
theorem witness_AnalysisRepairsARow :
    let f : FailRecord := ⟨.rowLine 1, none, 2, 100, 1, .uncovered, some false⟩
    let s := judged .none [f] []
    let x := s.entry 3
    s.analysing = true ∧ s.analysisQueue = [⟨3, true⟩] ∧ x.descriptor = some d9 ∧ x.reason ≠ .overflow ∧ x.failLog = [f] ∧
      f.place = .rowLine 1 ∧ f.attribution = .uncovered ∧ x.rowSpares[0]? = some .free ∧ x.flags.partialRun = false ∧
      d9.verify = true ∧ x.run.runCount < 3 ∧ s.linkUp d9.link = true ∧ x.run.jobSequence = some 0 := by
  decide +kernel

/-! #### Time, deadlines and the store -/

theorem witness_BudgetAndCapSetTheirCompares : 600000 < 600001 ∧ 600000 ≤ 600000 ∧ 0 ≤ 600000 := by decide

/-- A due CARD compare with TE0 running, a burst in flight, TE1 with nothing outstanding, and a QUEUED, a SUSPENDED and a PARKED instance; an
armed compare not reached. -/
theorem witness_DeadlineExpiryCutsShort :
    let s :=
      { (((walking.setEntry 4 (inst (desc 0 10 3 100) .queued)).setEntry 5 { inst (desc 0 11 3 100) .suspended with
          suspending := some 0 }).setEntry 6 (inst (desc 0 12 3 100) .running)).modEngine 0 (fun en => { en with stack := [5] }) with
        workQueue := [entry 4 .wake], cardDeadline := some 5000, chassisDeadline := some 5001 }.setEngine 1
          { Engine.reset with state := .walking, current := some 6, position := some ⟨0, 0, 1, .inElement⟩ }
    s.deadline .card = some s.now ∧ s.deadline .chassis ≠ some s.now ∧ (s.entry 6).state = .running ∧ s.engineOf 6 = some 1 ∧
      (s.engine 1).endsNow = true ∧ s.engineOf 3 = some 0 ∧ (s.engine 0).endsNow = false := by
  decide +kernel

theorem nothing_due (s : State) (h1 : s.cardDeadline = none) (h2 : s.chassisDeadline = none) (h3 : s.parking = [])
    (h4 : ∀ l, (s.link l).tags = [] ∧ (s.link l).loads = []) : s.NothingDue := by
  refine ⟨fun d => ?_, fun i => ?_, fun l => ?_⟩
  · cases d <;> simp [State.deadlineDue, State.deadline, h1, h2]
  · simp [State.wakeDue, h3]
  · simp [State.burstDue, State.loadDue, h4 l]

/-- Nothing due below the last value, and at it. -/
theorem witness_TimeBaseAdvancesAndWraps :
    base.NothingDue ∧ base.now ≠ 16777215 ∧ { base with now := 16777215 }.NothingDue ∧ { base with now := 16777215 }.now = 16777215 :=
  ⟨nothing_due _ rfl rfl rfl (by decide +kernel), by decide +kernel, nothing_due _ rfl rfl rfl (by decide +kernel), rfl⟩

/-- COMMIT of an owned CLEAN instance, and of an owned DEFINED one, with the store idle. -/
theorem witness_StoreRequestsStartOperations :
    mask [3] ≠ 0 ∧ (one .clean).storeOp = none ∧
      (∀ i, inMask (mask [3]) i = true → ((one .clean).entry i).owner = portOwner .card) ∧
      ((one .clean).entry 3).state = .clean ∧ ((one .clean).entry 3).descriptor = some d9 ∧
      (∀ i, inMask (mask [3]) i = true → ((one .defined).entry i).owner = portOwner .card) ∧
      ((one .defined).entry 3).state ≠ .clean ∧ ((one .defined).entry 3).state ≠ .repaired := by
  decide +kernel

/-- A commit with another section to write, one at its last section, a clear, and no operation. -/
theorem witness_SectionWritesEnd :
    (∃ op w rest, committing.storeOp = some op ∧ op.kind = .commit ∧ op.todo = w :: rest) ∧
    (∃ op, { committing with storeOp := some ⟨.clear, ⟨63, none⟩, [], 0⟩ }.storeOp = some op ∧ op.kind = .clear ∧ op.todo = []) ∧
    ((∀ op, base.storeOp = some op → op.kind ≠ .commit) ∧ ∀ op, base.storeOp = some op → op.kind ≠ .clear) :=
  ⟨⟨_, _, _, rfl, rfl, rfl⟩, ⟨_, rfl, rfl, rfl⟩, nofun, nofun⟩

theorem witness_OnlyWritesChangeSections :
    (∃ t, exec (.commit .card 1) base = .next t) ∧ (∀ v, Instr.commit .card 1 ≠ .commitWriteEnd v) ∧
      (∀ v, Instr.commit .card 1 ≠ .clearWriteEnd v) ∧ ∀ n, Instr.commit .card 1 ≠ .partReset n :=
  ⟨⟨_, rfl⟩, nofun, nofun, nofun⟩

end Sys2Proof.Tests
end

section
/-!
PROOF. The part reset's table (R23), and the requests of the two ports: each makes its checks in order, and is answered by the first that
fails or with OK (R29, R168, R169).
-/

namespace Sys2Proof.Machine

open Sys2Proof

/-! ### Part reset (R23, R167) -/

/-- R23: every entry of the table that a part reset writes. -/
@[simp] theorem entry_reset (i : Fin 64) : State.reset.entry i = .reset := by
  simp [State.entry, State.reset]

/-- R167: a part reset leaves alone every section but the one being written. -/
theorem sectionsAfterReset_get (s : State) (n : Fin 64) (h : ∀ op, s.storeOp = some op → op.writing.index ≠ n) :
    s.sectionsAfterReset[n] = s.storeSection n := by
  unfold State.sectionsAfterReset
  cases ho : s.storeOp with
  | none => rfl
  | some op =>
    show (s.setSection op.writing.index _).storeSection n = s.storeSection n
    rw [State.storeSection_setSection, if_neg (h op ho).symm]

/-! ### The first check that fails -/

section Checks

variable {c c' : Prop} {st : Status} {checks rest : List (Prop × Status)} {α : Type}

/-- A check that does not fail is passed over. -/
theorem refusedBy_skip (hc : ¬c) (x : Status) : refusedBy ((c, st) :: rest) x ↔ refusedBy rest x := by
  simp [refusedBy, hc]

/-- At most one status is that of the first failed check. -/
theorem refusedBy_unique {a b : Status} (h : refusedBy checks a) (k : refusedBy checks b) : a = b := by
  induction checks with
  | nil => exact h.elim
  | cons x t ih =>
    obtain ⟨c, st⟩ := x
    by_cases hc : c
    · obtain rfl : a = st := by simpa [refusedBy, hc] using h
      simpa [refusedBy, hc, eq_comm] using k
    · exact ih ((refusedBy_skip hc a).1 h) ((refusedBy_skip hc b).1 k)

theorem refusedBy_append {a : Status} (h : refusedBy checks a) : refusedBy (checks ++ rest) a := by
  induction checks with
  | nil => exact h.elim
  | cons x t ih => exact h.imp_right fun ⟨hc, h⟩ => ⟨hc, ih h⟩

theorem not_refusedBy_nil (x : Status) : ¬refusedBy [] x := id

/-- The model's outcome of some checks is what the list of them says: the status of the first that fails, or acceptance. -/
def decidedBy (checks : List (Prop × Status)) : Except Status α → Prop
  | .error st => refusedBy checks st
  | .ok _ => ∀ st, ¬refusedBy checks st

theorem decidedBy_skip {r : Except Status α} (hc : ¬c) (h : decidedBy rest r) : decidedBy ((c, st) :: rest) r := by
  cases r with
  | error x => exact (refusedBy_skip hc x).2 h
  | ok a => exact fun x hx => h x ((refusedBy_skip hc x).1 hx)

/-- Checks that all pass are passed over. -/
theorem decidedBy_append {r : Except Status α} (hc : ∀ st, ¬refusedBy checks st) (h : decidedBy rest r) :
    decidedBy (checks ++ rest) r := by
  induction checks with
  | nil => exact h
  | cons x t ih =>
    obtain ⟨c, st⟩ := x
    have hn : ¬c := fun hx => hc st (.inl ⟨hx, rfl⟩)
    exact decidedBy_skip hn (ih fun y hy => hc y ((refusedBy_skip hn y).2 hy))

theorem decidedBy_ite [Decidable c] {r : Except Status α} (hc : c ↔ c') (h : ¬c → decidedBy rest r) :
    decidedBy ((c', st) :: rest) (if c then .error st else r) := by
  split
  · exact .inl ⟨hc.1 ‹_›, rfl⟩
  · exact decidedBy_skip (mt hc.2 ‹_›) (h ‹_›)

theorem decidedBy_last [Decidable c] {a : α} (hc : c ↔ ¬c') :
    decidedBy [(c', st)] (if c then .ok a else .error st) := by
  split
  · exact decidedBy_skip (hc.1 ‹_›) not_refusedBy_nil
  · exact .inl ⟨not_not.1 (mt hc.2 ‹_›), rfl⟩

end Checks

/-! ### The reply to a request (R168, R169) -/

/-- The state `t` that request `k` of port `p` leaves replies as its checks say: under its own code, at its port alone, with the
status of the first check that fails and no other change, or with OK. -/
def State.repliesBy (s t : State) (p : Port) (k : RequestKind) (checks : List (Prop × Status)) : Prop :=
  ∃ r, (t.port p).response = some r ∧ r.code = k.code ∧
    (t.port (otherPort p)).response = (s.port (otherPort p)).response ∧
    (∀ st, refusedBy checks st →
      r.status = st ∧ (st ≠ .libraryBusy → r.payload = .empty) ∧ t = s.setPort p { s.port p with response := some r }) ∧
    ((∀ st, ¬refusedBy checks st) → r.status = .ok)

/-- Command `c`, request `k` of port `p`, is replied to as its rule's checks say. -/
def State.repliesTo (s : State) (c : Instr) (p : Port) (k : RequestKind) : Prop :=
  ∃ t, exec c s = .next t ∧ s.repliesBy t p k (s.refusals c)

theorem otherPort_ne (p : Port) : otherPort p ≠ p := by cases p <;> decide

theorem eq_otherPort {p q : Port} (h : p ≠ q) : p = otherPort q := by cases p <;> cases q <;> simp_all [otherPort]

section Replies

variable {s t : State} {p : Port} {k : RequestKind} {c c' : Prop} {st : Status} {checks rest : List (Prop × Status)}

theorem port_answer (s : State) (p : Port) (k : RequestKind) (st : Status) (pl : Payload) :
    (s.answer p k st pl).port p = { s.port p with response := some ⟨k.code, st, pl⟩ } := by
  simp [State.answer]

theorem port_other_answer (s : State) (p : Port) (k : RequestKind) (st : Status) (pl : Payload) :
    (s.answer p k st pl).port (otherPort p) = s.port (otherPort p) := by
  simp [State.answer, otherPort_ne]

/-- R169: the answer with the status of the first failed check, its payload empty but for the holders of LIBRARY_BUSY (R49). -/
theorem repliesBy_answer {pl : Payload} (h : refusedBy checks st) (hp : st ≠ .libraryBusy → pl = .empty) :
    s.repliesBy (s.answer p k st pl) p k checks := by
  refine ⟨⟨k.code, st, pl⟩, by rw [port_answer], rfl, by rw [port_other_answer], fun x hx => ?_, fun h' => absurd h (h' st)⟩
  obtain rfl := refusedBy_unique h hx
  exact ⟨rfl, hp, rfl⟩

theorem repliesBy_refuse (h : refusedBy checks st) : s.repliesBy (s.refuse p k st) p k checks :=
  repliesBy_answer h fun _ => rfl

/-- The OK answer of a request whose checks all pass, after effects that keep the other port's response. -/
theorem repliesBy_ok {pl : Payload} (h : ∀ st, ¬refusedBy checks st)
    (ht : (t.port (otherPort p)).response = (s.port (otherPort p)).response) : s.repliesBy (t.ok p k pl) p k checks :=
  ⟨⟨k.code, .ok, pl⟩, by rw [State.ok, port_answer], rfl, by rw [State.ok, port_other_answer, ht],
    fun x hx => absurd hx (h x), fun _ => rfl⟩

theorem repliesBy_skip (hc : ¬c) (h : s.repliesBy t p k rest) : s.repliesBy t p k ((c, st) :: rest) := by
  simpa only [State.repliesBy, refusedBy_skip hc] using h

theorem repliesBy_ite [Decidable c] (hc : c ↔ c') (h : ¬c → s.repliesBy t p k rest) :
    s.repliesBy (if c then s.refuse p k st else t) p k ((c', st) :: rest) := by
  split
  · exact repliesBy_refuse (.inl ⟨hc.1 ‹_›, rfl⟩)
  · exact repliesBy_skip (mt hc.2 ‹_›) (h ‹_›)

/-! ### The gates of R29 -/

theorem instIndex_val (i : Fin 64) : instIndex i.val = some i := by simp [instIndex]

theorem instIndex_none {n : Nat} (h : 63 < n) : instIndex n = none := dif_neg (by omega)

@[simp] theorem entryAt_val (s : State) (i : Fin 64) : s.entryAt i.val = s.entry i := by simp [State.entryAt]

/-- R29: the privilege check of a request that one port alone may send. -/
theorem repliesBy_gatePort {allowed : Port} (h : p = allowed → s.repliesBy t p k rest) :
    s.repliesBy (s.gatePort allowed p k t) p k ((p = otherPort allowed, .privilege) :: rest) := by
  unfold State.gatePort
  split
  · rename_i hp
    exact repliesBy_skip (hp ▸ (otherPort_ne p).symm) (h hp)
  · rename_i hp
    exact repliesBy_refuse (.inl ⟨eq_otherPort hp, rfl⟩)

/-- R29: the index check. -/
theorem repliesBy_gateIndex {n : Nat} {act : Fin 64 → State} (h : ∀ i : Fin 64, i.val = n → s.repliesBy (act i) p k rest) :
    s.repliesBy (s.gateIndex p k n act) p k ((63 < n, .badIndex) :: rest) := by
  unfold State.gateIndex
  by_cases hn : 63 < n
  · rw [instIndex_none hn]
    exact repliesBy_refuse (.inl ⟨hn, rfl⟩)
  · obtain ⟨i, rfl⟩ : ∃ i : Fin 64, i.val = n := ⟨⟨n, by omega⟩, rfl⟩
    rw [instIndex_val]
    exact repliesBy_skip hn (h i rfl)

/-- R29: the index check, and then the ownership check. -/
theorem repliesBy_gateOwned {n : Nat} {act : Fin 64 → State} (h : ∀ i : Fin 64, i.val = n → s.repliesBy (act i) p k rest) :
    s.repliesBy (s.gateOwned p k n act) p k
      ((63 < n, .badIndex) :: ((s.entryAt n).owner ≠ portOwner p, .notOwner) :: rest) := by
  have key : s.gateOwned p k n act =
      s.gateIndex p k n fun i => if ¬s.owns p i = true then s.refuse p k .notOwner else act i := by
    unfold State.gateOwned State.gateIndex
    cases instIndex n with
    | none => rfl
    | some i => exact (ite_not ..).symm
  rw [key]
  refine repliesBy_gateIndex fun i hi => ?_
  subst hi
  exact repliesBy_ite (by simp [State.owns]) fun _ => h i rfl

/-! ### Requests that make no check -/

/-- A read, or another request that changes nothing but what it answers. -/
theorem repliesBy_read {pl : Payload} : s.repliesBy (s.ok p k pl) p k [] := repliesBy_ok not_refusedBy_nil rfl

/-- The part's own work keeps both ports' responses. -/
theorem Kept.response (h : Kept s t) (p : Port) : (t.port p).response = (s.port p).response := by
  cases p
  exacts [h.card.response, h.chassis.response]

/-- The OK answer after work of the part. -/
theorem repliesBy_kept {pl : Payload} (h : Kept s t) : s.repliesBy (t.ok p k pl) p k [] :=
  repliesBy_ok not_refusedBy_nil (h.response _)

end Replies

section Requests

variable (s : State) (p : Port)

/-! ### DEFINE (R12) -/

theorem memKindOf_none {n : Nat} : memKindOf n = none ↔ 2 < n := by
  match n with
  | 0 | 1 | 2 => simp [memKindOf]
  | n + 3 => simp [memKindOf]

theorem verifyOf_eq (n : Nat) : verifyOf n = if n ≤ 1 then some (n == 1) else none := by
  match n with
  | 0 | 1 => rfl
  | n + 2 => simp [verifyOf]

/-- R2: the numbers and the coded bytes of a legal descriptor. -/
theorem legalDescriptor_iff (r : RawDescriptor) :
    legalDescriptor r ↔
      r.link < 4 ∧ r.memId < 256 ∧ r.defaultSequence < 32 ∧ r.kind ≤ 2 ∧ r.verify ≤ 1 ∧ legalNumbers r = true := by
  simp only [legalDescriptor, legalNumbers, Bool.and_eq_true, decide_eq_true_eq]
  omega

/-- R2: a legal descriptor is taken, as its fields spell it. -/
theorem checkDescriptor_of_legal {r : RawDescriptor} (h : legalDescriptor r) :
    ∃ d, checkDescriptor r = some d ∧ spellsDescriptor r d := by
  obtain ⟨hl, hm, hs, hk, hv, hn⟩ := (legalDescriptor_iff r).1 h
  obtain ⟨k, hk⟩ : ∃ k, memKindOf r.kind = some k :=
    Option.ne_none_iff_exists'.1 (mt memKindOf_none.1 (by omega))
  refine ⟨_, by simp only [checkDescriptor, hl, hm, hs, hk, verifyOf_eq, hv, hn, dite_true, if_true]; rfl, ?_⟩
  exact ⟨rfl, rfl, hk, rfl, rfl, rfl, rfl, rfl, rfl, rfl, rfl, rfl⟩

/-- R2: no other descriptor is. -/
theorem checkDescriptor_of_not_legal {r : RawDescriptor} (h : ¬legalDescriptor r) : checkDescriptor r = none := by
  rw [legalDescriptor_iff] at h
  unfold checkDescriptor
  split_ifs with hl hm hs hn
  · split
    · rename_i k v hk hv
      have hk2 : r.kind ≤ 2 := not_lt.1 (mt memKindOf_none.2 (by simp [hk]))
      have hv1 : r.verify ≤ 1 := by
        by_contra hc
        simp [verifyOf_eq, hc] at hv
      exact absurd ⟨hl, hm, hs, hk2, hv1, hn⟩ h
    · rfl
  · split <;> rfl
  all_goals rfl

/-- R3, R50: the model's check of a sequence for a kind of memory. -/
theorem sequenceFits_iff (q : Fin 32) (k : MemKind) : s.sequenceFits q k = true ↔ s.runnable q.val k := by
  unfold State.sequenceFits State.runnable
  rw [Option.any_eq_true]
  constructor
  · rintro ⟨x, hx, hk⟩
    exact ⟨q, x, rfl, hx, hk⟩
  · rintro ⟨n, x, hn, hx, hk⟩
    exact ⟨x, Fin.ext hn ▸ hx, hk⟩

/-- R3: another defined entry has the pair of link and memory id that the fields give. -/
theorem duplicatePair_iff (i : Fin 64) {r : RawDescriptor} {d : Descriptor} (h : spellsDescriptor r d) :
    s.duplicatePair i d = true ↔
      ∃ j : Fin 64, j.val ≠ i.val ∧ (s.entry j).state ≠ .vacant ∧
        ∃ x, (s.entry j).descriptor = some x ∧ x.link.val = r.link ∧ x.memId.val = r.memId := by
  obtain ⟨hl, hm, -⟩ := h
  simp only [State.duplicatePair, allInsts, List.any_eq_true, List.mem_finRange, true_and, Bool.and_eq_true, bne_iff_ne,
    Option.any_eq_true, beq_iff_eq, ← hl, ← hm, Fin.val_inj, ne_eq, and_assoc]

/-- R12: the checks of DEFINE from the fourth on. -/
theorem defineCheck_decided (i : Fin 64) (r : RawDescriptor) :
    decidedBy
      [((s.entry i).state.busy = true, .busy), ((s.entry i).live = true, .live), (¬legalDescriptor r, .badRange),
        (¬∃ k, memKindOf r.kind = some k ∧ s.runnable r.defaultSequence k, .badSequence),
        (∃ j : Fin 64, j.val ≠ i.val ∧ (s.entry j).state ≠ .vacant ∧
          ∃ d, (s.entry j).descriptor = some d ∧ d.link.val = r.link ∧ d.memId.val = r.memId, .badRange)]
      (s.defineCheck i r) := by
  unfold State.defineCheck
  refine decidedBy_ite Iff.rfl fun _ => decidedBy_ite Iff.rfl fun _ => ?_
  by_cases hr : legalDescriptor r
  · obtain ⟨d, hd, hs⟩ := checkDescriptor_of_legal hr
    have ⟨_, _, hk, _, _, _, _, _, hq, _⟩ := hs
    rw [hd]
    refine decidedBy_skip (not_not.2 hr) (decidedBy_ite ?_ fun _ => decidedBy_ite (duplicatePair_iff s i hs) fun _ => ?_)
    · simp [hk, ← hq, ← sequenceFits_iff]
    · exact not_refusedBy_nil
  · rw [checkDescriptor_of_not_legal hr]
    exact .inl ⟨hr, rfl⟩

/-- R13: an accepted DEFINE keeps every pending response. -/
theorem define_response (i : Fin 64) (d : Descriptor) : ((s.define i d).port p).response = (s.port p).response := by
  have h : Kept s ((s.dropRenamedPull i d).emptyLog i) := by
    refine Kept.emptyLog ?_ i
    unfold State.dropRenamedPull
    split
    · exact .refl s
    · split
      · exact ((Kept.refl s).send _ _).modLink _ _
      · exact .refl s
  exact h.response _

theorem define_replies (n : Nat) (r : RawDescriptor) : s.repliesTo (.define p n r) p .define := by
  refine ⟨_, rfl, repliesBy_gatePort ?_⟩
  rintro rfl
  refine repliesBy_gateOwned ?_
  rintro i rfl
  have h := defineCheck_decided s i r
  rw [entryAt_val]
  unfold State.defineRequest
  cases hc : s.defineCheck i r with
  | error st => rw [hc] at h; exact repliesBy_refuse h
  | ok d => rw [hc] at h; exact repliesBy_ok h (define_response s _ i d)

/-! ### GUARD and UNGUARD (R31, R32) -/

/-- R31: the checks of GUARD and UNGUARD from the fourth on. -/
theorem guardCheck_decided (e : Entry) (a b : Nat) (set : Bool) :
    decidedBy
      [(e.state = .vacant ∨ e.descriptor = none, .noDescriptor), (e.state.busy = true, .busy),
        (b < a ∨ ∃ d, e.descriptor = some d ∧ d.rows ≤ b, .badRange),
        (4 < (changedRanges e.guards a b set).length, .guardFull)]
      (guardCheck e a b set) := by
  unfold guardCheck
  cases hd : e.descriptor with
  | none => exact .inl ⟨.inr rfl, rfl⟩
  | some d =>
    refine decidedBy_ite (by simp) fun _ => decidedBy_ite Iff.rfl fun _ => decidedBy_ite (by simp) fun _ => ?_
    exact decidedBy_last not_lt.symm

/-- R31, R32: GUARD and UNGUARD after the ownership check. -/
theorem guardRequest_replies (k : RequestKind) (set : Bool) (a b : Nat) (i : Fin 64) :
    s.repliesBy (s.guardRequest p k set a b i) p k
      [((s.entry i).state = .vacant ∨ (s.entry i).descriptor = none, .noDescriptor), ((s.entry i).state.busy = true, .busy),
        (b < a ∨ ∃ d, (s.entry i).descriptor = some d ∧ d.rows ≤ b, .badRange),
        (4 < (changedRanges (s.entry i).guards a b set).length, .guardFull)] := by
  have h := guardCheck_decided (s.entry i) a b set
  unfold State.guardRequest
  cases hc : guardCheck (s.entry i) a b set with
  | error st => rw [hc] at h; exact repliesBy_refuse h
  | ok after => rw [hc] at h; exact repliesBy_ok h rfl

theorem guard_replies (n a b : Nat) : s.repliesTo (.guard p n a b) p .guard := by
  refine ⟨_, rfl, repliesBy_gatePort ?_⟩
  rintro rfl
  refine repliesBy_gateOwned ?_
  rintro i rfl
  rw [entryAt_val]
  exact guardRequest_replies s _ .guard true a b i

theorem unguard_replies (n a b : Nat) : s.repliesTo (.unguard p n a b) p .unguard := by
  refine ⟨_, rfl, repliesBy_gatePort ?_⟩
  rintro rfl
  refine repliesBy_gateOwned ?_
  rintro i rfl
  rw [entryAt_val]
  exact guardRequest_replies s _ .unguard false a b i

/-! ### TEST (R59) -/

theorem urgencyOf_none {n : Nat} : urgencyOf n = none ↔ 1 < n := by
  match n with
  | 0 | 1 => simp [urgencyOf]
  | n + 2 => simp [urgencyOf]

/-- R50: the checks of the sequence a TEST names, or of the default. -/
theorem chooseSequence_decided (d : Descriptor) (named : Option Nat) :
    decidedBy
      [(∃ q, named = some q ∧ 31 < q, .badRange), (¬s.runnable (named.getD d.defaultSequence.val) d.kind, .badSequence)]
      (s.chooseSequence d named) := by
  unfold State.chooseSequence
  cases named with
  | none => exact decidedBy_skip (by simp) (decidedBy_last (by simp [sequenceFits_iff]))
  | some n =>
    by_cases hn : n < 32
    · simp only [hn, dite_true]
      exact decidedBy_skip (by simp; omega) (decidedBy_last (by simp [sequenceFits_iff]))
    · simp only [hn, dite_false]
      exact .inl ⟨⟨n, rfl, by omega⟩, rfl⟩

/-- R59: the checks of TEST from the third on. -/
theorem testCheck_decided (i : Fin 64) (named : Option Nat) (urgency : Nat) :
    decidedBy
      [((s.entry i).state = .vacant ∨ (s.entry i).descriptor = none, .noDescriptor),
        ((s.entry i).state = .retired ∨ (s.entry i).state = .faulted, .wrongState), ((s.entry i).live = true, .live),
        (1 < urgency, .badRange), (∃ q, named = some q ∧ 31 < q, .badRange),
        (¬∃ d, (s.entry i).descriptor = some d ∧ s.runnable (named.getD d.defaultSequence.val) d.kind, .badSequence),
        (∃ d, (s.entry i).descriptor = some d ∧ s.linkUp d.link = false, .linkDown)]
      (s.testCheck i named urgency) := by
  unfold State.testCheck
  dsimp only
  cases hd : (s.entry i).descriptor with
  | none => exact .inl ⟨.inr rfl, rfl⟩
  | some d =>
    simp only [Option.some.injEq, exists_eq_left']
    refine decidedBy_ite (by simp) fun _ => decidedBy_ite Iff.rfl fun _ => decidedBy_ite Iff.rfl fun _ => ?_
    cases hu : urgencyOf urgency with
    | none => exact .inl ⟨urgencyOf_none.1 hu, rfl⟩
    | some u =>
      refine decidedBy_skip (mt urgencyOf_none.2 (by simp [hu])) ?_
      have hs := chooseSequence_decided s d named
      cases hc : s.chooseSequence d named with
      | error st => rw [hc] at hs; exact refusedBy_append hs
      | ok q =>
        rw [hc] at hs
        exact decidedBy_append hs (decidedBy_last (by simp))

theorem test_replies (n : Nat) (named : Option Nat) (urgency : Nat) : s.repliesTo (.test p n named urgency) p .test := by
  refine ⟨_, rfl, repliesBy_gateOwned ?_⟩
  rintro i rfl
  have h := testCheck_decided s i named urgency
  rw [entryAt_val]
  unfold State.testRequest
  cases hc : s.testCheck i named urgency with
  | error st => rw [hc] at h; exact repliesBy_refuse h
  | ok r => rw [hc] at h; exact repliesBy_ok h (((Kept.refl s).acceptTest ..).response _)

/-! ### STOP (R77) -/

/-- R77: without a job there is nothing to stop. -/
theorem stopRequest_of_idle {i : Fin 64} (hv : (s.entry i).state ≠ .vacant) (h : (s.entry i).state.busy = false) :
    s.stopRequest p i = s.refuse p .stop .wrongState := by
  unfold State.stopRequest
  cases hs : (s.entry i).state <;> simp_all [InstState.busy]

/-- R77: stopping a job is work of the part, answered OK. -/
theorem stopRequest_of_busy {i : Fin 64} (h : (s.entry i).state.busy = true) :
    ∃ t d, Kept s t ∧ s.stopRequest p i = t.ok p .stop (.stop d) := by
  have hd := (Kept.refl s).dropFollowUp i
  unfold State.stopRequest
  rcases (busy_iff _).1 h with hs | hs | hs | hs | hs <;> rw [hs]
  · exact ⟨_, _, hd.cutShort i .stop, rfl⟩
  · exact ⟨_, _, hd.stopRunning i, rfl⟩
  · exact ⟨_, _, (hd.cutShort i .stop).turnSuspender _, rfl⟩
  · exact ⟨_, _, hd.cutShort i .stop, rfl⟩
  · exact ⟨_, _, hd, rfl⟩

theorem stop_replies (n : Nat) : s.repliesTo (.stop p n) p .stop := by
  refine ⟨_, rfl, repliesBy_gateOwned ?_⟩
  rintro i rfl
  rw [entryAt_val]
  by_cases hv : (s.entry i).state = .vacant
  · unfold State.stopRequest
    rw [hv]
    exact repliesBy_refuse (.inl ⟨rfl, rfl⟩)
  · refine repliesBy_skip hv ?_
    cases hb : (s.entry i).state.busy with
    | false =>
      rw [stopRequest_of_idle s p hv hb]
      exact repliesBy_refuse (.inl ⟨rfl, rfl⟩)
    | true =>
      obtain ⟨t, d, ht, he⟩ := stopRequest_of_busy s p hb
      rw [he]
      exact repliesBy_skip (by simp) (repliesBy_kept ht)

/-! ### RETIRE and REQUALIFY (R17, R20) -/

/-- R17: RETIRE after the index and ownership checks. -/
theorem retireRequest_replies (i : Fin 64) :
    s.repliesBy (s.retireRequest p i) p .retire
      [((s.entry i).state = .vacant, .noDescriptor), (p = .card ∧ (s.entry i).live = true, .live)] :=
  repliesBy_ite Iff.rfl fun _ => repliesBy_ite Iff.rfl fun _ => repliesBy_kept ((Kept.refl s).retire i)

theorem retire_replies (n : Nat) : s.repliesTo (.retire p n) p .retire := by
  refine ⟨_, rfl, ?_⟩
  cases p with
  | card =>
    simp only [State.refusals, true_and]
    refine repliesBy_gateOwned ?_
    rintro i rfl
    simpa using retireRequest_replies s .card i
  | chassis =>
    refine repliesBy_gateIndex ?_
    rintro i rfl
    rw [entryAt_val]
    exact repliesBy_skip (by simp) (retireRequest_replies s .chassis i)

theorem requalify_replies : s.repliesTo (.requalify p) p .requalify :=
  ⟨_, rfl, repliesBy_gatePort fun _ => repliesBy_kept (Kept.refl s).requalifyAll⟩

/-! ### CLAIM, RELEASE and BREAK (R25, R27, R28) -/

/-- R24: owners are set without touching a port. -/
@[simp] theorem setOwners_port (q : Fin 64 → Bool) (o : Owner) : (s.setOwners q o).port p = s.port p := by
  obtain ⟨tb, h⟩ := setOwners_table s q o
  rw [h]
  cases p <;> rfl

theorem greedyOf_none {n : Nat} : greedyOf n = none ↔ 1 < n := by
  match n with
  | 0 | 1 => simp [greedyOf]
  | n + 2 => simp [greedyOf]

theorem claim_replies (m : Mask) (mode : Nat) : s.repliesTo (.claim p m mode) p .claim := by
  refine ⟨_, rfl, ?_⟩
  cases hg : greedyOf mode with
  | none => exact repliesBy_refuse (.inl ⟨.inl (greedyOf_none.1 hg), rfl⟩)
  | some greedy =>
    have hm : ¬1 < mode := mt greedyOf_none.2 (by simp [hg])
    refine repliesBy_ite (by simp [hm]) fun _ => repliesBy_ok not_refusedBy_nil ?_
    split
    · rw [setOwners_port]
    · rfl

theorem release_replies (m : Mask) : s.repliesTo (.release p m) p .release :=
  ⟨_, rfl, repliesBy_ok not_refusedBy_nil (by rw [setOwners_port])⟩

theorem breakClaim_replies (m : Mask) : s.repliesTo (.breakClaim p m) p .breakClaim := by
  refine ⟨_, rfl, repliesBy_gatePort fun _ => repliesBy_ite Iff.rfl fun _ => repliesBy_ok not_refusedBy_nil ?_⟩
  split
  · rw [setOwners_port]
  · cases p <;> simp [State.raise, otherPort]

/-! ### The library (R47 to R49, R55) -/

theorem mem_indexRun {start n k : Nat} : k ∈ indexRun start n ↔ start ≤ k ∧ k < start + n := by
  simp only [indexRun, List.mem_map, List.mem_range]
  constructor
  · rintro ⟨j, hj, rfl⟩
    omega
  · rintro ⟨h1, h2⟩
    exact ⟨k - start, by omega, by omega⟩

/-- R49: the mask of the instances that hold some index of a run is empty exactly when none holds one. -/
theorem holders_eq_zero {start n : Nat} {q : Fin 64 → Nat → Bool} :
    (maskOf fun i => (indexRun start n).any (q i)) = 0 ↔ ¬∃ i k, start ≤ k ∧ k < start + n ∧ q i k = true := by
  simp only [maskOf_eq_zero, List.any_eq_false, mem_indexRun, not_exists, not_and, and_imp]

/-- R49: the last check of a load, made before its writes. -/
theorem repliesBy_load {k : RequestKind} {busy : Prop} {holders : Mask} {t : State} {n : Nat} (hb : holders = 0 ↔ ¬busy)
    (ht : (t.port (otherPort p)).response = (s.port (otherPort p)).response) :
    s.repliesBy (if holders = 0 then t.ok p k (.written n) else s.answer p k .libraryBusy (.mask holders)) p k
      [(busy, .libraryBusy)] := by
  split
  · exact repliesBy_skip (hb.1 ‹_›) (repliesBy_ok not_refusedBy_nil ht)
  · exact repliesBy_answer (.inl ⟨not_not.1 (mt hb.2 ‹_›), rfl⟩) (absurd rfl)

theorem writeElements_port (start : Nat) (es : List Element) : (s.writeElements start es).port p = s.port p := by
  obtain ⟨v, h⟩ := writeElements_elements es s start
  rw [h]
  cases p <;> rfl

theorem writeDirectory_port (start : Nat) (es : List (Option DirectoryEntry)) :
    (s.writeDirectory start es).port p = s.port p := by
  obtain ⟨v, h⟩ := writeDirectory_directory es s start
  rw [h]
  cases p <;> rfl

theorem loadElements_replies (start : Nat) (rs : List RawElement) :
    s.repliesTo (.loadElements p start rs) p .loadElements := by
  refine ⟨_, rfl, repliesBy_gatePort fun _ => repliesBy_ite Iff.rfl fun hn => repliesBy_ite ?_ fun _ => ?_⟩
  · unfold Config.firstLoadableElement
    omega
  · cases hm : rs.mapM checkElement with
    | none =>
      obtain ⟨r, hr, hc⟩ := (mapM_none checkElement rs).1 hm
      exact repliesBy_refuse (.inl ⟨⟨r, hr, (checkElement_none r).1 hc⟩, rfl⟩)
    | some es =>
      have hl : ¬∃ r ∈ rs, ¬legalElement r := fun ⟨r, hr, hc⟩ => by
        simp [(mapM_none checkElement rs).2 ⟨r, hr, (checkElement_none r).2 hc⟩] at hm
      refine repliesBy_skip hl (repliesBy_load s p ?_ (by rw [writeElements_port]))
      simp only [holders_eq_zero, holdsElement_iff]

theorem loadDirectory_replies (start : Nat) (rs : List RawDirectoryEntry) :
    s.repliesTo (.loadDirectory p start rs) p .loadDirectory := by
  refine ⟨_, rfl, repliesBy_gatePort fun _ => repliesBy_ite Iff.rfl fun hn => repliesBy_ite ?_ fun hr => ?_⟩
  · unfold Config.firstLoadableEntry
    omega
  · cases hm : rs.mapM checkDirectoryEntry with
    | none =>
      obtain ⟨r, hr, hc⟩ := (mapM_none checkDirectoryEntry rs).1 hm
      exact repliesBy_refuse (.inl ⟨⟨r, hr, (checkDirectoryEntry_none r).1 hc⟩, rfl⟩)
    | some es =>
      have hl : ¬∃ r ∈ rs, ¬legalDirectoryEntry r := fun ⟨r, hr, hc⟩ => by
        simp [(mapM_none checkDirectoryEntry rs).2 ⟨r, hr, (checkDirectoryEntry_none r).2 hc⟩] at hm
      refine repliesBy_skip hl (repliesBy_load s p (holders_eq_zero.trans (not_congr ?_)) (by rw [writeDirectory_port]))
      refine exists_congr fun i => ⟨fun ⟨k, h1, h2, hk⟩ => ?_, fun ⟨q, h1, h2, hq⟩ => ?_⟩
      · exact ⟨⟨k, by omega⟩, h1, h2, (holdsEntry_iff s i ⟨k, by omega⟩).1 hk⟩
      · exact ⟨q, h1, h2, (holdsEntry_iff s i q).2 hq⟩

theorem library_replies (sel first count : Nat) : s.repliesTo (.library p sel first count) p .library := by
  refine ⟨_, rfl, ?_⟩
  match sel with
  | 0 =>
    refine repliesBy_skip (by simp) ?_
    by_cases h : first < 32
    · simp only [h, dite_true]
      exact repliesBy_skip (by omega) (repliesBy_skip (by simp) repliesBy_read)
    · simp only [h, dite_false]
      exact repliesBy_refuse (.inl ⟨⟨trivial, by omega⟩, rfl⟩)
  | 1 => exact repliesBy_skip (by simp) (repliesBy_skip (by simp) (repliesBy_ite (by omega) fun _ => repliesBy_read))
  | n + 2 => exact repliesBy_refuse (.inl ⟨by omega, rfl⟩)

/-! ### BUDGET and CAP (R152) -/

theorem armRequest_replies (k : RequestKind) (d : DeadlineName) (n : Nat) :
    s.repliesBy (s.armRequest p k d n) p k [(600000 < n, .badRange)] :=
  repliesBy_ite Iff.rfl fun _ => repliesBy_ok not_refusedBy_nil (by rw [State.setDeadline_port])

theorem budget_replies (n : Nat) : s.repliesTo (.budget p n) p .budget :=
  ⟨_, rfl, repliesBy_gatePort fun _ => armRequest_replies s p .budget .card n⟩

theorem cap_replies (n : Nat) : s.repliesTo (.cap p n) p .cap :=
  ⟨_, rfl, repliesBy_gatePort fun _ => armRequest_replies s p .cap .chassis n⟩

/-! ### COMMIT and CLEAR_STORE (R163, R165) -/

/-- R163, R165: the start of a store operation keeps every pending response. -/
theorem startStore_response (k : StoreOpKind) (ws : List SectionWrite) :
    ((s.startStore k ws).port p).response = (s.port p).response := by
  cases ws <;> cases p <;> rfl

theorem commit_replies (m : Mask) : s.repliesTo (.commit p m) p .commit := by
  refine ⟨_, rfl, repliesBy_ite Iff.rfl fun _ => repliesBy_ite ?_ fun _ => repliesBy_ite ?_ fun _ => ?_⟩
  · simp [allInsts, State.owns]
  · rw [Option.isSome_iff_ne_none]
  · exact repliesBy_ok not_refusedBy_nil (startStore_response ..)

theorem clearStore_replies (m : Mask) : s.repliesTo (.clearStore p m) p .clearStore := by
  refine ⟨_, rfl, repliesBy_gatePort fun _ => repliesBy_ite Iff.rfl fun _ => repliesBy_ite ?_ fun _ => ?_⟩
  · rw [Option.isSome_iff_ne_none]
  · exact repliesBy_ok not_refusedBy_nil (startStore_response ..)

/-! ### Reads and notices (R170, R172, R173) -/

theorem status_replies (n : Nat) : s.repliesTo (.status p n) p .status :=
  ⟨_, rfl, repliesBy_gateIndex fun _ _ => repliesBy_read⟩

theorem fails_replies (n start : Nat) : s.repliesTo (.fails p n start) p .fails :=
  ⟨_, rfl, repliesBy_gateIndex fun _ _ => repliesBy_read⟩

theorem map_replies (n : Nat) : s.repliesTo (.map p n) p .map :=
  ⟨_, rfl, repliesBy_gateIndex fun _ _ => repliesBy_read⟩

/-- R172: the codes 1 to 7 name the kinds. -/
theorem noticeKindOf_none {k : Nat} : noticeKindOf k = none ↔ k = 0 ∨ 7 < k := by
  simp only [noticeKindOf, noticeKinds, List.find?_eq_none, List.forall_mem_cons, NoticeKind.code, beq_iff_eq,
    List.not_mem_nil, false_implies, implies_true, and_true]
  omega

theorem takeNotice_replies (k : Nat) : s.repliesTo (.takeNotice p k) p .takeNotice := by
  refine ⟨_, rfl, ?_⟩
  cases hk : noticeKindOf k with
  | none => exact repliesBy_refuse (.inl ⟨noticeKindOf_none.1 hk, rfl⟩)
  | some x =>
    refine repliesBy_skip (mt noticeKindOf_none.2 (by simp [hk])) (repliesBy_ok not_refusedBy_nil ?_)
    simp [State.removeNotice, otherPort_ne]

theorem noticeMask_replies (m : Byte) : s.repliesTo (.noticeMask p m) p .noticeMask :=
  ⟨_, rfl, repliesBy_ok not_refusedBy_nil (by simp [otherPort_ne])⟩

/-- R168, R169: every request is replied to as its rule's checks say. -/
theorem request_replies {c : Instr} {p : Port} {k : RequestKind} (h : requestKindOf c = some (p, k)) :
    s.repliesTo c p k := by
  cases c
  case define => cases h; exact define_replies ..
  case retire => cases h; exact retire_replies ..
  case requalify => cases h; exact requalify_replies ..
  case test => cases h; exact test_replies ..
  case stop => cases h; exact stop_replies ..
  case guard => cases h; exact guard_replies ..
  case unguard => cases h; exact unguard_replies ..
  case claim => cases h; exact claim_replies ..
  case release => cases h; exact release_replies ..
  case breakClaim => cases h; exact breakClaim_replies ..
  case loadElements => cases h; exact loadElements_replies ..
  case loadDirectory => cases h; exact loadDirectory_replies ..
  case budget => cases h; exact budget_replies ..
  case cap => cases h; exact cap_replies ..
  case commit => cases h; exact commit_replies ..
  case clearStore => cases h; exact clearStore_replies ..
  case status => cases h; exact status_replies ..
  case fails => cases h; exact fails_replies ..
  case map => cases h; exact map_replies ..
  case library => cases h; exact library_replies ..
  case takeNotice => cases h; exact takeNotice_replies ..
  case noticeMask => cases h; exact noticeMask_replies ..
  case queue | engines | links | time => cases h; exact ⟨_, rfl, repliesBy_read⟩
  all_goals cases h

end Requests

end Sys2Proof.Machine

open Sys2Proof Sys2Proof.Machine

/-- Settles O3: R23's entry is the model's own, and R167's section is the only one a part reset writes. -/
theorem partResetInstances : Obligations.PartResetInstances := by
  intro pins s
  exact ⟨_, rfl, entry_reset, sectionsAfterReset_get s⟩

/-- Settles O17: by the request, each one's gates and checks in the order of its rule. -/
theorem requestsAnsweredOrRefused : Obligations.RequestsAnsweredOrRefused := by
  intro c p k s h
  obtain ⟨t, ht, r, hr⟩ := request_replies s h
  exact ⟨t, r, ht, hr⟩
end

section
/-!
PROOF. CLAIM (R25): one setting of owners, over the free masked instances when the mode lets it take them, and an answer with the held ones.
-/

namespace Sys2Proof.Machine

open Sys2Proof

section Owners

variable (s : State) (p : Port)

/-! ### A request that sets owners and answers OK -/

/-- R24: setting the owners of none leaves the state as it is. -/
theorem setOwners_nowhere (o : Owner) : s.setOwners (fun _ => false) o = s :=
  List.foldl_fixed allInsts

/-- R168: an OK answer, given after work that keeps both ports, changes one pending response and no other part of a port. -/
theorem answered_ok {t : State} (k : RequestKind) (pl : Payload) (h : ∀ q, t.port q = s.port q) :
    s.answered (t.ok p k pl) p k .ok pl :=
  ⟨by rw [State.ok, port_answer, h], by rw [State.ok, port_other_answer, h]⟩

/-- R24: a request that sets owners and answers OK touches the table and the ports alone. -/
theorem setOwners_ok_frame (q : Fin 64 → Bool) (o : Owner) (k : RequestKind) (pl : Payload) {t : State}
    (ht : t = (s.setOwners q o).ok p k pl) :
    t = { s with table := t.table, cardPort := t.cardPort, chassisPort := t.chassisPort } := by
  obtain ⟨tb, htb⟩ := setOwners_table s q o
  rw [ht, htb]
  cases p <;> rfl

/-- R168: an OK answer keeps every entry of the table. -/
@[simp] theorem ok_entry (k : RequestKind) (pl : Payload) (i : Fin 64) : (s.ok p k pl).entry i = s.entry i :=
  State.modPort_entry ..

/-! ### CLAIM (R25) -/

/-- R25: the held mask has the masked instances that the other port owns. -/
theorem inMask_heldMask (m : Mask) (i : Fin 64) :
    inMask (s.heldMask p m) i = true ↔ inMask m i = true ∧ (s.entry i).owner = portOwner (otherPort p) := by
  simp [State.heldMask, State.owns]

/-- The modes of CLAIM: 1 is GREEDY, 0 is not. -/
theorem greedyOf_of_le {n : Nat} (h : n ≤ 1) : greedyOf n = some (n == 1) := by
  match n with
  | 0 | 1 => rfl

/-- R25: CLAIM `m` in mode `mode` takes `i`: it is masked and free, and either no masked one is held or the mode is
GREEDY. -/
def State.claims (s : State) (p : Port) (m : Mask) (mode : Nat) (i : Fin 64) : Bool :=
  inMask m i && !inMask (s.heldMask p m) i && (s.heldMask p m = 0 || mode == 1)

theorem claims_iff (m : Mask) (mode : Nat) (i : Fin 64) :
    s.claims p m mode i = true ↔
      inMask m i = true ∧ inMask (s.heldMask p m) i = false ∧ (s.heldMask p m = 0 ∨ mode = 1) := by
  simp [State.claims, and_assoc]

/-- R25: an empty mask or a bad mode is refused. -/
theorem execClaim_refused {m : Mask} {mode : Nat} (h : m = 0 ∨ 1 < mode) :
    execClaim p m mode s = .next (s.refuse p .claim .badRange) := by
  unfold execClaim
  cases hg : greedyOf mode with
  | none => rfl
  | some greedy =>
    have hmode : ¬1 < mode := mt greedyOf_none.2 (by simp [hg])
    exact congrArg _ (if_pos (h.resolve_right hmode))

/-- R25: every other CLAIM sets the owner of the instances it takes, and answers with its result and the held mask. -/
theorem execClaim_accepted {m : Mask} {mode : Nat} (hm : m ≠ 0) (hmode : mode ≤ 1) :
    execClaim p m mode s =
      .next ((s.setOwners (s.claims p m mode) (portOwner p)).ok p .claim
        (.claim (claimResult m (s.heldMask p m)) (s.heldMask p m))) := by
  have taken : (if s.heldMask p m = 0 || mode == 1 then
      s.setOwners (fun i => inMask m i && !inMask (s.heldMask p m) i) (portOwner p) else s) =
        s.setOwners (s.claims p m mode) (portOwner p) := by
    unfold State.claims
    cases s.heldMask p m = 0 || mode == 1 with
    | true => simp
    | false => simp [setOwners_nowhere]
  rw [← taken]
  simp only [execClaim, greedyOf_of_le hmode, if_neg hm]

end Owners

end Sys2Proof.Machine

open Sys2Proof Sys2Proof.Machine

/-- Settles O7: a CLAIM is refused, or it sets the owners of the instances it takes and answers with the held mask. -/
theorem claimTakesFreeInstances : Obligations.ClaimTakesFreeInstances := by
  intro p m mode s
  by_cases h : m = 0 ∨ 1 < mode
  · exact ⟨_, execClaim_refused s p h, fun _ => rfl, fun hm hmode => absurd h (not_or.2 ⟨hm, not_lt.2 hmode⟩)⟩
  · obtain ⟨hm, hmode⟩ := not_or.1 h
    refine ⟨_, execClaim_accepted s p hm (not_lt.1 hmode), fun h' => absurd h' h, fun _ _ => ?_⟩
    refine ⟨s.heldMask p m, inMask_heldMask s p m, answered_ok s p _ _ fun q => setOwners_port .., fun i => ?_,
      setOwners_ok_frame s p _ _ _ _ rfl⟩
    simp only [ok_entry, entry_setOwners, claims_iff]
end

section
/-!
PROOF. TEST (R59 to R61): what the checks of an accepted TEST come to, and the new job of an instance without one: a write of its
entry, an entry at the tail of the Work Queue, and an OK answer.
-/

namespace Sys2Proof.Machine

open Sys2Proof

section Tests

variable (s : State) (p : Port)

/-! ### The checks of an accepted TEST (R29, R50, R59) -/

/-- R29: a request passes the gate of the instance its port owns. -/
theorem gateOwned_of_owner {i : Fin 64} (h : (s.entry i).owner = portOwner p) (k : RequestKind) (act : Fin 64 → State) :
    s.gateOwned p k i.val act = act i := by
  simp [State.gateOwned, instIndex_val, State.owns, h]

/-- The urgency that a TEST's flag names. -/
def urgencyFor (urgent : Bool) : Urgency := if urgent then .urgent else .normal

/-- Section 11.5: the flag's number spells the urgency it names. -/
@[simp] theorem urgencyOf_toNat (urgent : Bool) : urgencyOf urgent.toNat = some (urgencyFor urgent) := by
  cases urgent <;> rfl

/-- R58: a TEST's Work Queue entry has the class its flag names. -/
@[simp] theorem urgencyClass_urgencyFor (urgent : Bool) :
    State.urgencyClass (urgencyFor urgent) = if urgent then .urgent else .normal := by
  cases urgent <;> rfl

/-- R50: the sequence named, or else the default, is taken when it may be run on the memory's kind. -/
theorem chooseSequence_of_runnable {d : Descriptor} {named : Option Nat} {q : Fin 32}
    (hq : q.val = named.getD d.defaultSequence.val) (hr : s.runnable q.val d.kind) : s.chooseSequence d named = .ok q := by
  have hf : s.sequenceFits q d.kind = true := (sequenceFits_iff s q d.kind).2 hr
  unfold State.chooseSequence
  cases named with
  | none =>
    obtain rfl : q = d.defaultSequence := Fin.ext hq
    exact if_pos hf
  | some n =>
    obtain rfl : q.val = n := hq
    simp only [q.isLt, dite_true]
    exact if_pos hf

/-- R59: a TEST whose checks all pass is taken with its sequence and its urgency. -/
theorem testCheck_accepted {i : Fin 64} {named : Option Nat} {urgent : Bool} {d : Descriptor} {q : Fin 32}
    (hd : (s.entry i).descriptor = some d) (hv : (s.entry i).state ≠ .vacant)
    (hs : ¬((s.entry i).state = .retired ∨ (s.entry i).state = .faulted)) (hl : (s.entry i).live = false)
    (hq : q.val = named.getD d.defaultSequence.val) (hr : s.runnable q.val d.kind) (hu : s.linkUp d.link = true) :
    s.testCheck i named urgent.toNat = .ok (q, urgencyFor urgent) := by
  simp [State.testCheck, hd, hv, hs, hl, chooseSequence_of_runnable s hq hr, hu]

/-- R59, R60: the owner's TEST whose checks all pass is disposed of as its instance's state says, and answered with that. -/
theorem execTest_accepted {i : Fin 64} {named : Option Nat} {urgent : Bool} {d : Descriptor} {q : Fin 32}
    (ho : (s.entry i).owner = portOwner p) (hd : (s.entry i).descriptor = some d) (hv : (s.entry i).state ≠ .vacant)
    (hs : ¬((s.entry i).state = .retired ∨ (s.entry i).state = .faulted)) (hl : (s.entry i).live = false)
    (hq : q.val = named.getD d.defaultSequence.val) (hr : s.runnable q.val d.kind) (hu : s.linkUp d.link = true) :
    execTest p i.val named urgent.toNat s =
      .next ((s.acceptTest p i q (urgencyFor urgent)).ok p .test (.test (s.testDisposition i))) := by
  rw [execTest, gateOwned_of_owner s p ho, State.testRequest, testCheck_accepted s hd hv hs hl hq hr hu]

/-! ### The new job of an instance without one (R60, R61) -/

/-- R4, R60: an instance is ready for a new job when it is DEFINED, usable or UNREPAIRABLE. -/
def InstState.ready (st : InstState) : Prop := st = .defined ∨ st.usable = true ∨ st = .unrepairable

theorem ready_iff (st : InstState) :
    st.ready ↔ st = .defined ∨ st = .clean ∨ st = .repaired ∨ st = .abandoned ∨ st = .unrepairable := by
  cases st <;> simp [InstState.ready, InstState.usable]

/-- R59: the state of an instance ready for a new job refuses no TEST. -/
theorem InstState.ready.admitsTest {st : InstState} (h : st.ready) : st ≠ .vacant ∧ ¬(st = .retired ∨ st = .faulted) := by
  rcases (ready_iff st).1 h with rfl | rfl | rfl | rfl | rfl <;> decide

/-- R60: a TEST of an instance ready for a new job is QUEUED. -/
theorem testDisposition_of_ready {i : Fin 64} (h : (s.entry i).state.ready) : s.testDisposition i = .queued := by
  unfold State.testDisposition
  rcases (ready_iff _).1 h with h | h | h | h | h <;> rw [h]

/-- R60, R61: a TEST of an instance ready for a new job begins one. -/
theorem acceptTest_of_ready {i : Fin 64} (h : (s.entry i).state.ready) (q : Fin 32) (u : Urgency) :
    s.acceptTest p i q u = s.newJob i q u (portRequester p) := by
  rw [State.acceptTest, testDisposition_of_ready s h]

/-- R61: what a new job of sequence `q` makes of its instance's entry. -/
def Entry.withNewJob (e : Entry) (q : Fin 32) : Entry :=
  { e with
    state := .queued
    run := { e.run with jobSequence := some q, runCount := 0, runClass := none }
    flags := { e.flags with partialRun := false, untested := false }
    reason := .none
    settledReason := .none }

variable (i : Fin 64) (q : Fin 32) (u : Urgency) (r : Requester)

/-- R61: a new job writes the entry of its own instance alone. -/
@[simp] theorem newJob_entry (j : Fin 64) :
    (s.newJob i q u r).entry j = if j = i then (s.entry i).withNewJob q else s.entry j :=
  State.entry_modEntry s i j fun e => e.withNewJob q

/-- R58, R61: a new job's entry joins the Work Queue at its tail, stamped with the Time Base and with no engine reserved. -/
@[simp] theorem newJob_workQueue : (s.newJob i q u r).workQueue = s.workQueue ++ [⟨i, q, State.urgencyClass u, r, s.now, none⟩] := rfl

/-- R61: a new job touches no port. -/
@[simp] theorem newJob_port (p : Port) : (s.newJob i q u r).port p = s.port p := by cases p <;> rfl

/-- R168: an OK answer keeps the Work Queue. -/
@[simp] theorem ok_workQueue (k : RequestKind) (pl : Payload) : (s.ok p k pl).workQueue = s.workQueue := by cases p <;> rfl

/-- R61, R168: a new job answered OK touches the table, the Work Queue and the ports alone. -/
theorem newJob_ok_frame (k : RequestKind) (pl : Payload) {t : State} (ht : t = (s.newJob i q u r).ok p k pl) :
    t = { s with table := t.table, workQueue := t.workQueue, cardPort := t.cardPort, chassisPort := t.chassisPort } := by
  rw [ht]
  cases p <;> rfl

end Tests

end Sys2Proof.Machine

open Sys2Proof Sys2Proof.Machine

/-- Settles O28: the checks of R59 all pass, and the TEST is disposed of as a new job. -/
theorem testBeginsNewJob : Obligations.TestBeginsNewJob := by
  intro p i named urgent d q s ho hd hst hl hq hr hu
  have ready : (s.entry i).state.ready := hst
  obtain ⟨hv, hs⟩ := ready.admitsTest
  have hexec := execTest_accepted s p (urgent := urgent) ho hd hv hs hl hq hr hu
  rw [acceptTest_of_ready s p ready, testDisposition_of_ready s ready] at hexec
  refine ⟨_, hexec, ?entry, ?others, ?queue, answered_ok s p _ _ fun x => newJob_port .., newJob_ok_frame s p i q _ _ _ _ rfl⟩
  case entry => rw [ok_entry, newJob_entry, if_pos rfl, Entry.withNewJob]
  case others => exact fun j hj => by rw [ok_entry, newJob_entry, if_neg hj]
  case queue => rw [ok_workQueue, newJob_workQueue, urgencyClass_urgencyFor]
end

section
/-!
PROOF. The fail locator (R123): the offset where its scan stops and the number of 1s. Attribution (R124): in a map that names each line
once, the record of a line is the one its search finds.
-/

namespace Sys2Proof.Machine

open Sys2Proof

/-! ### The fail locator (R123) -/

section Locator

variable {v : List Bool}

/-- R123: the locator's count is the number of 1s of the vector. -/
theorem countP_id_eq_count_true (v : List Bool) : v.countP id = v.count true :=
  List.countP_congr fun b _ => by rw [id, beq_iff_eq]

/-- R123: a vector with no 1 gives the none result. -/
theorem locate_of_not_mem (h : true ∉ v) : locate v = none := by
  simp only [locate, countP_id_eq_count_true]
  exact if_pos (List.count_eq_zero.2 h)

/-- R123: a vector with a 1 gives the offset where the scan stops and the number of 1s. -/
theorem locate_of_mem (h : true ∈ v) : locate v = some ⟨v.findIdx id, v.count true⟩ := by
  simp only [locate, countP_id_eq_count_true]
  exact if_neg (List.count_pos_iff.2 h).ne'

/-- R123: the scan of a vector with a 1 stops at a 1. -/
theorem getElem?_findIdx_of_mem (h : true ∈ v) : v[v.findIdx id]? = some true := by
  have hlt : v.findIdx id < v.length := List.findIdx_lt_length_of_exists ⟨true, h, rfl⟩
  have hone : v[v.findIdx id] = true := List.findIdx_getElem (p := id)
  rw [List.getElem?_eq_getElem hlt, hone]

/-- R123: the scan passes over 0s alone. -/
theorem getElem?_of_lt_findIdx {k : Nat} (hk : k < v.findIdx id) : v[k]? = some false := by
  have hlt : k < v.length := hk.trans_le List.findIdx_le_length
  have hzero : v[k] = false := List.not_of_lt_findIdx hk
  rw [List.getElem?_eq_getElem hlt, hzero]

end Locator

/-! ### The fail of an entry (R122, R123) -/

section Fails

variable (rs : List RepairRecord) (row c : Nat) {v : List Bool}

/-- R123: the entry of a read-check yields a fail without bits. -/
theorem failOf_readCheck : failOf rs row ⟨c, none⟩ = some ⟨row, c, none, attributionOf rs row c⟩ := rfl

/-- R122, R123: the fail of an entry with a vector is what the locator says of the vector. -/
theorem failOf_vector (v : List Bool) :
    failOf rs row ⟨c, some v⟩ = (locate v).map fun b => ⟨row, c, some b, attributionOf rs row c⟩ := rfl

/-- R123: an entry whose vector has no 1 yields no fail. -/
theorem failOf_of_not_mem (h : true ∉ v) : failOf rs row ⟨c, some v⟩ = none := by
  rw [failOf_vector, locate_of_not_mem h, Option.map_none]

/-- R123: an entry whose vector has a 1 yields the fail of its cell with the locator's bits. -/
theorem failOf_of_mem (h : true ∈ v) :
    failOf rs row ⟨c, some v⟩ = some ⟨row, c, some ⟨v.findIdx id, v.count true⟩, attributionOf rs row c⟩ := by
  rw [failOf_vector, locate_of_mem h, Option.map_some]

end Fails

/-! ### Attribution (R124) -/

/-- R134: a map names each line in at most one record. -/
def namesLinesOnce (rs : List RepairRecord) : Prop :=
  ∀ a ∈ rs, ∀ b ∈ rs, a.kind = b.kind → a.line = b.line → a = b

/-- R124: the record of line `n` of kind `k` that attribution takes. -/
def lineRecord (rs : List RepairRecord) (k : LineKind) (n : Nat) : Option RepairRecord :=
  rs.find? fun r => r.kind == k && r.line == n

section Attribution

variable {rs : List RepairRecord} {k : LineKind} {n row c : Nat} {r : RepairRecord}

/-- R124: a line that no record names has none. -/
theorem lineRecord_eq_none (h : ∀ r ∈ rs, r.kind = k → r.line ≠ n) : lineRecord rs k n = none := by
  simpa [lineRecord, List.find?_eq_none] using h

/-- R124: what is found is a record of the map that names the line. -/
theorem lineRecord_eq_some (h : lineRecord rs k n = some r) : r ∈ rs ∧ r.kind = k ∧ r.line = n := by
  have hnames := List.find?_some h
  rw [Bool.and_eq_true, beq_iff_eq, beq_iff_eq] at hnames
  exact ⟨List.mem_of_find?_eq_some h, hnames⟩

/-- R124, R134: the record that names a line is the one found, because no other names it. -/
theorem lineRecord_of_mem (hu : namesLinesOnce rs) (hr : r ∈ rs) (hk : r.kind = k) (hn : r.line = n) :
    lineRecord rs k n = some r := by
  cases hx : lineRecord rs k n with
  | none => exact absurd (by simp [hk, hn]) (List.find?_eq_none.1 hx r hr)
  | some x =>
    obtain ⟨hmem, hxk, hxn⟩ := lineRecord_eq_some hx
    rw [hu x hmem r hr (hxk.trans hk.symm) (hxn.trans hn.symm)]

/-- R124: a column record of the cell's column comes first. -/
theorem attributionOf_of_column (h : lineRecord rs .column c = some r) : attributionOf rs row c = .spareColumn r.spare := by
  rw [lineRecord] at h
  rw [attributionOf, h]

/-- R124: without one, a row record of the cell's row. -/
theorem attributionOf_of_row (hc : lineRecord rs .column c = none) (h : lineRecord rs .row row = some r) :
    attributionOf rs row c = .spareRow r.spare := by
  rw [lineRecord] at hc h
  rw [attributionOf, hc, h]

/-- R124: without either, none. -/
theorem attributionOf_of_neither (hc : lineRecord rs .column c = none) (h : lineRecord rs .row row = none) :
    attributionOf rs row c = .uncovered := by
  rw [lineRecord] at hc h
  rw [attributionOf, hc, h]

end Attribution

end Sys2Proof.Machine

open Sys2Proof Sys2Proof.Machine

/-- Settles O42: the locator by whether the vector has a 1, attribution by the record found of the column and then of the row. -/
theorem failLocatorAndAttribution : Obligations.FailLocatorAndAttribution := by
  refine ⟨fun rs row c v => ⟨fun hnone => ?noOne, fun ⟨k, hk⟩ => ?aOne, failOf_readCheck rs row c⟩,
    fun rs row c hu => ⟨fun r hr hk hn => ?column, fun hcol => ⟨fun r hr hk hn => ?row, fun hrow => ?neither⟩⟩⟩
  case noOne => exact failOf_of_not_mem rs row c fun h => (List.mem_iff_getElem?.1 h).elim hnone
  case aOne =>
    have h : true ∈ v := List.mem_of_getElem? hk
    exact ⟨_, failOf_of_mem rs row c h, getElem?_findIdx_of_mem h, fun j hj => getElem?_of_lt_findIdx hj, rfl,
      List.count_pos_iff.2 h, List.count_le_length⟩
  case column => exact attributionOf_of_column (lineRecord_of_mem hu hr hk hn)
  case row => exact attributionOf_of_row (lineRecord_eq_none hcol) (lineRecord_of_mem hu hr hk hn)
  case neither => exact attributionOf_of_neither (lineRecord_eq_none hcol) (lineRecord_eq_none hrow)
end

section
/-!
PROOF. BUDGET and CAP (R152): past the privilege check both are one request, which refuses a duration out of range, or sets its compare and
answers OK with the compare and the Time Base.
-/

namespace Sys2Proof.Machine

open Sys2Proof

section Compares

variable (s : State) (p : Port) (k : RequestKind)

/-! ### Refusals (R29, R169) -/

/-- R169: a refusal is a response with its status and nothing else. -/
theorem refused_refuse (st : Status) : s.refused (s.refuse p k st) p k st := rfl

/-- R29: a request from the one port that may send it passes the privilege check. -/
@[simp] theorem gatePort_self (act : State) : s.gatePort p p k act = act := if_pos rfl

/-- R29: the same request from the other port is refused. -/
@[simp] theorem gatePort_otherPort (act : State) :
    s.gatePort p (otherPort p) k act = s.refuse (otherPort p) k .privilege :=
  if_neg (otherPort_ne p)

/-! ### A compare and its request (R152) -/

/-- R152: what a duration makes of its compare: armed that far ahead of the Time Base, or disarmed by 0. -/
def State.compareAfter (s : State) (n : Nat) : Option Time := if n = 0 then none else some (s.now + BitVec.ofNat 24 n)

variable (d : DeadlineName) {n : Nat}

/-- R152: a duration above 600,000 is refused. -/
theorem armRequest_of_gt (h : 600000 < n) : s.armRequest p k d n = s.refuse p k .badRange := if_pos h

/-- R152: any other duration sets the compare, whatever it was, and is answered with it and the Time Base. -/
theorem armRequest_of_le (h : n ≤ 600000) :
    s.armRequest p k d n = (s.setDeadline d (s.compareAfter n)).ok p k (.deadline (s.compareAfter n) s.now) :=
  if_neg (not_lt.2 h)

/-- R152: a duration out of range leaves everything but the response as it was, the compare included. -/
theorem armRequest_refused (h : 600000 < n) : s.refused (s.armRequest p k d n) p k .badRange := by
  rw [armRequest_of_gt s p k d h]
  exact refused_refuse s p k .badRange

/-- R152: the OK response carries the compare after the request and the Time Base at which it was taken. -/
theorem armRequest_answered (h : n ≤ 600000) :
    s.answered (s.armRequest p k d n) p k .ok (.deadline (s.compareAfter n) s.now) := by
  rw [armRequest_of_le s p k d h]
  exact answered_ok s p k _ (State.setDeadline_port s d _)

/-- R152: the card port's request sets the CARD compare, and beside it touches the card port alone. -/
theorem armRequest_card_frame (h : n ≤ 600000) {t : State} (ht : t = s.armRequest .card k .card n) :
    t = { s with cardDeadline := s.compareAfter n, cardPort := t.cardPort } := by
  rw [ht, armRequest_of_le s .card k .card h]
  rfl

/-- R152: the chassis port's request sets the CHASSIS compare, and beside it touches the chassis port alone. -/
theorem armRequest_chassis_frame (h : n ≤ 600000) {t : State} (ht : t = s.armRequest .chassis k .chassis n) :
    t = { s with chassisDeadline := s.compareAfter n, chassisPort := t.chassisPort } := by
  rw [ht, armRequest_of_le s .chassis k .chassis h]
  rfl

end Compares

/-! ### BUDGET and CAP at each port (R152) -/

variable (s : State) (n : Nat)

/-- R152: BUDGET is the card port's request for the CARD compare. -/
theorem execBudget_card : execBudget .card n s = .next (s.armRequest .card .budget .card n) := by
  rw [execBudget, gatePort_self]

/-- R152: CAP is the chassis port's request for the CHASSIS compare. -/
theorem execCap_chassis : execCap .chassis n s = .next (s.armRequest .chassis .cap .chassis n) := by
  rw [execCap, gatePort_self]

/-- R152: BUDGET from the chassis port is refused. -/
theorem execBudget_chassis : execBudget .chassis n s = .next (s.refuse .chassis .budget .privilege) :=
  congrArg Host.Outcome.next (gatePort_otherPort s .card .budget _)

/-- R152: CAP from the card port is refused. -/
theorem execCap_card : execCap .card n s = .next (s.refuse .card .cap .privilege) :=
  congrArg Host.Outcome.next (gatePort_otherPort s .chassis .cap _)

end Sys2Proof.Machine

open Sys2Proof Sys2Proof.Machine

/-- Settles O51: by the port, each request is its compare's arming or a refusal. -/
theorem budgetAndCapSetTheirCompares : Obligations.BudgetAndCapSetTheirCompares := by
  intro n s
  refine ⟨⟨_, execBudget_card s n, fun hn => ?budgetRange, fun hn => ⟨?budgetAnswer, ?budgetFrame⟩⟩,
    ⟨_, execCap_chassis s n, fun hn => ?capRange, fun hn => ⟨?capAnswer, ?capFrame⟩⟩,
    ⟨_, execBudget_chassis s n, ?budgetPort⟩, ⟨_, execCap_card s n, ?capPort⟩⟩
  case budgetRange => exact armRequest_refused s .card .budget .card hn
  case budgetAnswer => exact armRequest_answered s .card .budget .card hn
  case budgetFrame => exact armRequest_card_frame s .budget hn rfl
  case capRange => exact armRequest_refused s .chassis .cap .chassis hn
  case capAnswer => exact armRequest_answered s .chassis .cap .chassis hn
  case capFrame => exact armRequest_chassis_frame s .cap hn rfl
  case budgetPort => exact refused_refuse s .chassis .budget .privilege
  case capPort => exact refused_refuse s .card .cap .privilege
end

section
/-!
PROOF. What a command can change, said once (`Change`, `exec_changes`): its work on queues, engines, links and logs is `Managed`, and beside it
stand a few writes, each of which only some commands make. The invariants of the part and the safety statements about owners and sections are read off it.
-/

namespace Sys2Proof.Machine

open Sys2Proof

/-! ### The changes that a command makes -/

/-- One change that command `c` may make in state `s`. -/
inductive Change (c : Instr) (s : State) : State → Prop where
  /-- The part's own work. -/
  | work {t : State} (h : Managed s t) : Change c s t
  /-- A write of a port, which brings no CLAIM_LOST to the chassis port (R171). -/
  | port (p : Port) (q : PortState)
      (h : p = .chassis → (s.port p).notices.claimLost = none → q.notices.claimLost = none) : Change c s (s.setPort p q)
  /-- An accepted GUARD or UNGUARD (R31 to R33). -/
  | guards {i : Fin 64} {a b : Nat} {set : Bool} {after : List GuardRange} (h : guardCheck (s.entry i) a b set = .ok after) :
      Change c s (s.modEntry i fun e => { e with guards := after })
  /-- An accepted DEFINE, its pull dropped and its log emptied (R13). -/
  | define (i : Fin 64) (d : Descriptor) (h : (s.entry i).failLog = []) :
      Change c s (s.modEntry i fun e =>
        { e.cleared d (s.storeSection i) with descriptor := some d, state := .defined, followUp := none, absorbed := 0 })
  /-- CLAIM, RELEASE and BREAK set owners (R24). -/
  | owners (q : Fin 64 → Bool) (o : Owner)
      (h : (∃ p m n, c = .claim p m n) ∨ (∃ p m, c = .release p m) ∨ ∃ p m, c = .breakClaim p m) : Change c s (s.setOwners q o)
  /-- A load of elements, behind the built-in ones (R47). -/
  | elements (start : Nat) (es : List Element) (h : 33 ≤ start) : Change c s (s.writeElements start es)
  /-- A load of directory entries, behind the built-in ones (R48). -/
  | directory (start : Nat) (es : List (Option DirectoryEntry)) (h : 6 ≤ start) : Change c s (s.writeDirectory start es)
  /-- A compare is set, at most 600,000 ms ahead, or disarmed (R152, R154). -/
  | compare (d : DeadlineName) (v : Option Time) (h : ∀ x, v = some x → remaining x s.now ≤ Config.maxDuration) :
      Change c s (s.setDeadline d v)
  /-- The counter moves on with no compare left at its value (R149, R150). -/
  | tick (h : ∀ d, s.deadline d ≠ some s.now) : Change c s s.tick
  /-- A store operation begins, goes on or ends (R163 to R165). -/
  | storeOp (o : Option StoreOp) : Change c s { s with storeOp := o }
  /-- The end of a section's write (R164, R165). -/
  | storeSection (n : Fin 64) (x : StoreSection) (h : (∃ v, c = .commitWriteEnd v) ∨ ∃ v, c = .clearWriteEnd v) :
      Change c s (s.setSection n x)
  /-- A part reset (R23). -/
  | reset {t : State} (pins : Fin 4) (h : c = .partReset pins) (ht : exec c s = .next t) : Change c s t

/-- Changes that command `c` may make, one after another. -/
abbrev Changes (c : Instr) : State → State → Prop := Relation.ReflTransGen (Change c)

namespace Changes

variable {c : Instr} {s t u : State} {p : Port} {k : RequestKind}

theorem of_managed (h : Managed s t) : Changes c s t := .single (.work h)

theorem of_kept (h : Kept s t) : Changes c s t := of_managed h.toManaged

theorem work (h : Changes c s t) (k : Managed t u) : Changes c s u := h.tail (.work k)

theorem answer (h : Changes c s t) (st : Status) (pl : Payload) : Changes c s (t.answer p k st pl) :=
  h.tail (.port p _ fun _ h => h)

theorem ok (h : Changes c s t) (pl : Payload) : Changes c s (t.ok p k pl) := h.answer ..

theorem refuse (st : Status) : Changes c s (s.refuse p k st) := answer .refl st .empty

theorem gatePort {allowed : Port} (h : Changes c s t) : Changes c s (s.gatePort allowed p k t) := by
  unfold State.gatePort
  split
  · exact h
  · exact refuse _

theorem gateIndex {n : Nat} {act : Fin 64 → State} (h : ∀ i, Changes c s (act i)) : Changes c s (s.gateIndex p k n act) := by
  unfold State.gateIndex
  split
  · exact refuse _
  · exact h _

theorem gateOwned {n : Nat} {act : Fin 64 → State} (h : ∀ i, Changes c s (act i)) : Changes c s (s.gateOwned p k n act) := by
  unfold State.gateOwned
  split
  · exact refuse _
  · split
    · exact h _
    · exact refuse _

/-! ### The commands that do more than work -/

/-- R13: the entry that an accepted DEFINE writes comes after the loss of a renamed pull and of the fail log. -/
theorem define (i : Fin 64) (d : Descriptor) : Changes c s (s.define i d) := by
  have hp : Kept s (s.dropRenamedPull i d) := by
    unfold State.dropRenamedPull
    split
    · exact .refl s
    · split
      · exact ((Kept.refl s).send _ _).modLink _ _
      · exact .refl s
  have he := hp.emptyLog i
  have hs : ((s.dropRenamedPull i d).emptyLog i).storeSection i = s.storeSection i := by
    unfold State.storeSection; rw [he.sections]
  unfold State.define
  rw [← hs]
  exact (of_kept he).tail (.define i d (by simp [emptyLog_eq]))

theorem guardRequest (set : Bool) (a b : Nat) (i : Fin 64) : Changes c s (s.guardRequest p k set a b i) := by
  unfold State.guardRequest
  split
  · exact refuse _
  · exact ok (.single (.guards ‹_›)) _

/-- R152: an accepted duration arms the compare within reach. -/
theorem armRequest (d : DeadlineName) (n : Nat) : Changes c s (s.armRequest p k d n) := by
  unfold State.armRequest
  split
  · exact refuse _
  · rename_i hn
    refine ok (.single (.compare d _ fun x hx => ?_)) _
    unfold Config.maxDuration at *
    split at hx
    · cases hx
    · cases hx
      simp only [remaining, add_sub_cancel_left, BitVec.toNat_ofNat]
      omega

theorem completeStore (m : Mask) : Changes c s (s.completeStore m) :=
  work (.single (.storeOp none)) ((Kept.refl _).raiseBoth (.store m) fun _ => nofun).toManaged

theorem startStore (x : StoreOpKind) (ws : List SectionWrite) : Changes c s (s.startStore x ws) := by
  unfold State.startStore
  split
  · exact completeStore 0
  · exact .single (.storeOp _)

theorem endWriteOf (x : StoreOpKind) (v : Bool) (h : (∃ v, c = .commitWriteEnd v) ∨ ∃ v, c = .clearWriteEnd v) :
    Changes c s (s.endWriteOf x v) := by
  unfold State.endWriteOf
  split
  · exact .refl
  · split
    · unfold State.endWrite
      dsimp only
      split
      · exact (Relation.ReflTransGen.single (.storeSection _ _ h)).trans (completeStore _)
      · exact (Relation.ReflTransGen.single (.storeSection _ _ h)).tail (.storeOp _)
    · exact .refl

theorem expiry (d : DeadlineName) : Changes c s (s.expiry d) := by
  unfold State.expiry
  split
  · exact work (.single (.compare d none nofun)) (Kept.expire s d).toManaged
  · exact .refl

theorem takeDue : Changes c s s.takeDue := work ((expiry .card).trans (expiry .chassis)) (Managed.takeDue s)

end Changes

/-! ### What falls due leaves no compare at the Time Base's value -/

theorem Managed.deadline {s t : State} (h : Managed s t) (d : DeadlineName) : t.deadline d = s.deadline d := by
  cases d
  exacts [h.cardDeadline, h.chassisDeadline]

/-- R154: an expiry disarms its compare and leaves the other. -/
theorem expire_deadline (s : State) (d x : DeadlineName) : (s.expire d).deadline x = if x = d then none else s.deadline x := by
  rw [(Kept.expire s d).toManaged.deadline, State.deadline_setDeadline]

theorem expire_now (s : State) (d : DeadlineName) : (s.expire d).now = s.now := by
  rw [(Kept.expire s d).now, State.setDeadline_now]

theorem expiry_now (s : State) (d : DeadlineName) : (s.expiry d).now = s.now := by
  unfold State.expiry
  split
  · exact expire_now s d
  · rfl

/-- R154: the compare of an expiry that is taken, or is not due, does not stand at the Time Base's value. -/
theorem expiry_deadline_self (s : State) (d : DeadlineName) : (s.expiry d).deadline d ≠ some s.now := by
  unfold State.expiry State.deadlineDue
  split
  · simp [expire_deadline]
  · simp_all

theorem expiry_deadline_other (s : State) {d x : DeadlineName} (h : x ≠ d) : (s.expiry d).deadline x = s.deadline x := by
  unfold State.expiry
  split
  · rw [expire_deadline, if_neg h]
  · rfl

theorem takeDue_now (s : State) : s.takeDue.now = s.now := by
  rw [(Managed.takeDue s).now, expiry_now, expiry_now]

/-- R150: with all that falls due taken, no compare stands at the Time Base's value. -/
theorem takeDue_deadline (s : State) (d : DeadlineName) : s.takeDue.deadline d ≠ some s.takeDue.now := by
  rw [takeDue_now, (Managed.takeDue s).deadline]
  cases d with
  | card =>
    rw [expiry_deadline_other _ (by decide)]
    exact expiry_deadline_self s .card
  | chassis =>
    have h := expiry_deadline_self (s.expiry .card) .chassis
    rwa [expiry_now] at h

theorem Changes.takeDue_tick {c : Instr} {s : State} : Changes c s s.takeDue.tick :=
  Changes.takeDue.tail (.tick (takeDue_deadline s))

end Sys2Proof.Machine
end

section
/-!
PROOF. Each command, taken apart into the changes of `Change`: the gates and checks of R29 leave a refusal, and what passes them is work that `Kept`
speaks of, or one of the writes.
-/

namespace Sys2Proof.Machine

open Sys2Proof

namespace Changes

variable {c : Instr} {s t : State} {p : Port} {k : RequestKind}

/-! ### Each command, as what it may change -/

theorem defineRequest (raw : RawDescriptor) (i : Fin 64) : Changes c s (s.defineRequest p raw i) := by
  unfold State.defineRequest
  split
  · exact refuse _
  · exact (define i _).ok _

theorem retireRequest (i : Fin 64) : Changes c s (s.retireRequest p i) := by
  unfold State.retireRequest
  split
  · exact refuse _
  · split
    · exact refuse _
    · exact (of_kept ((Kept.refl s).retire i)).ok _

theorem testRequest (named : Option Nat) (urgency : Nat) (i : Fin 64) : Changes c s (s.testRequest p named urgency i) := by
  unfold State.testRequest
  split
  · exact refuse _
  · exact (of_kept ((Kept.refl s).acceptTest ..)).ok _

theorem stopRequest (i : Fin 64) : Changes c s (s.stopRequest p i) := by
  have hd : Kept s (s.dropFollowUp i) := (Kept.refl s).dropFollowUp i
  unfold State.stopRequest
  cases (s.entry i).state
  case queued | parked => exact (of_kept (hd.cutShort ..)).ok _
  case suspended => exact (of_kept ((hd.cutShort ..).turnSuspender _)).ok _
  case running => exact (of_kept (hd.stopRunning i)).ok _
  case analysing => exact (of_kept hd).ok _
  all_goals exact refuse _

theorem claimed {m : Mask} {n : Nat} (h : c = .claim p m n) (held : Mask) (greedy : Bool) :
    Changes c s (if held = 0 || greedy then s.setOwners (fun i => inMask m i && !inMask held i) (portOwner p) else s) := by
  split
  · exact .single (.owners _ _ (.inl ⟨p, m, n, h⟩))
  · exact .refl

theorem claim {m : Mask} {n : Nat} (hc : c = .claim p m n) (h : exec c s = .next t) : Changes c s t := by
  subst hc
  obtain rfl := Host.Outcome.next.inj h
  split
  · exact refuse _
  · split
    · exact refuse _
    · exact (claimed rfl _ _).ok _

theorem breakClaim {m : Mask} (hc : c = .breakClaim p m) (h : exec c s = .next t) : Changes c s t := by
  subst hc
  obtain rfl := Host.Outcome.next.inj h
  refine gatePort ?_
  split
  · exact refuse _
  · refine ok ?_ _
    have ho := Relation.ReflTransGen.single (Change.owners (c := .breakClaim p m) (s := s) (inMask m) .chassis (.inr (.inr ⟨p, m, rfl⟩)))
    split
    · exact ho
    · exact ho.tail (.port .card _ nofun)

theorem loadElements {start : Nat} {rs : List RawElement} (h : exec (.loadElements p start rs) s = .next t) :
    Changes (.loadElements p start rs) s t := by
  obtain rfl := Host.Outcome.next.inj h
  refine gatePort ?_
  dsimp only
  split
  · exact refuse _
  · split
    · exact refuse _
    · split
      · exact refuse _
      · split
        · exact ok (.single (.elements start _ (by unfold Config.firstLoadableElement at *; omega))) _
        · exact answer .refl ..

theorem loadDirectory {start : Nat} {rs : List RawDirectoryEntry} (h : exec (.loadDirectory p start rs) s = .next t) :
    Changes (.loadDirectory p start rs) s t := by
  obtain rfl := Host.Outcome.next.inj h
  refine gatePort ?_
  dsimp only
  split
  · exact refuse _
  · split
    · exact refuse _
    · split
      · exact refuse _
      · split
        · exact ok (.single (.directory start _ (by unfold Config.firstLoadableEntry at *; omega))) _
        · exact answer .refl ..

theorem commit {m : Mask} (h : exec (.commit p m) s = .next t) : Changes (.commit p m) s t := by
  obtain rfl := Host.Outcome.next.inj h
  split
  · exact refuse _
  · split
    · exact refuse _
    · split
      · exact refuse _
      · exact (startStore ..).ok _

theorem clearStore {m : Mask} (h : exec (.clearStore p m) s = .next t) : Changes (.clearStore p m) s t := by
  obtain rfl := Host.Outcome.next.inj h
  refine gatePort ?_
  split
  · exact refuse _
  · split
    · exact refuse _
    · exact (startStore ..).ok _

theorem library {selector first count : Nat} (h : exec (.library p selector first count) s = .next t) :
    Changes (.library p selector first count) s t := by
  obtain rfl := Host.Outcome.next.inj h
  split
  · split
    · exact ok .refl _
    · exact refuse _
  · split
    · exact refuse _
    · exact ok .refl _
  · exact refuse _

theorem takeNotice {n : Nat} (h : exec (.takeNotice p n) s = .next t) : Changes (.takeNotice p n) s t := by
  obtain rfl := Host.Outcome.next.inj h
  split
  · exact refuse _
  · rename_i x _
    refine ok (.single (.port p _ fun _ hn => ?_)) _
    cases x
    case claimLost => rfl
    all_goals exact hn

theorem noticeMask {m : Byte} (h : exec (.noticeMask p m) s = .next t) : Changes (.noticeMask p m) s t := by
  obtain rfl := Host.Outcome.next.inj h
  exact ok (.single (.port p { s.port p with mask := noticeMaskBits m } fun _ hn => hn)) _

theorem badFrame {bs : List Byte} (h : exec (.badFrame p bs) s = .next t) : Changes (.badFrame p bs) s t := by
  obtain rfl := Host.Outcome.next.inj h
  split
  · exact .refl
  · split
    · exact .single (.port p _ fun _ hn => hn)
    · exact .refl

/-! ### The commands of the devices -/

theorem linkDown (l : Fin 4) (r : DownReason) : Changes c s (s.linkDown l r) := of_managed ((Managed.refl s).linkDown l r)

/-- A message on a DOWN link is discarded (R100). -/
theorem whenUp {l : Fin 4} (h : s.linkUp l = true → Changes c s t) : Changes c s (if s.linkUp l then t else s) := by
  split
  · exact h ‹_›
  · exact .refl

theorem result {l : Fin 4} {g : Fin 8} {o : ResultOutcome} {ms : List Mismatch} (h : exec (.result l g o ms) s = .next t) :
    Changes (.result l g o ms) s t := by
  obtain rfl := Host.Outcome.next.inj h
  refine whenUp fun _ => ?_
  split
  · exact linkDown ..
  · split
    · exact of_kept ((Kept.refl s).takeResult ..)
    · exact linkDown ..

theorem loadDone {l : Fin 4} {m : Fin 256} (h : exec (.loadDone l m) s = .next t) : Changes (.loadDone l m) s t := by
  obtain rfl := Host.Outcome.next.inj h
  refine whenUp fun _ => ?_
  split
  · exact linkDown ..
  · exact of_kept ((Kept.refl s).takeLoadDone ..)

theorem ready {l : Fin 4} (h : exec (.ready l) s = .next t) : Changes (.ready l) s t := by
  obtain rfl := Host.Outcome.next.inj h
  split
  · exact of_managed (((Managed.refl s).linkDown ..).linkReady l)
  · exact of_managed ((Managed.refl s).linkReady l)

theorem pull {l : Fin 4} {m : Fin 256} (h : exec (.pull l m) s = .next t) : Changes (.pull l m) s t := by
  obtain rfl := Host.Outcome.next.inj h
  refine whenUp fun _ => ?_
  split
  · exact of_kept ((Kept.refl s).send ..)
  · exact of_kept ((Kept.refl s).takePull ..)

theorem inService {l : Fin 4} {m : Fin 256} (h : exec (.inService l m) s = .next t) : Changes (.inService l m) s t := by
  obtain rfl := Host.Outcome.next.inj h
  refine whenUp fun _ => ?_
  split
  · exact of_kept ((Kept.refl s).send ..)
  · split
    · exact of_kept ((Kept.refl s).modEntry _ _)
    · exact of_kept ((Kept.refl s).send ..)

theorem outOfService {l : Fin 4} {m : Fin 256} (h : exec (.outOfService l m) s = .next t) : Changes (.outOfService l m) s t := by
  obtain rfl := Host.Outcome.next.inj h
  refine whenUp fun _ => ?_
  split
  · exact of_kept ((Kept.refl s).send ..)
  · exact of_kept ((Kept.refl s).modEntry _ _)

theorem deviceGuard {l : Fin 4} {m : Fin 256} {a b : Nat} {set : Bool} (h : exec (.deviceGuard l m a b set) s = .next t) :
    Changes (.deviceGuard l m a b set) s t := by
  obtain rfl := Host.Outcome.next.inj h
  refine whenUp fun _ => ?_
  split
  · exact of_kept ((Kept.refl s).send ..)
  · split
    · exact of_kept ((Kept.refl s).send ..)
    · exact .single (.guards ‹_›)

theorem malformed {l : Fin 4} {bs : List Byte} (h : exec (.malformed l bs) s = .next t) : Changes (.malformed l bs) s t := by
  obtain rfl := Host.Outcome.next.inj h
  split
  · exact linkDown ..
  · exact .refl

/-! ### The part's own commands -/

theorem wrap (h : exec .wrap s = .next t) : Changes .wrap s t := by
  obtain rfl := Host.Outcome.next.inj h
  split
  · exact takeDue_tick.work ((Kept.refl _).raiseBoth .wrap fun _ => nofun).toManaged
  · exact .refl

theorem timeBaseAdvance (h : exec .timeBaseAdvance s = .next t) : Changes .timeBaseAdvance s t := by
  obtain rfl := Host.Outcome.next.inj h
  split
  · exact .refl
  · exact takeDue_tick

end Changes

namespace Kept

variable {s t : State} {e : Fin 6}

theorem of_dispatch (h : exec .dispatch s = .next t) : Kept s t := by
  obtain rfl := Host.Outcome.next.inj h
  split
  · exact Kept.settle ((Kept.refl s).dispatchRun ..)
  · exact .refl s

theorem of_preemption (h : exec .preemption s = .next t) : Kept s t := by
  obtain rfl := Host.Outcome.next.inj h
  split
  · split
    · exact ((Kept.refl s).reserve ..).drainFor ..
    · exact .refl s
  · exact .refl s

theorem of_resume (h : exec (.resume e) s = .next t) : Kept s t := by
  obtain rfl := Host.Outcome.next.inj h
  split
  · split
    · exact .refl s
    · exact Kept.settle ((Kept.refl s).resumeRun ..)
  · exact .refl s

theorem of_burstIssue (h : exec (.burstIssue e) s = .next t) : Kept s t := by
  obtain rfl := Host.Outcome.next.inj h
  split
  · split
    · exact .refl s
    · split
      · exact .refl s
      · split
        · exact (Kept.refl s).issueBurst ..
        · exact .refl s
  · exact .refl s

theorem of_elementEnd (h : exec (.elementEnd e) s = .next t) : Kept s t := by
  obtain rfl := Host.Outcome.next.inj h
  split
  · exact (Kept.refl s).endElement e
  · exact .refl s

theorem of_drainEnd (h : exec (.drainEnd e) s = .next t) : Kept s t := by
  obtain rfl := Host.Outcome.next.inj h
  split
  · exact (Kept.refl s).drainEnd e
  · exact .refl s

theorem of_analysisBegin (h : exec .analysisBegin s = .next t) : Kept s t := by
  obtain rfl := Host.Outcome.next.inj h
  split
  · exact .refl s
  · exact (Kept.refl s).analysis s.analysisQueue true

theorem of_analysisComplete (h : exec .analysisComplete s = .next t) : Kept s t := by
  obtain rfl := Host.Outcome.next.inj h
  split
  · exact .refl s
  · split
    · exact (Kept.refl s).completeAnalysis ..
    · exact .refl s

end Kept

/-- A command goes on to the next state by changes that it may make. -/
theorem exec_changes {c : Instr} {s t : State} (h : exec c s = .next t) : Changes c s t := by
  cases c with
  | define p n raw =>
    obtain rfl := Host.Outcome.next.inj h
    exact Changes.gatePort (Changes.gateOwned (Changes.defineRequest raw))
  | retire p n =>
    obtain rfl := Host.Outcome.next.inj h
    cases p with
    | card => exact Changes.gateOwned Changes.retireRequest
    | chassis => exact Changes.gateIndex Changes.retireRequest
  | requalify p =>
    obtain rfl := Host.Outcome.next.inj h
    exact Changes.gatePort (Changes.ok (Changes.of_kept (Kept.refl s).requalifyAll) _)
  | test p n named urgency =>
    obtain rfl := Host.Outcome.next.inj h
    exact Changes.gateOwned (Changes.testRequest named urgency)
  | stop p n =>
    obtain rfl := Host.Outcome.next.inj h
    exact Changes.gateOwned Changes.stopRequest
  | guard p n a b | unguard p n a b =>
    obtain rfl := Host.Outcome.next.inj h
    exact Changes.gatePort (Changes.gateOwned (Changes.guardRequest _ a b))
  | claim p m n => exact Changes.claim rfl h
  | release p m =>
    obtain rfl := Host.Outcome.next.inj h
    exact Changes.ok (.single (.owners _ _ (.inr (.inl ⟨p, m, rfl⟩)))) _
  | breakClaim p m => exact Changes.breakClaim rfl h
  | loadElements p start rs => exact Changes.loadElements h
  | loadDirectory p start rs => exact Changes.loadDirectory h
  | budget p n | cap p n =>
    obtain rfl := Host.Outcome.next.inj h
    exact Changes.gatePort (Changes.armRequest _ n)
  | commit p m => exact Changes.commit h
  | clearStore p m => exact Changes.clearStore h
  | status p n | fails p n start | map p n =>
    obtain rfl := Host.Outcome.next.inj h
    exact Changes.gateIndex fun _ => Changes.ok .refl _
  | queue p | engines p | links p | time p =>
    obtain rfl := Host.Outcome.next.inj h
    exact Changes.ok .refl _
  | library p selector first count => exact Changes.library h
  | takeNotice p n => exact Changes.takeNotice h
  | noticeMask p m => exact Changes.noticeMask h
  | badFrame p bs => exact Changes.badFrame h
  | result l g o ms => exact Changes.result h
  | loadDone l m => exact Changes.loadDone h
  | ready l => exact Changes.ready h
  | resetNotice l =>
    obtain rfl := Host.Outcome.next.inj h
    exact Changes.whenUp fun _ => Changes.linkDown ..
  | pull l m => exact Changes.pull h
  | inService l m => exact Changes.inService h
  | outOfService l m => exact Changes.outOfService h
  | deviceGuard l m a b set => exact Changes.deviceGuard h
  | malformed l bs => exact Changes.malformed h
  | partReset pins => exact .single (.reset pins rfl h)
  | wrap => exact Changes.wrap h
  | deadlineExpiry d =>
    obtain rfl := Host.Outcome.next.inj h
    exact Changes.expiry d
  | wake i =>
    obtain rfl := Host.Outcome.next.inj h
    exact Changes.of_kept ((Kept.refl s).wake i)
  | burstTimeout l =>
    obtain rfl := Host.Outcome.next.inj h
    exact Changes.of_managed ((Managed.refl s).burstTimeout l)
  | loadTimeout l =>
    obtain rfl := Host.Outcome.next.inj h
    exact Changes.of_managed ((Managed.refl s).loadTimeout l)
  | dispatch => exact Changes.of_kept (Kept.of_dispatch h)
  | preemption => exact Changes.of_kept (Kept.of_preemption h)
  | resume e => exact Changes.of_kept (Kept.of_resume h)
  | burstIssue e => exact Changes.of_kept (Kept.of_burstIssue h)
  | elementEnd e => exact Changes.of_kept (Kept.of_elementEnd h)
  | drainEnd e => exact Changes.of_kept (Kept.of_drainEnd h)
  | analysisBegin => exact Changes.of_kept (Kept.of_analysisBegin h)
  | analysisComplete => exact Changes.of_kept (Kept.of_analysisComplete h)
  | commitWriteEnd v =>
    obtain rfl := Host.Outcome.next.inj h
    exact Changes.endWriteOf _ v (.inl ⟨v, rfl⟩)
  | clearWriteEnd v =>
    obtain rfl := Host.Outcome.next.inj h
    exact Changes.endWriteOf _ v (.inr ⟨v, rfl⟩)
  | timeBaseAdvance => exact Changes.timeBaseAdvance h

end Sys2Proof.Machine
end

section
/-!
PROOF. The invariants of the part (R30, R46, R119, R159, R171), the owners (R24) and the store's sections (R161), each read off the changes that a
command makes; and the steps of the queue.
-/

namespace Sys2Proof.Machine

open Sys2Proof

variable {c : Instr} {s t : State}

/-! ### Invariants -/

/-- What every change of a command keeps, the command keeps. -/
theorem Changes.keeps {P : State → Prop} (hk : ∀ {u v}, Change c u v → P u → P v) (h : Changes c s t) (hs : P s) : P t := by
  induction h with
  | refl => exact hs
  | tail _ k ih => exact hk k ih

/-- What the queue of waiting commands does not touch and every change of a command keeps, a step keeps. -/
theorem step_keeps {P : State → Prop} (hq : ∀ s q, P s → P { s with pending := q }) (hk : ∀ {c u v}, Change c u v → P u → P v)
    (hs : P s) (h : step s = .next t) : P t := by
  unfold step at h
  split at h
  · exact Host.Outcome.next.inj h ▸ hs
  · exact (exec_changes h).keeps hk (hq s _ hs)

theorem partReset_eq {pins : Fin 4} (h : exec (.partReset pins) s = .next t) :
    t = { State.reset with
          sections := s.sectionsAfterReset
          chassisAddress := Config.chassisAddressBase + BitVec.ofNat 7 pins.val
          pending := s.pending } := (Host.Outcome.next.inj h).symm

/-! ### Guard ranges (R30) -/

theorem Entry.guardsSound_congr {a b : Entry} (hd : b.descriptor = a.descriptor) (hg : b.guards = a.guards ∨ b.guards = [])
    (h : a.guardsSound) : b.guardsSound := by
  unfold Entry.guardsSound at *
  rw [hd]
  rcases hg with hg | hg
  · rwa [hg]
  · rw [hg]
    split
    · rfl
    · exact ⟨trivial, Nat.zero_le _⟩

theorem Entry.cleared_failLog (e : Entry) (d : Descriptor) (c : StoreSection) : (e.cleared d c).failLog = e.failLog := by
  unfold Entry.cleared
  dsimp only
  split <;> rfl

theorem Entry.cleared_guards (e : Entry) (d : Descriptor) (c : StoreSection) : (e.cleared d c).guards = [] := by
  unfold Entry.cleared
  dsimp only
  split <;> rfl

theorem Entry.cleared_owner (e : Entry) (d : Descriptor) (c : StoreSection) : (e.cleared d c).owner = e.owner := by
  unfold Entry.cleared
  dsimp only
  split <;> rfl

theorem guardsSound_of_empty {e : Entry} (h : e.guards = []) : e.guardsSound := by
  unfold Entry.guardsSound
  rw [h]
  split
  · rfl
  · exact ⟨trivial, Nat.zero_le _⟩

theorem State.GuardsSound.congr (h : s.GuardsSound) (hd : ∀ i, (t.entry i).descriptor = (s.entry i).descriptor)
    (hg : ∀ i, (t.entry i).guards = (s.entry i).guards ∨ (t.entry i).guards = []) : t.GuardsSound := fun i =>
  Entry.guardsSound_congr (hd i) (hg i) (h i)

theorem reset_guardsSound : State.reset.GuardsSound := fun i => guardsSound_of_empty (by rw [entry_reset]; rfl)

theorem Change.guardsSound (h : Change c s t) (hs : s.GuardsSound) : t.GuardsSound := by
  cases h with
  | work h => exact hs.congr (fun i => (h.entry i).descriptor) (fun i => (h.entry i).guards)
  | port p q => exact hs.congr (by simp) (by simp)
  | @guards i a b set after h =>
    intro j
    rw [State.entry_modEntry]
    split
    · exact guardCheck_sound _ a b set after h (hs i)
    · exact hs j
  | define i d h =>
    intro j
    rw [State.entry_modEntry]
    split
    · exact guardsSound_of_empty (Entry.cleared_guards ..)
    · exact hs j
  | owners q o h =>
    refine hs.congr (fun i => ?_) (fun i => .inl ?_) <;>
    · rw [entry_setOwners]
      split <;> rfl
  | elements start es h =>
    obtain ⟨v, hv⟩ := writeElements_elements es s start
    rw [hv]
    exact hs
  | directory start es h =>
    obtain ⟨v, hv⟩ := writeDirectory_directory es s start
    rw [hv]
    exact hs
  | compare d v h => exact hs.congr (by simp) (by simp)
  | tick h => exact hs
  | storeOp o => exact hs
  | storeSection n x h => exact hs
  | reset pins h ht =>
    subst h
    rw [partReset_eq ht]
    exact reset_guardsSound

/-! ### Fail records (R119) -/

theorem State.PoolSound.congr (h : s.PoolSound) (hp : t.poolFree = s.poolFree) (hl : ∀ i, (t.entry i).failLog = (s.entry i).failLog) :
    t.PoolSound := by
  unfold State.PoolSound State.logTotal at *
  simpa only [hp, hl] using h

theorem reset_poolSound : State.reset.PoolSound := by
  constructor
  · simp [State.logTotal, Entry.reset, State.reset]
  · simp [Entry.reset]

theorem Change.poolSound (h : Change c s t) (hs : s.PoolSound) : t.PoolSound := by
  cases h with
  | work h => exact ⟨h.balance.trans hs.1, fun i => h.logs i (hs.2 i)⟩
  | port p q => exact hs.congr (by simp) (by simp)
  | guards h =>
    refine hs.congr rfl fun j => ?_
    rw [State.entry_modEntry]
    split
    · rw [‹j = _›]
    · rfl
  | define i d h =>
    refine hs.congr rfl fun j => ?_
    rw [State.entry_modEntry]
    split
    · rw [‹j = i›]; exact Entry.cleared_failLog ..
    · rfl
  | owners q o h =>
    obtain ⟨v, hv⟩ := setOwners_table s q o
    refine hs.congr (by rw [hv]) fun i => ?_
    rw [entry_setOwners]
    split <;> rfl
  | elements start es h =>
    obtain ⟨v, hv⟩ := writeElements_elements es s start
    rw [hv]
    exact hs
  | directory start es h =>
    obtain ⟨v, hv⟩ := writeDirectory_directory es s start
    rw [hv]
    exact hs
  | compare d v h => exact hs.congr (by simp) (by simp)
  | tick h => exact hs
  | storeOp o => exact hs
  | storeSection n x h => exact hs
  | reset pins h ht =>
    subst h
    rw [partReset_eq ht]
    exact reset_poolSound

/-! ### The built-in library (R46) -/

theorem State.LibraryFixed.congr (h : s.LibraryFixed) (he : t.elements = s.elements) (hd : t.directory = s.directory) :
    t.LibraryFixed := by
  unfold State.LibraryFixed State.element State.directoryEntry at *
  rwa [he, hd]

theorem Change.libraryFixed (h : Change c s t) (hs : s.LibraryFixed) : t.LibraryFixed := by
  cases h with
  | work h => exact hs.congr h.elements h.directory
  | port p q => exact hs.congr (by simp) (by simp)
  | guards h => exact hs
  | define i d h => exact hs
  | owners q o h =>
    obtain ⟨v, hv⟩ := setOwners_table s q o
    rw [hv]
    exact hs
  | elements start es h =>
    refine ⟨fun k hk => ?_, ?_⟩
    · rw [element_writeElements, dif_neg (by omega)]
      exact hs.1 k hk
    · obtain ⟨v, hv⟩ := writeElements_elements es s start
      rw [hv]
      exact hs.2
  | directory start es h =>
    refine ⟨?_, fun q hq => ?_⟩
    · obtain ⟨v, hv⟩ := writeDirectory_directory es s start
      rw [hv]
      exact hs.1
    · rw [directoryEntry_writeDirectory, dif_neg (by omega)]
      exact hs.2 q hq
  | compare d v h => exact hs.congr (by simp) (by simp)
  | tick h => exact hs
  | storeOp o => exact hs
  | storeSection n x h => exact hs
  | reset pins h ht =>
    subst h
    rw [partReset_eq ht]
    exact ⟨fun _ _ => rfl, fun _ _ => rfl⟩

/-! ### Deadlines (R159) -/

theorem State.DeadlinesSound.congr (h : s.DeadlinesSound) (hd : ∀ d, t.deadline d = s.deadline d) (hn : t.now = s.now) :
    t.DeadlinesSound := by
  intro d v hv
  rw [hn]
  exact h d v ((hd d).symm.trans hv)

theorem reset_deadlinesSound : State.reset.DeadlinesSound := by
  intro d v hv
  cases d <;> cases hv

/-- R149: as the counter moves on, less time remains to a value that it has not reached. -/
theorem remaining_tick {v n : Time} (h : v ≠ n) : remaining v (n + 1) ≤ remaining v n := by
  unfold remaining
  bv_omega

theorem Change.deadlinesSound (h : Change c s t) (hs : s.DeadlinesSound) : t.DeadlinesSound := by
  cases h with
  | work h => exact hs.congr h.deadline h.now
  | port p q => exact hs.congr (by simp) (by simp)
  | guards h => exact hs
  | define i d h => exact hs
  | owners q o h =>
    obtain ⟨v, hv⟩ := setOwners_table s q o
    rw [hv]
    exact hs
  | elements start es h =>
    obtain ⟨v, hv⟩ := writeElements_elements es s start
    rw [hv]
    exact hs
  | directory start es h =>
    obtain ⟨v, hv⟩ := writeDirectory_directory es s start
    rw [hv]
    exact hs
  | compare d v h =>
    intro x w hw
    rw [State.setDeadline_now]
    rw [State.deadline_setDeadline] at hw
    split at hw
    · exact h w hw
    · exact hs x w hw
  | tick h =>
    intro d v hv
    have hne : v ≠ s.now := fun e => h d (hv.trans (congrArg some e))
    exact (remaining_tick hne).trans (hs d v hv)
  | storeOp o => exact hs
  | storeSection n x h => exact hs
  | reset pins h ht =>
    subst h
    rw [partReset_eq ht]
    exact reset_deadlinesSound

/-! ### Notices (R171) -/

theorem Change.lostOnCardOnly (h : Change c s t) (hs : s.LostOnCardOnly) : t.LostOnCardOnly := by
  cases h with
  | work h => exact h.chassis.lost.trans hs
  | port p q h =>
    cases p with
    | card => exact hs
    | chassis => exact h rfl hs
  | guards h => exact hs
  | define i d h => exact hs
  | owners q o h =>
    obtain ⟨v, hv⟩ := setOwners_table s q o
    rw [hv]
    exact hs
  | elements start es h =>
    obtain ⟨v, hv⟩ := writeElements_elements es s start
    rw [hv]
    exact hs
  | directory start es h =>
    obtain ⟨v, hv⟩ := writeDirectory_directory es s start
    rw [hv]
    exact hs
  | compare d v h =>
    cases d
    all_goals exact hs
  | tick h => exact hs
  | storeOp o => exact hs
  | storeSection n x h => exact hs
  | reset pins h ht =>
    subst h
    rw [partReset_eq ht]
    rfl

/-! ### Owners and sections (R24, R161) -/

theorem Change.owner_eq (h : Change c s t) (hclaim : ∀ p m k, c ≠ .claim p m k) (hrelease : ∀ p m, c ≠ .release p m)
    (hbreak : ∀ p m, c ≠ .breakClaim p m) (hreset : ∀ n, c ≠ .partReset n) (j : Fin 64) :
    (t.entry j).owner = (s.entry j).owner := by
  cases h with
  | work h => exact (h.entry j).owner
  | port p q => simp
  | guards h =>
    rw [State.entry_modEntry]
    split
    · rw [‹j = _›]
    · rfl
  | define i d h =>
    rw [State.entry_modEntry]
    split
    · rw [‹j = i›]; exact Entry.cleared_owner ..
    · rfl
  | owners q o h =>
    rcases h with ⟨p, m, n, h⟩ | ⟨p, m, h⟩ | ⟨p, m, h⟩
    · exact absurd h (hclaim p m n)
    · exact absurd h (hrelease p m)
    · exact absurd h (hbreak p m)
  | elements start es h =>
    obtain ⟨v, hv⟩ := writeElements_elements es s start
    rw [hv]
    rfl
  | directory start es h =>
    obtain ⟨v, hv⟩ := writeDirectory_directory es s start
    rw [hv]
    rfl
  | compare d v h => simp
  | tick h => rfl
  | storeOp o => rfl
  | storeSection n x h => rfl
  | reset pins h ht => exact absurd h (hreset pins)

theorem Change.sections_eq (h : Change c s t) (hcommit : ∀ v, c ≠ .commitWriteEnd v) (hclear : ∀ v, c ≠ .clearWriteEnd v)
    (hreset : ∀ n, c ≠ .partReset n) : t.sections = s.sections := by
  cases h with
  | work h => exact h.sections
  | port p q => simp
  | guards h => rfl
  | define i d h => rfl
  | owners q o h =>
    obtain ⟨v, hv⟩ := setOwners_table s q o
    rw [hv]
  | elements start es h =>
    obtain ⟨v, hv⟩ := writeElements_elements es s start
    rw [hv]
  | directory start es h =>
    obtain ⟨v, hv⟩ := writeDirectory_directory es s start
    rw [hv]
  | compare d v h => simp
  | tick h => rfl
  | storeOp o => rfl
  | storeSection n x h =>
    rcases h with ⟨v, h⟩ | ⟨v, h⟩
    · exact absurd h (hcommit v)
    · exact absurd h (hclear v)
  | reset pins h ht => exact absurd h (hreset pins)

end Sys2Proof.Machine

open Sys2Proof Sys2Proof.Machine

/-- Settles O1: a step is the meaning of the front command. -/
theorem stepRunsFrontCommand : Obligations.StepRunsFrontCommand := by
  intro c rest s h
  simp only [step, h]

/-- Settles O2: an empty queue makes the step idle. -/
theorem emptyQueueIdles : Obligations.EmptyQueueIdles := by
  intro s h
  simp only [step, h]

/-- Settles O10: among the changes a command makes, only those of CLAIM, RELEASE and BREAK set owners. -/
theorem onlyClaimsChangeOwners : Obligations.OnlyClaimsChangeOwners := by
  intro c s t h hclaim hrelease hbreak hreset i
  exact (exec_changes h).keeps (P := fun u => (u.entry i).owner = (s.entry i).owner)
    (fun k hu => (k.owner_eq hclaim hrelease hbreak hreset i).trans hu) rfl

/-- Settles O13: every change a command makes keeps the guard ranges canonical. -/
theorem stepKeepsGuardsSound : Obligations.StepKeepsGuardsSound := by
  intro s t hs h
  exact step_keeps (P := State.GuardsSound) (fun _ _ h => h) Change.guardsSound hs h

/-- Settles O16: loads write behind the built-in elements and entries, and no other change touches the library. -/
theorem stepKeepsBuiltInLibrary : Obligations.StepKeepsBuiltInLibrary := by
  intro s t hs h
  exact step_keeps (P := State.LibraryFixed) (fun _ _ h => h) Change.libraryFixed hs h

/-- Settles O56: among the changes a command makes, only the end of a section's write sets a section. -/
theorem onlyWritesChangeSections : Obligations.OnlyWritesChangeSections := by
  intro c s t h hcommit hclear hreset
  exact (exec_changes h).keeps (P := fun u => u.sections = s.sections)
    (fun k hu => (k.sections_eq hcommit hclear hreset).trans hu) rfl

/-- Settles O57: every change a command makes keeps the account of fail records. -/
theorem stepKeepsFailRecordsAccounted : Obligations.StepKeepsFailRecordsAccounted := by
  intro s t hs h
  exact step_keeps (P := State.PoolSound) (fun _ _ h => h) Change.poolSound hs h

/-- Settles O58: a compare is set within reach, and the counter moves only toward one that it has not reached. -/
theorem stepKeepsDeadlinesWithinReach : Obligations.StepKeepsDeadlinesWithinReach := by
  intro s t hs h
  exact step_keeps (P := State.DeadlinesSound) (fun s q h d v hv => h d v (by cases d <;> exact hv)) Change.deadlinesSound hs h

/-- Settles O59: no change a command makes brings CLAIM_LOST to the chassis port. -/
theorem stepKeepsClaimLostOnCard : Obligations.StepKeepsClaimLostOnCard := by
  intro s t hs h
  exact step_keeps (P := State.LostOnCardOnly) (fun _ _ h => h) Change.lostOnCardOnly hs h

/-- Settles O60: each of the five invariants, read off the reset state. -/
theorem resetMeetsTheInvariants : Obligations.ResetMeetsTheInvariants :=
  ⟨reset_guardsSound, ⟨fun _ _ => rfl, fun _ _ => rfl⟩, reset_poolSound, reset_deadlinesSound, rfl⟩
end

section
/-!
PROOF. The part reset's work, times and ports (R23, R40 to R46, R149, R174), its end of a store operation (R167), and messages on a DOWN link (R100).
-/

namespace Sys2Proof.Machine

open Sys2Proof

/-! ### The reset state (R40, R46, R79, R98) -/

@[simp] theorem engine_reset (e : Fin 6) : State.reset.engine e = .reset := by
  simp [State.engine, State.reset]

@[simp] theorem link_reset (l : Fin 4) : State.reset.link l = .reset := by
  simp [State.link, State.reset]

/-- R46: the built-in elements, one by one. -/
theorem element_reset_builtin {k : Nat} (h : k < 33) : some (State.reset.element k) = manualElements[k]? := by
  have all : ∀ k : Fin 33, some (State.reset.element k) = manualElements[k.val]? := by decide
  exact all ⟨k, h⟩

/-- R40: the elements behind the built-in ones hold the default record. -/
theorem element_reset_default {k : Nat} (h : 33 ≤ k) (hk : k < 256) : State.reset.element k = defaultElement := by
  have hb : builtinElements.toArray.size ≤ k := h
  simp only [State.element, hk, dite_true, State.reset, resetElements, Vector.getElem_mk, List.getElem_toArray]
  rw [List.getElem_append_right hb, List.getElem_replicate]

/-- R45, R46: the Sequence Directory holds its six built-in entries and EMPTY ones. -/
theorem directoryEntry_reset (q : Fin 32) : State.reset.directoryEntry q = manualDirectory[q.val]? := by
  revert q
  decide

/-- R174: the chassis port answers 56 plus the value of its address pins. -/
theorem chassisAddress_val (pins : Fin 4) : (Config.chassisAddressBase + BitVec.ofNat 7 pins.val).toNat = 56 + pins.val := by
  revert pins
  decide

/-! ### A store operation that a part reset ends (R167) -/

/-- R167: the section being written is check-failed. -/
theorem sectionsAfterReset_written {s : State} {op : StoreOp} (h : s.storeOp = some op) :
    s.sectionsAfterReset[op.writing.index] = { s.storeSection op.writing.index with intact := false } := by
  simp only [State.sectionsAfterReset, h]
  show (s.setSection op.writing.index _).storeSection op.writing.index = _
  rw [State.storeSection_setSection, if_pos rfl]

/-- R162: a check-failed section is lost, whatever it holds. -/
theorem storeOutcome_of_not_intact {c : StoreSection} (h : c.intact = false) (d : Descriptor) : storeOutcome c d = .storeLost := by
  simp [storeOutcome, h]

/-! ### Drain requests (R93, R95) -/

section Drains

variable {en : Engine}

/-- R93: a run begins to drain with the reason asked for. -/
theorem drainRequested_of_run (h : en.state = .loading ∨ en.state = .walking) (r : DrainReason) :
    en.drainRequested r = { en with state := .draining, drainReason := some r, given := none } := by
  unfold Engine.drainRequested
  rcases h with h | h <;> rw [h]

/-- R95: an engine that drains already weighs the two reasons. -/
theorem drainRequested_of_draining (h : en.state = .draining) (r : DrainReason) : en.drainRequested r = en.redrain r := by
  unfold Engine.drainRequested
  rw [h]

end Drains

end Sys2Proof.Machine

open Sys2Proof Sys2Proof.Machine

/-- Settles O4: the reset state's queues, tables and library, part by part. -/
theorem partResetWork : Obligations.PartResetWork := by
  intro pins s
  refine ⟨_, rfl, rfl, rfl, rfl, rfl, rfl, engine_reset, fun l => ?links, fun k hk => element_reset_builtin hk,
    fun k h hk => element_reset_default h hk, directoryEntry_reset⟩
  case links =>
    have h := link_reset l
    exact ⟨congrArg Link.down h, congrArg Link.tags h, congrArg Link.loads h, congrArg Link.slots h, congrArg Link.pulls h⟩

/-- Settles O5: the reset state's times and ports; the address is 56 plus the pins' value. -/
theorem partResetTimeAndPorts : Obligations.PartResetTimeAndPorts := by
  intro pins s
  refine ⟨_, rfl, rfl, rfl, rfl, fun p => ?ports, ?address⟩
  case ports => cases p <;> exact ⟨rfl, rfl, rfl, rfl, rfl⟩
  case address => exact chassisAddress_val pins

/-- Settles O6: the section being written loses its check value, and R167's others stand. -/
theorem partResetDuringStoreOperation : Obligations.PartResetDuringStoreOperation := by
  intro pins s op h
  refine ⟨_, rfl, rfl, fun d => storeOutcome_of_not_intact ?lost d, fun n hn => sectionsAfterReset_get s n ?other, fun p => ?ports⟩
  case lost => exact congrArg StoreSection.intact (sectionsAfterReset_written h)
  case other =>
    intro op' h'
    obtain rfl : op = op' := Option.some.inj (h.symm.trans h')
    exact hn.symm
  case ports => cases p <;> rfl

/-- Settles O32: R93 for a run, R95's table for an engine that drains already. -/
theorem drainRequestsFollowTheirReasons : Obligations.DrainRequestsFollowTheirReasons := by
  intro en
  refine ⟨drainRequested_of_run, fun h => ?_⟩
  simp only [drainRequested_of_draining h, Engine.redrain]
  refine ⟨?preempt, ?cut, ?requalify, ?retire, ?toRetire, ?toRequalify⟩
  case preempt =>
    intro hr c
    rw [hr]
  case cut =>
    intro a c hr
    rw [hr]
  case requalify =>
    intro hr
    rw [hr]
    exact ⟨rfl, fun c => rfl⟩
  case retire =>
    intro hr r
    rw [hr]
  case toRetire =>
    intro hr
    split <;> simp_all
  case toRequalify =>
    rintro (hr | ⟨a, hr⟩) <;> rw [hr]

/-- Settles O45: every message but READY is taken on an UP link alone. -/
theorem downLinkDiscards : Obligations.DownLinkDiscards := by
  intro l s h
  have down : ∀ t : State, (if s.linkUp l then t else s) = s := fun t => if_neg (by simp [h])
  refine ⟨fun tag o ms => ?_, fun m => ?_, ?_, fun m => ?_, fun m => ?_, fun m => ?_, fun m a b set => ?_, fun bs => ?malformed⟩
  case malformed =>
    have hm : (s.linkUp l && s.isMalformed l bs) = false := by rw [h, Bool.false_and]
    exact congrArg Host.Outcome.next (if_neg (by simp [hm]))
  all_goals exact congrArg Host.Outcome.next (down _)
end

section
/-!
PROOF. RELEASE and BREAK (R27, R28), GUARD, UNGUARD and the device's GUARD (R30 to R33), and the two loads of the library (R47 to R49).
-/

namespace Sys2Proof.Machine

open Sys2Proof

section Changes

variable (s : State) (p : Port)

/-! ### RELEASE and BREAK (R27, R28) -/

/-- R27: the masked instances that the port owns. -/
theorem inMask_released (m : Mask) (i : Fin 64) :
    inMask (maskOf fun j => inMask m j && s.owns p j) i = true ↔ inMask m i = true ∧ (s.entry i).owner = portOwner p := by
  simp [State.owns]

/-- R28: CLAIM_LOST for the instances broken from the card. -/
def State.tellLost (s : State) (broken : Mask) : State := if broken = 0 then s else s.raise .card (.claimLost broken)

@[simp] theorem tellLost_entry (m : Mask) (i : Fin 64) : (s.tellLost m).entry i = s.entry i := by
  unfold State.tellLost
  split <;> rfl

@[simp] theorem tellLost_chassisPort (m : Mask) : (s.tellLost m).chassisPort = s.chassisPort := by
  unfold State.tellLost
  split <;> rfl

theorem tellLost_cardPort (m : Mask) :
    (s.tellLost m).cardPort =
      if m = 0 then s.cardPort else { s.cardPort with notices := s.cardPort.notices.raise (.claimLost m) } := by
  unfold State.tellLost
  split <;> rfl

/-- R28: the masked instances that the card owns. -/
def State.brokenMask (s : State) (m : Mask) : Mask := maskOf fun i => inMask m i && s.owns .card i

/-- R28: BREAK at the chassis port, with an instance masked. -/
theorem execBreakClaim_accepted {m : Mask} (h : m ≠ 0) :
    execBreakClaim .chassis m s =
      .next (((s.setOwners (inMask m) .chassis).tellLost (s.brokenMask m)).ok .chassis .breakClaim (.mask (s.brokenMask m))) := by
  rw [execBreakClaim, gatePort_self, if_neg h]
  rfl

/-! ### GUARD and UNGUARD (R30 to R33) -/

/-- R31: the rows a change of the guarded rows guards after it. -/
def guardedAfter (gs : List GuardRange) (a b : Nat) (set : Bool) (r : Nat) : Prop :=
  if set then guarded gs r = true ∨ (a ≤ r ∧ r ≤ b) else guarded gs r = true ∧ ¬(a ≤ r ∧ r ≤ b)

/-- R31, R32: a change of canonical ranges guards exactly the rows it should. -/
theorem guarded_changedRanges {rows : Nat} {gs : List GuardRange} {a b : Nat} (set : Bool) (hab : a ≤ b) (h : rangesFrom rows 0 gs) (r : Nat) :
    guarded (changedRanges gs a b set) r = true ↔ guardedAfter gs a b set r := by
  unfold changedRanges guardedAfter
  cases set with
  | true => exact guarded_addRange rows 0 gs ⟨a, b⟩ h hab r
  | false => exact guarded_removeRange gs a b r hab

/-- The guard ranges of a sound entry with a descriptor are canonical. -/
theorem rangesFrom_of_sound {e : Entry} {d : Descriptor} (hd : e.descriptor = some d) (h : e.guardsSound) : rangesFrom d.rows 0 e.guards := by
  unfold Entry.guardsSound at h
  rw [hd] at h
  exact h.1

section Checks

variable {e : Entry} {d : Descriptor} {a b : Nat} {set : Bool}

/-- R31: a change whose checks all pass. -/
theorem guardCheck_accepted (hd : e.descriptor = some d) (hv : e.state ≠ .vacant) (hb : e.state.busy = false) (hab : a ≤ b) (hr : b < d.rows)
    (hl : (changedRanges e.guards a b set).length ≤ 4) : guardCheck e a b set = .ok (changedRanges e.guards a b set) := by
  have hrange : ¬(b < a ∨ d.rows ≤ b) := by omega
  have hfull : (changedRanges e.guards a b set).length ≤ Config.guardCapacity := hl
  simp [guardCheck, hd, hv, hb, hrange, hfull]

theorem guardCheck_busy (hd : e.descriptor = some d) (hv : e.state ≠ .vacant) (hb : e.state.busy = true) :
    guardCheck e a b set = .error .busy := by
  simp [guardCheck, hd, hv, hb]

theorem guardCheck_badRange (hd : e.descriptor = some d) (hv : e.state ≠ .vacant) (hb : e.state.busy = false) (hr : b < a ∨ d.rows ≤ b) :
    guardCheck e a b set = .error .badRange := by
  simp [guardCheck, hd, hv, hb, hr]

theorem guardCheck_full (hd : e.descriptor = some d) (hv : e.state ≠ .vacant) (hb : e.state.busy = false) (hab : a ≤ b) (hr : b < d.rows)
    (hl : 4 < (changedRanges e.guards a b set).length) : guardCheck e a b set = .error .guardFull := by
  have hrange : ¬(b < a ∨ d.rows ≤ b) := by omega
  have hfull : ¬(changedRanges e.guards a b set).length ≤ Config.guardCapacity := not_le.2 hl
  simp [guardCheck, hd, hv, hb, hrange, hfull]

end Checks

/-- R31, R32: an accepted GUARD or UNGUARD of the card's instance `i` writes the new ranges and answers with them. -/
theorem guardRequest_changes {k : RequestKind} {i : Fin 64} {a b : Nat} {set : Bool} {after : List GuardRange}
    (h : guardCheck (s.entry i) a b set = .ok after) (hs : (s.entry i).guardsSound) {t : State}
    (ht : t = s.guardRequest .card k set a b i) :
    t.entry i = { s.entry i with guards := after } ∧ (t.entry i).guardsSound ∧ s.answered t .card k .ok (.guards after) ∧
      s.othersKept t i ∧ t = { s with table := t.table, cardPort := t.cardPort } := by
  have he : s.guardRequest .card k set a b i = (s.modEntry i fun e => { e with guards := after }).ok .card k (.guards after) := by
    rw [State.guardRequest, h]
  rw [ht, he]
  have hi : ((s.modEntry i fun e => { e with guards := after }).ok .card k (.guards after)).entry i = { s.entry i with guards := after } := by
    rw [ok_entry, State.entry_modEntry, if_pos rfl]
  refine ⟨hi, ?_, answered_ok s .card k _ fun q => rfl, fun j hj => ?_, rfl⟩
  · rw [hi]
    exact guardCheck_sound _ a b set after h hs
  · rw [ok_entry, State.entry_modEntry, if_neg hj]

/-- R33, R116: a refused device GUARD is answered with REJECT. -/
theorem execDeviceGuard_rejected {l : Fin 4} {m : Fin 256} {a b : Nat} {set : Bool} {i : Fin 64} {st : Status} (hu : s.linkUp l = true)
    (hi : s.names l m i) (h : guardCheck (s.entry i) a b set = .error st) :
    execDeviceGuard l m a b set s =
      .next (s.setLink l { s.link l with sent := (s.link l).sent ++ [.reject m (rejectOf st)] }) := by
  simp only [execDeviceGuard, if_pos hu, (lookup_eq_some s l m i).2 hi, h, send_up hu]

/-- R33: an accepted device GUARD writes the new ranges and is answered with nothing. -/
theorem execDeviceGuard_accepted {l : Fin 4} {m : Fin 256} {a b : Nat} {set : Bool} {i : Fin 64} {after : List GuardRange}
    (hu : s.linkUp l = true) (hi : s.names l m i) (h : guardCheck (s.entry i) a b set = .ok after) :
    execDeviceGuard l m a b set s = .next (s.setEntry i { s.entry i with guards := after }) := by
  simp only [execDeviceGuard, if_pos hu, (lookup_eq_some s l m i).2 hi, h, State.modEntry]

/-! ### The loads of the library (R47 to R49) -/

/-- A list read as a whole has a member for each of its own. -/
theorem length_of_mapM {α β : Type} {f : α → Option β} {l : List α} {m : List β} (h : l.mapM f = some m) : m.length = l.length := by
  induction l generalizing m with
  | nil =>
    obtain rfl : [] = m := Option.some.inj h
    rfl
  | cons a t ih =>
    rw [List.mapM_cons] at h
    simp only [bind, Option.bind_eq_some_iff, pure, Option.some.injEq] at h
    obtain ⟨b, -, bs, hbs, rfl⟩ := h
    rw [List.length_cons, List.length_cons, ih hbs]

/-- What a list read as a whole has for one of its members. -/
theorem mapM_getElem_of {α β : Type} {f : α → Option β} {l : List α} {m : List β} (h : l.mapM f = some m) {k : Nat} {a : α}
    (ha : l[k]? = some a) (hk : k < m.length) : f a = some m[k] := by
  have hm := mapM_getElem? h k
  rw [ha, List.getElem?_eq_getElem hk] at hm
  exact hm.symm

/-- R47: a list of legal records is taken. -/
theorem mapM_checkElement {rs : List RawElement} (h : ∀ r ∈ rs, legalElement r) : ∃ es, rs.mapM checkElement = some es :=
  Option.ne_none_iff_exists'.1 fun hn =>
    have ⟨r, hr, hc⟩ := (mapM_none checkElement rs).1 hn
    (checkElement_none r).1 hc (h r hr)

/-- R48: a list of legal records is taken. -/
theorem mapM_checkDirectoryEntry {rs : List RawDirectoryEntry} (h : ∀ r ∈ rs, legalDirectoryEntry r) :
    ∃ es, rs.mapM checkDirectoryEntry = some es :=
  Option.ne_none_iff_exists'.1 fun hn =>
    have ⟨r, hr, hc⟩ := (mapM_none checkDirectoryEntry rs).1 hn
    (checkDirectoryEntry_none r).1 hc (h r hr)

/-- R49: the instances that hold an element of a run. -/
def State.elementHolders (s : State) (start n : Nat) : Mask := maskOf fun i => (indexRun start n).any (s.holdsElement i)

/-- R49: the instances that hold a directory entry of a run. -/
def State.entryHolders (s : State) (start n : Nat) : Mask := maskOf fun i => (indexRun start n).any (s.holdsEntry i)

theorem inMask_elementHolders (start n : Nat) (j : Fin 64) :
    inMask (s.elementHolders start n) j = true ↔ ∃ k, start ≤ k ∧ k < start + n ∧ s.holdsRecord j k := by
  simp only [State.elementHolders, inMask_maskOf, List.any_eq_true, mem_indexRun, holdsElement_iff, and_assoc]

theorem inMask_entryHolders {start n : Nat} (h : start + n ≤ 32) (j : Fin 64) :
    inMask (s.entryHolders start n) j = true ↔ ∃ q : Fin 32, start ≤ q.val ∧ q.val < start + n ∧ s.holdsSequence j q := by
  simp only [State.entryHolders, inMask_maskOf, List.any_eq_true, mem_indexRun, and_assoc]
  constructor
  · rintro ⟨k, h1, h2, hk⟩
    exact ⟨⟨k, by omega⟩, h1, h2, (holdsEntry_iff s j ⟨k, by omega⟩).1 hk⟩
  · rintro ⟨q, h1, h2, hq⟩
    exact ⟨q, h1, h2, (holdsEntry_iff s j q).2 hq⟩

/-- R47, R49: LOAD_ELEMENTS past its checks of range. -/
theorem execLoadElements_legal {start : Nat} {rs : List RawElement} {es : List Element} (h0 : rs.length ≠ 0) (h1 : rs.length ≤ 16)
    (h2 : 33 ≤ start) (h3 : start + rs.length ≤ 256) (hes : rs.mapM checkElement = some es) :
    execLoadElements .card start rs s =
      .next (if s.elementHolders start rs.length = 0 then (s.writeElements start es).ok .card .loadElements (.written rs.length)
        else s.answer .card .loadElements .libraryBusy (.mask (s.elementHolders start rs.length))) := by
  have hn : ¬(rs.length = 0 ∨ 16 < rs.length) := by omega
  have hr : ¬(start < Config.firstLoadableElement ∨ 255 < start + rs.length - 1) := by
    unfold Config.firstLoadableElement
    omega
  rw [execLoadElements, gatePort_self]
  simp only [if_neg hn, if_neg hr, hes]
  rfl

/-- R48, R49: LOAD_DIRECTORY past its checks of range. -/
theorem execLoadDirectory_legal {start : Nat} {rs : List RawDirectoryEntry} {es : List (Option DirectoryEntry)} (h0 : rs.length ≠ 0)
    (h1 : rs.length ≤ 8) (h2 : 6 ≤ start) (h3 : start + rs.length ≤ 32) (hes : rs.mapM checkDirectoryEntry = some es) :
    execLoadDirectory .card start rs s =
      .next (if s.entryHolders start rs.length = 0 then (s.writeDirectory start es).ok .card .loadDirectory (.written rs.length)
        else s.answer .card .loadDirectory .libraryBusy (.mask (s.entryHolders start rs.length))) := by
  have hn : ¬(rs.length = 0 ∨ 8 < rs.length) := by omega
  have hr : ¬(start < Config.firstLoadableEntry ∨ 31 < start + rs.length - 1) := by
    unfold Config.firstLoadableEntry
    omega
  rw [execLoadDirectory, gatePort_self]
  simp only [if_neg hn, if_neg hr, hes]
  rfl

/-- R49: no instance holds an index of the run. -/
theorem mask_eq_zero {m : Mask} (h : ∀ i, ¬inMask m i = true) : m = 0 := mask_ext fun i => by simpa using h i

theorem mask_ne_zero {m : Mask} {i : Fin 64} (h : inMask m i = true) : m ≠ 0 := by
  rintro rfl
  simp at h

/-- R168: an answer other than OK, and no change beside it. -/
theorem answered_answer (k : RequestKind) (st : Status) (pl : Payload) : s.answered (s.answer p k st pl) p k st pl :=
  ⟨port_answer s p k st pl, port_other_answer s p k st pl⟩

end Changes

end Sys2Proof.Machine

open Sys2Proof Sys2Proof.Machine

/-- Settles O8: the owners set are those of the masked instances that the port owns. -/
theorem releaseFreesOwnedInstances : Obligations.ReleaseFreesOwnedInstances := by
  intro p m s
  refine ⟨_, rfl, _, inMask_released s p m, answered_ok s p _ _ fun q => setOwners_port .., fun i => ?entry, setOwners_ok_frame s p _ _ _ _ rfl⟩
  case entry => rw [ok_entry, entry_setOwners]

/-- Settles O9: the gates of BREAK, and then the owners set, the notice at the card port and the answer. -/
theorem breakTakesForChassis : Obligations.BreakTakesForChassis := by
  intro m s
  refine ⟨⟨_, congrArg Host.Outcome.next (gatePort_otherPort s .chassis .breakClaim _), refused_refuse ..⟩, ?_⟩
  by_cases hm : m = 0
  · refine ⟨s.refuse .chassis .breakClaim .badRange, ?_, fun _ => refused_refuse .., fun h => absurd hm h⟩
    exact congrArg Host.Outcome.next ((gatePort_self ..).trans (if_pos hm))
  · refine ⟨_, execBreakClaim_accepted s hm, fun h => absurd h hm, fun _ => ⟨s.brokenMask m, inMask_released s .card m, ?_, ?_, fun i => ?_, ?_⟩⟩
    · show ({ (State.tellLost _ _).chassisPort with response := _ } : PortState) = _
      rw [tellLost_chassisPort, show (s.setOwners (inMask m) .chassis).chassisPort = _ from setOwners_port s .chassis ..]
      rfl
    · show (State.tellLost _ _).cardPort = _
      rw [tellLost_cardPort, show (s.setOwners (inMask m) .chassis).cardPort = _ from setOwners_port s .card ..]
      rfl
    · rw [ok_entry, tellLost_entry, entry_setOwners]
    · obtain ⟨tb, htb⟩ := setOwners_table s (inMask m) .chassis
      rw [htb]
      unfold State.tellLost
      split <;> rfl

/-- Settles O11: the checks of R31 all pass, and the ranges are changed. -/
theorem guardAndUnguardChangeRows : Obligations.GuardAndUnguardChangeRows := by
  intro i a b d s ho hd hv hb hab hr hs
  have hfrom := rangesFrom_of_sound hd hs
  have passes : ∀ k act, s.gatePort .card .card k (s.gateOwned .card k i.val act) = act i := fun k act => by
    rw [gatePort_self, gateOwned_of_owner s .card ho]
  refine ⟨fun hl => ?guard, fun hl => ?unguard⟩
  case guard =>
    have hc := guardCheck_accepted (set := true) hd hv hb hab hr hl
    obtain ⟨he, hsound, ha, hothers, hframe⟩ := guardRequest_changes s (k := .guard) hc hs rfl
    exact ⟨_, _, congrArg Host.Outcome.next (passes ..), he, hsound, guarded_changedRanges true hab hfrom, ha, hothers, hframe⟩
  case unguard =>
    have hc := guardCheck_accepted (set := false) hd hv hb hab hr hl
    obtain ⟨he, hsound, ha, hothers, hframe⟩ := guardRequest_changes s (k := .unguard) hc hs rfl
    exact ⟨_, _, congrArg Host.Outcome.next (passes ..), he, hsound, guarded_changedRanges false hab hfrom, ha, hothers, hframe⟩

/-- Settles O12: the checks of R31 from the second on, by the instance the memory id names. -/
theorem deviceGuardChangesRows : Obligations.DeviceGuardChangesRows := by
  intro l m a b set s hu
  refine ⟨fun hn => ?unnamed, fun i d hi hd => ?named⟩
  case unnamed =>
    show execDeviceGuard l m a b set s = _
    rw [execDeviceGuard, if_pos hu, (lookup_eq_none s l m).2 hn, ← send_up hu]
  case named =>
    have hv : (s.entry i).state ≠ .vacant := hi.1.1
    refine ⟨fun hb => ?_, fun hb hr => ?_, fun hb hab hr hl => ?_, fun hb hab hr hs hl => ?_⟩
    · exact execDeviceGuard_rejected s hu hi (guardCheck_busy hd hv hb)
    · exact execDeviceGuard_rejected s hu hi (guardCheck_badRange hd hv hb hr)
    · exact execDeviceGuard_rejected s hu hi (guardCheck_full hd hv hb hab hr hl)
    · have hc := guardCheck_accepted (set := set) hd hv hb hab hr hl
      exact ⟨_, execDeviceGuard_accepted s hu hi hc, guardCheck_sound _ a b set _ hc hs,
        guarded_changedRanges set hab (rangesFrom_of_sound hd hs)⟩

/-- Settles O14: the records are taken one by one, and with no holder they are written. -/
theorem loadsWriteTheLibrary : Obligations.LoadsWriteTheLibrary := by
  refine ⟨fun start rs s h0 h1 h2 h3 hlegal hfree => ?elements, fun start rs s h0 h1 h2 h3 hlegal hfree => ?directory⟩
  case elements =>
    obtain ⟨es, hes⟩ := mapM_checkElement hlegal
    have hz : s.elementHolders start rs.length = 0 := mask_eq_zero fun i hi => by
      obtain ⟨k, hk, hk', h⟩ := (inMask_elementHolders s start rs.length i).1 hi
      exact hfree i k hk hk' h
    have hlen : es.length = rs.length := length_of_mapM hes
    refine ⟨_, (execLoadElements_legal s (by omega) h1 h2 h3 hes).trans (congrArg Host.Outcome.next (if_pos hz)), fun k r hr => ?written,
      fun k hk => ?kept, answered_ok s .card _ _ fun q => writeElements_port .., ?frame⟩
    case written =>
      have hk : k < rs.length := (List.getElem?_eq_some_iff.1 hr).1
      have hin : start ≤ start + k ∧ start + k < start + es.length ∧ start + k < 256 := by omega
      have he : (s.writeElements start es).element (start + k) = es[k] := by
        rw [element_writeElements, dif_pos hin]
        simp only [Nat.add_sub_cancel_left]
      show spellsElement r ((s.writeElements start es).element (start + k))
      rw [he]
      exact ((checkElement_some r _).1 (mapM_getElem_of hes hr (by omega))).2
    case kept =>
      show (s.writeElements start es).element k = s.element k
      rw [element_writeElements, dif_neg (by omega)]
    case frame =>
      obtain ⟨v, hv⟩ := writeElements_elements es s start
      rw [hv]
      rfl
  case directory =>
    obtain ⟨es, hes⟩ := mapM_checkDirectoryEntry hlegal
    have hz : s.entryHolders start rs.length = 0 := mask_eq_zero fun i hi => by
      obtain ⟨q, hq, hq', h⟩ := (inMask_entryHolders s h3 i).1 hi
      exact hfree i q hq hq' h
    have hlen : es.length = rs.length := length_of_mapM hes
    refine ⟨_, (execLoadDirectory_legal s (by omega) h1 h2 h3 hes).trans (congrArg Host.Outcome.next (if_pos hz)), fun q k r hq hr => ?written,
      fun q hq => ?kept, answered_ok s .card _ _ fun q => writeDirectory_port .., ?frame⟩
    case written =>
      have hk : k < rs.length := (List.getElem?_eq_some_iff.1 hr).1
      have he : (s.writeDirectory start es).directoryEntry q = es[k] := by
        rw [directoryEntry_writeDirectory, dif_pos (by omega)]
        simp only [hq, Nat.add_sub_cancel_left]
      show spellsDirectoryEntry r ((s.writeDirectory start es).directoryEntry q)
      rw [he]
      exact ((checkDirectoryEntry_some r _).1 (mapM_getElem_of hes hr (by omega))).2
    case kept =>
      show (s.writeDirectory start es).directoryEntry q = s.directoryEntry q
      rw [directoryEntry_writeDirectory, dif_neg (by omega)]
    case frame =>
      obtain ⟨v, hv⟩ := writeDirectory_directory es s start
      rw [hv]
      rfl

/-- Settles O15: the holders of the run are those the mask lists, and it is not empty. -/
theorem busyLibraryRefusesLoads : Obligations.BusyLibraryRefusesLoads := by
  refine ⟨fun start rs i k s h1 h2 h3 hlegal hk hk' hheld => ?elements, fun start rs i q s h1 h2 h3 hlegal hq hq' hheld => ?directory⟩
  case elements =>
    obtain ⟨es, hes⟩ := mapM_checkElement hlegal
    have hz : s.elementHolders start rs.length ≠ 0 := mask_ne_zero ((inMask_elementHolders s start rs.length i).2 ⟨k, hk, hk', hheld⟩)
    exact ⟨_, _, (execLoadElements_legal s (by omega) h1 h2 h3 hes).trans (congrArg Host.Outcome.next (if_neg hz)),
      inMask_elementHolders s start rs.length, answered_answer s .card _ _ _, rfl⟩
  case directory =>
    obtain ⟨es, hes⟩ := mapM_checkDirectoryEntry hlegal
    have hz : s.entryHolders start rs.length ≠ 0 := mask_ne_zero ((inMask_entryHolders s h3 i).2 ⟨q, hq, hq', hheld⟩)
    exact ⟨_, _, (execLoadDirectory_legal s (by omega) h1 h2 h3 hes).trans (congrArg Host.Outcome.next (if_neg hz)),
      inMask_entryHolders s h3, answered_answer s .card _ _ _, rfl⟩
end

section
/-!
PROOF. The bytes of frames (R168, R169, section 11.5), the reads of an instance and of the part (R170), and the notices of a port (R172, R173).
-/

namespace Sys2Proof.Machine

open Sys2Proof

/-! ### Numbers in bytes (section 11.5) -/

theorem numberOf_two (a b : Byte) : numberOf [a, b] = 256 * a.toNat + b.toNat := by simp [numberOf]

/-- Two bytes spell the number they are the bytes of. -/
theorem numberOf_bytesOf_two {n : Nat} (h : n < 65536) : numberOf (bytesOf 2 n) = n := by
  rw [bytesOf_two, numberOf_two, BitVec.toNat_ofNat, BitVec.toNat_ofNat]
  omega

/-- The CRC agrees with two bytes when it is the number they spell. -/
theorem crc_eq_field (c : BitVec 16) {l : List Byte} (h : l.length = 2) : c = BitVec.ofNat 16 (numberOf l) ↔ c.toNat = numberOf l := by
  obtain ⟨a, b, rfl⟩ := List.length_eq_two.1 h
  have hn : numberOf [a, b] < 65536 := by
    rw [numberOf_two]
    omega
  rw [← BitVec.toNat_inj, BitVec.toNat_ofNat, Nat.mod_eq_of_lt hn]

/-! ### The checks of a frame (R169) -/

/-- R169: the checks of length and of the CRC. -/
theorem frameIntact_iff (bs : List Byte) :
    frameIntact bs = true ↔
      5 ≤ bs.length ∧ numberOf ((bs.drop 1).take 2) ≤ 1024 ∧ bs.length = numberOf ((bs.drop 1).take 2) + 5 ∧
        (crc16 (bs.take (bs.length - 2))).toNat = numberOf (bs.drop (bs.length - 2)) := by
  unfold frameIntact numberAt
  dsimp only
  rw [Bool.and_eq_true, Bool.and_eq_true, Bool.and_eq_true, decide_eq_true_iff, decide_eq_true_iff, beq_iff_eq, beq_iff_eq, and_assoc, and_assoc]
  refine and_congr_right fun h5 => and_congr_right fun _ => and_congr_right fun _ => ?_
  have htwo : (bs.drop (bs.length - 2)).length = 2 := by
    rw [List.length_drop]
    omega
  rw [List.take_of_length_le htwo.le]
  exact crc_eq_field _ htwo

theorem checkFrame_broken {bs : List Byte} (h : ¬frameIntact bs = true) : checkFrame bs = .refused .badFrame := by
  simp [checkFrame, h]

theorem checkFrame_unknown {bs : List Byte} (h : frameIntact bs = true) (hr : requestOf (bs.headD 0) = none) :
    checkFrame bs = .refused .badRequest := by
  rw [checkFrame, h, hr]
  rfl

theorem checkFrame_request {bs : List Byte} {k : RequestKind} (h : frameIntact bs = true) (hr : requestOf (bs.headD 0) = some k) :
    checkFrame bs =
      if admits k ((bs.drop 3).take (numberOf ((bs.drop 1).take 2))) then .taken k ((bs.drop 3).take (numberOf ((bs.drop 1).take 2)))
      else .refused .badFrame := by
  rw [checkFrame, h, hr]
  rfl

/-! ### BAD_FRAME (R168, R169) -/

section BadFrames

variable {p : Port} {bs : List Byte} (s : State)

/-- R168: a read transfer stands at the card port and begins with a zero byte. -/
theorem readTransfer_iff : readTransfer p bs = true ↔ p = .card ∧ bs.headD 0 = 0 := by
  cases p <;> simp [readTransfer]

theorem execBadFrame_read (h : readTransfer p bs = true) : execBadFrame p bs s = .next s := by
  simp [execBadFrame, h]

/-- R169: a frame that a check refuses is answered with the check's status. -/
theorem execBadFrame_refused {st : Status} (h : ¬readTransfer p bs = true) (hc : checkFrame bs = .refused st) :
    execBadFrame p bs s = .next (s.setPort p { s.port p with response := some ⟨bs.headD 0, st, .empty⟩ }) := by
  simp only [execBadFrame, if_neg h, hc]
  rfl

theorem execBadFrame_taken {k : RequestKind} {l : List Byte} (h : ¬readTransfer p bs = true) (hc : checkFrame bs = .taken k l) :
    execBadFrame p bs s = .next s := by
  simp only [execBadFrame, if_neg h, hc]

end BadFrames

/-! ### The frame of a request -/

theorem requestOf_code (k : RequestKind) : requestOf k.code = some k := by
  cases k <;> rfl

theorem code_ne_zero (k : RequestKind) : k.code ≠ 0 := by
  cases k <;> decide

/-- Section 11.5: a request other than a load has a payload of at most 17 bytes. -/
theorem length_of_admits {k : RequestKind} {l : List Byte} (h : admits k l = true) (he : k ≠ .loadElements) (hd : k ≠ .loadDirectory) :
    l.length ≤ 17 := by
  cases k
  case loadElements => exact absurd rfl he
  case loadDirectory => exact absurd rfl hd
  all_goals
    have hl := beq_iff_eq.1 h
    omega

/-- Section 11.5: the body of a request frame, which its check covers. -/
def frameBody (k : RequestKind) (l : List Byte) : List Byte := [k.code] ++ bytesOf 2 l.length ++ l

section Frames

variable {k : RequestKind} {l : List Byte}

theorem requestFrame_eq : requestFrame k l = frameBody k l ++ crcBytes (frameBody k l) := rfl

theorem frameBody_length : (frameBody k l).length = l.length + 3 := by
  simp [frameBody, bytesOf_two]

theorem requestFrame_length : (requestFrame k l).length = l.length + 5 := by
  rw [requestFrame_eq, List.length_append, frameBody_length, crcBytes, bytesOf_two]
  rfl

/-- The length field stands behind the code. -/
theorem requestFrame_lengthField : ((requestFrame k l).drop 1).take 2 = bytesOf 2 l.length := by
  simp [requestFrame_eq, frameBody, bytesOf_two]

/-- The payload stands behind the length field. -/
theorem requestFrame_payload : ((requestFrame k l).drop 3).take l.length = l := by
  simp [requestFrame_eq, frameBody, bytesOf_two]

/-- R169: the frame of a request passes the checks of length and of the CRC. -/
theorem requestFrame_intact (hl : l.length ≤ 1024) : frameIntact (requestFrame k l) = true := by
  have hbody : (requestFrame k l).length - 2 = (frameBody k l).length := by
    rw [requestFrame_length, frameBody_length]
    omega
  rw [frameIntact_iff, requestFrame_lengthField, numberOf_bytesOf_two (by omega), requestFrame_length]
  refine ⟨by omega, hl, rfl, ?_⟩
  rw [← requestFrame_length (k := k), hbody, requestFrame_eq, List.take_left, List.drop_left, crcBytes,
    numberOf_bytesOf_two (crc16 _).isLt]

/-- R169: the frame of a request whose payload its kind admits passes every check. -/
theorem requestFrame_taken (hl : l.length ≤ 1024) (ha : admits k l = true) : checkFrame (requestFrame k l) = .taken k l := by
  rw [checkFrame_request (requestFrame_intact hl) (requestOf_code k), requestFrame_lengthField, numberOf_bytesOf_two (by omega),
    requestFrame_payload, if_pos ha]

/-- R168: no request's code makes its frame a read transfer. -/
theorem requestFrame_not_read (p : Port) : ¬readTransfer p (requestFrame k l) = true :=
  fun h => code_ne_zero k (readTransfer_iff.1 h).2

end Frames

/-- Section 11.5: the payload of a request that fits the wire is at most 1024 bytes long. -/
theorem length_payloadOf {i : Instr} {p : Port} {k : RequestKind} (hw : i.wf = true) (ha : admits k (payloadOf i) = true)
    (hc : requestCommand p k (payloadOf i) = i) : (payloadOf i).length ≤ 1024 := by
  by_cases he : k = .loadElements
  · subst he
    rw [← hc] at hw
    simp only [admits, requestCommand, Instr.wf, recordsAt, Bool.and_eq_true, decide_eq_true_eq, beq_iff_eq, List.length_map,
      List.length_range] at ha hw
    omega
  · by_cases hd : k = .loadDirectory
    · subst hd
      rw [← hc] at hw
      simp only [admits, requestCommand, Instr.wf, recordsAt, Bool.and_eq_true, decide_eq_true_eq, beq_iff_eq, List.length_map,
        List.length_range] at ha hw
      omega
    · have hl := length_of_admits ha he hd
      omega

/-- Section 11.5: the payload of every request that fits the wire spells it. -/
theorem spelled {i : Instr} {p : Port} {k : RequestKind} (h : requestKindOf i = some (p, k)) (hw : i.wf = true) :
    admits k (payloadOf i) = true ∧ requestCommand p k (payloadOf i) = i := by
  cases i
  case define => exact Laws.Spelled.define _ _ _ p k h hw
  case retire => exact Laws.Spelled.retire _ _ p k h hw
  case requalify => exact Laws.Spelled.requalify _ p k h hw
  case test => exact Laws.Spelled.test _ _ _ _ p k h hw
  case stop => exact Laws.Spelled.stop _ _ p k h hw
  case guard => exact Laws.Spelled.guard _ _ _ _ p k h hw
  case unguard => exact Laws.Spelled.unguard _ _ _ _ p k h hw
  case claim => exact Laws.Spelled.claim _ _ _ p k h hw
  case release => exact Laws.Spelled.release _ _ p k h hw
  case breakClaim => exact Laws.Spelled.breakClaim _ _ p k h hw
  case loadElements => exact Laws.Spelled.loadElements _ _ _ p k h hw
  case loadDirectory => exact Laws.Spelled.loadDirectory _ _ _ p k h hw
  case budget => exact Laws.Spelled.budget _ _ p k h hw
  case cap => exact Laws.Spelled.cap _ _ p k h hw
  case commit => exact Laws.Spelled.commit _ _ p k h hw
  case clearStore => exact Laws.Spelled.clearStore _ _ p k h hw
  case status => exact Laws.Spelled.status _ _ p k h hw
  case fails => exact Laws.Spelled.fails _ _ _ p k h hw
  case map => exact Laws.Spelled.map _ _ p k h hw
  case queue => exact Laws.Spelled.queue _ p k h hw
  case engines => exact Laws.Spelled.engines _ p k h hw
  case links => exact Laws.Spelled.links _ p k h hw
  case library => exact Laws.Spelled.library _ _ _ _ p k h hw
  case time => exact Laws.Spelled.time _ p k h hw
  case takeNotice => exact Laws.Spelled.takeNotice _ _ p k h hw
  case noticeMask => exact Laws.Spelled.noticeMask _ _ p k h hw
  all_goals exact nomatch h

/-! ### Reads (R55, R57, R79, R98, R170) -/

section Reads

variable (s : State) (p : Port)

/-- R170: a read of one instance passes the index check. -/
theorem gateIndex_val (k : RequestKind) (i : Fin 64) (act : Fin 64 → State) : s.gateIndex p k i.val act = act i := by
  simp [State.gateIndex, instIndex_val]

/-- R81: a RUNNING instance's position is its engine's. -/
theorem reportedRun_of_running {i : Fin 64} {n : Fin 6} {x : Position} (h : (s.entry i).state = .running) (hn : s.engineOf i = some n)
    (hx : (s.engine n).position = some x) : s.reportedRun i = { (s.entry i).run with position := x } := by
  simp [State.reportedRun, h, hn, hx]

theorem reportedRun_of_not_running {i : Fin 64} (h : (s.entry i).state ≠ .running) : s.reportedRun i = (s.entry i).run := by
  unfold State.reportedRun
  cases hs : (s.entry i).state
  case running => exact absurd hs h
  all_goals simp only [hs]

/-- R79: the report of each engine stands at its number. -/
theorem engineReports_get (e : Fin 6) : (allEngines.map fun n => engineReport (s.engine n))[e.val]? = some (engineReport (s.engine e)) := by
  simp [allEngines]

/-- R98: the report of each link stands at its number. -/
theorem linkReports_get (l : Fin 4) : (allLinks.map fun n => linkReport (s.link n))[l.val]? = some (linkReport (s.link l)) := by
  simp [allLinks]

/-- R55: a read of a directory entry. -/
theorem execLibrary_entry (q : Fin 32) (count : Nat) :
    execLibrary p 0 q.val count s = .next (s.ok p .library (.directoryEntry (s.directoryEntry q) (s.entryReferenced q.val))) := by
  simp [execLibrary, q.isLt]

/-- R55: a read of elements. -/
theorem execLibrary_elements {first count : Nat} (h1 : 1 ≤ count) (h2 : count ≤ 16) (h3 : first + count ≤ 256) :
    execLibrary p 1 first count s =
      .next (s.ok p .library (.elements ((List.range count).map fun k => (s.element (first + k), s.elementReferenced (first + k))))) := by
  have hn : ¬(count = 0 ∨ 16 < count ∨ 255 < first + count - 1) := by omega
  simp only [execLibrary, if_neg hn, indexRun, List.map_map]
  rfl

end Reads

/-! ### Notices (R172, R173) -/

section Notices

variable (ns : NoticeSet)

theorem get_remove_self (k : NoticeKind) : (ns.remove k).get k = none := by cases k <;> rfl

theorem get_remove_other {j k : NoticeKind} (h : j ≠ k) : (ns.remove k).get j = ns.get j := by
  cases k <;> cases j <;> simp [NoticeSet.get, NoticeSet.remove] at h ⊢ <;> rfl

/-- R172: to remove an absent kind is to change nothing. -/
theorem remove_of_absent {k : NoticeKind} (h : ns.get k = none) : ns.remove k = ns := by
  obtain ⟨verdict, deadline, claimLost, link, fault, wrap, store⟩ := ns
  cases k <;> simp_all [NoticeSet.get, NoticeSet.remove]

/-- R172: a code names its kind. -/
theorem noticeKindOf_code (k : NoticeKind) : noticeKindOf k.code = some k := by cases k <;> rfl

theorem noticeKindOf_some {n : Nat} {k : NoticeKind} (h : noticeKindOf n = some k) : k.code = n := beq_iff_eq.1 (List.find?_some h :)

theorem bit_getLsbD {c n : Nat} (hc : c < 8) (hn : n < 8) : (1#8 <<< c).getLsbD n = decide (n = c) := by
  have all : ∀ c n : Fin 8, (1#8 <<< c.val).getLsbD n.val = decide (n.val = c.val) := by decide
  exact all ⟨c, hc⟩ ⟨n, hn⟩

theorem NoticeKind.code_lt (k : NoticeKind) : k.code < 8 := by cases k <;> decide

theorem NoticeKind.code_inj {j k : NoticeKind} (h : j.code = k.code) : j = k :=
  Option.some.inj ((noticeKindOf_code j).symm.trans ((congrArg noticeKindOf h).trans (noticeKindOf_code k)))

/-- Section 11.5: bit n of the kinds gathered from a list is set for a kind of code n that is present. -/
theorem foldl_kinds_getLsbD (f : NoticeKind → Bool) {n : Nat} (hn : n < 8) (l : List NoticeKind) (m : Byte) :
    (l.foldl (fun m k => if f k then m ||| (1#8 <<< k.code) else m) m).getLsbD n = (m.getLsbD n || l.any fun k => f k && decide (n = k.code)) := by
  induction l generalizing m with
  | nil => simp
  | cons a t ih =>
    rw [List.foldl_cons, ih, List.any_cons]
    cases f a with
    | false => simp
    | true => simp [bit_getLsbD a.code_lt hn, Bool.or_assoc]

/-- Section 11.5: kind n of a set stands at bit n. -/
theorem kinds_getLsbD (k : NoticeKind) : ns.kinds.getLsbD k.code = (ns.get k).isSome := by
  unfold NoticeSet.kinds
  rw [foldl_kinds_getLsbD _ k.code_lt]
  cases k <;> simp [noticeKinds, NoticeKind.code]

theorem kinds_zero : ns.kinds.getLsbD 0 = false := by
  unfold NoticeSet.kinds
  rw [foldl_kinds_getLsbD _ (by decide)]
  simp [noticeKinds, NoticeKind.code]

/-- R173: the mask's bits of the kinds stand. -/
theorem noticeMaskBits_getLsbD (m : Byte) (k : NoticeKind) : (noticeMaskBits m).getLsbD k.code = m.getLsbD k.code := by
  have h254 : BitVec.getLsbD (254 : Byte) k.code = true := by cases k <;> decide
  rw [noticeMaskBits, BitVec.getLsbD_and, h254, Bool.and_true]

/-- R173: the line is asserted while an enabled kind is present. -/
theorem line_iff (q : PortState) : q.line = true ↔ ∃ k, (q.notices.get k).isSome = true ∧ q.mask.getLsbD k.code = true := by
  have all : ∀ k, k ∈ noticeKinds := fun k => by cases k <;> decide
  simp [PortState.line, all]

/-- R172: TAKE_NOTICE of a kind removes its notice and returns it. -/
theorem execTakeNotice_kind (s : State) (p : Port) {n : Nat} {k : NoticeKind} (h : noticeKindOf n = some k) :
    execTakeNotice p n s =
      .next (s.setPort p { s.port p with
        notices := (s.port p).notices.remove k
        response := some ⟨112, .ok, .notice ((s.port p).notices.get k)⟩ }) := by
  simp only [execTakeNotice, h]
  cases p <;> rfl

end Notices

end Sys2Proof.Machine

open Sys2Proof Sys2Proof.Machine

/-- Settles O18: R169's checks in their order, each with its answer. -/
theorem badFramesAreRefused : Obligations.BadFramesAreRefused := by
  intro p bs s length field intact reply
  have intact_iff : frameIntact bs = true ↔ intact := frameIntact_iff bs
  refine ⟨fun h => execBadFrame_read s (readTransfer_iff.2 h), fun hread => ?_⟩
  have hr : ¬readTransfer p bs = true := mt readTransfer_iff.1 hread
  refine ⟨fun h => ?broken, fun h hk => ?unknown, fun k h hk => ⟨fun ha => ?long, fun ha => ?taken⟩⟩
  case broken => exact execBadFrame_refused s hr (checkFrame_broken (mt intact_iff.1 h))
  case unknown => exact execBadFrame_refused s hr (checkFrame_unknown (intact_iff.2 h) hk)
  case long => exact execBadFrame_refused s hr ((checkFrame_request (intact_iff.2 h) hk).trans (if_neg fun ht => Bool.false_ne_true (ha.symm.trans ht)))
  case taken => exact execBadFrame_taken s hr ((checkFrame_request (intact_iff.2 h) hk).trans (if_pos ha))

/-- Settles O19: the frame passes R169's checks, and its payload spells the request. -/
theorem framesCarryEveryRequest : Obligations.FramesCarryEveryRequest := by
  intro i p k h hw
  obtain ⟨ha, hc⟩ := spelled h hw
  simp only [frameCommand, if_neg (requestFrame_not_read p), requestFrame_taken (length_payloadOf hw ha hc) ha, hc]

/-- Settles O20: each read of an instance, past the index check. -/
theorem instanceReadsReport : Obligations.InstanceReadsReport := by
  intro p i start s e reply
  refine ⟨⟨s.reportedRun i, e.shownReason, ?status, rfl, reportedRun_of_not_running s, fun n x => reportedRun_of_running s⟩, ?fails, ?map⟩
  all_goals exact congrArg Host.Outcome.next (gateIndex_val ..)

/-- Settles O21: each read of the part, item by item. -/
theorem partReadsReport : Obligations.PartReadsReport := by
  intro p s reply
  refine ⟨⟨_, rfl, dispatchOrder_perm s, dispatchOrder_sorted s⟩, ⟨_, rfl, rfl, engineReports_get s⟩, ⟨_, rfl, rfl, linkReports_get s⟩,
    fun q count => ⟨_, entryReferenced_iff s q, execLibrary_entry s p q count⟩,
    fun first count h1 h2 h3 => ⟨_, elementReferenced_iff s, execLibrary_elements s p h1 h2 h3⟩, rfl⟩

/-- Settles O22: by whether the code names a kind. -/
theorem takeNoticeRemovesItsKind : Obligations.TakeNoticeRemovesItsKind := by
  intro p n s
  cases hn : noticeKindOf n with
  | none =>
    refine ⟨s.refuse p .takeNotice .badRange, ?_, fun _ => refused_refuse .., fun k hk => ?_⟩
    · show execTakeNotice p n s = _
      simp only [execTakeNotice, hn]
    · rw [← hk, noticeKindOf_code] at hn
      cases hn
  | some x =>
    refine ⟨_, execTakeNotice_kind s p hn, fun h => ?_, fun k hk => ?_⟩
    · rw [noticeKindOf_none.2 h] at hn
      cases hn
    · obtain rfl : x = k := NoticeKind.code_inj ((noticeKindOf_some hn).trans hk.symm)
      simp only [State.port_setPort, if_true]
      refine ⟨trivial, get_remove_self .., fun j hj => get_remove_other _ hj, remove_of_absent _, fun hlost hp hx => ?_, trivial⟩
      subst hp hx
      exact congrArg (Option.map Notice.claimLost) hlost

/-- Settles O23: the mask, the kinds and the line, bit by bit. -/
theorem noticeMaskDrivesTheLine : Obligations.NoticeMaskDrivesTheLine := by
  intro p m s
  refine ⟨_, _, ({ s.port p with mask := noticeMaskBits m } : PortState).line, rfl, ?frame, kinds_getLsbD _, kinds_zero _, ?line, ?port⟩
  case frame => cases p <;> rfl
  case line => simp only [line_iff, noticeMaskBits_getLsbD]
  case port => cases p <;> rfl
end

section
/-!
PROOF. TEST of an instance with a job (R60, R62, R63), a parked run's wake (R76), an element's end (R90), the pulls and service messages of a device
(R36, R37, R112 to R115), the Time Base (R149, R150) and the store's operations (R163 to R165).
-/

namespace Sys2Proof.Machine

open Sys2Proof

variable (s : State)

/-! ### TEST of an instance with a job (R60, R62, R63) -/

/-- R59: a TEST is refused for its instance's state only without a job. -/
theorem admitsTest_of_busy {st : InstState} (h : st.busy = true) : st ≠ .vacant ∧ ¬(st = .retired ∨ st = .faulted) := by
  rcases (busy_iff st).1 h with rfl | rfl | rfl | rfl | rfl <;> decide

/-- R8: a count that stops at 255. -/
theorem countUp_eq (n : Nat) : countUp n = if n < 255 then n + 1 else 255 := by
  unfold countUp Config.counterTop
  split <;> omega

/-- R60: the queued instance has a NORMAL or URGENT entry. -/
theorem testDisposition_merged {i : Fin 64} {x : QueueEntry} (h : (s.entry i).state = .queued) (hx : s.queueEntry i = some x)
    (hc : x.cls = .normal ∨ x.cls = .urgent) : s.testDisposition i = .merged := by
  have hm : s.mergeable i = true := by
    rcases hc with hc | hc <;> simp [State.mergeable, hx, hc]
  simp [State.testDisposition, h, hm]

/-- R60: with a job and no such entry, the TEST waits in the follow-up slot. -/
theorem testDisposition_followUp {i : Fin 64} (hb : (s.entry i).state.busy = true)
    (h : (s.entry i).state ≠ .queued ∨ ∃ x, s.queueEntry i = some x ∧ (x.cls = .wake ∨ x.cls = .verify)) :
    s.testDisposition i = .followUp := by
  unfold State.testDisposition
  rcases (busy_iff _).1 hb with hs | hs | hs | hs | hs <;> rw [hs]
  rcases h with h | ⟨x, hx, hc⟩
  · exact absurd hs h
  · have hm : s.mergeable i = false := by
      rcases hc with hc | hc <;> simp [State.mergeable, hx, hc]
    simp [hm]

/-- R62: a merged TEST writes the entry of its instance alone. -/
@[simp] theorem mergeTest_entry (i j : Fin 64) (q : Fin 32) (u : Urgency) :
    (s.mergeTest i q u).entry j =
      if j = i then { s.entry i with run := { (s.entry i).run with jobSequence := some q }, absorbed := countUp (s.entry i).absorbed }
      else s.entry j :=
  State.entry_modEntry ..

@[simp] theorem mergeTest_port (i : Fin 64) (q : Fin 32) (u : Urgency) (p : Port) : (s.mergeTest i q u).port p = s.port p := by cases p <;> rfl

/-- R62: the queued entry takes the sequence, and URGENT the class. -/
theorem mergeTest_workQueue (i : Fin 64) (q : Fin 32) (urgent : Bool) :
    (s.mergeTest i q (urgencyFor urgent)).workQueue =
      s.workQueue.map fun y => if y.inst = i then { y with sequence := q, cls := if urgent then .urgent else y.cls } else y := by
  cases urgent <;> rfl

theorem mergeTest_ok_frame (i : Fin 64) (q : Fin 32) (u : Urgency) (p : Port) (k : RequestKind) (pl : Payload) {t : State}
    (ht : t = (s.mergeTest i q u).ok p k pl) :
    t = { s with table := t.table, workQueue := t.workQueue, cardPort := t.cardPort, chassisPort := t.chassisPort } := by
  rw [ht]
  cases p <;> rfl

/-- An OK answer after a write of one entry touches the table and the ports alone. -/
theorem modEntry_ok_frame (i : Fin 64) (f : Entry → Entry) (p : Port) (k : RequestKind) (pl : Payload) {t : State}
    (ht : t = (s.modEntry i f).ok p k pl) :
    t = { s with table := t.table, cardPort := t.cardPort, chassisPort := t.chassisPort } := by
  rw [ht]
  cases p <;> rfl

/-- R63: the follow-up that a TEST leaves. -/
theorem urgencyFor_eq (urgent : Bool) : urgencyFor urgent = if urgent then .urgent else .normal := rfl

/-! ### Wakes (R76) -/

theorem wakeDue_iff (i : Fin 64) : s.wakeDue i = true ↔ ∃ x ∈ s.parking, x.inst = i ∧ x.wake = s.now := by
  simp [State.wakeDue]

/-- R58: an entry joins the Work Queue and touches no instance. -/
@[simp] theorem enqueue_entry (i j : Fin 64) (q : Fin 32) (c : EntryClass) (r : Requester) (a : Time) :
    (s.enqueue i q c r a).entry j = s.entry j := rfl

/-! ### The end of an element (R90) -/

theorem elementEnded_iff {e : Fin 6} {pos : Position} (h : (s.engine e).position = some pos) :
    s.elementEnded e = true ↔ (s.engine e).state = .walking ∧ pos.mark = .elementEnd ∧ (s.engine e).inFlight = [] := by
  simp [State.elementEnded, h, and_assoc]

/-! ### Pulls and service messages (R36, R37, R112 to R115) -/

/-- A message that appends nothing. -/
theorem setLink_self (l : Fin 4) : s.setLink l (s.link l) = s :=
  State.ext_parts (fun _ => rfl) rfl rfl rfl rfl rfl rfl rfl (fun _ => rfl)
    (fun m => by rw [State.link_setLink]; split <;> simp [*]) rfl rfl rfl rfl rfl rfl rfl rfl rfl

/-- R115: the answer to a pull on an UP link is the messages that answer it. -/
theorem answerPull_up {i : Fin 64} {d : Descriptor} (hd : (s.entry i).descriptor = some d) (hu : s.linkUp d.link = true) :
    s.answerPull i = s.setLink d.link { s.link d.link with sent := (s.link d.link).sent ++ answersTo d (s.entry i) } := by
  have twice : ∀ a b : LinkMsg, (s.send d.link a).send d.link b =
      s.setLink d.link { s.link d.link with sent := (s.link d.link).sent ++ [a, b] } := fun a b => by
    have hu' : (s.setLink d.link { s.link d.link with sent := (s.link d.link).sent ++ [a] }).linkUp d.link = true := by
      simpa [State.linkUp] using hu
    rw [send_up hu, send_up hu']
    simp
  unfold State.answerPull answersTo
  simp only [hd]
  cases (s.entry i).state
  case clean | repaired | abandoned | retired => exact send_up hu _
  case unrepairable => exact twice _ _
  all_goals simp only [List.append_nil]; exact (setLink_self s d.link).symm

section Messages

variable {s} {l : Fin 4} {m : Fin 256} {i : Fin 64}

theorem execPull_unnamed (hu : s.linkUp l = true) (h : s.lookup l m = none) :
    execPull l m s = .next (s.send l (.mapOffer m .unknown false none)) := by
  simp only [execPull, if_pos hu, h]

theorem execPull_named (hu : s.linkUp l = true) (h : s.lookup l m = some i) : execPull l m s = .next (s.takePull l i) := by
  simp only [execPull, if_pos hu, h]

theorem execInService_unnamed (hu : s.linkUp l = true) (h : s.lookup l m = none) :
    execInService l m s = .next (s.send l (.reject m .unknown)) := by
  simp only [execInService, if_pos hu, h]

theorem execInService_named (hu : s.linkUp l = true) (h : s.lookup l m = some i) :
    execInService l m s =
      .next (if (s.entry i).state.usable then s.setEntry i { s.entry i with live := true } else s.send l (.reject m .wrongState)) := by
  simp only [execInService, if_pos hu, h]
  rfl

theorem execOutOfService_unnamed (hu : s.linkUp l = true) (h : s.lookup l m = none) :
    execOutOfService l m s = .next (s.send l (.reject m .unknown)) := by
  simp only [execOutOfService, if_pos hu, h]

theorem execOutOfService_named (hu : s.linkUp l = true) (h : s.lookup l m = some i) :
    execOutOfService l m s = .next (s.setEntry i { s.entry i with live := false }) := by
  simp only [execOutOfService, if_pos hu, h]
  rfl

end Messages

/-! ### Notices on both ports (R171) -/

/-- R171: a notice raised on both ports is told, and touches nothing else. -/
theorem told_raiseBoth (n : Notice) : s.told (s.raiseBoth n) n := by
  intro p
  cases p <;> rfl

/-- R149: the wrap moves the counter on and tells both ports. -/
theorem told_wrap : s.told (s.tick.raiseBoth .wrap) .wrap := by
  intro p
  cases p <;> rfl

theorem wrap_frame :
    s.tick.raiseBoth .wrap = { s with
      now := (s.tick.raiseBoth .wrap).now
      cardPort := (s.tick.raiseBoth .wrap).cardPort
      chassisPort := (s.tick.raiseBoth .wrap).chassisPort } := rfl

/-! ### Store operations (R163 to R165) -/

/-- R163: the instances whose entry a COMMIT snapshots. -/
theorem committable_iff (e : Entry) : committable e = true ↔ e.state = .clean ∨ e.state = .repaired := by
  simp [committable]

theorem sectionWrites_index (m : Mask) (f : Fin 64 → Option StoredMap) :
    (State.sectionWrites m f).map SectionWrite.index = (List.finRange 64).filter (inMask m) := by
  simp [State.sectionWrites, allInsts, List.map_map, Function.comp_def]

theorem sectionWrites_content {m : Mask} {f : Fin 64 → Option StoredMap} {w : SectionWrite} (h : w ∈ State.sectionWrites m f) :
    w.content = f w.index := by
  obtain ⟨i, -, rfl⟩ := List.mem_map.1 h
  rfl

theorem sectionWrites_eq_nil {m : Mask} {f : Fin 64 → Option StoredMap} : State.sectionWrites m f = [] ↔ m = 0 := by
  rw [← List.map_eq_nil_iff (f := SectionWrite.index), sectionWrites_index, List.filter_eq_nil_iff]
  constructor
  · exact fun h => mask_eq_zero fun i => h i (List.mem_finRange i)
  · rintro rfl i -
    simp

/-- R163, R165: with a section to write, the operation begins with the first. -/
theorem startStore_cons {ws : List SectionWrite} (h : ws ≠ []) (k : StoreOpKind) :
    ∃ w rest, ws = w :: rest ∧ s.startStore k ws = { s with storeOp := some ⟨k, w, rest, 0⟩ } := by
  cases ws with
  | nil => exact absurd rfl h
  | cons w rest => exact ⟨w, rest, rfl, rfl⟩

theorem startStore_frame (k : StoreOpKind) (ws : List SectionWrite) :
    s.startStore k ws = { s with
      storeOp := (s.startStore k ws).storeOp
      cardPort := (s.startStore k ws).cardPort
      chassisPort := (s.startStore k ws).chassisPort } := by
  cases ws <;> rfl

/-- R163: the instances of a mask that COMMIT snapshots. -/
def State.committedMask (s : State) (m : Mask) : Mask := maskOf fun i => inMask m i && committable (s.entry i)

/-- R163: the instances of a mask that COMMIT skips. -/
def State.skippedMask (s : State) (m : Mask) : Mask := maskOf fun i => inMask m i && !committable (s.entry i)

/-- R163: what COMMIT writes. -/
def State.commitWrites (s : State) (m : Mask) : List SectionWrite :=
  State.sectionWrites (s.committedMask m) fun i => some (snapshot (s.entry i))

theorem inMask_committedMask (m : Mask) (i : Fin 64) :
    inMask (s.committedMask m) i = true ↔ inMask m i = true ∧ ((s.entry i).state = .clean ∨ (s.entry i).state = .repaired) := by
  simp [State.committedMask, committable_iff]

theorem inMask_skippedMask (m : Mask) (i : Fin 64) :
    inMask (s.skippedMask m) i = true ↔ inMask m i = true ∧ ¬((s.entry i).state = .clean ∨ (s.entry i).state = .repaired) := by
  rw [State.skippedMask, inMask_maskOf, Bool.and_eq_true, ← committable_iff, Bool.not_eq_true', Bool.not_eq_true]

/-- R163: a COMMIT of owned instances, with no operation in progress. -/
theorem execCommit_accepted {p : Port} {m : Mask} (hm : m ≠ 0) (hown : ∀ i, inMask m i = true → (s.entry i).owner = portOwner p)
    (ho : s.storeOp = none) :
    execCommit p m s =
      .next ((s.startStore .commit (s.commitWrites m)).ok p .commit (.commit (s.committedMask m) (s.skippedMask m))) := by
  have hall : (allInsts.all fun i => !inMask m i || s.owns p i) = true := by
    simp only [List.all_eq_true, Bool.or_eq_true, Bool.not_eq_true', State.owns, beq_iff_eq]
    intro i _
    cases hi : inMask m i with
    | false => exact .inl rfl
    | true => exact .inr (hown i hi)
  have hbusy : ¬s.storeOp.isSome = true := by simp [ho]
  refine congrArg Host.Outcome.next ((if_neg hm).trans ((if_neg ?_).trans (if_neg hbusy)))
  simp [hall]

/-- R165: a CLEAR_STORE with no operation in progress. -/
theorem execClearStore_accepted {m : Mask} (hm : m ≠ 0) (ho : s.storeOp = none) :
    execClearStore .chassis m s =
      .next ((s.startStore .clear (State.sectionWrites m fun _ => none)).ok .chassis .clearStore (.mask m)) := by
  have hbusy : ¬s.storeOp.isSome = true := by simp [ho]
  exact congrArg Host.Outcome.next ((gatePort_self ..).trans ((if_neg hm).trans (if_neg hbusy)))

/-- R171: a notice told and then an answer, as the ports hold them. -/
theorem toldAndAnswered_ok {t : State} {n : Notice} (h : s.told t n) (p : Port) (k : RequestKind) (pl : Payload) :
    s.toldAndAnswered (t.ok p k pl) n p k pl := by
  intro q
  unfold State.ok State.answer
  rw [State.port_modPort]
  split
  · rename_i hq
    rw [← hq, h q]
  · rw [h q]

/-- R164, R165: the end of a write belongs to the operation of its kind. -/
theorem endWriteOf_self {op : StoreOp} (h : s.storeOp = some op) (v : Bool) : s.endWriteOf op.kind v = s.endWrite op v := by
  simp [State.endWriteOf, h]

theorem endWriteOf_other {k : StoreOpKind} (h : ∀ op, s.storeOp = some op → op.kind ≠ k) (v : Bool) : s.endWriteOf k v = s := by
  unfold State.endWriteOf
  cases ho : s.storeOp with
  | none => rfl
  | some op => exact if_neg (h op ho)

theorem endWrite_last {op : StoreOp} {v : Bool} (h : op.todo = []) :
    s.endWrite op v =
      (s.setSection op.writing.index ⟨op.writing.content, v⟩).completeStore
        (if v then op.failed else op.failed ||| maskBit op.writing.index) := by
  rw [State.endWrite, h]
  rfl

theorem endWrite_next {op : StoreOp} {v : Bool} {w : SectionWrite} {rest : List SectionWrite} (h : op.todo = w :: rest) :
    s.endWrite op v =
      { s.setSection op.writing.index ⟨op.writing.content, v⟩ with
        storeOp := some ⟨op.kind, w, rest, if v then op.failed else op.failed ||| maskBit op.writing.index⟩ } := by
  rw [State.endWrite, h]
  rfl

end Sys2Proof.Machine

open Sys2Proof Sys2Proof.Machine

/-- Settles O29: by the disposition of R60, a merge or a follow-up. -/
theorem testOfBusyInstance : Obligations.TestOfBusyInstance := by
  intro p i named urgent d q s ho hd hb hl hq hr hu absorbed
  obtain ⟨hv, hs⟩ := admitsTest_of_busy hb
  have hexec := execTest_accepted s p (urgent := urgent) ho hd hv hs hl hq hr hu
  have habs : countUp (s.entry i).absorbed = absorbed := countUp_eq _
  refine ⟨fun x hst hx hc => ?merged, fun h => ?followUp⟩
  case merged =>
    rw [State.acceptTest, testDisposition_merged s hst hx hc] at hexec
    refine ⟨_, hexec, ?_, fun j hj => ?_, ?_, answered_ok s p _ _ fun x => mergeTest_port .., mergeTest_ok_frame s i q _ p _ _ rfl⟩
    · rw [ok_entry, mergeTest_entry, if_pos rfl, habs]
    · rw [ok_entry, mergeTest_entry, if_neg hj]
    · rw [ok_workQueue, mergeTest_workQueue]
  case followUp =>
    rw [State.acceptTest, testDisposition_followUp s hb h] at hexec
    refine ⟨_, hexec, ?_, fun j hj => ?_, answered_ok s p _ _ fun x => State.modEntry_port .., modEntry_ok_frame s i _ p _ _ rfl⟩
    · rw [ok_entry, State.placeFollowUp, State.entry_modEntry, if_pos rfl, habs, urgencyFor_eq]
    · rw [ok_entry, State.placeFollowUp, State.entry_modEntry, if_neg hj]

/-- Settles O36: by whether the wake is due. -/
theorem wakeQueuesParkedRun : Obligations.WakeQueuesParkedRun := by
  intro i s
  refine ⟨fun x q hx hi hw hq => ?due, fun h => ?notDue⟩
  case due =>
    have hdue : s.wakeDue i = true := (wakeDue_iff s i).2 ⟨x, hx, hi, hw⟩
    refine ⟨_, congrArg Host.Outcome.next (if_pos hdue), ?_, fun j hj => ?_, rfl, ?_, rfl⟩
    · rw [enqueue_entry, State.entry_modEntry, if_pos rfl]
      rfl
    · rw [enqueue_entry, State.entry_modEntry, if_neg hj]
      rfl
    · show s.workQueue ++ [_] = _
      rw [hq]
      rfl
  case notDue =>
    exact congrArg Host.Outcome.next (if_neg fun hdue => by
      obtain ⟨x, hx, hi, hw⟩ := (wakeDue_iff s i).1 hdue
      exact h x hx hi hw)

/-- Settles O40: by whether the element has ended. -/
theorem elementEndReachesNext : Obligations.ElementEndReachesNext := by
  intro e pos s hp
  refine ⟨fun h => congrArg Host.Outcome.next (if_neg (mt (elementEnded_iff s hp).1 h)), fun hst hm hf => ?_⟩
  have he : exec (.elementEnd e) s = .next (State.settle e (s.reach e (pos.ordinal + 1) (pos.row, pos.chunk))) := by
    show execElementEnd e s = _
    rw [execElementEnd, if_pos ((elementEnded_iff s hp).2 ⟨hst, hm, hf⟩), State.endElement, hp]
  rw [he]
  exact settle_comesToReach s e _ _

/-- Settles O46: by the instance that the memory id names, and its state. -/
theorem pullsAndServiceMessages : Obligations.PullsAndServiceMessages := by
  intro l m s hu send
  have sendOne : ∀ x, s.send l x = send [x] := fun x => send_up hu x
  refine ⟨fun hn => ?unnamed, fun i d hi hd => ?named⟩
  case unnamed =>
    have hlook := (lookup_eq_none s l m).2 hn
    rw [← sendOne, ← sendOne]
    exact ⟨execPull_unnamed hu hlook, execInService_unnamed hu hlook, execOutOfService_unnamed hu hlook⟩
  case named =>
    have hlook := (lookup_eq_some s l m i).2 hi
    obtain rfl : d.link = l := by
      obtain ⟨⟨-, d', hd', hl, -⟩, -⟩ := hi
      obtain rfl := Option.some.inj (hd.symm.trans hd')
      exact hl
    have hpull := execPull_named hu hlook
    refine ⟨fun hs => ?_, fun hs hp => ?_, fun hs hp => ?_, fun hs => ?_, fun hs => ?_, execOutOfService_named hu hlook⟩
    · exact hpull.trans (congrArg _ ((if_pos hs).trans (answerPull_up s hd hu)))
    · exact hpull.trans (congrArg _ ((if_neg (by simp [hs])).trans (if_pos (by simpa using hp))))
    · exact hpull.trans (congrArg _ ((if_neg (by simp [hs])).trans (if_neg (by simpa using hp))))
    · exact (execInService_named hu hlook).trans (congrArg _ (if_pos hs))
    · exact (execInService_named hu hlook).trans (congrArg _ ((if_neg (by simp [hs])).trans (sendOne _)))

/-- Settles O53: what falls due runs through its commands, and then the counter moves on. -/
theorem timeBaseAdvancesAndWraps : Obligations.TimeBaseAdvancesAndWraps := by
  intro s
  refine ⟨fun h => ⟨congrArg Host.Outcome.next (if_neg h), s.takeDue, takeDue_runsThrough s, takeDue_now s, ?advance⟩,
    fun h => ⟨congrArg Host.Outcome.next (if_pos h), s.takeDue, _, takeDue_runsThrough s, congrArg Host.Outcome.next (if_pos h), ?zero,
      told_wrap _, wrap_frame _⟩, fun hn => ⟨fun h => ?advanceAlone, fun h => ?wrapAlone⟩⟩
  case advance =>
    refine congrArg Host.Outcome.next ((if_neg h).trans ?_)
    rw [State.tick, takeDue_now]
  case zero =>
    show s.takeDue.now + 1 = 0
    rw [takeDue_now, h]
    decide
  case advanceAlone =>
    refine congrArg Host.Outcome.next ((if_neg h).trans ?_)
    rw [takeDue_of_nothing s hn]
    rfl
  case wrapAlone =>
    refine ⟨(s.tick).raiseBoth .wrap, congrArg Host.Outcome.next ((if_pos h).trans ?_), ?_, told_wrap s, wrap_frame s⟩
    · rw [takeDue_of_nothing s hn]
    · show s.now + 1 = 0
      rw [h]
      decide

/-- Settles O54: the checks pass, and the operation starts with what the mask names. -/
theorem storeRequestsStartOperations : Obligations.StoreRequestsStartOperations := by
  intro m s hm ho
  refine ⟨fun p hown => ?commit, ?clear⟩
  case commit =>
    refine ⟨_, s.committedMask m, s.skippedMask m, execCommit_accepted s hm hown ho,
      ⟨inMask_committedMask s m, inMask_skippedMask s m, fun hz => ?nothing, fun hz => ?some⟩, ?frame⟩
    case nothing =>
      have hw : s.commitWrites m = [] := sectionWrites_eq_nil.2 hz
      rw [hw]
      exact ⟨by cases p <;> rfl, toldAndAnswered_ok s (fun q => by cases q <;> rfl) p _ _⟩
    case some =>
      obtain ⟨w, rest, hw, hs⟩ := startStore_cons s (mt sectionWrites_eq_nil.1 hz : s.commitWrites m ≠ []) .commit
      rw [hs]
      refine ⟨answered_ok s p _ _ fun q => by cases q <;> rfl, w, rest, by cases p <;> rfl, ?_, fun x hx d hd => ?_⟩
      · rw [← hw]
        exact sectionWrites_index ..
      · rw [← hw] at hx
        rw [sectionWrites_content hx, snapshot, hd]
        rfl
    case frame =>
      rw [startStore_frame]
      cases p <;> rfl
  case clear =>
    obtain ⟨w, rest, hw, hs⟩ := startStore_cons s (mt sectionWrites_eq_nil.1 hm : State.sectionWrites m (fun _ => none) ≠ []) .clear
    refine ⟨_, w, rest, execClearStore_accepted s hm ho, ?_⟩
    rw [hs, ← hw]
    exact ⟨answered_ok s .chassis _ _ fun q => by cases q <;> rfl, rfl, sectionWrites_index .., fun x hx => sectionWrites_content hx, rfl⟩

/-- Settles O55: by the operation in progress and the sections still to write. -/
theorem sectionWritesEnd : Obligations.SectionWritesEnd := by
  intro v s
  refine ⟨fun op ho => ?ends, fun h => congrArg Host.Outcome.next (endWriteOf_other s h v),
    fun h => congrArg Host.Outcome.next (endWriteOf_other s h v)⟩
  have hexec : exec (if op.kind = .commit then .commitWriteEnd v else .clearWriteEnd v) s = .next (s.endWrite op v) := by
    have hself := endWriteOf_self s ho v
    cases hk : op.kind with
    | commit => rw [hk] at hself; exact congrArg Host.Outcome.next hself
    | clear => rw [hk] at hself; exact congrArg Host.Outcome.next hself
  refine ⟨_, hexec, ?_⟩
  cases htodo : op.todo with
  | nil =>
    rw [endWrite_last s htodo]
    refine ⟨⟨fun n => State.storeSection_setSection .., fun _ => ⟨rfl, fun p => by cases p <;> rfl⟩, nofun⟩, rfl⟩
  | cons w rest =>
    rw [endWrite_next s htodo]
    refine ⟨⟨fun n => State.storeSection_setSection .., nofun, fun w' rest' h => ?_⟩, rfl⟩
    obtain ⟨rfl, rfl⟩ := List.cons.inj h
    exact ⟨rfl, rfl, rfl⟩
end

section
/-!
PROOF. The address walk (R85 to R87) and reaching an element (R53): each step of the scan, by what the element is, and what the engine does with it.
-/

namespace Sys2Proof.Machine

open Sys2Proof

/-! ### Passing guarded rows (R87) -/

section Passing

variable {gs : List GuardRange} {rows chunks n r : Nat} {p : Nat × Nat}

/-- A condition that holds of fewer members of a list, one of them left out. -/
theorem countP_lt_countP {α : Type} {a b : α → Bool} {l : List α} (h : ∀ x, a x = true → b x = true) {y : α} (hy : y ∈ l) (ha : a y = false)
    (hb : b y = true) : l.countP a < l.countP b := by
  induction l with
  | nil => exact nomatch hy
  | cons x t ih =>
    have hmono : t.countP a ≤ t.countP b := List.countP_mono_left fun x _ => h x
    rcases List.mem_cons.1 hy with rfl | hy
    · rw [List.countP_cons_of_neg (by simp [ha]), List.countP_cons_of_pos hb]
      omega
    · have hlt := ih hy
      have hx := h x
      rw [List.countP_cons, List.countP_cons]
      split <;> split <;> simp_all

theorem guarded_of_mem {g : GuardRange} (hg : g ∈ gs) (h1 : g.first ≤ r) (h2 : r ≤ g.last) : guarded gs r = true :=
  (guarded_iff gs r).2 ⟨g, hg, h1, h2⟩

/-- The range that a guarded row lies in. -/
theorem find_range (gs : List GuardRange) (r : Nat) :
    (guarded gs r = false ∧ gs.find? (fun g => decide (g.first ≤ r) && decide (r ≤ g.last)) = none) ∨
      ∃ g ∈ gs, gs.find? (fun g => decide (g.first ≤ r) && decide (r ≤ g.last)) = some g ∧ g.first ≤ r ∧ r ≤ g.last := by
  cases hf : gs.find? fun g => decide (g.first ≤ r) && decide (r ≤ g.last) with
  | none =>
    refine .inl ⟨?_, rfl⟩
    rw [Bool.eq_false_iff]
    intro h
    obtain ⟨g, hg, h1, h2⟩ := (guarded_iff gs r).1 h
    exact absurd (List.find?_eq_none.1 hf g hg) (by simp [h1, h2])
  | some g =>
    have hin := List.find?_some hf
    simp only [Bool.and_eq_true, decide_eq_true_eq] at hin
    exact .inr ⟨g, List.mem_of_find?_eq_some hf, rfl, hin⟩

/-- The ranges that end at row `r` or behind it: those an UP walk at `r` may still have to pass. -/
def rangesAbove (gs : List GuardRange) (r : Nat) : Nat := gs.countP fun g => decide (r ≤ g.last)

/-- The ranges that begin at row `r` or before it: those a DOWN walk at `r` may still have to pass. -/
def rangesBelow (gs : List GuardRange) (r : Nat) : Nat := gs.countP fun g => decide (g.first ≤ r)

/-- R87: UP, the walk comes to the first row that is not guarded. -/
theorem passGuarded_up_some (hn : rangesAbove gs p.1 < n) (hpr : p.1 ≤ r) (hr : r < rows) (hfree : guarded gs r = false)
    (hwall : ∀ m, p.1 ≤ m → m < r → guarded gs m = true) :
    passGuarded gs .up rows chunks n p = some (r, if r = p.1 then p.2 else 0) := by
  induction n generalizing p with
  | zero => omega
  | succ n ih =>
    rcases find_range gs p.1 with ⟨hp, hf⟩ | ⟨g, hg, hf, h1, h2⟩
    · have hrp : r = p.1 := by
        by_contra hne
        have := hwall p.1 le_rfl (by omega)
        simp [hp] at this
      rw [passGuarded, hf, if_pos hrp, hrp]
    · have hlast : g.last < r := by
        by_contra hle
        have := guarded_of_mem hg (h1.trans hpr) (by omega)
        simp [hfree] at this
      have hfewer : rangesAbove gs (g.last + 1) < rangesAbove gs p.1 :=
        countP_lt_countP (fun x hx => by simp at hx ⊢; omega) hg (by simp) (by simpa using h2)
      rw [passGuarded, hf]
      dsimp only
      rw [if_pos (by omega), ih (p := (g.last + 1, 0)) (hfewer.trans_le (Nat.le_of_lt_succ hn)) (by omega) fun m hm hmr => hwall m (by omega) hmr]
      rw [if_neg (by omega : r ≠ p.1)]
      simp

/-- R87: UP, with every row to the last guarded, the element passes its last position. -/
theorem passGuarded_up_none (hn : rangesAbove gs p.1 < n) (hp : p.1 < rows) (hwall : ∀ m, p.1 ≤ m → m < rows → guarded gs m = true) :
    passGuarded gs .up rows chunks n p = none := by
  induction n generalizing p with
  | zero => omega
  | succ n ih =>
    rcases find_range gs p.1 with ⟨hfree, -⟩ | ⟨g, hg, hf, h1, h2⟩
    · have := hwall p.1 le_rfl hp
      simp [hfree] at this
    · have hfewer : rangesAbove gs (g.last + 1) < rangesAbove gs p.1 :=
        countP_lt_countP (fun x hx => by simp at hx ⊢; omega) hg (by simp) (by simpa using h2)
      rw [passGuarded, hf]
      dsimp only
      split
      · exact ih (p := (g.last + 1, 0)) (hfewer.trans_le (Nat.le_of_lt_succ hn)) (by omega) fun m hm hmr => hwall m (by omega) hmr
      · rfl

/-- R87: DOWN, the walk comes to the first row that is not guarded. -/
theorem passGuarded_down_some (hn : rangesBelow gs p.1 < n) (hpr : r ≤ p.1) (hfree : guarded gs r = false)
    (hwall : ∀ m, r < m → m ≤ p.1 → guarded gs m = true) :
    passGuarded gs .down rows chunks n p = some (r, if r = p.1 then p.2 else chunks - 1) := by
  induction n generalizing p with
  | zero => omega
  | succ n ih =>
    rcases find_range gs p.1 with ⟨hp, hf⟩ | ⟨g, hg, hf, h1, h2⟩
    · have hrp : r = p.1 := by
        by_contra hne
        have := hwall p.1 (by omega) le_rfl
        simp [hp] at this
      rw [passGuarded, hf, if_pos hrp, hrp]
    · have hfirst : r < g.first := by
        by_contra hle
        have := guarded_of_mem (r := r) hg (by omega) (by omega)
        simp [hfree] at this
      have hfewer : rangesBelow gs (g.first - 1) < rangesBelow gs p.1 :=
        countP_lt_countP (fun x hx => by simp at hx ⊢; omega) hg (by simp; omega) (by simpa using h1)
      rw [passGuarded, hf]
      dsimp only
      rw [if_neg (by omega), ih (p := (g.first - 1, chunks - 1)) (hfewer.trans_le (Nat.le_of_lt_succ hn)) (by omega) fun m hm hmr => hwall m hm (by omega)]
      rw [if_neg (by omega : r ≠ p.1)]
      simp

/-- R87: DOWN, with every row to the first guarded, the element passes its last position. -/
theorem passGuarded_down_none (hn : rangesBelow gs p.1 < n) (hwall : ∀ m, m ≤ p.1 → guarded gs m = true) :
    passGuarded gs .down rows chunks n p = none := by
  induction n generalizing p with
  | zero => omega
  | succ n ih =>
    rcases find_range gs p.1 with ⟨hfree, -⟩ | ⟨g, hg, hf, h1, h2⟩
    · have := hwall p.1 le_rfl
      simp [hfree] at this
    · rw [passGuarded, hf]
      dsimp only
      split
      · rfl
      · have hfewer : rangesBelow gs (g.first - 1) < rangesBelow gs p.1 :=
          countP_lt_countP (fun x hx => by simp at hx ⊢; omega) hg (by simp; omega) (by simpa using h1)
        exact ih (p := (g.first - 1, chunks - 1)) (hfewer.trans_le (Nat.le_of_lt_succ hn)) fun m hm => hwall m (by omega)

theorem rangesAbove_lt (gs : List GuardRange) (r : Nat) : rangesAbove gs r < gs.length + 1 := Nat.lt_succ_of_le List.countP_le_length

theorem rangesBelow_lt (gs : List GuardRange) (r : Nat) : rangesBelow gs r < gs.length + 1 := Nat.lt_succ_of_le List.countP_le_length

end Passing

/-! ### The positions whose burst carries an operation (R87) -/

section Issuable

variable {gs : List GuardRange} {dir : Direction} {ops : List Operation} {rows chunks r : Nat} {p : Nat × Nat}

/-- R87: an element that reads has an operation everywhere. -/
theorem issuable_of_reads (h : ops.any Operation.reads = true) : issuable gs dir ops rows chunks p = some p := if_pos h

/-- R87: a row that is not guarded takes every operation. -/
theorem issuable_of_free (h : guarded gs p.1 = false) : issuable gs dir ops rows chunks p = some p := by
  unfold issuable
  split
  · rfl
  · rcases find_range gs p.1 with ⟨-, hf⟩ | ⟨g, hg, -, h1, h2⟩
    · rw [passGuarded, hf]
    · simp [guarded_of_mem hg h1 h2] at h

theorem issuable_of_reads_or_free (h : ops.any Operation.reads = true ∨ guarded gs p.1 = false) : issuable gs dir ops rows chunks p = some p :=
  h.elim issuable_of_reads issuable_of_free

theorem issuable_up_some (ho : ops.any Operation.reads = false) (hpr : p.1 ≤ r) (hr : r < rows) (hfree : guarded gs r = false)
    (hwall : ∀ m, p.1 ≤ m → m < r → guarded gs m = true) :
    issuable gs .up ops rows chunks p = some (r, if r = p.1 then p.2 else 0) := by
  rw [issuable, if_neg (by simp [ho])]
  exact passGuarded_up_some (rangesAbove_lt gs p.1) hpr hr hfree hwall

theorem issuable_up_none (ho : ops.any Operation.reads = false) (hp : p.1 < rows)
    (hwall : ∀ m, p.1 ≤ m → m < rows → guarded gs m = true) : issuable gs .up ops rows chunks p = none := by
  rw [issuable, if_neg (by simp [ho])]
  exact passGuarded_up_none (rangesAbove_lt gs p.1) hp hwall

theorem issuable_down_some (ho : ops.any Operation.reads = false) (hpr : r ≤ p.1) (hfree : guarded gs r = false)
    (hwall : ∀ m, r < m → m ≤ p.1 → guarded gs m = true) :
    issuable gs .down ops rows chunks p = some (r, if r = p.1 then p.2 else chunks - 1) := by
  rw [issuable, if_neg (by simp [ho])]
  exact passGuarded_down_some (rangesBelow_lt gs p.1) hpr hfree hwall

theorem issuable_down_none (ho : ops.any Operation.reads = false) (hwall : ∀ m, m ≤ p.1 → guarded gs m = true) :
    issuable gs .down ops rows chunks p = none := by
  rw [issuable, if_neg (by simp [ho])]
  exact passGuarded_down_none (rangesBelow_lt gs p.1) hwall

end Issuable

end Sys2Proof.Machine
end

section
/-!
PROOF. Reaching an element (R53): the scan step by step, the parking and the completion of a run as writes of one record each, and the commands that
come to it: RESUME (R73, R84) and LOAD_DONE (R83).
-/

namespace Sys2Proof.Machine

open Sys2Proof

/-! ### The scan (R53) -/

section Scan

variable {s : State} {i : Fin 64} {d : Descriptor} {f n k : Nat} {p q : Nat × Nat} {dir : Direction} {ops : List Operation} {bg : Background}

theorem scan_skip (h : s.skips i (s.element (f + k)).skip = true) : scan s i d f (n + 1) k p = scan s i d f n (k + 1) p := by
  rw [scan, if_pos h]

theorem scan_hold {t : Nat} (h : ¬s.skips i (s.element (f + k)).skip = true) (hb : (s.element (f + k)).body = .hold t) :
    scan s i d f (n + 1) k p = .hold k p.1 p.2 t := by
  rw [scan, if_neg h, hb]

theorem scan_walk (h : ¬s.skips i (s.element (f + k)).skip = true) (hb : (s.element (f + k)).body = .march dir ops bg)
    (hq : issuable (s.entry i).guards dir ops d.rows (chunkCount d.columns) (firstPosition dir d.rows (chunkCount d.columns)) = some q) :
    scan s i d f (n + 1) k p = .walk k q.1 q.2 := by
  rw [scan, if_neg h, hb]
  dsimp only
  rw [hq]

theorem scan_pass (h : ¬s.skips i (s.element (f + k)).skip = true) (hb : (s.element (f + k)).body = .march dir ops bg)
    (hq : issuable (s.entry i).guards dir ops d.rows (chunkCount d.columns) (firstPosition dir d.rows (chunkCount d.columns)) = none) :
    scan s i d f (n + 1) k p = scan s i d f n (k + 1) (lastPosition dir d.rows (chunkCount d.columns)) := by
  rw [scan, if_neg h, hb]
  dsimp only
  rw [hq]

end Scan

/-! ### What the engine does with what it has reached -/

/-- R53: what engine `e`, running instance `i` in a sequence of `n` elements, does with what the scan comes to. -/
def State.goesTo (s : State) (e : Fin 6) (i : Fin 64) (n : Nat) : Reached → State × Bool
  | .walk o r c => (s.setEngine e { s.engine e with state := .walking, position := some ⟨o, r, c, .inElement⟩ }, false)
  | .hold o r c t => (s.parkRun e i ⟨o, r, c, .elementEnd⟩ (s.now + BitVec.ofNat 24 t), true)
  | .done r c => (s.completeRun e i ⟨n - 1, r, c, .elementEnd⟩, true)

/-- Engine `e` runs instance `i` of descriptor `d`, whose job's sequence is `x`. -/
structure State.Runs (s : State) (e : Fin 6) (i : Fin 64) (d : Descriptor) (x : DirectoryEntry) : Prop where
  current : (s.engine e).current = some i
  descriptor : (s.entry i).descriptor = some d
  job : s.jobEntry i = x

theorem jobEntry_of {s : State} {i : Fin 64} {q : Fin 32} {x : DirectoryEntry} (hq : (s.entry i).run.jobSequence = some q)
    (hx : s.directoryEntry q = some x) : s.jobEntry i = x := by
  simp [State.jobEntry, hq, hx]

section Reach

variable {s : State} {e : Fin 6} {i : Fin 64} {d : Descriptor} {x : DirectoryEntry} {k : Nat} {p : Nat × Nat} {dir : Direction}
  {ops : List Operation} {bg : Background}

theorem reach_eq (h : s.Runs e i d x) (k : Nat) (p : Nat × Nat) :
    s.reach e k p = s.goesTo e i x.count (scan s i d x.first (x.count - k) k p) := by
  unfold State.reach
  simp only [h.current, h.descriptor, h.job]
  cases scan s i d x.first (x.count - k) k p <;> rfl

/-- R53: past the last ordinal the run completes. -/
theorem reach_done (h : s.Runs e i d x) (hk : x.count ≤ k) : s.reach e k p = (s.completeRun e i ⟨x.count - 1, p.1, p.2, .elementEnd⟩, true) := by
  rw [reach_eq h, Nat.sub_eq_zero_of_le hk]
  rfl

theorem ordinals_left (hk : k < x.count) : x.count - k = x.count - (k + 1) + 1 := by omega

/-- R53: a skipped element gives way to the next. -/
theorem reach_skip (h : s.Runs e i d x) (hk : k < x.count) (hs : s.skips i (s.element (x.first + k)).skip = true) :
    s.reach e k p = s.reach e (k + 1) p := by
  rw [reach_eq h, reach_eq h, ordinals_left hk, scan_skip hs]

/-- R53: a taken HOLD parks the run. -/
theorem reach_hold {t : Nat} (h : s.Runs e i d x) (hk : k < x.count) (hs : ¬s.skips i (s.element (x.first + k)).skip = true)
    (hb : (s.element (x.first + k)).body = .hold t) :
    s.reach e k p = (s.parkRun e i ⟨k, p.1, p.2, .elementEnd⟩ (s.now + BitVec.ofNat 24 t), true) := by
  rw [reach_eq h, ordinals_left hk, scan_hold hs hb]
  rfl

/-- R53, R87: a taken MARCH element is walked from its first position whose burst carries an operation. -/
theorem reach_walk {q : Nat × Nat} (h : s.Runs e i d x) (hk : k < x.count) (hs : ¬s.skips i (s.element (x.first + k)).skip = true)
    (hb : (s.element (x.first + k)).body = .march dir ops bg)
    (hq : issuable (s.entry i).guards dir ops d.rows (chunkCount d.columns) (firstPosition dir d.rows (chunkCount d.columns)) = some q) :
    s.reach e k p = (s.setEngine e { s.engine e with state := .walking, position := some ⟨k, q.1, q.2, .inElement⟩ }, false) := by
  rw [reach_eq h, ordinals_left hk, scan_walk hs hb hq]
  rfl

/-- R53, R87: one that passes every position gives way to the next. -/
theorem reach_pass (h : s.Runs e i d x) (hk : k < x.count) (hs : ¬s.skips i (s.element (x.first + k)).skip = true)
    (hb : (s.element (x.first + k)).body = .march dir ops bg)
    (hq : issuable (s.entry i).guards dir ops d.rows (chunkCount d.columns) (firstPosition dir d.rows (chunkCount d.columns)) = none) :
    s.reach e k p = s.reach e (k + 1) (lastPosition dir d.rows (chunkCount d.columns)) := by
  rw [reach_eq h, reach_eq h, ordinals_left hk, scan_pass hs hb hq]

end Reach

/-! ### A run that leaves its engine (R91, R92) -/

/-- Instance `i`, of descriptor `d`, leaves engine `e` and its slot, its entry becoming `y`. -/
def State.leaves (s : State) (e : Fin 6) (i : Fin 64) (d : Descriptor) (y : Entry) : State :=
  ((s.setLink d.link { s.link d.link with slots := slotsWithout (s.link d.link).slots i }).setEngine e
    { Engine.reset with stack := (s.engine e).stack }).setEntry i y

/-- The entry of a run that leaves its engine at a position. -/
def Entry.leftAt (x : Entry) (st : InstState) (p : Position) : Entry := { x with state := st, run := { x.run with position := p } }

section Leaves

variable {s : State} {e : Fin 6} {i : Fin 64} {d : Descriptor} (hd : (s.entry i).descriptor = some d) (p : Position)

include hd

theorem releaseSlot_writePosition :
    (s.writePosition i p).releaseSlot i =
      (s.writePosition i p).setLink d.link { s.link d.link with slots := slotsWithout (s.link d.link).slots i } :=
  releaseSlot_of (linkOf_some (by simpa [State.writePosition] using hd))

theorem completeRun_eq :
    s.completeRun e i p =
      { s.leaves e i d ((s.entry i).leftAt .analysing p) with analysisQueue := s.analysisQueue ++ [⟨i, true⟩] } := by
  unfold State.completeRun
  rw [releaseSlot_writePosition hd]
  simp [State.leaves, Entry.leftAt, State.writePosition, State.enterAnalysis, State.vacate, State.modEntry, State.modEngine, State.setEntry,
    State.setLink, State.setEngine, Engine.vacated]

theorem parkRun_eq (w : Time) :
    s.parkRun e i p w =
      { s.leaves e i d ((s.entry i).leftAt .parked p) with parking := insertPark s.now ⟨i, w⟩ s.parking } := by
  have hl : ((s.writePosition i p).modEntry i fun x => { x with state := .parked }).linkOf i = some d.link :=
    linkOf_some (by simpa [State.writePosition] using hd)
  unfold State.parkRun
  dsimp only
  rw [releaseSlot_of hl]
  simp [State.leaves, Entry.leftAt, State.writePosition, State.vacate, State.modEntry, State.modEngine, State.setEntry,
    State.setLink, State.setEngine, Engine.vacated]

end Leaves

/-- A run that has left its engine: its entry, engine and link are written, and no other. -/
structure State.LeftRun (s t : State) (e : Fin 6) (i : Fin 64) (d : Descriptor) (y : Entry) : Prop where
  entry : t.entry i = y
  others : s.othersKept t i
  engine : t.engine e = { Engine.reset with stack := (s.engine e).stack }
  engines : s.otherEnginesKept t e
  link : t.link d.link = { s.link d.link with slots := slotsWithout (s.link d.link).slots i }
  links : s.otherLinksKept t d.link

theorem leaves_leftRun (s : State) (e : Fin 6) (i : Fin 64) (d : Descriptor) (y : Entry) : s.LeftRun (s.leaves e i d y) e i d y where
  entry := by simp [State.leaves]
  others j hj := by simp [State.leaves, hj]
  engine := by simp [State.leaves]
  engines m hm := by simp [State.leaves, hm]
  link := by simp [State.leaves]
  links m hm := by simp [State.leaves, hm]

/-! ### The Parking List (R75) -/

section Parking

variable {now : Time}

/-- R75: entry `a` stands before entry `b`: the sooner wake, then the lower index. -/
def ParkEntry.earlier (now : Time) (a b : ParkEntry) : Prop :=
  (a.wake - now).toNat < (b.wake - now).toNat ∨ ((a.wake - now).toNat = (b.wake - now).toNat ∧ a.inst ≤ b.inst)

theorem before_iff (a b : ParkEntry) : a.before now b = true ↔ a.earlier now b := by
  unfold ParkEntry.before ParkEntry.earlier remaining
  rw [Bool.or_eq_true, Bool.and_eq_true, decide_eq_true_iff, beq_iff_eq, decide_eq_true_iff]

theorem earlier_of_not {a b : ParkEntry} (h : ¬a.earlier now b) : b.earlier now a := by
  unfold ParkEntry.earlier at *
  omega

theorem earlier_trans {a b c : ParkEntry} (h : a.earlier now b) (k : b.earlier now c) : a.earlier now c := by
  unfold ParkEntry.earlier at *
  omega

theorem insertPark_perm (a : ParkEntry) (l : List ParkEntry) : (insertPark now a l).Perm (a :: l) := by
  induction l with
  | nil => exact .refl _
  | cons b t ih =>
    unfold insertPark
    split
    · exact .refl _
    · exact (ih.cons b).trans (.swap a b t)

theorem insertPark_sorted (a : ParkEntry) {l : List ParkEntry} (h : l.Pairwise (ParkEntry.earlier now)) :
    (insertPark now a l).Pairwise (ParkEntry.earlier now) := by
  induction l with
  | nil => exact List.pairwise_singleton _ _
  | cons b t ih =>
    obtain ⟨hb, ht⟩ := List.pairwise_cons.1 h
    unfold insertPark
    split
    · rename_i hab
      rw [before_iff] at hab
      refine List.pairwise_cons.2 ⟨fun c hc => ?_, h⟩
      rcases List.mem_cons.1 hc with rfl | hc
      · exact hab
      · exact earlier_trans hab (hb c hc)
    · rename_i hab
      rw [before_iff] at hab
      refine List.pairwise_cons.2 ⟨fun c hc => ?_, ih ht⟩
      rcases List.mem_cons.1 ((insertPark_perm a t).mem_iff.1 hc) with rfl | hc
      · exact earlier_of_not hab
      · exact hb c hc

end Parking

/-! ### The first position of an element (R85, R87) -/

/-- R85, R87: an element that reads, or a memory without guarded rows, is walked from its first position. -/
theorem issuable_first {gs : List GuardRange} {dir : Direction} {ops : List Operation} {rows chunks : Nat} {p : Nat × Nat}
    (h : ops.any Operation.reads = true ∨ gs = []) : issuable gs dir ops rows chunks p = some p :=
  issuable_of_reads_or_free (h.imp_right fun hg => by rw [hg]; rfl)

/-! ### RESUME (R73, R84) -/

section Resumes

variable {s : State} {e : Fin 6} {i : Fin 64} {rest : List (Fin 64)} {d : Descriptor}

/-- R73, R84: engine `e`, its stack being `rest` below instance `i` of descriptor `d`, has taken the run up from its saved position. -/
def State.resumed (s : State) (e : Fin 6) (i : Fin 64) (rest : List (Fin 64)) (d : Descriptor) : State :=
  ((s.setEntry i { s.entry i with state := .running, suspending := none }).setEngine e
    { s.engine e with
      state := .walking, current := some i, position := some (s.entry i).run.position, dispatchStamp := some s.now, preemptible := true,
      waitingLink := none, stack := rest }).setLink d.link
    { s.link d.link with slots := (s.link d.link).slots.filter (· != .reserved i) ++ [.running i] }

/-- R73: what RESUME does before it looks at the position's mark. -/
theorem takeSlot_resumed (hd : (s.entry i).descriptor = some d) (hst : (s.engine e).stack = i :: rest) :
    (((s.takeSlot i).modEntry i fun x => { x with state := .running, suspending := none }).modEngine e fun en =>
      { en with
        state := .walking
        current := some i
        position := some (s.entry i).run.position
        dispatchStamp := some s.now
        preemptible := true
        waitingLink := none
        stack := en.stack.tail }) = s.resumed e i rest d := by
  rw [takeSlot_of (linkOf_some hd)]
  simp [State.resumed, State.modEntry, State.modEngine, State.setEntry, State.setLink, State.setEngine, hst]

theorem resumeRun_inElement (hd : (s.entry i).descriptor = some d) (hst : (s.engine e).stack = i :: rest)
    (hm : (s.entry i).run.position.mark = .inElement) : s.resumeRun e i = (s.resumed e i rest d, false) := by
  rw [← takeSlot_resumed hd hst]
  simp only [State.resumeRun, hm]

theorem resumeRun_loadPending (hd : (s.entry i).descriptor = some d) (hst : (s.engine e).stack = i :: rest)
    (hm : (s.entry i).run.position.mark = .loadPending) : s.resumeRun e i = ((s.resumed e i rest d).beginLoad e i, false) := by
  rw [← takeSlot_resumed hd hst]
  simp only [State.resumeRun, hm]

theorem resumeRun_elementEnd (hd : (s.entry i).descriptor = some d) (hst : (s.engine e).stack = i :: rest)
    (hm : (s.entry i).run.position.mark = .elementEnd) :
    s.resumeRun e i =
      (s.resumed e i rest d).reach e ((s.entry i).run.position.ordinal + 1) ((s.entry i).run.position.row, (s.entry i).run.position.chunk) := by
  rw [← takeSlot_resumed hd hst]
  simp only [State.resumeRun, hm]

/-- R68, R73: RESUME at an engine that waits and that the slot arbiter has a slot for. -/
theorem execResume_granted {l : Fin 4} (hs : (s.engine e).state = .waitingSlot) (hl : (s.engine e).waitingLink = some l)
    (hst : (s.engine e).stack = i :: rest) (hg : s.slotComesTo l e) :
    execResume e s = .next (State.settle e (s.resumeRun e i)) := by
  have hgrant := (slotGranted_iff e s l).2 hg
  rw [execResume, if_pos ⟨hs, by simp [hl, hgrant]⟩, hst]

end Resumes

/-! ### LOAD_DONE (R83, R104) -/

/-- R104: the load that a memory id answers, when it is the only one of it. -/
theorem loadFor_of_mem {s : State} {l : Fin 4} {m : Fin 256} {y : LoadUse} (hy : y ∈ (s.link l).loads) (hm : y.memId = m)
    (hu : ∀ z ∈ (s.link l).loads, z.memId = m → z = y) : s.loadFor l m = some y := by
  unfold State.loadFor
  cases h : (s.link l).loads.find? fun u => u.memId == m with
  | none => exact absurd (List.find?_eq_none.1 h y hy) (by simp [hm])
  | some z => rw [hu z (List.mem_of_find?_eq_some h) (beq_iff_eq.1 (List.find?_some h :))]

/-- R104: the load leaves the link's list and its engine's field. -/
def State.loadTaken (s : State) (l : Fin 4) (m : Fin 256) (e : Fin 6) : State :=
  (s.setLink l { s.link l with loads := (s.link l).loads.filter (·.memId != m) }).setEngine e { s.engine e with loadOutstanding := false }

theorem execLoadDone_of {s : State} {l : Fin 4} {m : Fin 256} {y : LoadUse} (hu : s.linkUp l = true) (hf : s.loadFor l m = some y) :
    execLoadDone l m s =
      .next (if (s.engine y.engine).state = .loading then State.settle y.engine ((s.loadTaken l m y.engine).reach y.engine 0 (0, 0))
        else (s.loadTaken l m y.engine).checkEnd y.engine) := by
  simp only [execLoadDone, if_pos hu, hf]
  rfl

end Sys2Proof.Machine

open Sys2Proof Sys2Proof.Machine

/-- Settles O37: by the ordinals left, the skip conditions and the element's kind. -/
theorem reachedElementDecidesTheRun : Obligations.ReachedElementDecidesTheRun := by
  intro s e i d q x k p hc hd hq hx el left earlier leaves
  have runs : s.Runs e i d x := ⟨hc, hd, jobEntry_of hq hx⟩
  have unskipped : ¬s.skipHolds i el.skip → ¬s.skips i (s.element (x.first + k)).skip = true := mt (skips_iff s i _).1
  refine ⟨fun hk => ?done, fun hk => ⟨fun hs => reach_skip runs hk ((skips_iff s i _).2 hs), fun hs => ⟨fun time hb => ?hold, fun dir ops bg hb =>
    ⟨fun ho => ?first, fun ho r hr hfree hwall => ?free, fun ho hrows hwall => ?passed⟩⟩⟩⟩
  case done =>
    refine ⟨_, reach_done runs hk, ?_⟩
    rw [completeRun_eq hd]
    have hl := leaves_leftRun s e i d ((s.entry i).leftAt .analysing ⟨x.count - 1, p.1, p.2, .elementEnd⟩)
    exact ⟨⟨hl.entry, hl.others, hl.engine, hl.engines, hl.link, hl.links⟩, rfl, rfl⟩
  case hold =>
    refine ⟨_, reach_hold runs hk (unskipped hs) hb, ?_⟩
    rw [parkRun_eq hd]
    have hl := leaves_leftRun s e i d ((s.entry i).leftAt .parked ⟨k, p.1, p.2, .elementEnd⟩)
    exact ⟨⟨hl.entry, hl.others, hl.engine, hl.engines, hl.link, hl.links⟩, insertPark_perm .., insertPark_sorted _, rfl⟩
  case first =>
    rw [reach_walk runs hk (unskipped hs) hb (issuable_first ho)]
    cases dir <;> rfl
  case free =>
    cases dir with
    | up =>
      have hi := issuable_up_some (chunks := chunkCount d.columns) (p := (0, 0)) ho (Nat.zero_le r) hr hfree fun m _ hm => hwall m (by omega) hm
      rw [reach_walk runs hk (unskipped hs) hb hi, ite_self]
    | down =>
      have hi := issuable_down_some (p := (d.rows - 1, chunkCount d.columns - 1)) (chunks := chunkCount d.columns) (rows := d.rows) ho
        (by dsimp only; omega) hfree fun m hm hm' => hwall m (by dsimp only at hm'; omega) hm
      rw [reach_walk runs hk (unskipped hs) hb hi, ite_self]
      rfl
  case passed =>
    cases dir with
    | up =>
      have hi := issuable_up_none (chunks := chunkCount d.columns) (p := (0, 0)) ho hrows fun m _ hm => hwall m hm
      exact reach_pass runs hk (unskipped hs) hb hi
    | down =>
      have hi := issuable_down_none (p := (d.rows - 1, chunkCount d.columns - 1)) (chunks := chunkCount d.columns) (rows := d.rows) ho
        fun m hm => hwall m (by dsimp only at hm; omega)
      exact reach_pass runs hk (unskipped hs) hb hi

/-- Settles O35: the slot is granted, and the mark of the saved position says how the run goes on. -/
theorem resumeContinuesTopRun : Obligations.ResumeContinuesTopRun := by
  intro e i rest d s hs hst hd hl hu hslots hfirst pos engine link t
  have hexec := execResume_granted hs hl hst ⟨hslots, hfirst⟩
  refine ⟨fun hm => ?inElement, fun hm => ?loadPending, fun hm => ?elementEnd⟩
  case inElement =>
    rw [resumeRun_inElement hd hst hm] at hexec
    exact hexec
  case loadPending =>
    rw [resumeRun_loadPending hd hst hm] at hexec
    refine hexec.trans (congrArg Host.Outcome.next ?_)
    have hd' : ((s.resumed e i rest d).entry i).descriptor = some d := by simp [State.resumed, hd]
    have hu' : (s.resumed e i rest d).linkUp d.link = true := by simpa [State.resumed, State.linkUp] using hu
    show (s.resumed e i rest d).beginLoad e i = _
    rw [beginLoad_eq hd' hu' e]
    simp [State.resumed, t, engine, link, pos, State.setLink, State.setEngine, State.setEntry]
  case elementEnd =>
    rw [resumeRun_elementEnd hd hst hm] at hexec
    show State.comesToReach _ _ _ _ (execResume e s)
    rw [hexec]
    exact settle_comesToReach ..

/-- Settles O38: the load is taken, and the engine reaches element 0 or checks for its drain's end. -/
theorem loadDoneStartsTheWalk : Obligations.LoadDoneStartsTheWalk := by
  intro l m y s hu hy hm huniq link engine u
  have hexec := execLoadDone_of hu (loadFor_of_mem hy hm huniq)
  refine ⟨fun hs => ?reach, fun hs => ?check, fun i d q x dir ops bg hs hc hd hq hx hcount hb hskip ho => ?walk⟩
  case reach =>
    rw [if_pos hs] at hexec
    show u.comesToReach _ _ _ (execLoadDone l m s)
    rw [hexec]
    exact settle_comesToReach ..
  case check =>
    rw [if_neg hs] at hexec
    show u.checksEnd _ (execLoadDone l m s)
    rw [hexec]
    exact checkEnd_checksEnd ..
  case walk =>
    rw [if_pos hs] at hexec
    have runs : (s.loadTaken l m y.engine).Runs y.engine i d x := ⟨by simp [State.loadTaken, hc], hd, jobEntry_of hq hx⟩
    have hw := reach_walk (k := 0) (p := (0, 0)) runs (by omega) (mt (skips_iff (s.loadTaken l m y.engine) i _).1 hskip) hb (issuable_first ho)
    rw [hw] at hexec
    refine hexec.trans (congrArg Host.Outcome.next ?_)
    cases dir <;> simp [State.settle, State.loadTaken, firstPosition, engine, link, chunkCount, Config.chunkColumns]
end

section
/-!
PROOF. The issue of a burst (R86 to R88): the tag and the position it is issued with, the burst's own writes, and where the cursor moves.
-/

namespace Sys2Proof.Machine

open Sys2Proof

/-! ### The cursor (R85, R87) -/

section Cursor

variable {s : State} {i : Fin 64} {d : Descriptor} {dir : Direction} {ops : List Operation} {o : Nat} {q n c : Nat × Nat}

theorem advance_next (hn : nextPosition dir d.rows (chunkCount d.columns) q = some n)
    (hc : issuable (s.entry i).guards dir ops d.rows (chunkCount d.columns) n = some c) :
    s.advance i d dir ops o q = ⟨o, c.1, c.2, .inElement⟩ := by
  simp only [State.advance, hn, hc]

theorem advance_last (hn : nextPosition dir d.rows (chunkCount d.columns) q = none) :
    s.advance i d dir ops o q = ⟨o, q.1, q.2, .elementEnd⟩ := by
  simp only [State.advance, hn]

theorem advance_passed (hn : nextPosition dir d.rows (chunkCount d.columns) q = some n)
    (hc : issuable (s.entry i).guards dir ops d.rows (chunkCount d.columns) n = none) :
    s.advance i d dir ops o q =
      ⟨o, (lastPosition dir d.rows (chunkCount d.columns)).1, (lastPosition dir d.rows (chunkCount d.columns)).2, .elementEnd⟩ := by
  simp only [State.advance, hn, hc]

/-- R85: the positions after one another, UP. -/
theorem nextPosition_up_chunk {rows chunks : Nat} (h : q.2 + 1 < chunks) : nextPosition .up rows chunks q = some (q.1, q.2 + 1) := if_pos h

theorem nextPosition_up_row {rows chunks : Nat} (h : ¬q.2 + 1 < chunks) (hr : q.1 + 1 < rows) :
    nextPosition .up rows chunks q = some (q.1 + 1, 0) := (if_neg h).trans (if_pos hr)

theorem nextPosition_up_end {rows chunks : Nat} (h : ¬q.2 + 1 < chunks) (hr : ¬q.1 + 1 < rows) : nextPosition .up rows chunks q = none :=
  (if_neg h).trans (if_neg hr)

/-- R85: the positions after one another, DOWN. -/
theorem nextPosition_down_chunk {rows chunks : Nat} (h : 0 < q.2) : nextPosition .down rows chunks q = some (q.1, q.2 - 1) := if_pos h

theorem nextPosition_down_row {rows chunks : Nat} (h : ¬0 < q.2) (hr : 0 < q.1) :
    nextPosition .down rows chunks q = some (q.1 - 1, chunks - 1) := (if_neg h).trans (if_pos hr)

theorem nextPosition_down_end {rows chunks : Nat} (h : ¬0 < q.2) (hr : ¬0 < q.1) : nextPosition .down rows chunks q = none :=
  (if_neg h).trans (if_neg hr)

/-- R85: of an element that reads, or in a memory without guarded rows, the cursor moves to the next position, UP. -/
theorem advance_up_open (h : ops.any Operation.reads = true ∨ (s.entry i).guards = []) :
    s.advance i d .up ops o q =
      if q.2 + 1 < chunkCount d.columns then ⟨o, q.1, q.2 + 1, .inElement⟩
      else if q.1 + 1 < d.rows then ⟨o, q.1 + 1, 0, .inElement⟩ else ⟨o, q.1, q.2, .elementEnd⟩ := by
  split_ifs with hc hr
  · exact advance_next (nextPosition_up_chunk hc) (issuable_first h)
  · exact advance_next (nextPosition_up_row hc hr) (issuable_first h)
  · exact advance_last (nextPosition_up_end hc hr)

theorem advance_down_open (h : ops.any Operation.reads = true ∨ (s.entry i).guards = []) :
    s.advance i d .down ops o q =
      if 0 < q.2 then ⟨o, q.1, q.2 - 1, .inElement⟩
      else if 0 < q.1 then ⟨o, q.1 - 1, chunkCount d.columns - 1, .inElement⟩ else ⟨o, q.1, q.2, .elementEnd⟩ := by
  split_ifs with hc hr
  · exact advance_next (nextPosition_down_chunk hc) (issuable_first h)
  · exact advance_next (nextPosition_down_row hc hr) (issuable_first h)
  · exact advance_last (nextPosition_down_end hc hr)

/-- R87: an element that only writes moves UP along its row, and then to the next row that is not guarded, or past the last. -/
theorem advance_up_writes (ho : ops.any Operation.reads = false) (hfree : guarded (s.entry i).guards q.1 = false) (hq : q.1 < d.rows) :
    (q.2 + 1 < chunkCount d.columns → s.advance i d .up ops o q = ⟨o, q.1, q.2 + 1, .inElement⟩) ∧
      (q.2 + 1 = chunkCount d.columns →
        (∀ r, q.1 < r → r < d.rows → ¬guarded (s.entry i).guards r = true → (∀ n, q.1 < n → n < r → guarded (s.entry i).guards n = true) →
          s.advance i d .up ops o q = ⟨o, r, 0, .inElement⟩) ∧
        ((∀ n, q.1 < n → n < d.rows → guarded (s.entry i).guards n = true) →
          s.advance i d .up ops o q = ⟨o, d.rows - 1, chunkCount d.columns - 1, .elementEnd⟩)) := by
  refine ⟨fun hc => advance_next (nextPosition_up_chunk hc) (issuable_of_free hfree), fun hc => ⟨fun r hr hr' hf hwall => ?_, fun hwall => ?_⟩⟩
  · have hi := issuable_up_some (p := (q.1 + 1, 0)) (chunks := chunkCount d.columns) ho hr hr' (by simpa using hf)
      fun m hm hmr => hwall m (by dsimp only at hm; omega) hmr
    rw [ite_self] at hi
    exact advance_next (nextPosition_up_row (by omega) (by omega)) hi
  · by_cases hr : q.1 + 1 < d.rows
    · have hi := issuable_up_none (p := (q.1 + 1, 0)) (chunks := chunkCount d.columns) ho hr
        fun m hm hmr => hwall m (by dsimp only at hm; omega) hmr
      exact advance_passed (nextPosition_up_row (by omega) hr) hi
    · have h1 : d.rows - 1 = q.1 := by omega
      have h2 : chunkCount d.columns - 1 = q.2 := by omega
      rw [h1, h2]
      exact advance_last (nextPosition_up_end (by omega) hr)

/-- R87: the same, DOWN. -/
theorem advance_down_writes (ho : ops.any Operation.reads = false) (hfree : guarded (s.entry i).guards q.1 = false) :
    (0 < q.2 → s.advance i d .down ops o q = ⟨o, q.1, q.2 - 1, .inElement⟩) ∧
      (q.2 = 0 →
        (∀ r, r < q.1 → ¬guarded (s.entry i).guards r = true → (∀ n, r < n → n < q.1 → guarded (s.entry i).guards n = true) →
          s.advance i d .down ops o q = ⟨o, r, chunkCount d.columns - 1, .inElement⟩) ∧
        ((∀ n, n < q.1 → guarded (s.entry i).guards n = true) → s.advance i d .down ops o q = ⟨o, 0, 0, .elementEnd⟩)) := by
  refine ⟨fun hc => advance_next (nextPosition_down_chunk hc) (issuable_of_free hfree), fun hc => ⟨fun r hr hf hwall => ?_, fun hwall => ?_⟩⟩
  · have hi := issuable_down_some (p := (q.1 - 1, chunkCount d.columns - 1)) (chunks := chunkCount d.columns) (rows := d.rows) ho
      (by dsimp only; omega) (by simpa using hf) fun m hm hm' => hwall m hm (by dsimp only at hm'; omega)
    rw [ite_self] at hi
    exact advance_next (nextPosition_down_row (by omega) (by omega)) hi
  · by_cases hr : 0 < q.1
    · have hi := issuable_down_none (p := (q.1 - 1, chunkCount d.columns - 1)) (chunks := chunkCount d.columns) (rows := d.rows) ho
        fun m hm => hwall m (by dsimp only at hm; omega)
      exact advance_passed (nextPosition_down_row (by omega) hr) hi
    · have h1 : q.1 = 0 := by omega
      rw [advance_last (nextPosition_down_end (by omega) hr), h1, hc]

end Cursor

/-! ### BURST_ISSUE (R88) -/

section Bursts

variable {s : State} {e : Fin 6} {i : Fin 64} {d : Descriptor} {p : Position} {g : Fin 8} {dir : Direction} {ops : List Operation} {bg : Background}

/-- R88: without a condition met there is no burst. -/
theorem execBurstIssue_idle
    (h : ∀ i d, (s.engine e).current = some i → (s.entry i).descriptor = some d →
      ¬s.issuesOn d.link e ∨ ((s.engine e).given = none ∧ ∀ g, ¬s.tagOpen d.link g)) : execBurstIssue e s = .next s := by
  refine congrArg Host.Outcome.next ?_
  split
  · rename_i i p hc hp
    cases hd : (s.entry i).descriptor with
    | none => rfl
    | some d =>
      dsimp only
      cases ht : s.tagFor d.link e with
      | none => rfl
      | some g =>
        rcases h i d hc hd with hn | hn
        · exact if_neg (mt (wantsTag_iff s d.link e).1 hn)
        · rw [(tagFor_eq_none s d.link e).2 hn] at ht
          cases ht
  · rfl

/-- R88: a burst of an engine that meets the conditions and has a tag to take. -/
theorem execBurstIssue_issues (hc : (s.engine e).current = some i) (hp : (s.engine e).position = some p) (hd : (s.entry i).descriptor = some d)
    (ht : s.tagFor d.link e = some g) (hw : s.issuesOn d.link e) : execBurstIssue e s = .next (s.issueBurst e i d p g) := by
  have hw' := (wantsTag_iff s d.link e).2 hw
  simp only [execBurstIssue, hc, hp, hd, ht, if_pos hw']

/-- R86, R88: the burst at a position that carries an operation. -/
theorem issueBurst_at {x : DirectoryEntry} (hj : s.jobEntry i = x) (hb : (s.element (x.first + p.ordinal)).body = .march dir ops bg)
    (ho : ops.any Operation.reads = true ∨ guarded (s.entry i).guards p.row = false) :
    s.issueBurst e i d p g = s.sendBurst e i d p dir ops bg g (p.row, p.chunk) := by
  have hi : issuable (s.entry i).guards dir ops d.rows (chunkCount d.columns) (p.row, p.chunk) = some (p.row, p.chunk) :=
    issuable_of_reads_or_free ho
  simp only [State.issueBurst, State.currentElement, hj, hb, hi]

/-- R86, R88, R102: the burst joins the lists of engine and link. -/
theorem sendBurst_eq (hu : s.linkUp d.link = true) (q : Nat × Nat) :
    s.sendBurst e i d p dir ops bg g q =
      (s.setLink d.link
        { s.link d.link with
          tags := (s.link d.link).tags ++ [⟨g, e, s.now⟩]
          sent := (s.link d.link).sent ++
            [.burst g d.memId q.1 (64 * q.2) (min 64 (d.columns - 64 * q.2))
              (if guarded (s.entry i).guards q.1 then ops.filter Operation.reads else ops) bg (guarded (s.entry i).guards q.1)] }).setEngine e
        { s.engine e with
          position := some (s.advance i d dir ops p.ordinal q)
          inFlight := (s.engine e).inFlight ++ [⟨g, q.1, q.2, p.ordinal, guarded (s.entry i).guards q.1⟩]
          given := none } := by
  simp only [State.sendBurst, send_up hu, State.modLink, State.modEngine, State.link_setLink, if_true, setLink_setLink]
  rfl

end Bursts

end Sys2Proof.Machine

open Sys2Proof Sys2Proof.Machine

/-- Settles O39: the conditions of R88, and then the burst's writes and the cursor's move. -/
theorem burstIssueSendsTheCursorsBurst : Obligations.BurstIssueSendsTheCursorsBurst := by
  refine ⟨fun e s h => execBurstIssue_idle h, ?_⟩
  intro e i d q x pos g dir ops bg s hs hc hp hm hf hd hq hx hb hu hg ho check chunks
  have hissues : s.issuesOn d.link e := ⟨hs, ⟨pos, hp, hm⟩, hf, i, hc, linkOf_some hd⟩
  have hexec := execBurstIssue_issues hc hp hd ((tagFor_eq_some s d.link e g).2 hg) hissues
  rw [issueBurst_at (jobEntry_of hq hx) hb ho, sendBurst_eq hu] at hexec
  refine ⟨_, s.advance i d dir ops pos.ordinal (pos.row, pos.chunk), hexec, ?engine, fun m hm => ?engines, ?link, fun m hm => ?links, rfl, fun hopen => ?next, fun hw hrow hchunk => ?writes⟩
  case engine => exact (State.engine_setEngine ..).trans (if_pos rfl)
  case engines => exact (State.engine_setEngine ..).trans (if_neg hm)
  case link => exact (State.link_setLink ..).trans (if_pos rfl)
  case links => exact (State.link_setLink ..).trans (if_neg hm)
  case next =>
    cases dir with
    | up => exact advance_up_open hopen
    | down => exact advance_down_open hopen
  case writes =>
    have hfree : guarded (s.entry i).guards pos.row = false := ho.resolve_left (by simp [hw])
    cases dir with
    | up => exact advance_up_writes (q := (pos.row, pos.chunk)) hw hfree hrow
    | down => exact advance_down_writes (q := (pos.row, pos.chunk)) hw hfree
end

section
/-!
PROOF. The Dispatch Arbiter: free slots and engines, the best entry and its run (R65 to R67), the victim of a preemption (R69, R70), and the drain
requests that end at once (R93).
-/

namespace Sys2Proof.Machine

open Sys2Proof

/-! ### Slots and engines that are free (R66, R68) -/

section Free

variable {s : State} {e : Fin 6} {l : Fin 4} {q : QueueEntry}

theorem mem_waiters {m : Fin 6} : m ∈ s.waiters l ↔ (s.engine m).state = .waitingSlot ∧ (s.engine m).waitingLink = some l := by
  simp [State.waiters, allEngines]

/-- R68: a slot is free when nobody holds it and no engine waits for it. -/
theorem slotFree_iff : s.slotFree l = true ↔
    (s.link l).slots.length < 3 ∧ ∀ m, ¬((s.engine m).state = .waitingSlot ∧ (s.engine m).waitingLink = some l) := by
  unfold State.slotFree State.slotOpen
  rw [Bool.and_eq_true, decide_eq_true_iff, List.isEmpty_iff, List.eq_nil_iff_forall_not_mem]
  exact and_congr_right fun _ => forall_congr' fun m => not_congr mem_waiters

/-- R66: an entry is eligible. -/
theorem eligible_iff : s.eligible q = true ↔
    q.reserved = none ∧ ∃ l, s.linkOf q.inst = some l ∧ (s.link l).slots.length < 3 ∧
      ∀ m, ¬((s.engine m).state = .waitingSlot ∧ (s.engine m).waitingLink = some l) := by
  unfold State.eligible
  rw [Bool.and_eq_true, Option.isNone_iff_eq_none, Option.any_eq_true]
  exact and_congr_right fun _ => exists_congr fun l => and_congr_right fun _ => slotFree_iff

theorem engineFree_iff : s.engineFree e = true ↔ (s.engine e).state = .idle ∧ (s.engine e).stack = [] := by
  unfold State.engineFree
  rw [Bool.and_eq_true, beq_iff_eq, List.isEmpty_iff]

/-- R67: the lowest-numbered free engine. -/
theorem freeEngine_of_lowest (he : s.engineFree e = true) (hlow : ∀ m, m < e → ¬s.engineFree m = true) : s.freeEngine = some e := by
  unfold State.freeEngine allEngines
  rw [List.find?_eq_some_iff_getElem]
  refine ⟨he, e.val, by simp, by simp, fun j hj => ?_⟩
  rw [List.getElem_finRange]
  simpa using hlow ⟨j, by omega⟩ hj

theorem freeEngine_eq_none (h : ∀ m, ¬s.engineFree m = true) : s.freeEngine = none :=
  List.find?_eq_none.2 fun m _ => h m

end Free

/-! ### The run of a WAKE entry (R67, R84) -/

section Wakes

variable {s : State} {e : Fin 6} {q : QueueEntry} {d : Descriptor}

/-- R84: engine `e` takes up the parked run of WAKE entry `q`, of descriptor `d`, from its saved position. -/
def State.wakes (s : State) (e : Fin 6) (q : QueueEntry) (d : Descriptor) : State :=
  ((({ s with workQueue := s.workQueue.filter (·.inst != q.inst) }.setEntry q.inst { s.entry q.inst with state := .running }).setLink
      d.link { s.link d.link with slots := (s.link d.link).slots.filter (· != SlotHolder.reserved q.inst) ++ [SlotHolder.running q.inst] }).setEngine e
    { s.engine e with
      state := .walking, current := some q.inst, position := some (s.entry q.inst).run.position, dispatchStamp := some s.now,
      preemptible := false })

theorem dispatchRun_wakes (hc : q.cls = .wake) (hd : (s.entry q.inst).descriptor = some d) :
    s.dispatchRun e q =
      (s.wakes e q d).reach e ((s.entry q.inst).run.position.ordinal + 1)
        ((s.entry q.inst).run.position.row, (s.entry q.inst).run.position.chunk) := by
  have hl : ({ s with workQueue := s.workQueue.filter (·.inst != q.inst) } : State).linkOf q.inst = some d.link :=
    linkOf_some (s := s) hd
  unfold State.dispatchRun
  dsimp only
  rw [takeSlot_of hl, hc]
  dsimp only
  simp [State.wakes, State.modEntry, State.modEngine, State.setEntry, State.setEngine, State.setLink, State.dispatchedEntry]
  rfl

end Wakes

/-! ### Drains that end at the moment of their request (R93) -/

section Drains

variable {s : State} {e : Fin 6}

/-- R93: of the engines a drain is requested of, exactly those with a run and nothing outstanding end it at once. -/
theorem drainEndsAtOnce_request (r : DrainReason) : s.drainEndsAtOnce (s.requestDrain e r) e = (s.engine e).endsNow := by
  obtain ⟨hf, hl⟩ := drainRequested_outstanding (s.engine e) r
  simp only [State.drainEndsAtOnce, State.drainDone, State.requestDrain, State.engine_modEngine, if_true, hf, hl, Engine.endsNow]
  cases h : (s.engine e).state <;> simp only [Engine.drainRequested, h] <;> rfl

/-- R93: the drain goes on. -/
theorem drainFor_goes_on (h : (s.engine e).endsNow = false) (r : DrainReason) :
    s.drainFor e r = s.setEngine e ((s.engine e).drainRequested r) := by
  unfold State.drainFor
  dsimp only
  rw [drainEndsAtOnce_request, h]
  rfl

/-- R93: the drain ends in the step of its request. -/
theorem drainFor_ends (h : (s.engine e).endsNow = true) (r : DrainReason) :
    s.drainFor e r = (s.setEngine e ((s.engine e).drainRequested r)).drainEnd e := by
  unfold State.drainFor
  dsimp only
  rw [drainEndsAtOnce_request, h]
  rfl

/-- R96: the state with the drain requested is one in which DRAIN_END takes place. -/
theorem execDrainEnd_requested (h : (s.engine e).endsNow = true) (r : DrainReason) :
    execDrainEnd e (s.setEngine e ((s.engine e).drainRequested r)) =
      .next ((s.setEngine e ((s.engine e).drainRequested r)).drainEnd e) := by
  rw [← drainEndsAtOnce_request r, State.drainEndsAtOnce, Bool.and_eq_true] at h
  exact congrArg Host.Outcome.next (if_pos h.2)

/-- R93: an engine with a run whose drain ends at once. -/
theorem endsNow_iff {en : Engine} : en.endsNow = true ↔ (en.state = .loading ∨ en.state = .walking) ∧ ¬en.outstanding := by
  simp [Engine.endsNow, Engine.outstanding, and_assoc]

end Drains

/-! ### The victim of a preemption (R69, R70) -/

section Victims

variable {s : State} {v e : Fin 6} {l : Fin 4} {q : QueueEntry}

/-- R69: engine `e` counts for an entry whose link is `l`. -/
def State.counts (s : State) (l : Fin 4) (e : Fin 6) : Prop :=
  ((s.engine e).state = .loading ∨ (s.engine e).state = .walking) ∧ (s.engine e).preemptible = true ∧ (s.engine e).stack.length < 3 ∧
    (s.slotFree l = true ∨ ∃ j, (s.engine e).current = some j ∧ s.linkOf j = some l)

/-- R70: engine `v` is chosen as the victim before engine `e`. -/
def State.worseThan (s : State) (v e : Fin 6) : Prop :=
  s.enginePriority e < s.enginePriority v ∨
    (s.enginePriority e = s.enginePriority v ∧ (s.engineAge v < s.engineAge e ∨ (s.engineAge v = s.engineAge e ∧ e < v)))

theorem mem_countedFor (hl : s.linkOf q.inst = some l) : e ∈ s.countedFor q ↔ s.counts l e := by
  simp only [State.countedFor, State.candidate, State.counts, State.engineLink, allEngines, List.mem_filter, List.mem_finRange, true_and, hl,
    Option.any_some, Bool.and_eq_true, Bool.or_eq_true, beq_iff_eq, decide_eq_true_eq, Option.bind_eq_some_iff, and_assoc]
  rfl

theorem chosenBefore_of_worse (h : s.worseThan v e) : s.chosenBefore v e = true ∧ s.chosenBefore e v = false := by
  unfold State.worseThan at h
  rw [← Fin.val_fin_lt] at h
  simp only [State.chosenBefore, ← Fin.val_fin_le]
  constructor
  all_goals
    split_ifs <;> simp only [decide_eq_true_eq, decide_eq_false_iff_not] <;> omega

theorem victimAmong_mem {es : List (Fin 6)} (h : s.victimAmong es = some v) : v ∈ es := by
  induction es generalizing v with
  | nil => cases h
  | cons e es ih =>
    rw [State.victimAmong] at h
    cases hr : s.victimAmong es with
    | none =>
      rw [hr] at h
      obtain rfl := Option.some.inj h
      exact List.mem_cons_self
    | some w =>
      rw [hr] at h
      dsimp only at h
      split at h
      · obtain rfl := Option.some.inj h
        exact List.mem_cons_self
      · obtain rfl := Option.some.inj h
        exact List.mem_cons_of_mem _ (ih hr)

/-- R70: the engine that is chosen before each other one is the victim. -/
theorem victimAmong_of_worst {es : List (Fin 6)} (hv : v ∈ es) (hw : ∀ e ∈ es, e ≠ v → s.worseThan v e) : s.victimAmong es = some v := by
  induction es with
  | nil => cases hv
  | cons e es ih =>
    rw [State.victimAmong]
    by_cases hes : v ∈ es
    · rw [ih hes fun x hx => hw x (List.mem_cons_of_mem _ hx)]
      by_cases he : e = v
      · rw [he]
        exact ite_self _
      · have hnot := (chosenBefore_of_worse (hw e List.mem_cons_self he)).2
        simp [hnot]
    · obtain rfl := (List.mem_cons.1 hv).resolve_right hes
      cases hr : s.victimAmong es with
      | none => rfl
      | some w =>
        have hmem := victimAmong_mem hr
        have hfirst := (chosenBefore_of_worse (hw w (List.mem_cons_of_mem _ hmem) fun h => hes (h ▸ hmem))).1
        simp [hfirst]

/-- R70: the state with entry `q`, of link `l`, reserved for engine `v`. -/
theorem reserve_eq (hl : s.linkOf q.inst = some l) :
    s.reserve q.inst v =
      ({ s with
          workQueue := s.workQueue.map fun (x : QueueEntry) =>
            if x.inst = q.inst then { x with reserved := some v } else x } : State).setLink l
        { s.link l with slots := (s.link l).slots ++ (if s.slotFree l = true then [.reserved q.inst] else []) } := by
  unfold State.reserve
  rw [hl, Option.any_some]
  split
  · exact reserveSlot_of (hl : ({ s with workQueue := _ } : State).linkOf q.inst = some l)
  · rw [List.append_nil]
    exact (setLink_self ..).symm

/-- R69: the URGENT entry that preemption acts for. -/
theorem preemptingEntry_of_first (hq : q ∈ s.workQueue) (hc : q.cls = .urgent) (hr : q.reserved = none) (hv : v ∈ s.countedFor q)
    (hb : ∀ x ∈ s.workQueue, x.cls = .urgent → x.reserved = none → x ≠ q → ¬s.goesBefore x q) : s.preemptingEntry = some q := by
  refine find_dispatchOrder s _ q hq ?_ fun x hx hp hne => ?_
  · simp [hc, hr, List.ne_nil_of_mem hv]
  · simp only [Bool.and_eq_true, beq_iff_eq, Option.isNone_iff_eq_none] at hp
    obtain ⟨⟨hcls, hres⟩, -⟩ := hp
    exact hb x hx hcls hres hne

end Victims

end Sys2Proof.Machine

open Sys2Proof Sys2Proof.Machine

/-- Settles O33: the arbiter finds the entry and the engine, and the entry's class says how its run begins. -/
theorem dispatchStartsBestEntry : Obligations.DispatchStartsBestEntry := by
  intro s
  refine ⟨fun x => eligible_iff, ?_⟩
  intro e q d hs hst hlow hq hel hbest hd hu x slots
  have hfree : s.freeEngine = some e := freeEngine_of_lowest (engineFree_iff.2 ⟨hs, hst⟩) fun m hm => mt engineFree_iff.1 (hlow m hm)
  have hfound : s.bestEligible = some q := find_dispatchOrder s _ q hq hel hbest
  have hexec : exec .dispatch s = .next (State.settle e (s.dispatchRun e q)) := by
    show execDispatch s = _
    rw [execDispatch, hfree, hfound]
  refine ⟨fun hc => ?run, fun hc => ?wake⟩
  case run =>
    rw [dispatchRun_starts s e q d hc hd hu] at hexec
    refine ⟨_, hexec, ?entry, fun j hj => ?others, rfl, rfl, ?engine, fun m hm => ?engines, ?link, fun m hm => ?links, rfl⟩
    all_goals simp only [State.settle, State.startsRun, Bool.false_eq_true, if_false]
    case entry => simp [x]
    case others => simp [hj]
    case engine => simp
    case engines => simp [hm]
    case link => simp [x, slots]
    case links => simp [hm]
  case wake =>
    rw [hexec, dispatchRun_wakes hc hd]
    exact settle_comesToReach ..

/-- Settles O34: the first URGENT entry is found with its victim among the counted engines, and the victim's drain ends now or later. -/
theorem preemptionReservesForVictim : Obligations.PreemptionReservesForVictim := by
  intro q v l s counted hbusy hq hc hr hl hfirst hv hworst u
  refine ⟨slotFree_iff, ?_⟩
  have hcounted : v ∈ s.countedFor q := (mem_countedFor hl).2 hv
  have hvictim : s.victimAmong (s.countedFor q) = some v :=
    victimAmong_of_worst hcounted fun e he hne => hworst e ((mem_countedFor hl).1 he) hne
  have hexec : exec .preemption s = .next ((s.reserve q.inst v).drainFor v .preempt) := by
    show execPreemption s = _
    rw [execPreemption, freeEngine_eq_none fun m => mt engineFree_iff.1 (hbusy m), preemptingEntry_of_first hq hc hr hcounted hfirst]
    dsimp only
    rw [hvictim]
  obtain ⟨hrun, -⟩ := hv
  have hen : (s.reserve q.inst v).engine v = s.engine v := by
    rw [reserve_eq hl]
    rfl
  have hu : (s.reserve q.inst v).setEngine v (((s.reserve q.inst v).engine v).drainRequested .preempt) = u := by
    rw [hen, drainRequested_of_run hrun, reserve_eq hl]
    rfl
  refine ⟨fun hout => ?waits, fun hout => ?ends⟩
  case waits =>
    rw [hexec, drainFor_of_outstanding _ _ _ (hen ▸ hout), hu]
  case ends =>
    have hnow : ((s.reserve q.inst v).engine v).endsNow = true := hen ▸ endsNow_iff.2 ⟨hrun, hout⟩
    have hend := execDrainEnd_requested hnow .preempt
    rw [hu] at hend
    rw [hexec, drainFor_ends hnow, hu]
    exact hend.symm
end

section
/-!
PROOF. An instance out of its holder (R4), its cut short (R15), and the requests that bring it about: STOP and RETIRE (R17, R18, R77).
-/

namespace Sys2Proof.Machine

open Sys2Proof

/-! ### Leaving a holder (R4, R72, R74, R75, R136) -/

section Detach

variable {s : State} {i : Fin 64}

/-- R68: a slot given up touches the links alone. -/
theorem releaseSlot_link (l : Fin 4) :
    (s.releaseSlot i).link l =
      if s.linkOf i = some l then { s.link l with slots := slotsWithout (s.link l).slots i } else s.link l := by
  cases h : s.linkOf i with
  | none => rw [releaseSlot_none h, if_neg (by simp)]
  | some m =>
    rw [releaseSlot_of h, State.link_setLink]
    by_cases hl : l = m
    · rw [if_pos hl, hl, if_pos rfl]
    · rw [if_neg hl, if_neg (by simpa using Ne.symm hl)]

theorem releaseSlot_frame : s.releaseSlot i = { s with linkTable := (s.releaseSlot i).linkTable } := by
  cases h : s.linkOf i with
  | none => rw [releaseSlot_none h]
  | some m => rw [releaseSlot_of h]; rfl

/-- What instance `i`, as it leaves the holder that its state gives it, changes from state `s` to state `t` beside its own entry. -/
structure State.LeftHolder (s t : State) (i : Fin 64) : Prop where
  workQueue : t.workQueue = if (s.entry i).state = .queued then s.workQueue.filter (·.inst != i) else s.workQueue
  parking : t.parking = if (s.entry i).state = .parked then s.parking.filter (·.inst != i) else s.parking
  analysisQueue :
    t.analysisQueue = if (s.entry i).state = .analysing then s.analysisQueue.filter (·.inst != i) else s.analysisQueue
  analysing :
    t.analysing = (s.analysing && !((s.entry i).state == .analysing && s.analysisQueue.head?.any fun a => a.inst == i))
  link : ∀ l, t.link l =
    if (s.entry i).state = .queued ∧ s.linkOf i = some l then { s.link l with slots := slotsWithout (s.link l).slots i } else s.link l
  engine : ∀ e, t.engine e =
    if (s.entry i).state = .suspended ∧ (s.entry i).suspending = some e then
      { s.engine e with stack := (s.engine e).stack.filter (· != i) }
    else s.engine e
  frame : t = { s with
    table := t.table, workQueue := t.workQueue, parking := t.parking, analysisQueue := t.analysisQueue, analysing := t.analysing,
    linkTable := t.linkTable, engineTable := t.engineTable }

/-- Instance `i` has left, from state `s` to state `t`, the holder that its state gives it. -/
structure State.Detached (s t : State) (i : Fin 64) : Prop extends s.LeftHolder t i where
  entry : t.entry i = { s.entry i with suspending := if (s.entry i).state = .suspended then none else (s.entry i).suspending }
  others : s.othersKept t i

/-- Which holder it was does not depend on the rest of the entry. -/
theorem State.LeftHolder.of_modEntry {t : State} {f : Entry → Entry} (h : (s.modEntry i f).LeftHolder t i)
    (hst : (f (s.entry i)).state = (s.entry i).state) (hsu : (f (s.entry i)).suspending = (s.entry i).suspending)
    (hd : (f (s.entry i)).descriptor = (s.entry i).descriptor) : s.LeftHolder t i := by
  have hentry : (s.modEntry i f).entry i = f (s.entry i) := (State.entry_modEntry ..).trans (if_pos rfl)
  have hlink : (s.modEntry i f).linkOf i = s.linkOf i := linkOf_congr (by rw [hentry, hd])
  obtain ⟨hw, hp, hq, ha, hl, he, hframe⟩ := h
  rw [hentry, hst] at hw hp hq ha
  simp only [hentry, hst, hsu, hlink] at hl he
  exact ⟨hw, hp, hq, ha, hl, he, hframe⟩

theorem leaveQueue_detached (h : (s.entry i).state = .queued) : s.Detached (s.leaveQueue i) i where
  entry := by rw [State.leaveQueue, releaseSlot_frame, if_neg (by simp [h])]; rfl
  others j _ := by rw [State.leaveQueue, releaseSlot_frame]; rfl
  workQueue := by rw [State.leaveQueue, releaseSlot_frame, if_pos h]
  parking := by rw [State.leaveQueue, releaseSlot_frame]; simp [h]
  analysisQueue := by rw [State.leaveQueue, releaseSlot_frame]; simp [h]
  analysing := by rw [State.leaveQueue, releaseSlot_frame]; simp [h]
  link l := by
    rw [State.leaveQueue, releaseSlot_link]
    simp only [h, true_and]
    rfl
  engine e := by rw [State.leaveQueue, releaseSlot_frame]; simp [h]
  frame := by rw [State.leaveQueue, releaseSlot_frame]

theorem leaveStack_detached (h : (s.entry i).state = .suspended) : s.Detached (s.leaveStack i) i := by
  unfold State.leaveStack
  cases hs : (s.entry i).suspending with
  | none =>
    have hentry : s.entry i = { s.entry i with suspending := none } := congrArg (fun o => { s.entry i with suspending := o }) hs
    exact ⟨⟨by simp [h], by simp [h], by simp [h], by simp [h], by simp [h], by simp [hs], rfl⟩, by rw [if_pos h]; exact hentry, fun _ _ => rfl⟩
  | some e =>
    refine ⟨⟨by simp [h], by simp [h], by simp [h], by simp [h], by simp [h], fun m => ?_, rfl⟩, by simp [h], fun j hj => by simp [hj]⟩
    rw [State.modEntry_engine, State.engine_modEngine]
    by_cases hm : m = e
    · rw [if_pos hm, if_pos ⟨h, hm ▸ hs⟩, hm]
    · rw [if_neg hm, if_neg fun hx => hm (Option.some.inj (hx.2.symm.trans hs))]

theorem leaveParking_detached (h : (s.entry i).state = .parked) : s.Detached (s.leaveParking i) i where
  toLeftHolder := by constructor <;> simp [State.leaveParking, h]
  entry := by rw [if_neg (by simp [h])]; rfl
  others _ _ := rfl

theorem leaveAnalysis_detached (h : (s.entry i).state = .analysing) : s.Detached (s.leaveAnalysis i) i where
  toLeftHolder := by constructor <;> simp [State.leaveAnalysis, h]
  entry := by rw [if_neg (by simp [h])]; rfl
  others _ _ := rfl

/-- An instance that no holder lists is where it was. -/
theorem detached_self (hq : (s.entry i).state ≠ .queued) (hs : (s.entry i).state ≠ .suspended) (hp : (s.entry i).state ≠ .parked)
    (ha : (s.entry i).state ≠ .analysing) : s.Detached s i := by
  refine ⟨?_, by simp [hs], fun _ _ => rfl⟩
  constructor <;> simp [hq, hs, hp, ha]

/-- R4: an instance leaves the holder of its state. -/
theorem detach_detached (s : State) (i : Fin 64) : s.Detached (s.detach i) i := by
  unfold State.detach
  cases h : (s.entry i).state with
  | queued => exact leaveQueue_detached h
  | suspended => exact leaveStack_detached h
  | parked => exact leaveParking_detached h
  | analysing => exact leaveAnalysis_detached h
  | _ => exact detached_self (by simp [h]) (by simp [h]) (by simp [h]) (by simp [h])

end Detach

/-! ### A waiting instance cut short (R5, R15, R137) -/

section CutShort

variable {s : State} {i : Fin 64} {e : Fin 6} (r : CutReason)

/-- R5, R15: the entry of an instance that is cut short. -/
theorem cutShort_entry : (s.cutShort i r).entry i =
    { s.entry i with
      state := .analysing, reason := r.verdict, followUp := if r.dropsFollowUp then none else (s.entry i).followUp,
      suspending := if (s.entry i).state = .suspended then none else (s.entry i).suspending,
      flags :=
        { (s.entry i).flags with partialRun := true, untested := (s.entry i).flags.untested || s.untestedIfCut i r } } := by
  have hd := (detach_detached s i).entry
  simp [State.cutShort, State.enterAnalysis, hd]

theorem cutShort_othersKept : s.othersKept (s.cutShort i r) i := by
  intro j hj
  have hd := (detach_detached s i).others j hj
  simpa [State.cutShort, State.enterAnalysis, hj] using hd

theorem cutShort_analysisQueue : (s.cutShort i r).analysisQueue = (s.detach i).analysisQueue ++ [⟨i, s.freshIfCut i⟩] := rfl

/-- R15: a cut short writes the entry and the Analysis Queue beside what leaving the holder writes. -/
theorem cutShort_frame : s.cutShort i r =
    { s.detach i with table := (s.cutShort i r).table, analysisQueue := (s.detach i).analysisQueue ++ [⟨i, s.freshIfCut i⟩] } := rfl

/-- R5: an instance with a run behind it has been tested. -/
theorem untestedIfCut_suspended (h : (s.entry i).state = .suspended) : s.untestedIfCut i r = false := by
  rw [State.untestedIfCut, h]
  exact Bool.and_false _

/-- R74: a SUSPENDED instance cut short leaves its engine's stack. -/
theorem cutShort_suspended (h : (s.entry i).state = .suspended) (he : (s.entry i).suspending = some e) :
    s.cutShort i r =
      { (s.setEntry i
          { s.entry i with
            state := .analysing, flags := { (s.entry i).flags with partialRun := true }, reason := r.verdict,
            followUp := if r.dropsFollowUp then none else (s.entry i).followUp, suspending := none }).setEngine e
          { s.engine e with stack := (s.engine e).stack.filter (· != i) } with
        analysisQueue := s.analysisQueue ++ [⟨i, true⟩] } := by
  have hu := untestedIfCut_suspended r h
  simp [State.cutShort, State.detach, State.leaveStack, State.freshIfCut, State.enterAnalysis, h, he, hu, State.modEntry, State.modEngine, State.setEntry, State.setEngine]

end CutShort

end Sys2Proof.Machine
end

section
/-!
PROOF. STOP and RETIRE (R17, R18, R77): of a waiting instance at once, of a run by way of a drain.
-/

namespace Sys2Proof.Machine

open Sys2Proof

section Stops

variable {s : State} {p : Port} {i : Fin 64} {e : Fin 6}

/-- R77: STOP by the owner. -/
theorem exec_stop_of_owner (h : (s.entry i).owner = portOwner p) : exec (.stop p i.val) s = .next (s.stopRequest p i) :=
  congrArg Host.Outcome.next (gateOwned_of_owner _ _ h ..)

theorem stopRequest_waiting (h : (s.entry i).state = .queued ∨ (s.entry i).state = .parked) :
    s.stopRequest p i = ((s.dropFollowUp i).cutShort i .stop).ok p .stop (.stop .cutShort) := by
  unfold State.stopRequest
  rcases h with h | h <;> rw [h]

theorem stopRequest_suspended (h : (s.entry i).state = .suspended) :
    s.stopRequest p i =
      (((s.dropFollowUp i).cutShort i .stop).turnSuspender (s.entry i).suspending).ok p .stop (.stop .cutShort) := by
  unfold State.stopRequest
  rw [h]

theorem stopRequest_running (h : (s.entry i).state = .running) (he : s.engineOf i = some e) :
    s.stopRequest p i = ((s.dropFollowUp i).drainFor e (.cut .stop)).ok p .stop (.stop .draining) := by
  have he' : (s.dropFollowUp i).engineOf i = some e := he
  unfold State.stopRequest State.stopRunning
  dsimp only
  rw [h, he']

theorem stopRequest_analysing (h : (s.entry i).state = .analysing) :
    s.stopRequest p i = (s.dropFollowUp i).ok p .stop (.stop .followUpCleared) := by
  unfold State.stopRequest
  rw [h]

/-- R74: an engine that has a run does not turn when an instance leaves its stack. -/
theorem turnSuspender_of_hasRun {t : State} {o : Option (Fin 6)} (h : ∀ e, o = some e → (t.engine e).hasRun) : t.turnSuspender o = t := by
  cases o with
  | none => rfl
  | some e => exact turn_of_hasRun t e (h e rfl)

/-- R74: leaving a stack is not leaving a run. -/
theorem detach_hasRun (h : (s.engine e).hasRun) : ((s.detach i).engine e).hasRun := by
  rw [(detach_detached s i).engine e]
  split <;> exact h

/-- R15, R77: the entry of a waiting instance that STOP cuts short. -/
theorem stopped_entry : (((s.dropFollowUp i).cutShort i .stop).entry i) =
    { s.entry i with
      state := .analysing, flags := { (s.entry i).flags with partialRun := true }, reason := .stop, followUp := none,
      suspending := if (s.entry i).state = .suspended then none else (s.entry i).suspending } := by
  rw [cutShort_entry]
  simp [State.dropFollowUp, State.untestedIfCut, CutReason.verdict, CutReason.dropsFollowUp]

/-- R137: the analysis of a waiting instance that STOP cuts short is fresh unless it was QUEUED for the first time. -/
theorem stopped_fresh (h : (s.entry i).state = .queued ∨ (s.entry i).state = .suspended ∨ (s.entry i).state = .parked) :
    (s.dropFollowUp i).freshIfCut i = ((s.entry i).state != .queued || (s.queueEntry i).any fun x => x.cls == .wake) := by
  have hst : ((s.dropFollowUp i).entry i).state = (s.entry i).state := by simp [State.dropFollowUp]
  unfold State.freshIfCut
  rw [hst]
  rcases h with h | h | h <;> rw [h] <;> rfl

end Stops

end Sys2Proof.Machine

open Sys2Proof Sys2Proof.Machine

/-- Settles O30: the instance leaves its holder and is analysed; an engine whose stack it left turns unless it has a run. -/
theorem stopCutsShortWaitingJob : Obligations.StopCutsShortWaitingJob := by
  intro p i s howner
  refine ⟨fun hstate hruns => ?waits, ?turns⟩
  case turns =>
    intro e hs he u
    refine ⟨_, turn_turnsTo u e, (exec_stop_of_owner howner).trans ?_⟩
    have hu : (s.dropFollowUp i).cutShort i .stop = u := by
      rw [cutShort_suspended .stop (e := e) (by simpa [State.dropFollowUp] using hs) (by simpa [State.dropFollowUp] using he)]
      simp [u, State.dropFollowUp, CutReason.verdict, State.modEntry]
    rw [stopRequest_suspended hs, hu, he]
    rfl
  case waits =>
    have hd : s.LeftHolder ((s.dropFollowUp i).detach i) i := (detach_detached _ i).toLeftHolder.of_modEntry rfl rfl rfl
    have hna : (s.entry i).state ≠ .analysing := by rcases hstate with h | h | h <;> simp [h]
    obtain ⟨c, hc⟩ : ∃ c, c = (s.dropFollowUp i).cutShort i .stop := ⟨_, rfl⟩
    have hexec : exec (.stop p i.val) s = .next (c.ok p .stop (.stop .cutShort)) := by
      rw [exec_stop_of_owner howner, hc]
      rcases hstate with h | h | h
      · rw [stopRequest_waiting (.inl h)]
      · rw [stopRequest_suspended h, turnSuspender_of_hasRun]
        exact fun e he => detach_hasRun (s := s.dropFollowUp i) (hruns e he)
      · rw [stopRequest_waiting (.inr h)]
    have hanalysing : c.analysing = s.analysing := by
      rw [hc]
      exact hd.analysing.trans (by simp [hna])
    have hframe : c = { s with
        table := c.table, workQueue := c.workQueue, parking := c.parking, analysisQueue := c.analysisQueue, analysing := c.analysing,
        linkTable := c.linkTable, engineTable := c.engineTable } := by
      rw [hc, cutShort_frame, hd.frame]
    refine ⟨_, hexec, ?entry, fun j hj => ?others, ?analysis, ?work, ?parking, fun l => ?links, fun e => ?engines, ?answer, ?frame⟩
    case entry => rw [ok_entry, hc, stopped_entry]
    case others =>
      rw [ok_entry, hc, cutShort_othersKept .stop j hj]
      simp [State.dropFollowUp, hj]
    case analysis =>
      rw [State.ok, State.answer, State.modPort_analysisQueue, hc, cutShort_analysisQueue, hd.analysisQueue, if_neg hna, stopped_fresh hstate]
    case work =>
      rw [ok_workQueue, hc]
      exact hd.workQueue
    case parking =>
      rw [State.ok, State.answer, State.modPort_parking, hc]
      exact hd.parking
    case links =>
      rw [State.ok, State.answer, State.modPort_link, hc]
      exact hd.link l
    case engines =>
      rw [State.ok, State.answer, State.modPort_engine, hc]
      exact hd.engine e
    case answer =>
      refine answered_ok _ _ _ _ fun q => ?_
      rw [hframe]
      rfl
    case frame =>
      rw [hanalysing] at hframe
      rw [hframe]
      cases p <;> rfl
end

section
/-!
PROOF. What a turn leaves (R71, R73, R74): the entries of the instances that neither wait on the engine's stack nor in the Work Queue.
-/

namespace Sys2Proof.Machine

open Sys2Proof

section Turns

variable {s : State} {e : Fin 6} {i j : Fin 64}

theorem releaseSlot_entry : (s.releaseSlot j).entry i = s.entry i := by rw [releaseSlot_frame]; rfl

theorem takeSlot_entry : (s.takeSlot j).entry i = s.entry i := by
  unfold State.takeSlot
  split <;> rfl

theorem emptyLog_othersKept : s.othersKept (s.emptyLog j) j := by
  intro i hi
  rw [emptyLog_eq]
  simp [hi]

theorem beginLoad_entry : (s.beginLoad e j).entry i = s.entry i := by
  unfold State.beginLoad
  split
  · rfl
  · rw [State.modEngine_entry, State.modLink_entry]
    unfold State.send
    split <;> rfl

theorem parkRun_othersKept (p : Position) (w : Time) : s.othersKept (s.parkRun e j p w) j := by
  intro i hi
  simp [State.parkRun, State.vacate, State.writePosition, releaseSlot_entry, hi]

theorem completeRun_othersKept (p : Position) : s.othersKept (s.completeRun e j p) j := by
  intro i hi
  simp [State.completeRun, State.vacate, State.writePosition, State.enterAnalysis, releaseSlot_entry, hi]

/-- R53: reaching an element writes the entry of the engine's run at most. -/
theorem reach_entry (h : (s.engine e).current ≠ some i) (k : Nat) (p : Nat × Nat) : (s.reach e k p).1.entry i = s.entry i := by
  unfold State.reach
  cases hc : (s.engine e).current with
  | none => rfl
  | some j =>
    have hi : i ≠ j := fun hij => h (hij ▸ hc)
    dsimp only
    cases hd : (s.entry j).descriptor with
    | none => rfl
    | some d =>
      dsimp only
      split
      · rfl
      · exact parkRun_othersKept _ _ i hi
      · exact completeRun_othersKept _ i hi

theorem dispatchRun_entry {q : QueueEntry} (h : q.inst ≠ i) : (s.dispatchRun e q).1.entry i = s.entry i := by
  unfold State.dispatchRun
  dsimp only
  split
  · rw [reach_entry (by simpa using h)]
    simp [takeSlot_entry, Ne.symm h]
  · have hlog := emptyLog_othersKept (s := (({ s with workQueue := s.workQueue.filter fun x => x.inst != q.inst } : State).takeSlot
        q.inst).modEngine e fun en =>
          { en with current := some q.inst, dispatchStamp := some s.now, preemptible := q.cls.preemptible }) (j := q.inst) i (Ne.symm h)
    dsimp only
    rw [beginLoad_entry, State.entry_modEntry, if_neg (Ne.symm h), hlog]
    simp [takeSlot_entry]

theorem resumeRun_entry (h : j ≠ i) : (s.resumeRun e j).1.entry i = s.entry i := by
  unfold State.resumeRun
  dsimp only
  split
  · simp [beginLoad_entry, takeSlot_entry, Ne.symm h]
  · simp [takeSlot_entry, Ne.symm h]
  · rw [reach_entry (by simpa using h)]
    simp [takeSlot_entry, Ne.symm h]

/-- Instance `i` waits neither on the Resume Stack of engine `e` nor in the Work Queue. -/
def State.Away (s : State) (e : Fin 6) (i : Fin 64) : Prop := i ∉ (s.engine e).stack ∧ ∀ q ∈ s.workQueue, q.inst ≠ i

/-- Where engine `e` gets from state `s` in one turn instance `i` keeps its entry, and stays away from the engine. -/
def State.passes (s : State) (e : Fin 6) (i : Fin 64) (r : State × Bool) : Prop :=
  r.1.entry i = s.entry i ∧ (r.2 = true → r.1.Away e i)

theorem dispatchRun_passes (h : s.Away e i) {q : QueueEntry} (hq : q ∈ s.workQueue) : s.passes e i (s.dispatchRun e q) := by
  refine ⟨dispatchRun_entry (h.2 q hq), ?_⟩
  unfold State.dispatchRun
  dsimp only
  split
  · intro _
    refine ⟨by rw [reach_stack]; simpa using h.1, ?_⟩
    rw [reach_workQueue]
    intro x hx
    simp only [State.modEngine_workQueue, State.modEntry_workQueue, takeSlot_workQueue, List.mem_filter] at hx
    exact h.2 x hx.1
  · intro hf
    cases hf

theorem resumeRun_passes {rest : List (Fin 64)} (hst : (s.engine e).stack = j :: rest) (h : s.Away e i) : s.passes e i (s.resumeRun e j) := by
  obtain ⟨hi, hq⟩ := h
  rw [hst, List.mem_cons, not_or] at hi
  refine ⟨resumeRun_entry (Ne.symm hi.1), fun hb => ?_⟩
  rcases resumeRun_fuel s e j hst with ⟨hrest, hwork⟩ | hf
  · exact ⟨hrest ▸ hi.2, hwork ▸ hq⟩
  · rw [hf] at hb
    cases hb

theorem waitFor_passes {rest : List (Fin 64)} (hst : (s.engine e).stack = j :: rest) (h : s.Away e i) : s.passes e i (s.waitFor e j) := by
  unfold State.waitFor
  dsimp only
  split
  · exact resumeRun_passes (s := s.modEngine e fun en => { en with state := .waitingSlot, waitingLink := s.linkOf j }) (rest := rest)
      (by simpa using hst) ⟨by simpa using h.1, h.2⟩
  · exact ⟨rfl, fun hf => by cases hf⟩

theorem turnOnce_passes (h : s.Away e i) : s.passes e i (s.turnOnce e) := by
  have stays : ∀ t : State, t.entry i = s.entry i → s.passes e i (t, false) := fun t ht => ⟨ht, fun hf => by cases hf⟩
  unfold State.turnOnce
  dsimp only
  split
  · split
    · rename_i q hq
      exact dispatchRun_passes h (List.mem_of_find?_eq_some hq)
    · split
      · exact stays s rfl
      · rename_i hst
        exact waitFor_passes hst h
  · split
    · exact stays _ rfl
    · rename_i hst
      split
      · exact stays s rfl
      · exact waitFor_passes hst h
  · exact stays s rfl

theorem turnFor_entry (n : Nat) (h : s.Away e i) : (State.turnFor e n s).entry i = s.entry i := by
  induction n generalizing s with
  | zero => rfl
  | succ n ih =>
    obtain ⟨hentry, haway⟩ := turnOnce_passes h
    rw [State.turnFor]
    split
    · rename_i hb
      rw [ih (haway hb), hentry]
    · exact hentry

/-- R71, R73, R74: a turn leaves the entry of an instance that does not wait for the engine. -/
theorem turn_entry (h : s.Away e i) : (s.turn e).entry i = s.entry i := turnFor_entry _ h

end Turns

/-! ### Retirement (R19) -/

section Retire

variable {s : State} {i : Fin 64} {d : Descriptor} {p : Port} {e : Fin 6}

/-- R19: an instance out of its holder becomes RETIRED. -/
theorem becomeRetired_eq (hd : (s.entry i).descriptor = some d) :
    s.becomeRetired i =
      ((s.setEntry i
          { s.entry i with state := .retired, followUp := none, suspending := none, reason := .none, endStamp := some s.now }).setLink d.link
        (if s.linkUp d.link = true then
          { s.link d.link with
            sent := (s.link d.link).sent ++ [.fence d.memId], pulls := (s.link d.link).pulls.filter (· != i) }
        else s.link d.link)).raiseBoth (.verdict (maskBit i)) := by
  obtain ⟨w, hw⟩ : ∃ w, w = s.setEntry i
      { s.entry i with state := .retired, followUp := none, suspending := none, reason := .none, endStamp := some s.now } := ⟨_, rfl⟩
  have hl : w.link d.link = s.link d.link := by rw [hw]; rfl
  have hup : w.linkUp d.link = s.linkUp d.link := by rw [hw]; rfl
  have hret : s.becomeRetired i = (if w.linkUp d.link then
      (w.send d.link (.fence d.memId)).modLink d.link fun k => { k with pulls := k.pulls.filter (· != i) } else w).raiseBoth
        (.verdict (maskBit i)) := by
    unfold State.becomeRetired
    rw [hd, hw]
    rfl
  rw [hret, ← hw, ← hup, ← hl]
  split
  · rename_i hu
    rw [send_up hu, State.modLink, State.link_setLink, if_pos rfl, setLink_setLink]
  · rw [setLink_self]

end Retire

end Sys2Proof.Machine
end

section
/-!
PROOF. RETIRE (R17 to R19), and the drains of STOP and RETIRE (R18, R77, R93).
-/

namespace Sys2Proof.Machine

open Sys2Proof

section Retires

variable {s : State} {p : Port} {i : Fin 64} {e : Fin 6} {d : Descriptor}

/-- R18: what RETIRE does to an entry before it looks at the state. -/
def State.toRetire (s : State) (i : Fin 64) : State := s.modEntry i fun x => { x with followUp := none, live := false }

/-- R17: RETIRE that is not refused. -/
theorem exec_retire_of (hp : p = .card → (s.entry i).owner = .card ∧ (s.entry i).live = false) (hv : (s.entry i).state ≠ .vacant) :
    exec (.retire p i.val) s = .next ((s.retire i).ok p .retire (.retire ((s.retire i).retireDisposition i))) := by
  have hreq : s.retireRequest p i = (s.retire i).ok p .retire (.retire ((s.retire i).retireDisposition i)) := by
    rw [State.retireRequest, if_neg hv, if_neg]
    rintro ⟨hcard, hlive⟩
    rw [(hp hcard).2] at hlive
    cases hlive
  refine congrArg Host.Outcome.next ?_
  cases p with
  | card => exact (gateOwned_of_owner _ _ (hp rfl).1 ..).trans hreq
  | chassis => exact (gateIndex_val ..).trans hreq

theorem retire_running (h : (s.entry i).state = .running) (he : s.engineOf i = some e) :
    s.retire i = (s.toRetire i).drainFor e .retire := by
  have he' : (s.toRetire i).engineOf i = some e := he
  unfold State.retire
  dsimp only
  rw [h]
  dsimp only
  rw [he]
  rfl

theorem retire_suspended (h : (s.entry i).state = .suspended) :
    s.retire i = (((s.toRetire i).detach i).becomeRetired i).turnSuspender (s.entry i).suspending := by
  unfold State.retire
  rw [h]
  rfl

theorem retire_at_once (hr : (s.entry i).state ≠ .running) (hs : (s.entry i).state ≠ .suspended) :
    s.retire i = ((s.toRetire i).detach i).becomeRetired i := by
  unfold State.retire
  dsimp only
  split
  · exact absurd ‹_› hr
  · exact absurd ‹_› hs
  · rfl

theorem disposition_of_retired (h : (s.entry i).state = .retired) : s.retireDisposition i = .retired := if_pos h

theorem disposition_of_not_retired (h : (s.entry i).state ≠ .retired) : s.retireDisposition i = .draining := if_neg h

theorem setEngine_setEntry (a : Engine) (b : Entry) : (s.setEngine e a).setEntry i b = (s.setEntry i b).setEngine e a := rfl

/-- R74: a SUSPENDED instance leaves the stack it waits on. -/
theorem detach_suspended (h : (s.entry i).state = .suspended) (he : (s.entry i).suspending = some e) :
    s.detach i =
      (s.setEngine e { s.engine e with stack := (s.engine e).stack.filter (· != i) }).setEntry i
        { s.entry i with suspending := none } := by
  have hstack : s.detach i = s.leaveStack i := by
    unfold State.detach
    rw [h]
  rw [hstack, State.leaveStack, he]
  rfl

/-- R19: instance `i`, of descriptor `d` and without a run, has become RETIRED on the way from state `s` to state `c`. -/
structure State.RetiredFrom (s c : State) (i : Fin 64) (d : Descriptor) : Prop where
  entry : c.entry i =
    { s.entry i with state := .retired, live := false, followUp := none, suspending := none, reason := .none, endStamp := some s.now }
  others : s.othersKept c i
  told : s.told c (.verdict (maskBit i))
  links : s.otherLinksKept c d.link
  link : c.link d.link =
    { s.link d.link with
      slots := if (s.entry i).state = .queued then slotsWithout (s.link d.link).slots i else (s.link d.link).slots
      sent := (s.link d.link).sent ++ (if s.linkUp d.link = true then [.fence d.memId] else [])
      pulls := if s.linkUp d.link = true then (s.link d.link).pulls.filter (· != i) else (s.link d.link).pulls }
  workQueue : c.workQueue = if (s.entry i).state = .queued then s.workQueue.filter (·.inst != i) else s.workQueue
  parking : c.parking = if (s.entry i).state = .parked then s.parking.filter (·.inst != i) else s.parking
  analysisQueue :
    c.analysisQueue = if (s.entry i).state = .analysing then s.analysisQueue.filter (·.inst != i) else s.analysisQueue
  analysing :
    c.analysing = (s.analysing && !((s.entry i).state == .analysing && s.analysisQueue.head?.any fun a => a.inst == i))
  engine : ∀ e, c.engine e =
    if (s.entry i).state = .suspended ∧ (s.entry i).suspending = some e then
      { s.engine e with stack := (s.engine e).stack.filter (· != i) }
    else s.engine e
  frame : c = { s with
    table := c.table, linkTable := c.linkTable, workQueue := c.workQueue, parking := c.parking, analysisQueue := c.analysisQueue,
    analysing := c.analysing, engineTable := c.engineTable, cardPort := c.cardPort, chassisPort := c.chassisPort }

theorem retiredFrom (hdesc : (s.entry i).descriptor = some d) :
    s.RetiredFrom (((s.toRetire i).detach i).becomeRetired i) i d := by
  have hd := detach_detached (s.toRetire i) i
  have hleft : s.LeftHolder ((s.toRetire i).detach i) i := hd.toLeftHolder.of_modEntry rfl rfl rfl
  generalize (s.toRetire i).detach i = w at hd hleft
  have hentry := hd.entry
  simp only [State.toRetire, State.entry_modEntry, if_true] at hentry
  have hlink : w.link d.link =
      { s.link d.link with
        slots := if (s.entry i).state = .queued then slotsWithout (s.link d.link).slots i else (s.link d.link).slots } := by
    rw [hleft.link]
    simp only [linkOf_some hdesc, and_true]
    split <;> rfl
  have hup : w.linkUp d.link = s.linkUp d.link := by rw [State.linkUp, hlink, State.linkUp]
  have hnow : w.now = s.now := by rw [hleft.frame]
  have hport : ∀ q, w.port q = s.port q := fun q => by rw [hleft.frame]; rfl
  rw [becomeRetired_eq (d := d) (by rw [hentry]; exact hdesc), hup, hnow]
  exact {
    entry := by simp [State.raiseBoth, State.raise, hentry]
    others := fun j hj => by
      have hj' := hd.others j hj
      simp only [State.toRetire, State.entry_modEntry, if_neg hj] at hj'
      simp [State.raiseBoth, State.raise, hj, hj']
    told := fun q => by
      rw [told_raiseBoth]
      exact congrArg (fun x : PortState => { x with notices := x.notices.raise (.verdict (maskBit i)) }) (hport q)
    links := fun m hm => by
      have hm' := hleft.link m
      rw [if_neg (by simp [linkOf_some hdesc, Ne.symm hm])] at hm'
      simp [State.raiseBoth, State.raise, hm, hm']
    link := by
      cases hu : s.linkUp d.link <;> simp [State.raiseBoth, State.raise, hlink]
    workQueue := hleft.workQueue
    parking := hleft.parking
    analysisQueue := hleft.analysisQueue
    analysing := hleft.analysing
    engine := hleft.engine
    frame := by rw [hleft.frame]; rfl }

end Retires

end Sys2Proof.Machine

open Sys2Proof Sys2Proof.Machine

/-- Settles O31: the drain goes on, or ends in the same step as DRAIN_END ends it. -/
theorem stopAndRetireDrainRuns : Obligations.StopAndRetireDrainRuns := by
  intro p i s
  refine ⟨fun e hs he => ⟨?stop, ?retire⟩, ?analysing⟩
  case stop =>
    intro howner stopped reply
    have hstopped : stopped = (s.dropFollowUp i).setEngine e (((s.dropFollowUp i).engine e).drainRequested (.cut .stop)) := rfl
    have hexec := (exec_stop_of_owner howner).trans (congrArg Host.Outcome.next (stopRequest_running hs he))
    refine ⟨fun hn => ?_, fun hn => ⟨_, hstopped ▸ execDrainEnd_requested (s := s.dropFollowUp i) hn _, ?_⟩⟩
    · rw [hexec, drainFor_goes_on (s := s.dropFollowUp i) hn]
      rfl
    · rw [hexec, drainFor_ends (s := s.dropFollowUp i) hn]
      rfl
  case retire =>
    intro hp retired reply
    have hretired : retired = (s.toRetire i).setEngine e (((s.toRetire i).engine e).drainRequested .retire) := rfl
    have hexec := exec_retire_of hp (by simp [hs])
    rw [retire_running hs he] at hexec
    refine ⟨fun hn => ?_, fun hn => ⟨_, hretired ▸ execDrainEnd_requested (s := s.toRetire i) hn _, ?_⟩⟩
    · rw [drainFor_goes_on (s := s.toRetire i) hn, disposition_of_not_retired (by simp [State.toRetire, hs])] at hexec
      exact hexec
    · rw [drainFor_ends (s := s.toRetire i) hn] at hexec
      exact hexec
  case analysing =>
    intro hs howner
    have hexec := (exec_stop_of_owner howner).trans (congrArg Host.Outcome.next (stopRequest_analysing hs))
    refine ⟨_, hexec, ?_, fun j hj => ?_, answered_ok _ _ _ _ fun q => rfl, modEntry_ok_frame _ i _ p _ _ rfl⟩
    · rw [ok_entry]
      simp [State.dropFollowUp]
    · rw [ok_entry]
      simp [State.dropFollowUp, hj]

/-- Settles O26: the instance leaves its holder and becomes RETIRED; an engine whose stack it left turns unless it has a run. -/
theorem retireWithoutRunIsAtOnce : Obligations.RetireWithoutRunIsAtOnce := by
  intro p i d s hp hdesc hv hr
  have hexec := exec_retire_of hp hv
  have hret := retiredFrom (s := s) hdesc
  refine ⟨fun hruns => ?keeps, ?turns⟩
  case keeps =>
    have hretire : s.retire i = ((s.toRetire i).detach i).becomeRetired i := by
      by_cases hs : (s.entry i).state = .suspended
      · rw [retire_suspended hs]
        refine turnSuspender_of_hasRun fun e he => ?_
        rw [hret.engine e]
        split <;> exact hruns e he
      · exact retire_at_once hr hs
    rw [hretire, disposition_of_retired (by rw [hret.entry])] at hexec
    generalize ((s.toRetire i).detach i).becomeRetired i = c at hret hexec
    have hlink : (c.ok p .retire (.retire .retired)).link d.link = c.link d.link := State.modPort_link ..
    refine ⟨_, hexec, (ok_entry ..).trans hret.entry, fun j hj => (ok_entry ..).trans (hret.others j hj), toldAndAnswered_ok _ hret.told _ _ _,
      fun m hm => (State.modPort_link ..).trans (hret.links m hm), ?sent, ?pulls, ?slots, ?down, ?tags, ?loads,
      (ok_workQueue ..).trans hret.workQueue, (State.modPort_parking ..).trans hret.parking,
      (State.modPort_analysisQueue ..).trans hret.analysisQueue, (State.modPort_analysing ..).trans hret.analysing,
      fun e => (State.modPort_engine ..).trans (hret.engine e), ?frame⟩
    case frame =>
      rw [hret.frame]
      cases p <;> rfl
    all_goals rw [hlink, hret.link]
  case turns =>
    intro e hs he haway k told u
    refine ⟨_, turn_turnsTo u e, ?_⟩
    have hu : ((s.toRetire i).detach i).becomeRetired i = u := by
      rw [detach_suspended (e := e) (by simpa [State.toRetire] using hs) (by simpa [State.toRetire] using he),
        becomeRetired_eq (d := d) (by simpa [State.toRetire] using hdesc)]
      simp [u, k, told, State.toRetire, State.raiseBoth, State.raise, State.modPort, State.modEntry, setEngine_setEntry]
    have hkept : ((u.turn e).entry i).state = .retired := by
      rw [turn_entry, ← hu, hret.entry]
      refine ⟨?_, ?_⟩
      · rw [← hu, hret.engine, if_pos ⟨hs, he⟩]
        simp
      · rw [← hu, hret.workQueue, if_neg (by simp [hs])]
        exact haway
    rw [retire_suspended hs, hu, he] at hexec
    exact hexec.trans (by rw [State.turnSuspender, disposition_of_retired hkept]; rfl)
end

section
/-!
PROOF. The store load (R10, R134, R162): the map in order, the spares its records name, and the entry that a load leaves.
-/

namespace Sys2Proof.Machine

open Sys2Proof

/-! ### The map in order (R134) -/

/-- R134: one record stands before another, or where it stands. -/
def RepairRecord.precedes (a b : RepairRecord) : Prop := a.before b = true

theorem precedes_total (a b : RepairRecord) : a.precedes b ∨ b.precedes a := by
  unfold RepairRecord.precedes RepairRecord.before
  cases a.kind <;> cases b.kind <;> simp [Nat.le_total]

theorem precedes_trans {a b c : RepairRecord} (h : a.precedes b) (k : b.precedes c) : a.precedes c := by
  unfold RepairRecord.precedes RepairRecord.before at *
  cases ha : a.kind <;> cases hb : b.kind <;> cases hc : c.kind <;> simp [ha, hb, hc] at h k ⊢ <;> omega

theorem orderMap_eq (rs : List RepairRecord) : orderMap rs = rs.insertionSort fun a b => a.before b = true := by
  have hinsert : ∀ r l, insertRecord r l = List.orderedInsert (fun a b => a.before b = true) r l := fun r l => by
    induction l with
    | nil => rfl
    | cons h t ih => rw [insertRecord, ih]; rfl
  unfold orderMap
  induction rs with
  | nil => rfl
  | cons r rs ih => rw [List.foldr_cons, ih, hinsert]; rfl

theorem orderMap_perm (rs : List RepairRecord) : (orderMap rs).Perm rs := by
  rw [orderMap_eq]
  exact List.perm_insertionSort _ rs

theorem orderMap_sorted (rs : List RepairRecord) : (orderMap rs).Pairwise fun a b => a.before b = true := by
  have : Std.Total fun a b : RepairRecord => a.before b = true := ⟨precedes_total⟩
  have : IsTrans RepairRecord fun a b => a.before b = true := ⟨fun _ _ _ => precedes_trans⟩
  rw [orderMap_eq]
  exact List.pairwise_insertionSort _ rs

/-- R134: records that are in order stay as they are. -/
theorem orderMap_of_sorted {rs : List RepairRecord} (h : rs.Pairwise fun a b => a.before b = true) : orderMap rs = rs := by
  rw [orderMap_eq]
  exact h.insertionSort_eq

/-! ### The spares that records name (R10, R139) -/

/-- The spares of kind `k` that some records name become `v`. -/
def nameSpares (v : SpareState) (k : LineKind) (rs : List RepairRecord) (l : List SpareState) : List SpareState :=
  rs.foldl (fun l r => if r.kind == k then setSpare l r.spare v else l) l

theorem markUsed_eq (k : LineKind) (rs : List RepairRecord) (l : List SpareState) : markUsed k rs l = nameSpares .used k rs l := rfl

theorem markBad_eq (k : LineKind) (rs : List RepairRecord) (l : List SpareState) : markBad k rs l = nameSpares .bad k rs l := rfl

/-- The records of kind `k` name spare `n`. -/
def NamesSpare (rs : List RepairRecord) (k : LineKind) (n : Nat) : Prop := ∃ r ∈ rs, r.kind = k ∧ r.spare = n

@[simp] theorem nameSpares_length (v : SpareState) (k : LineKind) (rs : List RepairRecord) (l : List SpareState) :
    (nameSpares v k rs l).length = l.length := by
  induction rs generalizing l with
  | nil => rfl
  | cons r rs ih =>
    rw [nameSpares, List.foldl_cons]
    refine (ih _).trans ?_
    split
    · exact List.length_set
    · rfl

theorem nameSpares_getElem_not {v : SpareState} {k : LineKind} {rs : List RepairRecord} {n : Nat} (h : ¬NamesSpare rs k n)
    (l : List SpareState) : (nameSpares v k rs l)[n]? = l[n]? := by
  induction rs generalizing l with
  | nil => rfl
  | cons r rs ih =>
    have hr : ¬(r.kind = k ∧ r.spare = n) := fun hr => h ⟨r, List.mem_cons_self, hr⟩
    rw [nameSpares, List.foldl_cons]
    refine (ih (fun ⟨x, hx, hxn⟩ => h ⟨x, List.mem_cons_of_mem _ hx, hxn⟩) _).trans ?_
    split
    · rename_i hk
      exact List.getElem?_set_ne fun hn => hr ⟨beq_iff_eq.1 hk, hn⟩
    · rfl

theorem nameSpares_getElem_named {v : SpareState} {k : LineKind} {rs : List RepairRecord} {n : Nat} (h : NamesSpare rs k n)
    (l : List SpareState) (hn : n < l.length) : (nameSpares v k rs l)[n]? = some v := by
  induction rs generalizing l with
  | nil =>
    obtain ⟨r, hr, -⟩ := h
    cases hr
  | cons r rs ih =>
    rw [nameSpares, List.foldl_cons]
    by_cases hrest : NamesSpare rs k n
    · refine ih hrest _ ?_
      split
      · rwa [setSpare, List.length_set]
      · exact hn
    · refine (nameSpares_getElem_not hrest _).trans ?_
      obtain ⟨x, hx, hk, hs⟩ := h
      rcases List.mem_cons.1 hx with rfl | hx
      · rw [if_pos (beq_iff_eq.2 hk), setSpare, hs]
        exact List.getElem?_set_self hn
      · exact absurd ⟨x, hx, hk, hs⟩ hrest

/-! ### What a section loads (R162) -/

theorem noClash_iff (rs : List StoredRecord) :
    noClash rs = true ↔ rs.Pairwise fun a b => a.kind = b.kind → a.spare ≠ b.spare ∧ a.line ≠ b.line := by
  induction rs with
  | nil => simp [noClash]
  | cons r rs ih =>
    rw [noClash, List.pairwise_cons, Bool.and_eq_true, ih]
    refine and_congr_left fun _ => ?_
    simp [StoredRecord.clashes]

/-- R162: a stored record as the map holds it. -/
def StoredRecord.loaded (r : StoredRecord) : RepairRecord := ⟨r.kind, r.line, r.spare, .stored, false, false⟩

theorem namesSpare_loadedMap {c : StoreSection} {m : StoredMap} (hm : c.written = some m) (k : LineKind) (n : Nat) :
    NamesSpare (loadedMap c) k n ↔ ∃ r ∈ m.records, r.kind = k ∧ r.spare = n := by
  have hmem : ∀ x, x ∈ loadedMap c ↔ ∃ r ∈ m.records, r.loaded = x := fun x => by
    rw [loadedMap, hm, (orderMap_perm _).mem_iff, List.mem_map]
    rfl
  simp only [NamesSpare, hmem]
  constructor
  · rintro ⟨_, ⟨r, hr, rfl⟩, hk, hs⟩
    exact ⟨r, hr, hk, hs⟩
  · rintro ⟨r, hr, hk, hs⟩
    exact ⟨_, ⟨r, hr, rfl⟩, hk, hs⟩

/-- R10, R162: spares that were all FREE, those that some records name made USED. -/
theorem nameSpares_free {k : LineKind} {rs : List RepairRecord} {n : Nat} {named : Nat → Prop} [DecidablePred named]
    (h : ∀ j, NamesSpare rs k j ↔ named j) :
    nameSpares .used k rs (List.replicate n .free) = (List.range n).map fun j => if named j then .used else .free := by
  refine List.ext_getElem? fun j => ?_
  by_cases hj : j < n
  · by_cases hn : named j
    · rw [nameSpares_getElem_named ((h j).2 hn) _ (by simpa using hj)]
      simp [hj, hn]
    · rw [nameSpares_getElem_not (mt (h j).1 hn)]
      simp [hj, hn]
  · rw [List.getElem?_eq_none (by simpa using hj), List.getElem?_eq_none (by simpa using hj)]

/-- R13, R162: the fields of a cleared entry that do not hang on the section. -/
theorem cleared_eq (x : Entry) (d : Descriptor) (c : StoreSection) :
    x.cleared d c =
      { x with
        repairMap := (x.cleared d c).repairMap, rowSpares := (x.cleared d c).rowSpares, columnSpares := (x.cleared d c).columnSpares,
        guards := [], flags := ⟨storeOutcome c d == .storeLost, storeOutcome c d == .signatureMismatch, false, false⟩,
        reason := .none, startStamp := none, endStamp := none, run := .reset, suspending := none, settledReason := .none } := by
  unfold Entry.cleared
  cases h : storeOutcome c d <;> rfl

/-- R162: an entry is cleared to what the section loads. -/
theorem loadsSection_cleared (x : Entry) (d : Descriptor) (c : StoreSection) : loadsSection c d (x.cleared d c) := by
  refine ⟨by rw [cleared_eq], fun hn => ?_, fun m n hm hn => ?_⟩
  · unfold Entry.cleared
    cases h : storeOutcome c d with
    | loaded n => exact absurd h (hn n)
    | _ => exact ⟨rfl, rfl, rfl⟩
  · unfold Entry.cleared
    rw [hn]
    refine ⟨?_, ?_, nameSpares_free (namesSpare_loadedMap hm .row), nameSpares_free (namesSpare_loadedMap hm .column)⟩
    · rw [loadedMap, hm]
      exact orderMap_perm _
    · rw [loadedMap, hm]
      exact orderMap_sorted _

/-- What a section loads is in the map, the spares and the flags. -/
theorem loadsSection_congr {c : StoreSection} {d : Descriptor} {x y : Entry} (h : loadsSection c d x) (hm : y.repairMap = x.repairMap)
    (hr : y.rowSpares = x.rowSpares) (hc : y.columnSpares = x.columnSpares) (hf : y.flags = x.flags) : loadsSection c d y := by
  unfold loadsSection at *
  rw [hm, hr, hc, hf]
  exact h

/-- R13, R21: the entry of a requalified instance. -/
def Entry.requalified (x : Entry) (d : Descriptor) (c : StoreSection) : Entry :=
  { ({ x with failLog := [] } : Entry).cleared d c with state := .defined }

theorem requalifyReset_eq {s : State} {i : Fin 64} {d : Descriptor} (hd : (s.entry i).descriptor = some d) (c : StoreSection) :
    s.requalifyReset i c =
      { s with poolFree := s.poolFree + (s.entry i).failLog.length }.setEntry i ((s.entry i).requalified d c) := by
  unfold State.requalifyReset
  rw [hd]
  dsimp only
  rw [emptyLog_eq]
  simp [State.modEntry, Entry.requalified]

theorem requalified_requalifiedTo {x : Entry} {d : Descriptor} (hd : x.descriptor = some d) (c : StoreSection) :
    x.requalifiedTo c d { x.requalified d c with followUp := none } := by
  refine ⟨loadsSection_congr (loadsSection_cleared { x with failLog := [] } d c) rfl rfl rfl rfl, ?_⟩
  unfold Entry.requalified
  rw [cleared_eq, ← hd]
  rfl

end Sys2Proof.Machine
end

section
/-!
PROOF. The end of a drain (R96), by the drain's reason.
-/

namespace Sys2Proof.Machine

open Sys2Proof

section Drains

variable {s : State} {e : Fin 6} {i : Fin 64} {d : Descriptor} {pos : Position} {c : CutReason}

/-- R96: the entry of a run whose frozen position has been written back. -/
def Entry.frozenAt (x : Entry) (p : Position) : Entry := { x with run := { x.run with position := p } }

/-- R96: the frozen position is written back and the slot given up; what becomes of instance `i` is still to come. -/
def State.givesUp (s : State) (i : Fin 64) (d : Descriptor) (pos : Position) : State :=
  (s.setEntry i ((s.entry i).frozenAt pos)).setLink d.link { s.link d.link with slots := slotsWithout (s.link d.link).slots i }

/-- The last write of an entry is the one that stays. -/
theorem givesUp_setEntry (en : Engine) (y : Entry) :
    ((s.givesUp i d pos).setEngine e en).setEntry i y =
      ((s.setLink d.link { s.link d.link with slots := slotsWithout (s.link d.link).slots i }).setEngine e en).setEntry i y := by
  simp [State.givesUp, State.setEntry, State.setLink, State.setEngine]

theorem finishDrain_eq (hc : (s.engine e).current = some i) (hp : (s.engine e).position = some pos)
    (hd : (s.entry i).descriptor = some d) : s.finishDrain e = ((s.givesUp i d pos).disposeDrained e i).vacate e := by
  unfold State.finishDrain
  simp only [hc, hp]
  rw [releaseSlot_writePosition hd]
  rfl

theorem execDrainEnd_of (hs : (s.engine e).state = .draining) (hf : (s.engine e).inFlight = [])
    (hl : (s.engine e).loadOutstanding = false) : execDrainEnd e s = .next ((s.finishDrain e).turn e) := by
  refine congrArg Host.Outcome.next (if_pos ?_)
  simp [State.drainDone, hs, hf, hl]

/-- R15, R96: a drain for a cut short ends in ANALYSING. -/
theorem disposeDrained_cut {t : State} (h : (t.engine e).drainReason = some (.cut c)) :
    (t.disposeDrained e i).vacate e =
      { (t.setEngine e { Engine.reset with stack := (t.engine e).stack }).setEntry i
          { t.entry i with state := .analysing, flags := { (t.entry i).flags with partialRun := true }, reason := c.verdict } with
        analysisQueue := t.analysisQueue ++ [⟨i, true⟩] } := by
  unfold State.disposeDrained
  rw [h]
  simp [State.enterAnalysis, State.vacate, State.modEntry, State.modEngine, State.setEntry, State.setEngine, Engine.vacated]

/-- R95, R96: a drain for a preemption that holds a cut short ends in ANALYSING, the instance off the engine's stack. -/
theorem disposeDrained_held {t : State} (h : (t.engine e).drainReason = some .preempt) (hh : (t.engine e).held = some c) :
    (t.disposeDrained e i).vacate e =
      { (t.setEngine e { Engine.reset with stack := (t.engine e).stack.filter (· != i) }).setEntry i
          { t.entry i with
            state := .analysing, flags := { (t.entry i).flags with partialRun := true }, reason := c.verdict, suspending := none } with
        analysisQueue := t.analysisQueue ++ [⟨i, true⟩] } := by
  unfold State.disposeDrained
  simp only [h, hh]
  simp [State.leaveStack, State.enterAnalysis, State.vacate, State.modEntry, State.modEngine, State.setEntry, State.setEngine, Engine.vacated]

/-- R71, R96: a drain for a preemption suspends the run. -/
theorem disposeDrained_suspends {t : State} (h : (t.engine e).drainReason = some .preempt) (hh : (t.engine e).held = none) :
    (t.disposeDrained e i).vacate e =
      (t.setEngine e { Engine.reset with stack := i :: (t.engine e).stack }).setEntry i
        { t.entry i with state := .suspended, suspending := some e } := by
  unfold State.disposeDrained
  simp only [h, hh]
  simp [State.vacate, State.modEntry, State.modEngine, State.setEntry, State.setEngine, Engine.vacated]

/-- R19, R96: a drain for RETIRE ends in RETIRED. -/
theorem disposeDrained_retire {t : State} (h : (t.engine e).drainReason = some .retire) (hd : (t.entry i).descriptor = some d) :
    (t.disposeDrained e i).vacate e =
      (((t.setEngine e { Engine.reset with stack := (t.engine e).stack }).setEntry i
          { t.entry i with state := .retired, followUp := none, suspending := none, reason := .none, endStamp := some t.now }).setLink d.link
        (if t.linkUp d.link = true then
          { t.link d.link with
            sent := (t.link d.link).sent ++ [.fence d.memId], pulls := (t.link d.link).pulls.filter (· != i) }
        else t.link d.link)).raiseBoth (.verdict (maskBit i)) := by
  unfold State.disposeDrained
  rw [h]
  dsimp only
  rw [becomeRetired_eq hd]
  rfl

/-- R21, R96: a drain for REQUALIFY ends in the reset. -/
theorem disposeDrained_requalify {t : State} (h : (t.engine e).drainReason = some .requalify) :
    t.disposeDrained e i = (t.requalifyReset i (t.reloadSection e i)).takeFollowUp i := by
  unfold State.disposeDrained
  rw [h]

end Drains

/-! ### Follow-ups (R61, R64) -/

section FollowUps

variable {s : State} {i : Fin 64} {d : Descriptor} {f : FollowUp}

theorem setEntry_self : s.setEntry i (s.entry i) = s :=
  State.ext_parts (fun j => by rw [State.entry_setEntry]; split <;> simp [*]) rfl rfl rfl rfl rfl rfl rfl (fun _ => rfl) (fun _ => rfl) rfl rfl rfl
    rfl rfl rfl rfl rfl rfl

/-- R64: an instance without a follow-up has none to take. -/
theorem takeFollowUp_none (h : (s.entry i).followUp = none) : s.takeFollowUp i = s := by
  unfold State.takeFollowUp
  rw [h]

theorem instLinkUp_of (hd : (s.entry i).descriptor = some d) : s.instLinkUp i = s.linkUp d.link := by
  simp [State.instLinkUp, linkOf_some hd]

/-- R64: with the link DOWN a follow-up is discarded. -/
theorem takeFollowUp_dropped (hd : (s.entry i).descriptor = some d) (h : (s.entry i).followUp = none ∨ s.linkUp d.link = false) :
    s.takeFollowUp i = s.setEntry i { s.entry i with followUp := none } := by
  cases hf : (s.entry i).followUp with
  | none =>
    have hentry : s.entry i = { s.entry i with followUp := none } := congrArg (fun o => { s.entry i with followUp := o }) hf
    rw [takeFollowUp_none hf, ← hentry, setEntry_self]
  | some f =>
    have hu := h.resolve_left (by simp [hf])
    unfold State.takeFollowUp
    rw [hf]
    dsimp only
    rw [instLinkUp_of hd, hu]
    rfl

/-- R61, R64, R148: with the link UP the follow-up begins a new job. -/
theorem takeFollowUp_up (hf : (s.entry i).followUp = some f) (hd : (s.entry i).descriptor = some d) (hu : s.linkUp d.link = true) :
    s.takeFollowUp i =
      { s.setEntry i
          { s.entry i with
            state := .queued, followUp := none,
            run := { (s.entry i).run with jobSequence := some f.sequence, runCount := 0, runClass := none },
            flags := { (s.entry i).flags with partialRun := false, untested := false },
            reason := .none, settledReason := (s.entry i).reason } with
        workQueue :=
          s.workQueue ++
            [⟨i, f.sequence, if f.urgency = .urgent then .urgent else .normal, portRequester f.requester, s.now, none⟩] } := by
  have hclass : State.urgencyClass f.urgency = if f.urgency = Urgency.urgent then EntryClass.urgent else EntryClass.normal := by
    cases f.urgency <;> rfl
  unfold State.takeFollowUp
  rw [hf]
  dsimp only
  rw [instLinkUp_of hd, hu, ← hclass]
  simp [State.newJob, State.enqueue, State.modEntry, State.setEntry]

end FollowUps

end Sys2Proof.Machine

open Sys2Proof Sys2Proof.Machine

/-- Settles O41: the instance's fate by the reason, and the engine then turns. -/
theorem drainEndSettlesTheRun : Obligations.DrainEndSettlesTheRun := by
  intro e i d pos s hs hf hl hc hp hd en up x k left cut analysed
  have hentry : (s.givesUp i d pos).entry i = x := by simp [State.givesUp, Entry.frozenAt, x]
  refine ⟨s.finishDrain e, _, execDrainEnd_of hs hf hl, turn_turnsTo _ e, fun c hr => ?cut, fun c hr hh => ?held, fun hr hh => ?suspends,
    ?retire, fun hr => ?requalify⟩
  all_goals rw [finishDrain_eq hc hp hd]
  case cut =>
    rw [disposeDrained_cut (t := s.givesUp i d pos) hr, hentry, givesUp_setEntry]
    rfl
  case held =>
    rw [disposeDrained_held (t := s.givesUp i d pos) hr hh, hentry, givesUp_setEntry]
    rfl
  case suspends =>
    rw [disposeDrained_suspends (t := s.givesUp i d pos) hr hh, hentry, givesUp_setEntry]
    rfl
  case retire =>
    intro hr told
    have hlink : (s.givesUp i d pos).link d.link = k := (State.link_setLink ..).trans (if_pos rfl)
    have hup : (s.givesUp i d pos).linkUp d.link = up := by rw [State.linkUp, hlink]; rfl
    rw [disposeDrained_retire (t := s.givesUp i d pos) hr (by rw [hentry]; exact hd), hentry, hlink, hup, givesUp_setEntry]
    rfl
  case requalify =>
    have hlink : (s.givesUp i d pos).link d.link = k := (State.link_setLink ..).trans (if_pos rfl)
    have hup : (s.givesUp i d pos).linkUp d.link = up := by rw [State.linkUp, hlink]; rfl
    obtain ⟨c, hcdef⟩ : ∃ c, c = en.reload.getD (s.storeSection i) := ⟨_, rfl⟩
    obtain ⟨n, hn⟩ : ∃ n, n = s.poolFree + x.failLog.length := ⟨_, rfl⟩
    obtain ⟨r, hr'⟩ : ∃ r : State, r = ({ s.givesUp i d pos with poolFree := n } : State).setEntry i (x.requalified d c) := ⟨_, rfl⟩
    have hreset : (s.givesUp i d pos).disposeDrained e i = r.takeFollowUp i := by
      rw [disposeDrained_requalify (t := s.givesUp i d pos) hr, hr', hn]
      have h := requalifyReset_eq (s := s.givesUp i d pos) (i := i) (d := d) (by rw [hentry]; exact hd) c
      rw [hentry, hcdef] at h
      rw [hcdef]
      exact congrArg (State.takeFollowUp · i) h
    have hx : r.entry i = x.requalified d c := by rw [hr']; exact (State.entry_setEntry ..).trans (if_pos rfl)
    have hxd : (r.entry i).descriptor = some d := by rw [hx, Entry.requalified, cleared_eq]; exact hd
    have hxf : (r.entry i).followUp = x.followUp := by rw [hx, Entry.requalified, cleared_eq]
    have hru : r.linkUp d.link = up := by rw [hr']; exact hup
    have hleft : ∀ y : Entry, (r.setEntry i y).vacate e = { left en.stack y with poolFree := n } := fun y => by
      have h := givesUp_setEntry (s := s) (e := e) (i := i) (d := d) (pos := pos) { Engine.reset with stack := en.stack } y
      rw [hr', setEntry_setEntry]
      exact congrArg (fun t : State => { t with poolFree := n }) h
    rw [hreset, ← hcdef, ← hn]
    refine ⟨{ x.requalified d c with followUp := none }, requalified_requalifiedTo hd c, fun hnone => ?_, fun f hf hu => ?_⟩
    · rw [takeFollowUp_dropped hxd (by rw [hxf, hru]; exact hnone), hleft, hx]
    · have hnow : r.now = s.now := by rw [hr']; rfl
      have hwork : r.workQueue = s.workQueue := by rw [hr']; rfl
      rw [takeFollowUp_up (hxf.trans hf) hxd (hru.trans hu), hx, hnow, hwork, Entry.requalified, cleared_eq]
      exact congrArg (fun t : State => { t with workQueue := s.workQueue ++
        [QueueEntry.mk i f.sequence (if f.urgency = Urgency.urgent then EntryClass.urgent else EntryClass.normal) (portRequester f.requester) s.now none] }) (hleft _)
end

section
/-!
PROOF. The RESULT (R89, R103, R122, R132): the burst it names, its entries placed in the log, the tag it frees and the check of the engine.
-/

namespace Sys2Proof.Machine

open Sys2Proof

/-! ### Fail Capture on the state (R122, R132) -/

section Capture

variable {s : State} {e : Fin 6} {i : Fin 64} {b : Burst}

/-- R93, R132: an engine after the drain requests of some cut shorts. -/
def Engine.cutFor (en : Engine) (cuts : List CutReason) : Engine := cuts.foldl (fun n c => n.drainRequested (.cut c)) en

/-- R122, R132: Fail Capture has left a log and a free count, and has raised some cut shorts at engine `e`. -/
def State.captured (s : State) (e : Fin 6) (i : Fin 64) (log : List FailRecord) (pool : Nat) (cuts : List CutReason) : State :=
  { (s.setEngine e ((s.engine e).cutFor cuts)).setEntry i { s.entry i with failLog := log } with poolFree := pool }

theorem setEngine_self : s.setEngine e (s.engine e) = s :=
  State.ext_parts (fun _ => rfl) rfl rfl rfl rfl rfl rfl rfl (fun m => by rw [State.engine_setEngine]; split <;> simp [*]) (fun _ => rfl) rfl rfl
    rfl rfl rfl rfl rfl rfl rfl

theorem captured_nothing : s.captured e i (s.entry i).failLog s.poolFree [] = s := by
  have h : (s.setEngine e (s.engine e)).setEntry i (s.entry i) = s := by rw [setEngine_self, setEntry_self]
  exact congrArg (fun t : State => { t with poolFree := s.poolFree }) h

theorem captured_captured (log log' : List FailRecord) (pool pool' : Nat) (cuts cuts' : List CutReason) :
    (s.captured e i log pool cuts).captured e i log' pool' cuts' = s.captured e i log' pool' (cuts ++ cuts') := by
  simp [State.captured, State.setEntry, State.setEngine, Engine.cutFor, List.foldl_append]

/-- R122: capture reads the same of the instance whatever it has recorded. -/
theorem captureContext_captured (log : List FailRecord) (pool : Nat) (cuts : List CutReason) :
    (s.captured e i log pool cuts).captureContext i b = s.captureContext i b := by
  simp [State.captureContext, State.captured]

theorem captured_entry (log : List FailRecord) (pool : Nat) (cuts : List CutReason) :
    (s.captured e i log pool cuts).entry i = { s.entry i with failLog := log } :=
  (State.entry_setEntry ..).trans (if_pos rfl)

theorem captureEntry_none {m : Mismatch} (h : failOf (s.entry i).repairMap b.row m = none) : s.captureEntry e i b m = s := by
  unfold State.captureEntry
  rw [h]

theorem captureEntry_some {m : Mismatch} {f : Fail} {r : Placed} (h : failOf (s.entry i).repairMap b.row m = some f)
    (hr : placeFail (s.captureContext i b) (s.entry i).failLog s.poolFree f = r) :
    s.captureEntry e i b m = s.captured e i r.log r.pool r.cut.toList := by
  unfold State.captureEntry
  rw [h]
  dsimp only
  rw [hr]
  cases r.cut with
  | none => exact congrArg (fun t : State => { t.setEntry i { s.entry i with failLog := r.log } with poolFree := r.pool }) setEngine_self.symm
  | some c => rfl

/-- R122, R132: the entries of a result are placed in list order. -/
theorem captureResult_eq (ms : List Mismatch) :
    s.captureResult e i b ms =
      s.captured e i
        (placeAll (s.captureContext i b) (s.entry i).repairMap b.row ms (s.entry i).failLog s.poolFree).1
        (placeAll (s.captureContext i b) (s.entry i).repairMap b.row ms (s.entry i).failLog s.poolFree).2.1
        (placeAll (s.captureContext i b) (s.entry i).repairMap b.row ms (s.entry i).failLog s.poolFree).2.2 := by
  induction ms generalizing s with
  | nil => exact captured_nothing.symm
  | cons m ms ih =>
    rw [State.captureResult, List.foldl_cons]
    cases hf : failOf (s.entry i).repairMap b.row m with
    | none =>
      rw [captureEntry_none hf, placeAll, hf]
      exact ih
    | some f =>
      obtain ⟨r, hr⟩ : ∃ r, placeFail (s.captureContext i b) (s.entry i).failLog s.poolFree f = r := ⟨_, rfl⟩
      rw [captureEntry_some hf hr, placeAll, hf]
      refine (ih (s := s.captured e i r.log r.pool r.cut.toList)).trans ?_
      rw [captured_captured, captureContext_captured, captured_entry]
      dsimp only
      rw [hr]
      rfl

end Capture

/-! ### The burst that a RESULT names (R103) -/

section Results

variable {s : State} {l : Fin 4} {u : TagUse} {rest : List TagUse} {i : Fin 64} {b : Burst} {d : Descriptor} {ms : List Mismatch}

theorem find_of_unique {α : Type} {p : α → Bool} {a : α} {l : List α} (ha : a ∈ l) (hp : p a = true) (hu : ∀ y ∈ l, p y = true → y = a) :
    l.find? p = some a := by
  cases h : l.find? p with
  | none => exact absurd hp (List.find?_eq_none.1 h a ha)
  | some y => rw [hu y (List.mem_of_find?_eq_some h) (List.find?_some h)]

theorem resultBurst_of (ht : (s.link l).tags = u :: rest) (hc : (s.engine u.engine).current = some i) (hb : b ∈ (s.engine u.engine).inFlight)
    (hg : b.tag = u.tag) (hu : ∀ y ∈ (s.engine u.engine).inFlight, y.tag = u.tag → y = b) (hd : (s.entry i).descriptor = some d) :
    s.resultBurst l u.tag = some (u.engine, i, d, b) := by
  have hfind : (s.engine u.engine).inFlight.find? (fun b => b.tag == u.tag) = some b :=
    find_of_unique hb (by simp [hg]) fun y hy hyt => hu y hy (by simpa using hyt)
  unfold State.resultBurst
  simp only [ht, if_true, hc, hfind, hd, Option.map_some]

theorem execResult_of {o : ResultOutcome} (hl : s.linkUp l = true) (hr : s.resultBurst l u.tag = some (u.engine, i, d, b))
    (hf : resultFits d b o ms = true) : execResult l u.tag o ms s = .next (s.takeResult l u.engine i b o ms) := by
  unfold execResult
  rw [if_pos hl, hr]
  exact congrArg Host.Outcome.next (if_pos hf)

/-- R103: a FAIL with a legal mismatch list. -/
theorem resultFits_fail (h1 : 1 ≤ ms.length) (h64 : ms.length ≤ 64) (hw : ms.length ≤ min 64 (d.columns - 64 * b.chunk))
    (hn : (ms.map Mismatch.column).Nodup)
    (hm : ∀ m ∈ ms, 64 * b.chunk ≤ m.column ∧ m.column < 64 * b.chunk + min 64 (d.columns - 64 * b.chunk) ∧
      (b.readCheck = true → m.vector = none) ∧ (b.readCheck = false → ∃ v : List Bool, m.vector = some v ∧ v.length = d.width)) :
    resultFits d b .fail ms = true := by
  unfold resultFits
  simp only [Bool.and_eq_true, decide_eq_true_iff, List.all_eq_true]
  refine ⟨⟨⟨⟨h1, h64⟩, hw⟩, hn⟩, fun m hmem => ?_⟩
  obtain ⟨hlow, hhigh, hcheck, hread⟩ := hm m hmem
  refine ⟨⟨hlow, hhigh⟩, ?_⟩
  cases hb : b.readCheck with
  | true => rw [hcheck hb]
  | false =>
    obtain ⟨v, hv, hlen⟩ := hread hb
    rw [hv]
    simp [hlen]

theorem drainsAway_iff (s : State) (e : Fin 6) : s.drainsAway e = true ↔
    (s.engine e).state = .draining ∧ ((s.engine e).drainReason = some .retire ∨ (s.engine e).drainReason = some .requalify) := by
  simp [State.drainsAway, State.drainingFor, and_or_left]

/-- R88, R89: after a result is recorded the freed tag is given, and then the engine checks. -/
theorem result_goesOn (w : State) (l : Fin 4) (t : Fin 8) (e : Fin 6) :
    ∃ v, w.givesTag l t v ∧ v.checksEnd e (.next ((w.giveTag l t).checkEnd e)) :=
  ⟨_, giveTag_givesTag .., checkEnd_checksEnd ..⟩

end Results

end Sys2Proof.Machine

open Sys2Proof Sys2Proof.Machine

/-- Settles O44: the burst is found, its result discarded or captured, and the freed tag given before the engine checks. -/
theorem resultIsRecorded : Obligations.ResultIsRecorded := by
  intro l u rest i b d ms s hl ht hc hb hg hu hd en taken width discarded wellFormed freed goesOn
  have hburst := resultBurst_of ht hc hb hg hu hd
  have hfreed : (s.modLink l fun k => { k with tags := k.tags.tail }).modEngine u.engine (fun en =>
      { en with inFlight := en.inFlight.filter fun x => x.tag != b.tag }) = freed.setEngine u.engine taken := by
    simp [State.modLink, State.modEngine, ht, freed, taken, en]
  have hfail : wellFormed → resultFits d b .fail ms = true := fun ⟨h1, h64, hw, hn, hm⟩ => resultFits_fail h1 h64 hw hn hm
  refine ⟨?pass, fun hwf hdis => ?discards, ?records⟩
  case pass =>
    show goesOn _ (execResult ..)
    rw [execResult_of hl hburst rfl]
    unfold State.takeResult
    rw [hfreed, hg]
    exact result_goesOn ..
  case discards =>
    show goesOn _ (execResult ..)
    rw [execResult_of hl hburst (hfail hwf)]
    unfold State.takeResult
    rw [hfreed, hg]
    dsimp only
    rw [if_pos ((drainsAway_iff s u.engine).2 hdis)]
    exact result_goesOn ..
  case records =>
    intro x placed engine hwf hdis
    show goesOn _ (execResult ..)
    rw [execResult_of hl hburst (hfail hwf)]
    unfold State.takeResult
    rw [hfreed, hg]
    dsimp only
    rw [if_neg (mt (drainsAway_iff s u.engine).1 hdis), captureResult_eq]
    have hcap : (freed.setEngine u.engine taken).captured u.engine i placed.1 placed.2.1 placed.2.2 =
        { (freed.setEngine u.engine engine).setEntry i { x with failLog := placed.1 } with poolFree := placed.2.1 } := by
      rw [State.captured, setEngine_setEngine, State.engine_setEngine, if_pos rfl]
      rfl
    rw [← hcap]
    exact result_goesOn ..
end

section
/-!
PROOF. DEFINE (R12 to R14): the reset of the entry, the pull of a changed name (R114), and the load of the section (R162).
-/

namespace Sys2Proof.Machine

open Sys2Proof

section Defines

variable {s : State} {i : Fin 64} {d old : Descriptor} {raw : RawDescriptor}

/-! ### The pull of a changed name (R13, R114) -/

theorem dropRenamedPull_frame : s.dropRenamedPull i d = { s with linkTable := (s.dropRenamedPull i d).linkTable } := by
  unfold State.dropRenamedPull
  split
  · rfl
  · split
    · unfold State.send
      split <;> rfl
    · rfl

theorem dropRenamedPull_kept
    (h : ∀ old, (s.entry i).descriptor = some old → i ∈ (s.link old.link).pulls → old.link = d.link ∧ old.memId = d.memId) :
    s.dropRenamedPull i d = s := by
  unfold State.dropRenamedPull
  cases hd : (s.entry i).descriptor with
  | none => rfl
  | some old =>
    refine if_neg fun hc => ?_
    simp only [Bool.and_eq_true, Bool.not_eq_true', List.contains_iff_mem] at hc
    obtain ⟨hl, hm⟩ := h old hd hc.1
    simp [hl, hm] at hc

theorem dropRenamedPull_answered (hd : (s.entry i).descriptor = some old) (hp : i ∈ (s.link old.link).pulls)
    (hu : s.linkUp old.link = true) (hn : ¬(old.link = d.link ∧ old.memId = d.memId)) :
    s.dropRenamedPull i d = s.setLink old.link
      { s.link old.link with
        pulls := (s.link old.link).pulls.filter (· != i), sent := (s.link old.link).sent ++ [.mapOffer old.memId .unknown false none] } := by
  unfold State.dropRenamedPull
  rw [hd]
  refine (if_pos ?_).trans ?_
  · rw [Bool.and_eq_true, List.contains_iff_mem]
    exact ⟨hp, by simpa only [Bool.not_eq_true', Bool.and_eq_false_imp, beq_iff_eq, beq_eq_false_iff_ne, not_and] using hn⟩
  · rw [send_up hu, State.modLink, State.link_setLink, if_pos rfl, setLink_setLink]

/-! ### The entry (R13) -/

/-- R13: the entry of an instance that DEFINE resets to descriptor `d`, its section `c` loaded. -/
def Entry.definedAs (x : Entry) (d : Descriptor) (c : StoreSection) : Entry :=
  { ({ x with failLog := [] } : Entry).cleared d c with descriptor := some d, state := .defined, followUp := none, absorbed := 0 }

theorem define_eq (s : State) (i : Fin 64) (d : Descriptor) :
    s.define i d =
      { s.setEntry i ((s.entry i).definedAs d (s.storeSection i)) with
        poolFree := s.poolFree + (s.entry i).failLog.length, linkTable := (s.dropRenamedPull i d).linkTable } := by
  unfold State.define
  rw [emptyLog_eq, dropRenamedPull_frame]
  simp [State.modEntry, State.setEntry, Entry.definedAs]

theorem exec_define_of (ho : (s.entry i).owner = .card) (hb : (s.entry i).state.busy = false) (hl : (s.entry i).live = false)
    (hr : legalDescriptor raw) (hq : ∃ k, memKindOf raw.kind = some k ∧ s.runnable raw.defaultSequence k)
    (hdup : ∀ j, j ≠ i → (s.entry j).state ≠ .vacant → ∀ x, (s.entry j).descriptor = some x →
      ¬(x.link.val = raw.link ∧ x.memId.val = raw.memId)) :
    ∃ d, spellsDescriptor raw d ∧
      exec (.define .card i.val raw) s =
        .next ((s.define i d).ok .card .define (.define (storeOutcome (s.storeSection i) d))) := by
  obtain ⟨d, hd, hspell⟩ := checkDescriptor_of_legal hr
  refine ⟨d, hspell, congrArg Host.Outcome.next ?_⟩
  have ⟨_, _, hkind, _, _, _, _, _, hseq, _⟩ := hspell
  have hfits : s.sequenceFits d.defaultSequence d.kind = true := by
    obtain ⟨k, hk, hrun⟩ := hq
    rw [sequenceFits_iff, hseq, ← Option.some.inj (hk.symm.trans hkind)]
    exact hrun
  have hpair : ¬s.duplicatePair i d = true := by
    rw [duplicatePair_iff s i hspell]
    rintro ⟨j, hj, hv, x, hx, hname⟩
    exact hdup j (fun h => hj (congrArg Fin.val h)) hv x hx hname
  have hcheck : s.defineCheck i raw = .ok d := by
    unfold State.defineCheck
    rw [if_neg (by simp [hb]), if_neg (by simp [hl]), hd]
    dsimp only
    rw [if_neg (by simp [hfits]), if_neg hpair]
  have hreq : s.defineRequest .card raw i =
      (s.define i d).ok .card .define (.define (storeOutcome (s.storeSection i) d)) := by
    unfold State.defineRequest
    rw [hcheck]
  exact (gateOwned_of_owner _ _ ho ..).trans hreq

end Defines

/-! ### What the load of a section comes to (R14, R162) -/

section Outcomes

variable {c : StoreSection} {d : Descriptor} {m : StoredMap}

theorem storeOutcome_empty (hi : c.intact = true) (hw : c.written = none) : storeOutcome c d = .empty := by
  unfold storeOutcome
  rw [hi, hw]
  rfl

theorem storeOutcome_written (hi : c.intact = true) (hw : c.written = some m) :
    storeOutcome c d =
      if (m.records.all (StoredRecord.fits d) && noClash m.records) = true then
        if m.signature = d.signature then .loaded m.records.length else .signatureMismatch
      else .storeLost := by
  unfold storeOutcome
  rw [hi, hw]
  dsimp only
  cases m.records.all (StoredRecord.fits d) && noClash m.records with
  | false => rfl
  | true => by_cases hs : m.signature = d.signature <;> simp [hs]

end Outcomes

end Sys2Proof.Machine

open Sys2Proof Sys2Proof.Machine

/-- Settles O24: the entry is that of `Entry.definedAs`, and a pull of the old name is answered where it stood. -/
theorem defineResetsTheEntry : Obligations.DefineResetsTheEntry := by
  intro i raw s ho hb hl hr hq hdup
  obtain ⟨d, hspell, hexec⟩ := exec_define_of ho hb hl hr hq hdup
  rw [define_eq] at hexec
  have hentry := cleared_eq { s.entry i with failLog := [] } d (s.storeSection i)
  refine ⟨_, d, storeOutcome (s.storeSection i) d, hexec, hspell, ?entry, rfl, answered_ok _ _ _ _ fun q => rfl, fun j hj => ?others,
    fun hkept l => ?links, fun old hold hp hu hn => ⟨fun m hm => ?otherLinks, ?link⟩, rfl⟩
  case entry =>
    have hset : ∀ (y : Entry) (n : Nat) (v : Vector Link 4),
        ({ s.setEntry i y with poolFree := n, linkTable := v } : State).entry i = y := fun y n v =>
      (State.entry_setEntry s i i y).trans (if_pos rfl)
    rw [ok_entry, hset, Entry.definedAs, hentry]
    simp only [ho, hl]
    rfl
  case others =>
    rw [ok_entry]
    exact (State.entry_setEntry ..).trans (if_neg hj)
  case links =>
    rw [dropRenamedPull_kept hkept]
    rfl
  case otherLinks =>
    rw [dropRenamedPull_answered hold hp hu hn]
    exact (State.link_setLink ..).trans (if_neg hm)
  case link =>
    rw [dropRenamedPull_answered hold hp hu hn]
    exact (State.link_setLink ..).trans (if_pos rfl)
end

section
/-!
PROOF. The section that a DEFINE loads (R14, R162).
-/

namespace Sys2Proof.Machine

open Sys2Proof

section Spares

variable {n k : Nat} {named : Nat → Prop} [DecidablePred named]

/-- R10, R162: the spares of one kind after a load: USED where a record names them and FREE elsewhere. -/
def loadedSpares (n : Nat) (named : Nat → Prop) [DecidablePred named] : List SpareState :=
  (List.range n).map fun k => if named k then .used else .free

@[simp] theorem loadedSpares_length : (loadedSpares n named).length = n := by simp [loadedSpares]

theorem loadedSpares_used (hk : k < n) : (loadedSpares n named)[k]? = some .used ↔ named k := by
  have hget : (loadedSpares n named)[k]? = some (if named k then .used else .free) := by simp [loadedSpares, hk]
  rw [hget]
  split <;> simp [*]

theorem loadedSpares_ne_bad : ∀ x ∈ loadedSpares n named, x ≠ .bad := by
  intro x hx
  obtain ⟨k, -, rfl⟩ := List.mem_map.1 hx
  split <;> simp

/-- R162: the entry of an accepted DEFINE holds what its section loads. -/
theorem loadsSection_definedAs (x : Entry) (d : Descriptor) (c : StoreSection) : loadsSection c d (x.definedAs d c) :=
  loadsSection_congr (loadsSection_cleared { x with failLog := [] } d c) rfl rfl rfl rfl

theorem define_entry (s : State) (i : Fin 64) (d : Descriptor) :
    (s.define i d).entry i = (s.entry i).definedAs d (s.storeSection i) := by
  rw [define_eq]
  exact (State.entry_setEntry ..).trans (if_pos rfl)

theorem fits_iff (d : Descriptor) (r : StoredRecord) : StoredRecord.fits d r = true ↔
    (r.kind = .row → r.line < d.rows ∧ r.spare < d.spareRows) ∧ (r.kind = .column → r.line < d.columns ∧ r.spare < d.spareColumns) := by
  unfold StoredRecord.fits
  cases r.kind <;> simp

end Spares

end Sys2Proof.Machine

open Sys2Proof Sys2Proof.Machine

/-- Settles O25: what the section loads, by the store outcome. -/
theorem defineLoadsTheSection : Obligations.DefineLoadsTheSection := by
  intro i raw s ho hb hl hr hq hdup
  obtain ⟨d, hspell, hexec⟩ := exec_define_of ho hb hl hr hq hdup
  obtain ⟨-, -, -, hrows, hcolumns, -, hsr, hsc, -, -, -, hsig⟩ := hspell
  refine ⟨_, _, hexec, answered_ok _ _ _ _ fun q => by rw [define_eq]; rfl, ?load⟩
  intro e c nothingLoaded fits fit usedBy
  have he : e = (s.entry i).definedAs d c := (ok_entry ..).trans (define_entry ..)
  obtain ⟨-, hnothing, hloaded⟩ := he ▸ loadsSection_definedAs (s.entry i) d c
  rw [hsr, hsc] at hnothing
  have hfits : ∀ r, StoredRecord.fits d r = true ↔ fits r := fun r => by
    rw [fits_iff, hrows, hcolumns, hsr, hsc]
    show _ ↔ fits r
    cases hk : r.kind <;> simp [fits, hk]
  have hfit : ∀ m : StoredMap, (m.records.all (StoredRecord.fits d) && noClash m.records) = true ↔ fit m := fun m => by
    rw [Bool.and_eq_true, List.all_eq_true, noClash_iff]
    exact and_congr_left fun _ => forall_congr' fun r => imp_congr_right fun _ => hfits r
  have loadsNothing : ∀ o, storeOutcome c d = o → (∀ n, o ≠ .loaded n) → storeOutcome (s.storeSection i) d = o ∧ nothingLoaded :=
    fun o h hn => ⟨h, hnothing fun n => h ▸ hn n⟩
  refine ⟨fun hi => loadsNothing _ (storeOutcome_of_not_intact hi d) (by simp), fun hi hw => loadsNothing _ (storeOutcome_empty hi hw) (by simp),
    fun m hi hw => ⟨fun hf => ?unfit, fun hf hs => ?mismatch, fun hf hs => ?loaded⟩⟩
  all_goals have hout := storeOutcome_written (d := d) hi hw
  case unfit =>
    rw [if_neg (mt (hfit m).1 hf)] at hout
    exact loadsNothing _ hout (by simp)
  case mismatch =>
    rw [if_pos ((hfit m).2 hf), if_neg (by rw [hsig]; exact hs)] at hout
    exact loadsNothing _ hout (by simp)
  case loaded =>
    rw [if_pos ((hfit m).2 hf), if_pos (by rw [hsig]; exact hs)] at hout
    obtain ⟨hperm, hsorted, hrow, hcol⟩ := hloaded m _ hw hout
    rw [hsr] at hrow
    rw [hsc] at hcol
    refine ⟨hout, hperm, hsorted, ?_, ?_, fun n hn => ?_, fun n hn => ?_, ?_, ?_⟩
    · rw [hrow]
      exact loadedSpares_length
    · rw [hcol]
      exact loadedSpares_length
    · rw [hrow]
      exact loadedSpares_used hn
    · rw [hcol]
      exact loadedSpares_used hn
    · rw [hrow]
      exact loadedSpares_ne_bad
    · rw [hcol]
      exact loadedSpares_ne_bad
end

section
/-!
PROOF. Where a fail goes in the log (R125 to R131).
-/

namespace Sys2Proof.Machine

open Sys2Proof

/-! ### The first record that meets a test (R125, R126, R129) -/

section First

variable {p : FailRecord → Bool} {a b : List FailRecord} {x : FailRecord}

theorem updateFirst_append (ha : ∀ y ∈ a, p y = false) (hx : p x = true) (g : FailRecord → FailRecord) :
    updateFirst p g (a ++ x :: b) = a ++ g x :: b := by
  induction a with
  | nil => rw [List.nil_append, updateFirst, if_pos hx, List.nil_append]
  | cons y a ih =>
    rw [List.cons_append, updateFirst, if_neg (by simp [ha y List.mem_cons_self]), ih fun z hz => ha z (List.mem_cons_of_mem _ hz)]
    rfl

theorem gather_append (ha : ∀ y ∈ a, p y = false) (hx : p x = true) (make : FailRecord → FailRecord) :
    gather p make (a ++ x :: b) = a ++ make x :: b.filter fun y => !p y := by
  induction a with
  | nil => rw [List.nil_append, gather, if_pos hx, List.nil_append]
  | cons y a ih =>
    rw [List.cons_append, gather, if_neg (by simp [ha y List.mem_cons_self]), ih fun z hz => ha z (List.mem_cons_of_mem _ hz)]
    rfl

end First

/-! ### New records and collapses (R129 to R131) -/

section Records

variable {cx : CaptureContext} {log a b : List FailRecord} {pool : Nat} {p : FailRecord → Bool} {x : FailRecord}

/-- R130: the log and the pool bound what is recorded. -/
theorem addRecord_eq (r : FailRecord) :
    addRecord log pool r =
      if 48 ≤ log.length then ⟨log, pool, some .overflow⟩
      else if pool = 0 then ⟨log, pool, some .pool⟩
      else ⟨log ++ [r], pool - 1, none⟩ := rfl

/-- R131: lines above their FREE spares cut the run short. -/
theorem sparesCheck_eq (r : Placed) :
    sparesCheck cx r =
      if r.cut = none ∧ (cx.freeRows < r.log.countP FailRecord.isRowLine ∨ cx.freeColumns < r.log.countP FailRecord.isColumnLine)
      then { r with cut := some .spares } else r := by
  unfold sparesCheck linesOutnumber
  cases hc : r.cut with
  | none => simp
  | some c => simp

/-- R129: the earliest record that a collapse gathers gives its place to the line. -/
theorem collapse_gathers (ha : ∀ y ∈ a, p y = false) (hx : p x = true) (place : FailPlace) (mark : Option Bool) :
    collapse cx (a ++ x :: b) pool p place mark =
      sparesCheck cx
        ⟨a ++ ⟨place, none, min 255 ((((a ++ x :: b).filter p).map FailRecord.hits).sum + 1), x.firstSeen, x.ordinal, .uncovered, mark⟩ ::
            b.filter (fun y => !p y),
          pool + ((a ++ x :: b).countP p - 1), none⟩ := by
  have hne : (a ++ x :: b).filter p ≠ [] := List.ne_nil_of_mem (a := x) (by simp [hx])
  unfold collapse
  cases hg : (a ++ x :: b).filter p with
  | nil => exact absurd hg hne
  | cons y t =>
    dsimp only
    rw [gather_append ha hx, List.countP_eq_length_filter, hg]
    rfl

/-- R130: a collapse that gathers nothing is a new record. -/
theorem collapse_new (h : log.countP p = 0) (place : FailPlace) (mark : Option Bool) :
    collapse cx log pool p place mark = sparesCheck cx (addRecord log pool ⟨place, none, 1, cx.now, cx.ordinal, .uncovered, mark⟩) := by
  rw [List.countP_eq_length_filter, List.length_eq_zero_iff] at h
  unfold collapse
  rw [h]

end Records

/-! ### The tests in their order (R125) -/

section Tests

variable {cx : CaptureContext} {log : List FailRecord} {pool : Nat} {f : Fail}

/-- R118: no line of the fail's row or column stands in the log. -/
def NoLine (log : List FailRecord) (f : Fail) : Prop := ∀ x ∈ log, x.place ≠ .rowLine f.row ∧ x.place ≠ .columnLine f.column

theorem any_place_false {q : FailPlace} (h : ∀ x ∈ log, x.place ≠ q) : log.any (fun r => r.place == q) = false := by
  simpa using h

theorem any_place_true {q : FailPlace} {x : FailRecord} (hx : x ∈ log) (h : x.place = q) : log.any (fun r => r.place == q) = true :=
  List.any_eq_true.2 ⟨x, hx, beq_iff_eq.2 h⟩

theorem placeFail_rowLine {x : FailRecord} (hu : f.attribution = .uncovered) (hx : x ∈ log) (hp : x.place = .rowLine f.row) :
    placeFail cx log pool f = ⟨updateFirst (fun r => r.place == .rowLine f.row) FailRecord.hit log, pool, none⟩ := by
  have hany := any_place_true hx hp
  unfold placeFail
  simp only [hu, hany, BEq.rfl, Bool.and_self, if_true]

theorem placeFail_columnLine {x : FailRecord} (hu : f.attribution = .uncovered) (hn : ∀ y ∈ log, y.place ≠ .rowLine f.row) (hx : x ∈ log)
    (hp : x.place = .columnLine f.column) :
    placeFail cx log pool f = ⟨updateFirst (fun r => r.place == .columnLine f.column) FailRecord.hit log, pool, none⟩ := by
  have hany := any_place_true hx hp
  have hrow := any_place_false hn
  unfold placeFail
  simp only [hu, hany, hrow, BEq.rfl, Bool.and_self, Bool.and_false, Bool.false_eq_true, if_true, if_false]

theorem skipsLines (h : f.attribution = .uncovered → NoLine log f) (q : FailPlace)
    (hq : q = .rowLine f.row ∨ q = .columnLine f.column) :
    (f.attribution == .uncovered && log.any fun r => r.place == q) = false := by
  by_cases hu : f.attribution = .uncovered
  · rw [Bool.and_eq_false_iff]
    refine .inr (any_place_false fun x hx => ?_)
    rcases hq with rfl | rfl
    · exact (h hu x hx).1
    · exact (h hu x hx).2
  · simp [hu]

theorem placeFail_cell {x : FailRecord} (hn : f.attribution = .uncovered → NoLine log f) (hx : x ∈ log)
    (hp : x.place = .cell f.row f.column) :
    placeFail cx log pool f = ⟨updateFirst (fun r => r.place == .cell f.row f.column) (fun r => r.merge f.bits) log, pool, none⟩ := by
  have hany := any_place_true hx hp
  have hrow := skipsLines hn _ (.inl rfl)
  have hcolumn := skipsLines hn _ (.inr rfl)
  unfold placeFail
  simp only [hrow, hcolumn, hany, Bool.false_eq_true, if_true, if_false]

/-- R125: a fail that merges into nothing. -/
theorem placeFail_new (hn : f.attribution = .uncovered → NoLine log f) (hc : ∀ x ∈ log, x.place ≠ .cell f.row f.column) :
    placeFail cx log pool f = if f.attribution = .uncovered then placeUncovered cx log pool f else addRecord log pool (cellRecord cx f) := by
  have hany := any_place_false hc
  have hrow := skipsLines hn _ (.inl rfl)
  have hcolumn := skipsLines hn _ (.inr rfl)
  unfold placeFail
  simp only [hrow, hcolumn, hany, Bool.false_eq_true, if_false, beq_iff_eq]

/-- R126: a hit more counts up to 255. -/
theorem hit_eq (x : FailRecord) : x.hit = { x with hits := min 255 (x.hits + 1) } := by
  have hcount : countUp x.hits = min 255 (x.hits + 1) := by
    rw [countUp_eq]
    split <;> omega
  rw [FailRecord.hit, hcount]

end Tests

end Sys2Proof.Machine

open Sys2Proof Sys2Proof.Machine

/-- Settles O43: the first test that applies decides. -/
theorem failIsPlaced : Obligations.FailIsPlaced := by
  intro cx log pool f uncovered mark inRow inColumn noLine noCell added own checked
  have hchecked : ∀ r, sparesCheck cx r = checked r := sparesCheck_eq
  have hadded : ∀ r, addRecord log pool r = added r := addRecord_eq
  refine ⟨fun a x b hlog => ⟨fun hu hx ha => ?row, fun hu hx hn ha => ?column, fun hx hn ha => ?cell, fun hu hn hc hfull hx ha => ?gatherRow,
    fun hu hn hc hroom hfull hx ha => ?gatherColumn⟩, fun hu hc => ?covered, fun hu hn hc => ⟨fun hr hk => ?own, fun hz hk => ?newRow,
    fun hr hz hk => ?newColumn⟩⟩
  case row =>
    have hmem : x ∈ log := by simp [hlog]
    rw [placeFail_rowLine hu hmem hx, hlog, updateFirst_append (by simpa using ha) (by simp [hx]), hit_eq]
  case column =>
    have hmem : x ∈ log := by simp [hlog]
    rw [placeFail_columnLine hu hn hmem hx, hlog, updateFirst_append (by simpa using ha) (by simp [hx]), hit_eq]
  case cell =>
    have hmem : x ∈ log := by simp [hlog]
    refine ⟨mergeBits x.bits f.bits, ?_, fun o n ho hn' => ?_, fun ho => ?_, fun hn' => ?_⟩
    · rw [placeFail_cell hn hmem hx, hlog, updateFirst_append (by simpa using ha) (by simp [hx]), FailRecord.merge, hit_eq]
    · rw [ho, hn']
      rfl
    · rw [ho]
      cases f.bits <;> rfl
    · rw [hn']
      cases x.bits <;> rfl
  case gatherRow =>
    rw [placeFail_new (fun _ => hn) hc, if_pos hu, placeUncovered, if_pos hfull, hlog, collapse_gathers ha hx, hchecked, ← hlog]
  case gatherColumn =>
    rw [placeFail_new (fun _ => hn) hc, if_pos hu, placeUncovered, if_neg (by omega), if_pos hfull, hlog, collapse_gathers ha hx, hchecked, ← hlog]
  case covered => rw [placeFail_new (fun h => absurd h hu) hc, if_neg hu, hadded]; rfl
  case own => rw [placeFail_new (fun _ => hn) hc, if_pos hu, placeUncovered, if_neg (by omega), if_neg (by omega), hadded]; rfl
  case newRow => rw [placeFail_new (fun _ => hn) hc, if_pos hu, placeUncovered, if_pos (by omega), collapse_new hz, hchecked, hadded]
  case newColumn =>
    rw [placeFail_new (fun _ => hn) hc, if_pos hu, placeUncovered, if_neg (by omega), if_pos (by omega), collapse_new hz, hchecked, hadded]
end

section
/-!
PROOF. Commands that act on every instance in index order (R20, R108, R154): each instance's step writes its own entry, holder, slot and engine, so
that what the steps come to is said of all instances at once.
-/

namespace Sys2Proof.Machine

open Sys2Proof

/-! ### A fold over the instances -/

/-- What holds of the instances that were acted on, step by step, holds of all at the end. -/
theorem foldl_insts {Inv : List (Fin 64) → State → Prop} {f : State → Fin 64 → State} {s : State} (start : Inv [] s)
    (step : ∀ (L : List (Fin 64)) (t : State) (i : Fin 64), i ∉ L → Inv L t → Inv (L ++ [i]) (f t i)) :
    Inv allInsts (allInsts.foldl f s) := by
  have go : ∀ (l L : List (Fin 64)) (t : State), (L ++ l).Nodup → Inv L t → Inv (L ++ l) (l.foldl f t) := by
    intro l
    induction l with
    | nil => intro L t _ h; rwa [List.append_nil]
    | cons i l ih =>
      intro L t hn h
      have hi : i ∉ L := fun hi => (List.nodup_append.1 hn).2.2 i hi i List.mem_cons_self rfl
      have hsplit : L ++ i :: l = (L ++ [i]) ++ l := by simp
      rw [hsplit] at hn ⊢
      exact ih _ _ hn (step L t i hi h)
  exact go allInsts [] s (List.nodup_finRange 64) start

/-- One more instance acted on takes its own elements out of a list, or none. -/
theorem filter_one_more {α : Type} (f : α → Fin 64) (g : Fin 64 → Bool) (L : List (Fin 64)) (i : Fin 64) (l : List α) :
    l.filter (fun x => !(decide (f x ∈ L ++ [i]) && g (f x))) =
      if g i = true then (l.filter fun x => !(decide (f x ∈ L) && g (f x))).filter (fun x => f x != i)
      else l.filter fun x => !(decide (f x ∈ L) && g (f x)) := by
  split
  · rename_i hg
    rw [List.filter_filter]
    refine List.filter_congr fun x _ => ?_
    by_cases hx : f x = i
    · simp [hx, hg]
    · simp [hx]
  · rename_i hg
    refine List.filter_congr fun x _ => ?_
    by_cases hx : f x = i
    · simp [hx, hg]
    · simp [hx]

/-! ### What the steps come to -/

/-- What a command does to each instance: its entry afterwards, the fail records it frees, the holders it leaves, the slot it gives up, and what
becomes of the engine of its run. -/
structure Plan where
  entry : Fin 64 → Entry
  freed : Fin 64 → Nat
  unqueued : Fin 64 → Bool
  unparked : Fin 64 → Bool
  unstacked : Fin 64 → Bool
  released : Fin 64 → Bool
  engine : Fin 64 → Engine → Engine

/-- A plan fits a state: only SUSPENDED instances leave a stack, and an engine keeps its run or gives it up. -/
structure Plan.Fits (P : Plan) (s : State) : Prop where
  unstacked : ∀ i, P.unstacked i = true → (s.entry i).state = .suspended
  current : ∀ i (en : Engine), en.current = some i → (P.engine i en).current = some i ∨ (P.engine i en).current = none

/-- The Resume Stack of engine `e` without the instances of `L` that left it. -/
def Plan.stack (P : Plan) (s : State) (L : List (Fin 64)) (e : Fin 6) : List (Fin 64) :=
  (s.engine e).stack.filter fun j => !(decide (j ∈ L) && (P.unstacked j && (s.entry j).suspending == some e))

/-- State `t` is what comes of state `s` when the instances of `L` have been acted on. -/
structure State.Swept (s : State) (P : Plan) (L : List (Fin 64)) (t : State) : Prop where
  done : ∀ i ∈ L, t.entry i = P.entry i
  todo : ∀ i, i ∉ L → t.entry i = s.entry i
  poolFree : t.poolFree = s.poolFree + (L.map P.freed).sum
  workQueue : t.workQueue = s.workQueue.filter fun q => !(decide (q.inst ∈ L) && P.unqueued q.inst)
  parking : t.parking = s.parking.filter fun q => !(decide (q.inst ∈ L) && P.unparked q.inst)
  link : ∀ l, t.link l =
    { s.link l with
      slots := (s.link l).slots.filter fun h => !(decide (h.inst ∈ L) && (P.released h.inst && s.linkOf h.inst == some l)) }
  idle : ∀ e, (∀ i ∈ L, (s.entry i).state = .running → s.engineOf i ≠ some e) → t.engine e = { s.engine e with stack := P.stack s L e }
  busy : ∀ i ∈ L, ∀ e, (s.entry i).state = .running → s.engineOf i = some e →
    t.engine e = { P.engine i (s.engine e) with stack := P.stack s L e }
  frame : t = { s with
    table := t.table, poolFree := t.poolFree, workQueue := t.workQueue, parking := t.parking, analysisQueue := t.analysisQueue,
    analysing := t.analysing, engineTable := t.engineTable, linkTable := t.linkTable, cardPort := t.cardPort, chassisPort := t.chassisPort }

/-- The step of instance `i` goes by the plan, from state `t` to state `u`; `s` is the state that the command was taken in. -/
structure State.StepsBy (s : State) (P : Plan) (i : Fin 64) (t u : State) : Prop where
  entry : u.entry i = P.entry i
  others : t.othersKept u i
  poolFree : u.poolFree = t.poolFree + P.freed i
  workQueue : u.workQueue = if P.unqueued i = true then t.workQueue.filter (·.inst != i) else t.workQueue
  parking : u.parking = if P.unparked i = true then t.parking.filter (·.inst != i) else t.parking
  link : ∀ l, u.link l =
    if P.released i = true ∧ s.linkOf i = some l then { t.link l with slots := slotsWithout (t.link l).slots i } else t.link l
  engine : ∀ e, u.engine e =
    if (s.entry i).state = .running ∧ s.engineOf i = some e then { P.engine i (s.engine e) with stack := (t.engine e).stack }
    else if P.unstacked i = true ∧ (s.entry i).suspending = some e then { t.engine e with stack := (t.engine e).stack.filter (· != i) }
    else t.engine e
  frame : u = { t with
    table := u.table, poolFree := u.poolFree, workQueue := u.workQueue, parking := u.parking, analysisQueue := u.analysisQueue,
    analysing := u.analysing, engineTable := u.engineTable, linkTable := u.linkTable, cardPort := u.cardPort, chassisPort := u.chassisPort }

section Sweeps

variable {s t u : State} {P : Plan} {L : List (Fin 64)} {i : Fin 64} {e : Fin 6}

theorem swept_nothing (s : State) (P : Plan) : s.Swept P [] s := by
  constructor <;> simp [Plan.stack]

theorem stack_one_more (P : Plan) (s : State) (L : List (Fin 64)) (i : Fin 64) (e : Fin 6) :
    P.stack s (L ++ [i]) e =
      if P.unstacked i = true ∧ (s.entry i).suspending = some e then (P.stack s L e).filter (· != i) else P.stack s L e := by
  unfold Plan.stack
  rw [filter_one_more (fun j => j) (fun j => P.unstacked j && (s.entry j).suspending == some e)]
  simp only [Bool.and_eq_true, beq_iff_eq]

/-- An engine runs one instance at most. -/
theorem engineOf_inj {i j : Fin 64} (hi : s.engineOf i = some e) (hj : s.engineOf j = some e) : i = j := by
  have hi' := List.find?_some hi
  have hj' := List.find?_some hj
  rw [beq_iff_eq] at hi' hj'
  exact Option.some.inj (hi'.symm.trans hj')

theorem State.Swept.engine_stack (h : s.Swept P L t) (e : Fin 6) : (t.engine e).stack = P.stack s L e := by
  by_cases hb : ∃ i ∈ L, (s.entry i).state = .running ∧ s.engineOf i = some e
  · obtain ⟨i, hi, hr, he⟩ := hb
    rw [h.busy i hi e hr he]
  · rw [h.idle e fun i hi hr he => hb ⟨i, hi, hr, he⟩]

/-- One more instance has been acted on. -/
theorem State.Swept.step (h : s.Swept P L t) (hP : P.Fits s) (hi : i ∉ L) (k : s.StepsBy P i t u) : s.Swept P (L ++ [i]) u where
  done j hj := by
    by_cases hji : j = i
    · rw [hji]; exact k.entry
    · rw [k.others j hji]
      exact h.done j ((List.mem_append.1 hj).resolve_right (by simpa using hji))
  todo j hj := by
    rw [List.mem_append, not_or, List.mem_singleton] at hj
    rw [k.others j hj.2]
    exact h.todo j hj.1
  poolFree := by rw [k.poolFree, h.poolFree, List.map_append, List.sum_append]; simp [Nat.add_assoc]
  workQueue := by rw [k.workQueue, h.workQueue, filter_one_more (fun q : QueueEntry => q.inst) P.unqueued]
  parking := by rw [k.parking, h.parking, filter_one_more (fun q : ParkEntry => q.inst) P.unparked]
  link l := by
    rw [k.link l, h.link l, filter_one_more (fun q : SlotHolder => q.inst) (fun j => P.released j && s.linkOf j == some l)]
    simp only [Bool.and_eq_true, beq_iff_eq]
    split <;> rfl
  idle m hm := by
    have hrest : ∀ j ∈ L, (s.entry j).state = .running → s.engineOf j ≠ some m := fun j hj => hm j (List.mem_append_left _ hj)
    rw [k.engine m, if_neg fun hx => hm i (by simp) hx.1 hx.2, h.idle m hrest, stack_one_more]
    split <;> rfl
  busy j hj m hr hm := by
    rw [k.engine m, stack_one_more, h.engine_stack]
    by_cases hji : j = i
    · subst hji
      have hu : ¬(P.unstacked j = true ∧ (s.entry j).suspending = some m) := fun hx => by
        have := hP.unstacked j hx.1
        rw [hr] at this
        cases this
      rw [if_pos ⟨hr, hm⟩, if_neg hu]
    · have hjL := (List.mem_append.1 hj).resolve_right (by simpa using hji)
      rw [if_neg fun hx => hji (engineOf_inj hm hx.2), h.busy j hjL m hr hm]
      split <;> rfl
  frame := by
    rw [k.frame, h.frame]

end Sweeps

end Sys2Proof.Machine
end

section
/-!
PROOF. What a command that acts on every instance still finds at an instance it comes to, and the deadline's expiry (R154 to R158).
-/

namespace Sys2Proof.Machine

open Sys2Proof

section Sweeps

variable {s t u : State} {P : Plan} {L : List (Fin 64)} {i : Fin 64} {e : Fin 6}

theorem State.Swept.linkOf (h : s.Swept P L t) (hi : i ∉ L) : t.linkOf i = s.linkOf i := linkOf_congr (by rw [h.todo i hi])

/-- The acted instances' runs are not instance `i`'s. -/
theorem State.Swept.current (h : s.Swept P L t) (hP : P.Fits s) (hi : i ∉ L) (e : Fin 6) :
    (t.engine e).current = some i ↔ (s.engine e).current = some i := by
  by_cases hb : ∃ j ∈ L, (s.entry j).state = .running ∧ s.engineOf j = some e
  · obtain ⟨j, hj, hr, he⟩ := hb
    have hcur : (s.engine e).current = some j := by simpa using List.find?_some he
    have hne : j ≠ i := fun hji => hi (hji ▸ hj)
    rw [h.busy j hj e hr he, hcur]
    rcases hP.current j _ hcur with hc | hc
    · simp [hc]
    · simp [hc, hne]
  · rw [h.idle e fun j hj hr he => hb ⟨j, hj, hr, he⟩]

theorem State.Swept.engineOf (h : s.Swept P L t) (hP : P.Fits s) (hi : i ∉ L) : t.engineOf i = s.engineOf i := by
  unfold State.engineOf
  congr 1
  funext e
  rw [Bool.eq_iff_iff, beq_iff_eq, beq_iff_eq]
  exact h.current hP hi e

/-- The engine of an instance that has not been acted on has at most lost some of its stack. -/
theorem State.Swept.engine (h : s.Swept P L t) (hi : i ∉ L) (he : s.engineOf i = some e) :
    t.engine e = { s.engine e with stack := P.stack s L e } :=
  h.idle e fun _ hj _ hje => hi (engineOf_inj he hje ▸ hj)

theorem State.Swept.queueEntry (h : s.Swept P L t) (hi : i ∉ L) : t.queueEntry i = s.queueEntry i := by
  unfold State.queueEntry
  rw [h.workQueue, List.find?_filter]
  congr 1
  funext q
  by_cases hq : q.inst = i
  · simp [hq, hi]
  · simp [hq]

theorem State.Swept.now (h : s.Swept P L t) : t.now = s.now := by rw [h.frame]

theorem State.Swept.storeSection (h : s.Swept P L t) (j : Fin 64) : t.storeSection j = s.storeSection j := by rw [h.frame]; rfl

/-! ### The steps of instances without a run -/

/-- An instance of which the entry is written at most. -/
theorem stepsBy_setEntry {y : Entry} (he : P.entry i = y) (hf : P.freed i = 0) (hq : P.unqueued i = false) (hp : P.unparked i = false)
    (hs : P.unstacked i = false) (hl : P.released i = false)
    (hr : ∀ e, (s.entry i).state = .running → s.engineOf i = some e → { P.engine i (s.engine e) with stack := (t.engine e).stack } = t.engine e) :
    s.StepsBy P i t (t.setEntry i y) where
  entry := (State.entry_setEntry ..).trans ((if_pos rfl).trans he.symm)
  others j hj := (State.entry_setEntry ..).trans (if_neg hj)
  poolFree := by rw [hf]; rfl
  workQueue := by simp [hq]
  parking := by simp [hp]
  link l := by simp [hl]
  engine e := by
    split
    · rename_i h
      exact (hr e h.1 h.2).symm
    · simp [hs]
  frame := rfl

end Sweeps

end Sys2Proof.Machine
end

section
/-!
PROOF. The steps of a command that acts on every instance (R20, R108, R154): of an instance that leaves its holder, and of one with a run.
-/

namespace Sys2Proof.Machine

open Sys2Proof

section Steps

variable {s t u w : State} {P : Plan} {i : Fin 64} {e : Fin 6}

/-- What the plan says of an instance without a run: it leaves the holder that its state gives it. -/
structure Plan.LeavesHolder (P : Plan) (s : State) (i : Fin 64) : Prop where
  unqueued : P.unqueued i = ((s.entry i).state == .queued)
  unparked : P.unparked i = ((s.entry i).state == .parked)
  unstacked : P.unstacked i = ((s.entry i).state == .suspended)
  released : P.released i = ((s.entry i).state == .queued)

/-- What the plan says of an instance with a run: no other holder lists it. -/
structure Plan.InNoList (P : Plan) (i : Fin 64) : Prop where
  unqueued : P.unqueued i = false
  unparked : P.unparked i = false
  unstacked : P.unstacked i = false

/-- The step of an instance without a run, which leaves its holder for state `w` and is then settled in state `u`. -/
theorem stepsBy_leftHolder (hd : t.LeftHolder w i) (ht : t.entry i = s.entry i) (hrun : (s.entry i).state ≠ .running)
    (hP : P.LeavesHolder s i) (hentry : u.entry i = P.entry i) (hothers : t.othersKept u i) (hpool : u.poolFree = w.poolFree + P.freed i)
    (hframe : u = { w with
      table := u.table, poolFree := u.poolFree, analysisQueue := u.analysisQueue, analysing := u.analysing, cardPort := u.cardPort,
      chassisPort := u.chassisPort }) : s.StepsBy P i t u where
  entry := hentry
  others := hothers
  poolFree := by rw [hpool, hd.frame]
  workQueue := by
    rw [hP.unqueued, hframe, ← ht]
    simpa only [beq_iff_eq] using hd.workQueue
  parking := by
    rw [hP.unparked, hframe, ← ht]
    simpa only [beq_iff_eq] using hd.parking
  link l := by
    have hl := hd.link l
    rw [linkOf_congr (s := s) (t := t) (by rw [ht]), ht] at hl
    rw [hP.released, hframe]
    simp only [beq_iff_eq]
    exact hl
  engine m := by
    have he := hd.engine m
    rw [ht] at he
    rw [if_neg fun h => hrun h.1, hP.unstacked, hframe]
    simp only [beq_iff_eq]
    exact he
  frame := by
    rw [hframe, hd.frame]

/-- The step of an instance with a run on engine `e`. -/
theorem stepsBy_run (he : s.engineOf i = some e) (hrun : (s.entry i).state = .running) (hP : P.InNoList i) (hentry : u.entry i = P.entry i)
    (hothers : t.othersKept u i) (hpool : u.poolFree = t.poolFree + P.freed i)
    (hlink : ∀ l, u.link l =
      if P.released i = true ∧ s.linkOf i = some l then { t.link l with slots := slotsWithout (t.link l).slots i } else t.link l)
    (hen : u.engine e = { P.engine i (s.engine e) with stack := (t.engine e).stack }) (hens : t.otherEnginesKept u e)
    (hframe : u = { t with
      table := u.table, poolFree := u.poolFree, analysisQueue := u.analysisQueue, analysing := u.analysing, engineTable := u.engineTable,
      linkTable := u.linkTable, cardPort := u.cardPort, chassisPort := u.chassisPort }) : s.StepsBy P i t u where
  entry := hentry
  others := hothers
  poolFree := hpool
  workQueue := by rw [hP.unqueued, hframe]; rfl
  parking := by rw [hP.unparked, hframe]; rfl
  link := hlink
  engine m := by
    by_cases hm : m = e
    · rw [if_pos ⟨hrun, hm ▸ he⟩, hm, hen]
    · rw [if_neg fun h => hm (Option.some.inj (h.2.symm.trans he)), if_neg (by simp [hP.unstacked]), hens m hm]
  frame := by rw [hframe]

/-! ### Engines and their stacks -/

/-- R93, R95: a drain request looks neither at the stack nor at the section to load. -/
theorem drainRequested_congr (en : Engine) (l : List (Fin 64)) (c : Option StoreSection) (r : DrainReason) :
    ({ en with stack := l, reload := c } : Engine).drainRequested r = { en.drainRequested r with stack := l, reload := c } := by
  unfold Engine.drainRequested
  dsimp only
  split
  · rfl
  · rfl
  · unfold Engine.redrain
    dsimp only
    split <;> rfl
  · rfl
  · rfl

theorem drainRequested_reload (en : Engine) (r : DrainReason) : (en.drainRequested r).reload = en.reload := by
  have h := drainRequested_congr en en.stack en.reload r
  change en.drainRequested r = { en.drainRequested r with stack := en.stack, reload := en.reload } at h
  rw [h]

theorem drainRequested_stack (en : Engine) (l : List (Fin 64)) (r : DrainReason) :
    ({ en with stack := l } : Engine).drainRequested r = { en.drainRequested r with stack := l } := by
  rw [drainRequested_congr en l en.reload, ← drainRequested_reload en r]

/-- R93, R95: a drain request leaves the run. -/
theorem drainRequested_current (en : Engine) (r : DrainReason) : (en.drainRequested r).current = en.current := by
  unfold Engine.drainRequested
  split
  · rfl
  · rfl
  · unfold Engine.redrain
    split <;> rfl
  · rfl
  · rfl

theorem drainAmong_goes_on (h : (s.engine e).endsNow = false) (r : DrainReason) :
    s.drainAmong e r = s.setEngine e ((s.engine e).drainRequested r) := by
  unfold State.drainAmong
  dsimp only
  rw [drainEndsAtOnce_request, h]
  rfl

theorem drainAmong_ends (h : (s.engine e).endsNow = true) (r : DrainReason) :
    s.drainAmong e r = (s.setEngine e ((s.engine e).drainRequested r)).finishDrain e := by
  unfold State.drainAmong
  dsimp only
  rw [drainEndsAtOnce_request, h]
  rfl

/-- R96: at a drain's end the frozen position is written back and the slot given up, before the instance is disposed of. -/
theorem finishDrain_released (hc : (s.engine e).current = some i) :
    s.finishDrain e =
      (((s.setEntry i ((s.entry i).frozenAt ((s.engine e).position.getD (s.entry i).run.position))).releaseSlot i).disposeDrained e i).vacate
        e := by
  unfold State.finishDrain
  simp only [hc]
  cases hp : (s.engine e).position with
  | none =>
    have hself : s.setEntry i ((s.entry i).frozenAt (s.entry i).run.position) = s := setEntry_self
    rw [Option.getD_none, hself]
  | some p => rfl

end Steps

end Sys2Proof.Machine
end

section
/-!
PROOF. The expiry of a deadline (R15, R93, R154 to R158): what it does to each instance, and what that comes to.
-/

namespace Sys2Proof.Machine

open Sys2Proof

/-! ### The plan of an expiry -/

section Plan

variable (s : State)

/-- R155: the instance waits and is cut short at once. -/
def State.waits (i : Fin 64) : Bool :=
  (s.entry i).state == .defined || (s.entry i).state == .queued || (s.entry i).state == .suspended || (s.entry i).state == .parked

/-- R93: the instance's run is cut short at once, with nothing outstanding. -/
def State.endsRun (i : Fin 64) : Bool := (s.entry i).state == .running && (s.engineOf i).any fun e => (s.engine e).endsNow

/-- R137: the analysis of a cut short instance is fresh. -/
def State.expiresFresh (i : Fin 64) : Bool :=
  (s.entry i).state == .running || (s.entry i).state == .suspended || (s.entry i).state == .parked ||
    ((s.entry i).state == .queued && (s.queueEntry i).any fun q => q.cls == .wake)

/-- R15: the entry of a waiting instance after the expiry. -/
def State.expiredWaiting (i : Fin 64) : Entry :=
  { s.entry i with
    state := .analysing, reason := .deadline, followUp := none,
    suspending := if (s.entry i).state = .suspended then none else (s.entry i).suspending,
    flags := { (s.entry i).flags with partialRun := true, untested := (s.entry i).flags.untested || s.untestedIfCut i .deadline } }

/-- R15, R96: the entry of a run that the expiry ends at once. -/
def State.expiredRun (i : Fin 64) : Entry :=
  { s.entry i with
    state := .analysing, reason := .deadline, followUp := none, flags := { (s.entry i).flags with partialRun := true },
    run := { (s.entry i).run with position := ((s.engineOf i).bind fun e => (s.engine e).position).getD (s.entry i).run.position } }

/-- R154, R155: what an expiry does to each instance. -/
def expiryPlan : Plan where
  entry i :=
    if s.waits i then s.expiredWaiting i
    else if s.endsRun i then s.expiredRun i
    else if (s.entry i).state = .running then { s.entry i with followUp := none } else s.entry i
  freed _ := 0
  unqueued i := (s.entry i).state == .queued
  unparked i := (s.entry i).state == .parked
  unstacked i := (s.entry i).state == .suspended
  released i := (s.entry i).state == .queued || s.endsRun i
  engine _ en := if en.endsNow then Engine.reset else en.drainRequested (.cut .deadline)

theorem expiryPlan_fits : (expiryPlan s).Fits s where
  unstacked i h := by simpa [expiryPlan] using h
  current i en h := by
    unfold expiryPlan
    dsimp only
    split
    · exact .inr rfl
    · exact .inl ((drainRequested_current ..).trans h)

end Plan

/-! ### The steps of an expiry -/

section Steps

variable {s t : State} {L : List (Fin 64)} {i : Fin 64} {e : Fin 6}

/-- R155: where an expiry has come to when the instances of `L` have been acted on. -/
structure State.Expired (s : State) (L : List (Fin 64)) (t : State) : Prop where
  swept : s.Swept (expiryPlan s) L t
  analysisQueue : t.analysisQueue =
    s.analysisQueue ++ (L.filter fun i => s.waits i || s.endsRun i).map fun i => ⟨i, s.expiresFresh i⟩
  analysing : t.analysing = s.analysing
  cardPort : t.cardPort = s.cardPort
  chassisPort : t.chassisPort = s.chassisPort

/-- What a step of the expiry changes beside what the plan says. -/
structure State.ExpireStep (s : State) (i : Fin 64) (t u : State) : Prop where
  steps : s.StepsBy (expiryPlan s) i t u
  analysisQueue : u.analysisQueue = t.analysisQueue ++ if s.waits i || s.endsRun i then [⟨i, s.expiresFresh i⟩] else []
  analysing : u.analysing = t.analysing
  cardPort : u.cardPort = t.cardPort
  chassisPort : u.chassisPort = t.chassisPort

theorem endsRun_of_not_running (h : (s.entry i).state ≠ .running) : s.endsRun i = false := by
  simp [State.endsRun, h]

theorem waits_of_running (h : (s.entry i).state = .running) : s.waits i = false := by
  simp [State.waits, h]

theorem expireStep_waiting (hw : s.waits i = true) (he : t.entry i = s.entry i) (hq : t.queueEntry i = s.queueEntry i) :
    s.ExpireStep i t (t.expireInst i) := by
  have hstate : (s.entry i).state = .defined ∨ (s.entry i).state = .queued ∨ (s.entry i).state = .suspended ∨ (s.entry i).state = .parked := by
    simpa [State.waits, or_assoc] using hw
  have hrun : (s.entry i).state ≠ .running := by rcases hstate with h | h | h | h <;> simp [h]
  have hana : (s.entry i).state ≠ .analysing := by rcases hstate with h | h | h | h <;> simp [h]
  have hend := endsRun_of_not_running hrun
  have hcut : t.expireInst i = t.cutShort i .deadline := by
    unfold State.expireInst
    rw [he]
    rcases hstate with h | h | h | h <;> rw [h]
  have huntested : t.untestedIfCut i .deadline = s.untestedIfCut i .deadline := by simp only [State.untestedIfCut, he]
  have hfresh : t.freshIfCut i = s.expiresFresh i := by
    unfold State.freshIfCut State.expiresFresh
    rw [he, hq]
    rcases hstate with h | h | h | h <;> rw [h] <;> rfl
  have hd := detach_detached t i
  rw [hcut]
  exact {
    steps := stepsBy_leftHolder hd.toLeftHolder he hrun
      { unqueued := rfl, unparked := rfl, unstacked := rfl, released := by simp [expiryPlan, hend] }
      (by simp only [cutShort_entry, he, huntested, expiryPlan, hw, if_true]; rfl)
      (cutShort_othersKept _) rfl rfl
    analysisQueue := by
      rw [cutShort_analysisQueue, hd.analysisQueue, he, if_neg hana, hfresh, hw]
      rfl
    analysing := hd.analysing.trans (by simp [he, hana])
    cardPort := by rw [cutShort_frame, hd.frame]
    chassisPort := by rw [cutShort_frame, hd.frame] }

/-- An instance that the expiry passes over. -/
theorem expireStep_passed (hw : s.waits i = false) (hr : (s.entry i).state ≠ .running) (he : t.entry i = s.entry i) :
    s.ExpireStep i t (t.expireInst i) := by
  have hend := endsRun_of_not_running hr
  obtain ⟨⟨⟨hd, hq⟩, hs⟩, hp⟩ : (((s.entry i).state ≠ .defined ∧ (s.entry i).state ≠ .queued) ∧ (s.entry i).state ≠ .suspended) ∧
      (s.entry i).state ≠ .parked := by
    simpa [State.waits] using hw
  have hpass : t.expireInst i = t.setEntry i (s.entry i) := by
    rw [← he, setEntry_self]
    unfold State.expireInst
    rw [he]
    split
    · exact absurd ‹_› hd
    · exact absurd ‹_› hq
    · exact absurd ‹_› hs
    · exact absurd ‹_› hp
    · exact absurd ‹_› hr
    · rfl
  rw [hpass]
  exact {
    steps := stepsBy_setEntry (by simp [expiryPlan, hw, hend, hr]) rfl (by simp [expiryPlan, hq]) (by simp [expiryPlan, hp])
      (by simp [expiryPlan, hs]) (by simp [expiryPlan, hq, hend]) fun _ h => absurd h hr
    analysisQueue := by simp [hw, hend]
    analysing := rfl
    cardPort := rfl
    chassisPort := rfl }

/-- R77, R154: a run that no engine holds keeps its state (no reachable state has one). -/
theorem expireStep_unheld (hr : (s.entry i).state = .running) (hn : s.engineOf i = none) (he : t.entry i = s.entry i)
    (hen : t.engineOf i = s.engineOf i) : s.ExpireStep i t (t.expireInst i) := by
  have hend : s.endsRun i = false := by simp [State.endsRun, hn]
  have hw := waits_of_running hr
  have hdrop : t.expireInst i = t.setEntry i { s.entry i with followUp := none } := by
    unfold State.expireInst
    rw [he, hr, hen, hn, ← he]
    rfl
  rw [hdrop]
  exact {
    steps := stepsBy_setEntry (by simp [expiryPlan, hw, hend, hr]) rfl (by simp [expiryPlan, hr]) (by simp [expiryPlan, hr])
      (by simp [expiryPlan, hr]) (by simp [expiryPlan, hr, hend]) fun e _ h => by rw [hn] at h; cases h
    analysisQueue := by simp [hw, hend]
    analysing := rfl
    cardPort := rfl
    chassisPort := rfl }

theorem inNoList_of_running (hr : (s.entry i).state = .running) : (expiryPlan s).InNoList i := by
  constructor <;> simp [expiryPlan, hr]

/-- R93, R154: a run with something outstanding goes on draining. -/
theorem expireStep_drains (hr : (s.entry i).state = .running) (hn : s.engineOf i = some e) (hnow : (s.engine e).endsNow = false)
    (he : t.entry i = s.entry i) (hen : t.engineOf i = s.engineOf i) {st : List (Fin 64)}
    (heng : t.engine e = { s.engine e with stack := st }) : s.ExpireStep i t (t.expireInst i) := by
  have hend : s.endsRun i = false := by simp [State.endsRun, hn, hnow]
  have hw := waits_of_running hr
  have hdrain : t.expireInst i =
      (t.setEntry i { s.entry i with followUp := none }).setEngine e ((t.engine e).drainRequested (.cut .deadline)) := by
    have hgo := drainAmong_goes_on (s := t.dropFollowUp i) (e := e) (by rw [State.dropFollowUp, State.modEntry_engine, heng]; exact hnow)
      (.cut .deadline)
    unfold State.expireInst
    rw [he, hr, hen, hn]
    dsimp only
    rw [hgo, ← he]
    rfl
  rw [hdrain]
  exact {
    steps := stepsBy_run hn hr (inNoList_of_running hr)
      (by simp [expiryPlan, hw, hend, hr])
      (fun j hj => (State.entry_setEntry ..).trans (if_neg hj)) rfl
      (fun l => by rw [if_neg (by simp [expiryPlan, hr, hend])]; rfl)
      (by rw [State.engine_setEngine, if_pos rfl, heng, drainRequested_stack]; simp [expiryPlan, hnow])
      (fun m hm => (State.engine_setEngine ..).trans (if_neg hm)) rfl
    analysisQueue := by simp [hw, hend]
    analysing := rfl
    cardPort := rfl
    chassisPort := rfl }

/-- R15, R93, R96: a run that ends its drain for a cut short: what is written. -/
theorem finishDrain_cut {c : CutReason} (hc : (t.engine e).current = some i) (hr : (t.engine e).drainReason = some (.cut c)) :
    t.finishDrain e =
      { ((t.releaseSlot i).setEngine e { Engine.reset with stack := (t.engine e).stack }).setEntry i
          { t.entry i with
            state := .analysing, flags := { (t.entry i).flags with partialRun := true }, reason := c.verdict,
            run := { (t.entry i).run with position := (t.engine e).position.getD (t.entry i).run.position } } with
        analysisQueue := t.analysisQueue ++ [⟨i, true⟩] } := by
  obtain ⟨y, hy⟩ : ∃ y, y = (t.entry i).frozenAt ((t.engine e).position.getD (t.entry i).run.position) := ⟨_, rfl⟩
  have hslot : (t.setEntry i y).releaseSlot i = (t.releaseSlot i).setEntry i y := by
    have hl : (t.setEntry i y).linkOf i = t.linkOf i := linkOf_congr (by rw [State.entry_setEntry, if_pos rfl, hy]; rfl)
    cases h : t.linkOf i with
    | none => rw [releaseSlot_none (hl.trans h), releaseSlot_none h]
    | some l => rw [releaseSlot_of (hl.trans h), releaseSlot_of h]; rfl
  have hen : ((t.releaseSlot i).setEntry i y).engine e = t.engine e := releaseSlot_engine ..
  have hentry : ((t.releaseSlot i).setEntry i y).entry i = y := (State.entry_setEntry ..).trans (if_pos rfl)
  have hqueue : ((t.releaseSlot i).setEntry i y).analysisQueue = t.analysisQueue := by rw [releaseSlot_frame]; rfl
  rw [finishDrain_released hc, ← hy, hslot, disposeDrained_cut (by rw [hen]; exact hr), hen, hentry, hqueue, hy]
  simp [State.setEntry, State.setEngine, Entry.frozenAt]

/-- R15, R93, R154: a run with nothing outstanding is cut short at once. -/
theorem expireStep_ends (hr : (s.entry i).state = .running) (hn : s.engineOf i = some e) (hnow : (s.engine e).endsNow = true)
    (he : t.entry i = s.entry i) (hen : t.engineOf i = s.engineOf i) {st : List (Fin 64)}
    (heng : t.engine e = { s.engine e with stack := st }) : s.ExpireStep i t (t.expireInst i) := by
  have hend : s.endsRun i = true := by simp [State.endsRun, hr, hn, hnow]
  have hw := waits_of_running hr
  have hcur : (s.engine e).current = some i := by simpa using List.find?_some hn
  have hreq : (s.engine e).drainRequested (.cut .deadline) =
      { s.engine e with state := .draining, drainReason := some (.cut .deadline), given := none } :=
    drainRequested_of_run (endsNow_iff.1 hnow).1 _
  obtain ⟨g, hg⟩ : ∃ g, g = (t.setEntry i { s.entry i with followUp := none }).setEngine e
      { s.engine e with state := .draining, drainReason := some (.cut .deadline), given := none, stack := st } := ⟨_, rfl⟩
  have hdrain : t.expireInst i = g.finishDrain e := by
    have hgo := drainAmong_ends (s := t.dropFollowUp i) (e := e) (by rw [State.dropFollowUp, State.modEntry_engine, heng]; exact hnow)
      (.cut .deadline)
    unfold State.expireInst
    rw [he, hr, hen, hn]
    dsimp only
    rw [hgo, hg, State.dropFollowUp, State.modEntry_engine, heng, drainRequested_stack, hreq, ← he]
    rfl
  have hgen : g.engine e = { s.engine e with state := .draining, drainReason := some (.cut .deadline), given := none, stack := st } := by
    rw [hg]
    exact (State.engine_setEngine ..).trans (if_pos rfl)
  have hgentry : g.entry i = { s.entry i with followUp := none } := by
    rw [hg]
    exact (State.entry_setEntry ..).trans (if_pos rfl)
  have hglink : g.linkOf i = s.linkOf i := linkOf_congr (by rw [hgentry])
  rw [hdrain, finishDrain_cut (c := .deadline) (by rw [hgen]; exact hcur) (by rw [hgen]), hgen, hgentry]
  exact {
    steps := stepsBy_run hn hr (inNoList_of_running hr)
      (by
        refine ((State.entry_setEntry ..).trans (if_pos rfl)).trans ?_
        simp [expiryPlan, hw, hend, State.expiredRun, hn, CutReason.verdict])
      (fun j hj => by
        refine ((State.entry_setEntry ..).trans (if_neg hj)).trans (releaseSlot_entry.trans ?_)
        rw [hg]
        exact (State.entry_setEntry ..).trans (if_neg hj))
      (by rw [releaseSlot_frame, hg]; rfl)
      (fun l => by
        refine (releaseSlot_link l).trans ?_
        rw [hglink, hg]
        simp [expiryPlan, hr, hend])
      (by
        refine ((State.engine_setEngine ..).trans (if_pos rfl)).trans ?_
        simp [expiryPlan, hnow, heng])
      (fun m hm => by
        refine ((State.engine_setEngine ..).trans (if_neg hm)).trans ((releaseSlot_engine ..).trans ?_)
        rw [hg]
        exact (State.engine_setEngine ..).trans (if_neg hm))
      (by rw [releaseSlot_frame, hg]; rfl)
    analysisQueue := by rw [hw, hend, hg]; simp [State.expiresFresh, hr]
    analysing := by rw [releaseSlot_frame, hg]; rfl
    cardPort := by rw [releaseSlot_frame, hg]; rfl
    chassisPort := by rw [releaseSlot_frame, hg]; rfl }

end Steps

end Sys2Proof.Machine
end

section
/-!
PROOF. The expiry of a deadline over all instances (R154 to R158).
-/

namespace Sys2Proof.Machine

open Sys2Proof

section Expiry

variable {s t u : State} {P : Plan} {L : List (Fin 64)} {i : Fin 64}

theorem mem_allInsts (i : Fin 64) : i ∈ allInsts := List.mem_finRange i

/-- R154, R155: the step of each instance goes by the plan. -/
theorem State.Expired.expireStep (h : s.Expired L t) (hi : i ∉ L) : s.ExpireStep i t (t.expireInst i) := by
  have he := h.swept.todo i hi
  have hen := h.swept.engineOf (expiryPlan_fits s) hi
  by_cases hw : s.waits i = true
  · exact expireStep_waiting hw he (h.swept.queueEntry hi)
  · rw [Bool.not_eq_true] at hw
    by_cases hr : (s.entry i).state = .running
    · cases hn : s.engineOf i with
      | none => exact expireStep_unheld hr hn he hen
      | some e =>
        have heng := h.swept.engine hi hn
        cases hnow : (s.engine e).endsNow with
        | false => exact expireStep_drains hr hn hnow he hen heng
        | true => exact expireStep_ends hr hn hnow he hen heng
    · exact expireStep_passed hw hr he

theorem State.Expired.step (h : s.Expired L t) (hi : i ∉ L) (k : s.ExpireStep i t u) : s.Expired (L ++ [i]) u where
  swept := h.swept.step (expiryPlan_fits s) hi k.steps
  analysisQueue := by
    rw [k.analysisQueue, h.analysisQueue, List.filter_append, List.map_append, List.append_assoc, List.filter_singleton]
    cases s.waits i || s.endsRun i <;> rfl
  analysing := k.analysing.trans h.analysing
  cardPort := k.cardPort.trans h.cardPort
  chassisPort := k.chassisPort.trans h.chassisPort

theorem expiryPlan_waiting (h : s.waits i = true) : (expiryPlan s).entry i = s.expiredWaiting i := if_pos h

theorem expiryPlan_ended (h : s.endsRun i = true) : (expiryPlan s).entry i = s.expiredRun i := by
  have hr : (s.entry i).state = .running := by
    unfold State.endsRun at h
    simpa using (Bool.and_eq_true_iff.1 h).1
  exact (if_neg (by rw [waits_of_running hr]; simp)).trans (if_pos h)

theorem expiryPlan_running (hr : (s.entry i).state = .running) (h : s.endsRun i = false) :
    (expiryPlan s).entry i = { s.entry i with followUp := none } :=
  (if_neg (by rw [waits_of_running hr]; simp)).trans ((if_neg (by rw [h]; simp)).trans (if_pos hr))

theorem expiryPlan_passed (hw : s.waits i = false) (hr : (s.entry i).state ≠ .running) : (expiryPlan s).entry i = s.entry i :=
  (if_neg (by rw [hw]; simp)).trans ((if_neg (by rw [endsRun_of_not_running hr]; simp)).trans (if_neg hr))

/-- R15: untested is what was tested by no run. -/
theorem untestedIfCut_deadline (s : State) (i : Fin 64) :
    s.untestedIfCut i .deadline = ((s.entry i).state == .defined || ((s.entry i).state == .queued && (s.entry i).run.runCount == 0)) := by
  rw [State.untestedIfCut]
  exact Bool.true_and _

/-- R154: an expiry acts on every instance. -/
theorem expired_all (s : State) : s.Expired allInsts (allInsts.foldl State.expireInst s) :=
  foldl_insts ⟨swept_nothing s _, by simp, rfl, rfl, rfl⟩ fun _ _ _ hi h => h.step hi (h.expireStep hi)

/-- R20, R154: a stack when every instance has been acted on. -/
theorem stack_all (P : Plan) (s : State) (e : Fin 6) :
    P.stack s allInsts e = (s.engine e).stack.filter fun j => !(P.unstacked j && (s.entry j).suspending == some e) := by
  simp [Plan.stack, mem_allInsts]

end Expiry

end Sys2Proof.Machine

open Sys2Proof Sys2Proof.Machine

/-- Settles O52: the instances' steps by the plan of an expiry, and the engines then turn. -/
theorem deadlineExpiryCutsShort : Obligations.DeadlineExpiryCutsShort := by
  intro name s
  refine ⟨fun hn => congrArg Host.Outcome.next (if_neg (by simpa [State.deadlineDue] using hn)), ?_⟩
  intro hdue is waiting ended stack
  have hexec : exec (.deadlineExpiry name) s = .next (s.expire name) :=
    congrArg Host.Outcome.next (if_pos (by simpa [State.deadlineDue] using hdue))
  obtain ⟨s0, hs0⟩ : ∃ s0, s0 = (s.setDeadline name none).raiseBoth (.deadline (State.deadlineNames name)) := ⟨_, rfl⟩
  obtain ⟨a, b, p, q, hparts⟩ : ∃ a b p q, s0 = { s with cardDeadline := a, chassisDeadline := b, cardPort := p, chassisPort := q } := by
    rw [hs0]
    cases name
    · exact ⟨_, _, _, _, rfl⟩
    · exact ⟨_, _, _, _, rfl⟩
  have htold : s.told s0 (.deadline ⟨name == .card, name == .chassis⟩) := by
    rw [hs0]
    intro r
    cases name <;> cases r <;> rfl
  have hself : s0.deadline name = none := by
    rw [hs0]
    cases name <;> rfl
  have hother : ∀ n, n ≠ name → s0.deadline n = s.deadline n := fun n hn => by
    rw [hs0]
    cases name with
    | card =>
      cases n with
      | card => exact absurd rfl hn
      | chassis => rfl
    | chassis =>
      cases n with
      | card => rfl
      | chassis => exact absurd rfl hn
  have hu : s.expire name = (allInsts.foldl State.expireInst s0).turnAll := by rw [hs0]; rfl
  clear hs0
  have h := expired_all s0
  generalize allInsts.foldl State.expireInst s0 = u at h hu
  obtain ⟨⟨hdone, -, hpool, hwork, hpark, hlink, hidle, hbusy, hframe⟩, hqueue, hana, hcard, hchassis⟩ := h
  simp only [mem_allInsts, decide_true, Bool.true_and, stack_all, forall_true_left] at hdone hwork hpark hlink hidle hbusy
  have hdeadline : ∀ n, u.deadline n = s0.deadline n := fun n => by rw [hframe]; rfl
  have hport : ∀ r, u.port r = s0.port r := fun r => by
    cases r with
    | card => exact hcard
    | chassis => exact hchassis
  rw [hu] at hexec
  refine ⟨u, _, hexec, turnAll_turnAllTo u, (hdeadline _).trans hself, fun n hn => (hdeadline n).trans (hother n hn),
    fun r => (hport r).trans (htold r), ?_⟩
  clear hself hother htold hdeadline hport hcard hchassis hu
  subst hparts
  refine ⟨fun i hw => ?waiting, fun i e hend he => ?ended,
    fun i hr hend => ?running, fun i hw hr => ?passed, ?queue, ?work, ?park, fun l => ?links, fun e => ?engines, ?frame⟩
  case waiting =>
    refine (hdone i).trans ((expiryPlan_waiting hw).trans ?_)
    unfold State.expiredWaiting
    rw [untestedIfCut_deadline, ← Bool.or_assoc]
  case ended =>
    refine (hdone i).trans ((expiryPlan_ended hend).trans ?_)
    unfold State.expiredRun
    rw [he]
    rfl
  case running => exact (hdone i).trans (expiryPlan_running (by simpa [is] using hr) hend)
  case passed => exact (hdone i).trans (expiryPlan_passed hw (by simpa [is] using hr))
  case queue => exact hqueue
  case work => exact hwork
  case park => exact hpark
  case links => exact hlink l
  case engines =>
    split
    · rename_i hb
      obtain ⟨i, hr, he⟩ := hb
      refine (hbusy i e (by simpa [is] using hr) he).trans ?_
      unfold expiryPlan
      cases hn : (s.engine e).endsNow with
      | true => exact congrArg (fun en : Engine => { en with stack := stack e }) (if_pos hn)
      | false => exact congrArg (fun en : Engine => { en with stack := stack e }) (if_neg (Bool.eq_false_iff.1 hn))
    · rename_i hb
      exact hidle e fun i hr he => hb ⟨i, by simpa [is] using hr, he⟩
  case frame =>
    have hp : u.poolFree = s.poolFree := hpool.trans (by simp [expiryPlan])
    rw [hp, hana] at hframe
    rw [hframe]
end

section
/-!
PROOF. REQUALIFY (R20 to R22, R93, R162): what it does to each instance.
-/

namespace Sys2Proof.Machine

open Sys2Proof

/-! ### The reset (R21) -/

section Reset

variable {t : State} {i : Fin 64} {e : Fin 6} {d : Descriptor}

/-- R21: the reset does not look at the suspending engine, the live flag or the run, and carries the follow-up. -/
theorem requalified_congr (x y : Entry) (d : Descriptor) (c : StoreSection) (f : Option FollowUp) (h : x = { y with
    followUp := f, suspending := x.suspending, run := x.run }) : x.requalified d c = { y.requalified d c with followUp := f } := by
  rw [h]
  unfold Entry.requalified Entry.cleared
  cases storeOutcome c d <;> rfl

/-- R21, R96: a run that ends its drain for REQUALIFY, without a follow-up: what is written. -/
theorem finishDrain_requalify (hc : (t.engine e).current = some i) (hr : (t.engine e).drainReason = some .requalify)
    (hd : (t.entry i).descriptor = some d) (hf : (t.entry i).followUp = none) :
    t.finishDrain e =
      { ((t.releaseSlot i).setEngine e { Engine.reset with stack := (t.engine e).stack }).setEntry i
          ((t.entry i).requalified d (t.reloadSection e i)) with
        poolFree := t.poolFree + (t.entry i).failLog.length } := by
  obtain ⟨y, hy⟩ : ∃ y, y = (t.entry i).frozenAt ((t.engine e).position.getD (t.entry i).run.position) := ⟨_, rfl⟩
  obtain ⟨k, hk⟩ : ∃ k : Link, k = { t.link d.link with slots := slotsWithout (t.link d.link).slots i } := ⟨_, rfl⟩
  have hyd : y.descriptor = some d := by rw [hy]; exact hd
  obtain ⟨g, hg⟩ : ∃ g, g = (t.setLink d.link k).setEntry i y := ⟨_, rfl⟩
  have hslot : (t.setEntry i y).releaseSlot i = g := by
    rw [releaseSlot_of (linkOf_some (d := d) (by rw [State.entry_setEntry, if_pos rfl]; exact hyd)), hg, hk]
    rfl
  have hentry : g.entry i = y := by rw [hg]; exact (State.entry_setEntry ..).trans (if_pos rfl)
  have hreason : (g.engine e).drainReason = some .requalify := by rw [hg]; exact hr
  have hsection : g.reloadSection e i = t.reloadSection e i := by rw [hg]; rfl
  have hreq : y.requalified d (t.reloadSection e i) = (t.entry i).requalified d (t.reloadSection e i) := by
    rw [requalified_congr y (t.entry i) d _ (t.entry i).followUp (by rw [hy]; rfl)]
    unfold Entry.requalified
    rw [cleared_eq]
  rw [finishDrain_released hc, ← hy, hslot, disposeDrained_requalify hreason, hsection,
    requalifyReset_eq (d := d) (by rw [hentry]; exact hyd), hentry, hreq, takeFollowUp_none]
  · rw [releaseSlot_of (linkOf_some hd), ← hk, hg, hy]
    simp [State.vacate, State.modEngine, State.setEntry, State.setEngine, State.setLink, Engine.vacated, Entry.frozenAt]
  · rw [State.entry_setEntry, if_pos rfl, Entry.requalified, cleared_eq]
    exact hf

end Reset

/-! ### The plan of a REQUALIFY -/

section Plan

variable (s : State)

/-- R93: REQUALIFY ends the instance's run at once, with nothing outstanding. -/
def State.requalifiesRun (i : Fin 64) : Bool :=
  s.requalifies i && (s.entry i).state == .running && (s.engineOf i).any fun e => (s.engine e).endsNow

/-- R21: REQUALIFY resets the instance in its own step. -/
def State.resets (i : Fin 64) : Bool := s.requalifies i && ((s.entry i).state != .running || s.requalifiesRun i)

/-- R93, R162: the engine of a run that REQUALIFY drains; the section as it stands is kept for the reset. -/
def State.requalifiedEngine (i : Fin 64) (en : Engine) : Engine :=
  { en.drainRequested .requalify with
    reload := if en.state = .draining ∧ en.drainReason = some .requalify then en.reload else some (s.storeSection i) }

/-- R20, R21: what REQUALIFY does to each instance. -/
def requalifyPlan : Plan where
  entry i :=
    if s.resets i then
      (s.entry i).descriptor.elim (s.entry i) fun d => { (s.entry i).requalified d (s.storeSection i) with followUp := none }
    else if s.requalifies i then { s.entry i with followUp := none } else s.entry i
  freed i := if s.resets i then (s.entry i).failLog.length else 0
  unqueued i := s.requalifies i && (s.entry i).state == .queued
  unparked i := s.requalifies i && (s.entry i).state == .parked
  unstacked i := s.requalifies i && (s.entry i).state == .suspended
  released i := (s.requalifies i && (s.entry i).state == .queued) || s.requalifiesRun i
  engine i en := if s.requalifies i then (if en.endsNow then Engine.reset else s.requalifiedEngine i en) else en

theorem requalifyPlan_fits : (requalifyPlan s).Fits s where
  unstacked i h := by
    have hs := (Bool.and_eq_true_iff.1 h).2
    simpa using hs
  current i en h := by
    unfold requalifyPlan
    dsimp only
    split
    · split
      · exact .inr rfl
      · exact .inl ((drainRequested_current ..).trans h)
    · exact .inl h

end Plan

end Sys2Proof.Machine
end

section
/-!
PROOF. The steps of a REQUALIFY (R20 to R22, R93, R136, R162).
-/

namespace Sys2Proof.Machine

open Sys2Proof

section Steps

variable {s t u : State} {L : List (Fin 64)} {i : Fin 64} {e : Fin 6} {d : Descriptor}

/-- R136: REQUALIFY takes the instance out of the Analysis Queue. -/
def State.unanalyses (s : State) (i : Fin 64) : Bool := s.requalifies i && (s.entry i).state == .analysing

/-- R20: where a REQUALIFY has come to when the instances of `L` have been passed. -/
structure State.Requalified (s : State) (L : List (Fin 64)) (t : State) : Prop where
  swept : s.Swept (requalifyPlan s) L t
  analysisQueue : t.analysisQueue = s.analysisQueue.filter fun a => !(decide (a.inst ∈ L) && s.unanalyses a.inst)
  analysing : t.analysing = (s.analysing && !s.analysisQueue.head?.any fun a => decide (a.inst ∈ L) && s.unanalyses a.inst)
  cardPort : t.cardPort = s.cardPort
  chassisPort : t.chassisPort = s.chassisPort

/-- What a step of the REQUALIFY changes beside what the plan says. -/
structure State.RequalifyStep (s : State) (i : Fin 64) (t u : State) : Prop where
  steps : s.StepsBy (requalifyPlan s) i t u
  analysisQueue : u.analysisQueue = if s.unanalyses i = true then t.analysisQueue.filter (·.inst != i) else t.analysisQueue
  analysing : u.analysing = (t.analysing && !(s.unanalyses i && t.analysisQueue.head?.any fun a => a.inst == i))
  cardPort : u.cardPort = t.cardPort
  chassisPort : u.chassisPort = t.chassisPort

/-- R20: an instance that REQUALIFY passes over. -/
theorem requalifyStep_passed (hn : s.requalifies i = false) (he : t.entry i = s.entry i)
    (heng : ∀ e, s.engineOf i = some e → ∃ st, t.engine e = { s.engine e with stack := st }) : s.RequalifyStep i t t where
  steps := by
    have h := stepsBy_setEntry (s := s) (t := t) (P := requalifyPlan s) (i := i) (y := s.entry i)
      (by simp [requalifyPlan, State.resets, hn]) (by simp [requalifyPlan, State.resets, hn]) (by simp [requalifyPlan, hn])
      (by simp [requalifyPlan, hn]) (by simp [requalifyPlan, hn]) (by simp [requalifyPlan, State.requalifiesRun, hn])
      fun e _ hen => by
        obtain ⟨st, hst⟩ := heng e hen
        simp [requalifyPlan, hn, hst]
    rwa [← he, setEntry_self] at h
  analysisQueue := by simp [State.unanalyses, hn]
  analysing := by simp [State.unanalyses, hn]
  cardPort := rfl
  chassisPort := rfl

/-- R21: an instance without a run leaves its holder and is reset. -/
theorem requalifyStep_waiting (hq : s.requalifies i = true) (hrun : (s.entry i).state ≠ .running) (he : t.entry i = s.entry i)
    (hd : (s.entry i).descriptor = some d) (hsec : t.storeSection i = s.storeSection i) : s.RequalifyStep i t (t.requalifyInst i) := by
  have hresets : s.resets i = true := by simp [State.resets, hq, hrun]
  have hnorun : s.requalifiesRun i = false := by simp [State.requalifiesRun, hrun]
  obtain ⟨w, hw⟩ : ∃ w, w = (t.dropFollowUp i).detach i := ⟨_, rfl⟩
  have hdet : (t.dropFollowUp i).Detached w i := hw ▸ detach_detached ..
  have hleft : t.LeftHolder w i := hdet.toLeftHolder.of_modEntry rfl rfl rfl
  have hdrop : (t.dropFollowUp i).entry i = { s.entry i with followUp := none } := by
    rw [← he]
    exact (State.entry_modEntry ..).trans (if_pos rfl)
  have hwentry := hdet.entry
  rw [hdrop] at hwentry
  have hsection : (t.dropFollowUp i).storeSection i = s.storeSection i := hsec
  have hinst : t.requalifyInst i =
      { w with poolFree := w.poolFree + (s.entry i).failLog.length }.setEntry i
        { (s.entry i).requalified d (s.storeSection i) with followUp := none } := by
    have hreset := requalifyReset_eq (s := w) (i := i) (d := d) (by rw [hwentry]; exact hd) (s.storeSection i)
    rw [requalified_congr (w.entry i) (s.entry i) d _ none (by rw [hwentry])] at hreset
    have hlog : (w.entry i).failLog = (s.entry i).failLog := by rw [hwentry]
    rw [hlog] at hreset
    rw [← hreset, hw, ← hsection]
    unfold State.requalifyInst
    dsimp only
    rw [he]
    split
    · exact absurd ‹_› hrun
    · rfl
  rw [hinst]
  exact {
    steps := stepsBy_leftHolder hleft he hrun
      { unqueued := by simp [requalifyPlan, hq], unparked := by simp [requalifyPlan, hq], unstacked := by simp [requalifyPlan, hq],
        released := by simp [requalifyPlan, hq, hnorun] }
      ((State.entry_setEntry ..).trans ((if_pos rfl).trans (by simp [requalifyPlan, hresets, hd])))
      (fun j hj => (State.entry_setEntry ..).trans ((if_neg hj).trans ((hdet.others j hj).trans ((State.entry_modEntry ..).trans (if_neg hj)))))
      (by simp [requalifyPlan, hresets]) rfl
    analysisQueue := by
      refine hleft.analysisQueue.trans ?_
      simp [State.unanalyses, hq, he]
    analysing := by
      refine hleft.analysing.trans ?_
      simp [State.unanalyses, hq, he]
    cardPort := by rw [hleft.frame]; rfl
    chassisPort := by rw [hleft.frame]; rfl }

theorem requalify_inNoList (hr : (s.entry i).state = .running) : (requalifyPlan s).InNoList i := by
  constructor <;> simp [requalifyPlan, hr]

/-- R162: the engine with the section kept. -/
theorem saveSection_engine (st : List (Fin 64)) (hsec : t.storeSection i = s.storeSection i)
    (heng : t.engine e = { s.engine e with stack := st }) :
    ((t.dropFollowUp i).saveSection e i).engine e =
      { s.engine e with
        stack := st
        reload :=
          if (s.engine e).state = .draining ∧ (s.engine e).drainReason = some .requalify then (s.engine e).reload
          else some (s.storeSection i) } := by
  have hsec' : (t.dropFollowUp i).storeSection i = s.storeSection i := hsec
  have hdrop : (t.dropFollowUp i).engine e = { s.engine e with stack := st } := heng
  refine (State.engine_modEngine ..).trans ((if_pos rfl).trans ?_)
  rw [hdrop, hsec']
  dsimp only
  split <;> rfl

/-- R93, R162: the state in which the drain has been requested. -/
theorem requalify_requested (he : t.entry i = s.entry i) (hsec : t.storeSection i = s.storeSection i) {st : List (Fin 64)}
    (heng : t.engine e = { s.engine e with stack := st }) :
    ((t.dropFollowUp i).saveSection e i).setEngine e ((((t.dropFollowUp i).saveSection e i).engine e).drainRequested .requalify) =
      (t.setEntry i { s.entry i with followUp := none }).setEngine e { s.requalifiedEngine i (s.engine e) with stack := st } := by
  rw [saveSection_engine st hsec heng, drainRequested_congr, State.saveSection, State.modEngine, setEngine_setEngine, ← he]
  rfl

theorem requalifyInst_running (hr : (s.entry i).state = .running) (hn : s.engineOf i = some e) (he : t.entry i = s.entry i)
    (hen : t.engineOf i = s.engineOf i) : t.requalifyInst i = ((t.dropFollowUp i).saveSection e i).drainAmong e .requalify := by
  unfold State.requalifyInst
  dsimp only
  rw [he, hr]
  dsimp only
  rw [hen, hn]

/-- R93, R162: a run with something outstanding goes on draining. -/
theorem requalifyStep_drains (hq : s.requalifies i = true) (hr : (s.entry i).state = .running) (hn : s.engineOf i = some e)
    (hnow : (s.engine e).endsNow = false) (he : t.entry i = s.entry i) (hen : t.engineOf i = s.engineOf i)
    (hsec : t.storeSection i = s.storeSection i) {st : List (Fin 64)} (heng : t.engine e = { s.engine e with stack := st }) :
    s.RequalifyStep i t (t.requalifyInst i) := by
  have hend : s.requalifiesRun i = false := by simp [State.requalifiesRun, hn, hnow]
  have hresets : s.resets i = false := by simp [State.resets, hr, hend]
  have hgo := drainAmong_goes_on (s := (t.dropFollowUp i).saveSection e i) (e := e)
    (by rw [saveSection_engine st hsec heng]; exact hnow) .requalify
  rw [requalifyInst_running hr hn he hen, hgo, requalify_requested he hsec heng]
  exact {
    steps := stepsBy_run hn hr (requalify_inNoList hr)
      (by simp [requalifyPlan, hresets, hq])
      (fun j hj => (State.entry_setEntry ..).trans (if_neg hj))
      (by simp [requalifyPlan, hresets])
      (fun l => by rw [if_neg (by simp [requalifyPlan, hr, hend])]; rfl)
      (by rw [State.engine_setEngine, if_pos rfl, heng]; simp [requalifyPlan, hq, hnow])
      (fun m hm => (State.engine_setEngine ..).trans (if_neg hm)) rfl
    analysisQueue := by simp [State.unanalyses, hr]
    analysing := by simp [State.unanalyses, hr]
    cardPort := rfl
    chassisPort := rfl }

/-- R21, R93: a run with nothing outstanding is reset at once. -/
theorem requalifyStep_ends (hq : s.requalifies i = true) (hr : (s.entry i).state = .running) (hn : s.engineOf i = some e)
    (hnow : (s.engine e).endsNow = true) (hd : (s.entry i).descriptor = some d) (he : t.entry i = s.entry i)
    (hen : t.engineOf i = s.engineOf i) (hsec : t.storeSection i = s.storeSection i) {st : List (Fin 64)}
    (heng : t.engine e = { s.engine e with stack := st }) : s.RequalifyStep i t (t.requalifyInst i) := by
  have hend : s.requalifiesRun i = true := by simp [State.requalifiesRun, hq, hr, hn, hnow]
  have hresets : s.resets i = true := by simp [State.resets, hq, hend]
  have hcur : (s.engine e).current = some i := by simpa using List.find?_some hn
  have hrun := (endsNow_iff.1 hnow).1
  have hreq : s.requalifiedEngine i (s.engine e) =
      { s.engine e with state := .draining, drainReason := some .requalify, given := none, reload := some (s.storeSection i) } := by
    have hnot : ¬((s.engine e).state = .draining ∧ (s.engine e).drainReason = some .requalify) := fun h => by
      rw [h.1] at hrun
      rcases hrun with h | h <;> cases h
    rw [State.requalifiedEngine, drainRequested_of_run hrun, if_neg hnot]
  obtain ⟨g, hg⟩ : ∃ g, g = (t.setEntry i { s.entry i with followUp := none }).setEngine e
      { s.engine e with
        state := .draining, drainReason := some .requalify, given := none, reload := some (s.storeSection i), stack := st } := ⟨_, rfl⟩
  have hinst : t.requalifyInst i = g.finishDrain e := by
    have hgo := drainAmong_ends (s := (t.dropFollowUp i).saveSection e i) (e := e)
      (by rw [saveSection_engine st hsec heng]; exact hnow) .requalify
    rw [requalifyInst_running hr hn he hen, hgo, requalify_requested he hsec heng, hreq, hg]
  have hgen : g.engine e =
      { s.engine e with
        state := .draining, drainReason := some .requalify, given := none, reload := some (s.storeSection i), stack := st } := by
    rw [hg]
    exact (State.engine_setEngine ..).trans (if_pos rfl)
  have hgentry : g.entry i = { s.entry i with followUp := none } := by
    rw [hg]
    exact (State.entry_setEntry ..).trans (if_pos rfl)
  have hglink : g.linkOf i = s.linkOf i := linkOf_congr (by rw [hgentry])
  have hgsec : g.reloadSection e i = s.storeSection i := by rw [State.reloadSection, hgen]; rfl
  rw [hinst, finishDrain_requalify (d := d) (by rw [hgen]; exact hcur) (by rw [hgen]) (by rw [hgentry]; exact hd) (by rw [hgentry]),
    hgen, hgentry, hgsec, requalified_congr _ (s.entry i) d _ none rfl]
  exact {
    steps := stepsBy_run hn hr (requalify_inNoList hr)
      ((State.entry_setEntry ..).trans ((if_pos rfl).trans (by simp [requalifyPlan, hresets, hd])))
      (fun j hj => by
        refine ((State.entry_setEntry ..).trans (if_neg hj)).trans (releaseSlot_entry.trans ?_)
        rw [hg]
        exact (State.entry_setEntry ..).trans (if_neg hj))
      (by rw [hg]; simp [requalifyPlan, hresets])
      (fun l => by
        refine (releaseSlot_link l).trans ?_
        rw [hglink, hg]
        simp [requalifyPlan, hend])
      (by
        refine ((State.engine_setEngine ..).trans (if_pos rfl)).trans ?_
        simp [requalifyPlan, hq, hnow, heng])
      (fun m hm => by
        refine ((State.engine_setEngine ..).trans (if_neg hm)).trans ((releaseSlot_engine ..).trans ?_)
        rw [hg]
        exact (State.engine_setEngine ..).trans (if_neg hm))
      (by rw [releaseSlot_frame, hg]; rfl)
    analysisQueue := by rw [releaseSlot_frame, hg]; simp [State.unanalyses, hr]
    analysing := by rw [releaseSlot_frame, hg]; simp [State.unanalyses, hr]
    cardPort := by rw [releaseSlot_frame, hg]; rfl
    chassisPort := by rw [releaseSlot_frame, hg]; rfl }

end Steps

end Sys2Proof.Machine
end

section
/-!
PROOF. REQUALIFY over all instances (R20 to R22).
-/

namespace Sys2Proof.Machine

open Sys2Proof

section Requalify

variable {s t u : State} {L : List (Fin 64)} {i : Fin 64}

/-- R20, R21: the step of each instance goes by the plan. -/
theorem State.Requalified.requalifyStep (h : s.Requalified L t) (hi : i ∉ L)
    (hruns : (s.entry i).state = .running → ∃ e, s.engineOf i = some e)
    (hdefined : (s.entry i).state ≠ .vacant → ∃ d, (s.entry i).descriptor = some d) :
    s.RequalifyStep i t (if s.requalifies i = true then t.requalifyInst i else t) := by
  have he := h.swept.todo i hi
  have hsec := h.swept.storeSection i
  have hen := h.swept.engineOf (requalifyPlan_fits s) hi
  by_cases hq : s.requalifies i = true
  · rw [if_pos hq]
    have hv : (s.entry i).state ≠ .vacant := fun hv => by simp [State.requalifies, hv] at hq
    obtain ⟨d, hd⟩ := hdefined hv
    by_cases hr : (s.entry i).state = .running
    · obtain ⟨e, hn⟩ := hruns hr
      have heng := h.swept.engine hi hn
      cases hnow : (s.engine e).endsNow with
      | false => exact requalifyStep_drains hq hr hn hnow he hen hsec heng
      | true => exact requalifyStep_ends hq hr hn hnow hd he hen hsec heng
    · exact requalifyStep_waiting hq hr he hd hsec
  · rw [if_neg hq]
    exact requalifyStep_passed (Bool.eq_false_iff.2 hq) he fun e hn => ⟨_, h.swept.engine hi hn⟩

/-- R136: an analysis in progress is discarded when its instance, at the head of the queue, is taken out. -/
theorem discards_one_more (g : Fin 64 → Bool) (L : List (Fin 64)) (i : Fin 64) (b : Bool) (q : List AnalysisEntry) :
    (b && !(q.head?.any fun a => decide (a.inst ∈ L) && g a.inst) &&
        !(g i && (q.filter fun a => !(decide (a.inst ∈ L) && g a.inst)).head?.any fun a => a.inst == i)) =
      (b && !(q.head?.any fun a => decide (a.inst ∈ L ++ [i]) && g a.inst)) := by
  cases q with
  | nil => simp
  | cons a q =>
    cases hx : decide (a.inst ∈ L) && g a.inst with
    | true =>
      obtain ⟨hL, hg⟩ := Bool.and_eq_true_iff.1 hx
      have hmem : decide (a.inst ∈ L ++ [i]) = true := by simpa using .inl (of_decide_eq_true hL)
      simp only [List.head?_cons, Option.any_some, hL, hmem, hg, Bool.not_true, Bool.and_false, Bool.false_and, Bool.and_true]
    | false =>
      have hkeep : List.filter (fun a : AnalysisEntry => !(decide (a.inst ∈ L) && g a.inst)) (a :: q) =
          a :: List.filter (fun a : AnalysisEntry => !(decide (a.inst ∈ L) && g a.inst)) q :=
        List.filter_cons_of_pos (by rw [hx]; rfl)
      rw [hkeep]
      simp only [List.head?_cons, Option.any_some, hx, Bool.not_false, Bool.and_true]
      by_cases hai : a.inst = i
      · simp [hai]
      · have hmem : decide (a.inst ∈ L ++ [i]) = decide (a.inst ∈ L) := by simp [hai]
        rw [hmem, hx]
        simp [hai]

theorem State.Requalified.step (h : s.Requalified L t) (hi : i ∉ L) (k : s.RequalifyStep i t u) : s.Requalified (L ++ [i]) u where
  swept := h.swept.step (requalifyPlan_fits s) hi k.steps
  analysisQueue := by rw [k.analysisQueue, h.analysisQueue, filter_one_more (fun a : AnalysisEntry => a.inst) s.unanalyses]
  analysing := by rw [k.analysing, h.analysing, h.analysisQueue, discards_one_more]
  cardPort := k.cardPort.trans h.cardPort
  chassisPort := k.chassisPort.trans h.chassisPort

/-- R20: a REQUALIFY has passed every instance. -/
theorem requalified_all (hruns : ∀ i, (s.entry i).state = .running → ∃ e, s.engineOf i = some e)
    (hdefined : ∀ i, (s.entry i).state ≠ .vacant → ∃ d, (s.entry i).descriptor = some d) :
    s.Requalified allInsts (allInsts.foldl (fun t i => if s.requalifies i then t.requalifyInst i else t) s) :=
  foldl_insts ⟨swept_nothing s _, by simp, by cases s.analysisQueue <;> simp, rfl, rfl⟩ fun _ _ i hi h =>
    h.step hi (h.requalifyStep hi (hruns i) (hdefined i))

/-- R20: what REQUALIFY acts on. -/
theorem requalifies_iff (s : State) (i : Fin 64) : s.requalifies i = true ↔
    (s.entry i).state ≠ .vacant ∧ (s.entry i).state ≠ .retired ∧ (s.entry i).live = false ∧
      ¬((s.entry i).state = .running ∧
        ∃ e, s.engineOf i = some e ∧ (s.engine e).state = .draining ∧ (s.engine e).drainReason = some .retire) := by
  have hret : s.retiring i = true ↔ (s.entry i).state = .running ∧
      ∃ e, s.engineOf i = some e ∧ (s.engine e).state = .draining ∧ (s.engine e).drainReason = some .retire := by
    simp [State.retiring, State.drainingFor, Option.any_eq_true]
  rw [← hret]
  simp [State.requalifies, and_assoc]

/-- R20: the response of a request that the chassis port sends. -/
theorem ok_chassis (t : State) (k : RequestKind) (pl : Payload) :
    t.ok .chassis k pl = t.setPort .chassis { t.chassisPort with response := some ⟨k.code, .ok, pl⟩ } := rfl

theorem sum_map_ite (l : List (Fin 64)) (p : Fin 64 → Bool) (f : Fin 64 → Nat) :
    (l.map fun i => if p i then f i else 0).sum = ((l.filter p).map f).sum := by
  induction l with
  | nil => rfl
  | cons a l ih => cases h : p a <;> simp [h, ih]

end Requalify

end Sys2Proof.Machine

open Sys2Proof Sys2Proof.Machine

/-- Settles O27: the instances' steps by the plan of a REQUALIFY, and the engines then turn. -/
theorem requalifyResetsInstances : Obligations.RequalifyResetsInstances := by
  intro s hruns hdefined
  have h := requalified_all hruns hdefined
  have hexec : exec (.requalify .chassis) s =
      .next (s.requalifyAll.ok .chassis .requalify (.requalify (maskOf s.requalifies) (maskOf fun i => (s.entry i).live))) :=
    congrArg Host.Outcome.next (gatePort_self ..)
  rw [State.requalifyAll, ok_chassis] at hexec
  generalize allInsts.foldl (fun t i => if s.requalifies i then t.requalifyInst i else t) s = u at h hexec
  obtain ⟨m, hm, hmask⟩ : ∃ m, maskOf s.requalifies = m ∧ ∀ i, inMask m i = s.requalifies i := ⟨_, rfl, inMask_maskOf _⟩
  obtain ⟨k, hk, hskip⟩ : ∃ k, (maskOf fun i => (s.entry i).live) = k ∧ ∀ i, inMask k i = (s.entry i).live := ⟨_, rfl, inMask_maskOf _⟩
  rw [hm, hk] at hexec
  clear hm hk
  obtain ⟨⟨hdone, -, hpool, hwork, hpark, hlink, hidle, hbusy, hframe⟩, hqueue, hana, hcard, hchassis⟩ := h
  simp only [mem_allInsts, decide_true, Bool.true_and, stack_all, forall_true_left] at hdone hwork hpark hlink hidle hbusy hqueue hana
  refine ⟨u, u.turnAll, m, k, hexec, turnAll_turnAllTo u, fun i => by rw [hskip],
    fun i => by rw [hmask]; exact requalifies_iff s i, ?_⟩
  clear hexec
  refine ⟨?parts, ?frame⟩
  case frame =>
    rw [hframe, hcard, hchassis]
  case parts =>
    intro acted ended reset stack
    have hacted : ∀ st i, acted st i = (s.requalifies i && (s.entry i).state == st) := fun st i =>
      congrArg (· && (s.entry i).state == st) (hmask i)
    have hended : ∀ i, ended i = s.requalifiesRun i := fun i =>
      congrArg (· && (s.engineOf i).any fun e => (s.engine e).endsNow) (hacted .running i)
    have hreset : ∀ i, reset i = s.resets i := fun i => by
      show (inMask m i && ((s.entry i).state != .running || ended i)) = _
      rw [hmask, hended]
      rfl
    have hstack : ∀ e, stack e = (requalifyPlan s).stack s allInsts e := fun e => by
      rw [stack_all]
      simp only [stack, hacted]
      rfl
    clear_value stack reset ended acted
    simp only [hmask, hacted, hended, hreset, hstack]
    refine ⟨?passed, ?drains, ?resets, ?pool, ?work, ?park, ?queue, ?ana, ?idle, ?busy, ?links⟩
    case passed => exact fun i hq => (hdone i).trans (by simp [requalifyPlan, State.resets, hq])
    case drains => exact fun i hq hr => (hdone i).trans (by simp [requalifyPlan, hr, hq])
    case resets =>
      intro i d hr hd
      have hentry : (requalifyPlan s).entry i = { (s.entry i).requalified d (s.storeSection i) with followUp := none } := by
        simp [requalifyPlan, hr, hd]
      rw [hdone i, hentry]
      exact requalified_requalifiedTo hd _
    case pool =>
      have hfreed : (requalifyPlan s).freed = fun i => if s.resets i then (s.entry i).failLog.length else 0 := rfl
      rw [hpool, hfreed, sum_map_ite, allInsts, (funext hreset : reset = s.resets)]
    case work => exact hwork
    case park => exact hpark
    case queue => exact hqueue
    case ana => exact hana
    case links => exact hlink
    case idle =>
      intro e he
      by_cases hb : ∃ i, (s.entry i).state = .running ∧ s.engineOf i = some e
      · obtain ⟨i, hr, hi⟩ := hb
        have hq : s.requalifies i = false := by
          by_contra hq
          exact he i (by simp [hr, Bool.eq_true_of_not_eq_false hq]) hi
        rw [hbusy i e hr hi, stack_all]
        simp [requalifyPlan, hq]
      · rw [hidle e fun i hr hi => hb ⟨i, hr, hi⟩, stack_all]
    case busy =>
      intro e i hr he
      obtain ⟨hq, hrun⟩ := Bool.and_eq_true_iff.1 hr
      rw [beq_iff_eq] at hrun
      have hend : s.requalifiesRun i = (s.engine e).endsNow := by simp [State.requalifiesRun, hq, hrun, he]
      have hengine : (requalifyPlan s).engine i (s.engine e) =
          if (s.engine e).endsNow then Engine.reset else s.requalifiedEngine i (s.engine e) := if_pos hq
      rw [hbusy i e hrun he, stack_all, hend, hengine]
      split <;> rfl
end

section
/-!
PROOF. The loss of a link (R97, R108, R109): what it does to each instance.
-/

namespace Sys2Proof.Machine

open Sys2Proof

/-! ### The plan of a link loss -/

section Plan

variable (s : State) (l : Fin 4)

/-- R108: the instance stands on the link. -/
def State.onLink (i : Fin 64) : Bool := s.linkOf i == some l

/-- R97: the instance's run drains for RETIRE or REQUALIFY when its link goes DOWN. -/
def State.lostDraining (r : DrainReason) (i : Fin 64) : Bool :=
  s.onLink l i && (s.entry i).state == .running &&
    (s.engineOf i).any fun e => (s.engine e).state == .draining && (s.engine e).drainReason == some r

/-- R108 step 5: the instance becomes FAULTED. -/
def State.losesWork (i : Fin 64) : Bool :=
  s.onLink l i && !s.lostDraining l .retire i && !s.lostDraining l .requalify i &&
    ((s.entry i).state == .queued || (s.entry i).state == .running || (s.entry i).state == .suspended || (s.entry i).state == .parked)

/-- R108 step 5: the entry of an instance that becomes FAULTED. -/
def State.faultedEntry (i : Fin 64) : Entry :=
  { s.entry i with
    live := false, state := .faulted, followUp := none, suspending := none, run := { (s.entry i).run with position := .zero } }

/-- R19, R97: the entry of an instance that becomes RETIRED. -/
def State.retiredEntry (i : Fin 64) : Entry :=
  { s.entry i with
    live := false, state := .retired, followUp := none, suspending := none, reason := .none, endStamp := some s.now,
    run := { (s.entry i).run with position := .zero } }

/-- R21, R97, R162: the entry of an instance that is reset. -/
def State.lostReset (i : Fin 64) : Entry :=
  (s.entry i).descriptor.elim (s.entry i) fun d =>
    { ({ s.entry i with live := false } : Entry).requalified d
        ((s.engineOf i).elim (s.storeSection i) fun e => (s.engine e).reload.getD (s.storeSection i)) with
      followUp := none }

/-- R108: what the loss of link `l` does to each instance; the link's slots are gone already. -/
def lossPlan : Plan where
  entry i :=
    if s.lostDraining l .retire i then s.retiredEntry i
    else if s.lostDraining l .requalify i then s.lostReset i
    else if s.losesWork l i then s.faultedEntry i
    else if s.onLink l i then { s.entry i with live := false } else s.entry i
  freed i := if s.lostDraining l .requalify i then (s.entry i).failLog.length else 0
  unqueued i := s.onLink l i && (s.entry i).state == .queued
  unparked i := s.onLink l i && (s.entry i).state == .parked
  unstacked i := s.onLink l i && (s.entry i).state == .suspended
  released i := s.onLink l i && (s.entry i).state == .queued
  engine i en := if s.onLink l i then Engine.reset else en

theorem lossPlan_fits : (lossPlan s l).Fits s where
  unstacked i h := by simpa using (Bool.and_eq_true_iff.1 h).2
  current i en h := by
    unfold lossPlan
    dsimp only
    split
    · exact .inr rfl
    · exact .inl h

end Plan

/-! ### The steps of a link loss -/

section Steps

variable {s t u : State} {L : List (Fin 64)} {i : Fin 64} {e : Fin 6} {l : Fin 4} {d : Descriptor}

/-- R19: a step of a link loss raises a VERDICT notice for an instance that becomes RETIRED. -/
def State.verdictRaised (t u : State) (m : Mask) (b : Bool) : Prop :=
  ∀ p, u.port p = if b = true then { t.port p with notices := (t.port p).notices.raise (.verdict m) } else t.port p

/-- What a step of a link loss changes beside what the plan says. -/
structure State.LossStep (s : State) (l : Fin 4) (i : Fin 64) (t u : State) : Prop where
  steps : s.StepsBy (lossPlan s l) i t u
  analysisQueue : u.analysisQueue = t.analysisQueue
  analysing : u.analysing = t.analysing
  raised : t.verdictRaised u (maskBit i) (s.lostDraining l .retire i)

theorem lostDraining_of_not_running (h : (s.entry i).state ≠ .running) (r : DrainReason) : s.lostDraining l r i = false := by
  simp [State.lostDraining, h]

theorem lostDraining_of_run (ho : s.onLink l i = true) (hr : (s.entry i).state = .running) (hn : s.engineOf i = some e)
    (r : DrainReason) : s.lostDraining l r i = s.drainingFor e r := by
  simp [State.lostDraining, ho, hr, hn, State.drainingFor]

/-- An instance of another link. -/
theorem lossStep_passed (ho : s.onLink l i = false) (he : t.entry i = s.entry i)
    (heng : ∀ e, s.engineOf i = some e → ∃ st, t.engine e = { s.engine e with stack := st }) : s.LossStep l i t t where
  steps := by
    have h := stepsBy_setEntry (s := s) (t := t) (P := lossPlan s l) (i := i) (y := s.entry i)
      (by simp [lossPlan, State.lostDraining, State.losesWork, ho]) (by simp [lossPlan, State.lostDraining, ho]) (by simp [lossPlan, ho])
      (by simp [lossPlan, ho]) (by simp [lossPlan, ho]) (by simp [lossPlan, ho])
      fun e _ hen => by
        obtain ⟨st, hst⟩ := heng e hen
        simp [lossPlan, ho, hst]
    rwa [← he, setEntry_self] at h
  analysisQueue := rfl
  analysing := rfl
  raised p := by simp [State.lostDraining, ho]

/-- An instance of the link without work. -/
theorem lossStep_idle (ho : s.onLink l i = true) (he : t.entry i = s.entry i) (hq : (s.entry i).state ≠ .queued)
    (hs : (s.entry i).state ≠ .suspended) (hp : (s.entry i).state ≠ .parked) (hr : (s.entry i).state ≠ .running) :
    s.LossStep l i t (t.loseInst i) := by
  have hinst : t.loseInst i = t.setEntry i { s.entry i with live := false } := by
    unfold State.loseInst
    rw [he]
    split
    · exact absurd ‹_› hq
    · exact absurd ‹_› hs
    · exact absurd ‹_› hp
    · exact absurd ‹_› hr
    · rw [State.modEntry, he]
  rw [hinst]
  exact {
    steps := stepsBy_setEntry (by simp [lossPlan, lostDraining_of_not_running hr, State.losesWork, ho, hq, hs, hp, hr])
      (by simp [lossPlan, lostDraining_of_not_running hr]) (by simp [lossPlan, hq]) (by simp [lossPlan, hp]) (by simp [lossPlan, hs])
      (by simp [lossPlan, hq]) fun _ h => absurd h hr
    analysisQueue := rfl
    analysing := rfl
    raised := fun p => by rw [lostDraining_of_not_running hr]; rfl }

/-- R74, R78, R108: an instance of the link that waits leaves its holder and is FAULTED. -/
theorem lossStep_waiting (ho : s.onLink l i = true) (he : t.entry i = s.entry i)
    (hw : (s.entry i).state = .queued ∨ (s.entry i).state = .suspended ∨ (s.entry i).state = .parked) :
    s.LossStep l i t (t.loseInst i) := by
  have hrun : (s.entry i).state ≠ .running := by rcases hw with h | h | h <;> simp [h]
  have hana : (s.entry i).state ≠ .analysing := by rcases hw with h | h | h <;> simp [h]
  have hloses : s.losesWork l i = true := by
    rcases hw with h | h | h <;> simp [State.losesWork, lostDraining_of_not_running hrun, ho, h]
  obtain ⟨w, hw'⟩ : ∃ w, w = (t.modEntry i fun x => { x with live := false }).detach i := ⟨_, rfl⟩
  have hdet : (t.modEntry i fun x => { x with live := false }).Detached w i := hw' ▸ detach_detached ..
  have hleft : t.LeftHolder w i := hdet.toLeftHolder.of_modEntry rfl rfl rfl
  have hinst : t.loseInst i = w.setEntry i (s.faultedEntry i) := by
    have hentry := hdet.entry
    rw [State.entry_modEntry, if_pos rfl, he] at hentry
    have hfault : w.becomeFaulted i = w.setEntry i (s.faultedEntry i) := by
      rw [State.becomeFaulted, State.modEntry, hentry]
      rfl
    rw [← hfault, hw']
    unfold State.loseInst
    rw [he]
    rcases hw with h | h | h <;> rw [h]
  rw [hinst]
  exact {
    steps := stepsBy_leftHolder hleft he hrun
      { unqueued := by simp [lossPlan, ho], unparked := by simp [lossPlan, ho], unstacked := by simp [lossPlan, ho],
        released := by simp [lossPlan, ho] }
      ((State.entry_setEntry ..).trans ((if_pos rfl).trans (by simp [lossPlan, lostDraining_of_not_running hrun, hloses])))
      (fun j hj => (State.entry_setEntry ..).trans ((if_neg hj).trans ((hdet.others j hj).trans ((State.entry_modEntry ..).trans (if_neg hj)))))
      (by simp [lossPlan, lostDraining_of_not_running hrun]) rfl
    analysisQueue := by simpa [he, hana] using hleft.analysisQueue
    analysing := hleft.analysing.trans (by simp [he, hana])
    raised := fun p => by
      rw [lostDraining_of_not_running hrun, hleft.frame]
      rfl }

/-- R108: a RUNNING instance of the link that no engine holds (no reachable state has one). -/
theorem lossStep_unheld (ho : s.onLink l i = true) (hr : (s.entry i).state = .running) (hn : s.engineOf i = none)
    (he : t.entry i = s.entry i) (hen : t.engineOf i = s.engineOf i) : s.LossStep l i t (t.loseInst i) := by
  have haway : ∀ r, s.lostDraining l r i = false := fun r => by simp [State.lostDraining, hn]
  have hinst : t.loseInst i = t.setEntry i (s.faultedEntry i) := by
    unfold State.loseInst
    dsimp only
    rw [he, hr, hen, hn]
    simp [State.becomeFaulted, State.modEntry, he, State.setEntry, State.faultedEntry]
  rw [hinst]
  exact {
    steps := stepsBy_setEntry (by simp [lossPlan, haway, State.losesWork, ho, hr]) (by simp [lossPlan, haway])
      (by simp [lossPlan, hr]) (by simp [lossPlan, hr]) (by simp [lossPlan, hr]) (by simp [lossPlan, hr])
      fun _ _ h => by rw [hn] at h; cases h
    analysisQueue := rfl
    analysing := rfl
    raised := fun p => by rw [haway]; rfl }

end Steps

end Sys2Proof.Machine
end

section
/-!
PROOF. The loss of a link (R97, R108, R109): the runs it ends, and the loss over all instances.
-/

namespace Sys2Proof.Machine

open Sys2Proof

section Steps

variable {s t u : State} {L : List (Fin 64)} {i : Fin 64} {e : Fin 6} {l : Fin 4} {d : Descriptor}

/-- R97: what the loss of its link makes of a run: its entry, the fail records it frees, and the ports. -/
def State.runLost (t : State) (i : Fin 64) (e : Fin 6) (y : Entry) (n : Nat) (a b : PortState) : State :=
  { (t.setEntry i y).setEngine e { Engine.reset with stack := (t.engine e).stack } with
    poolFree := t.poolFree + n, cardPort := a, chassisPort := b }

theorem lossStep_of_runLost (ho : s.onLink l i = true) (hr : (s.entry i).state = .running) (hn : s.engineOf i = some e) {y : Entry} {n : Nat}
    {a b : PortState} (hy : y = (lossPlan s l).entry i) (hf : n = (lossPlan s l).freed i)
    (hraised : t.verdictRaised (t.runLost i e y n a b) (maskBit i) (s.lostDraining l .retire i)) :
    s.LossStep l i t (t.runLost i e y n a b) where
  steps := stepsBy_run hn hr ⟨by simp [lossPlan, hr], by simp [lossPlan, hr], by simp [lossPlan, hr]⟩
    ((State.entry_setEntry ..).trans ((if_pos rfl).trans hy))
    (fun j hj => (State.entry_setEntry ..).trans (if_neg hj))
    (by rw [← hf]; rfl)
    (fun m => by rw [if_neg (by simp [lossPlan, hr])]; rfl)
    ((State.engine_setEngine ..).trans ((if_pos rfl).trans (by simp [lossPlan, ho])))
    (fun m hm => (State.engine_setEngine ..).trans (if_neg hm)) rfl
  analysisQueue := rfl
  analysing := rfl
  raised := hraised

theorem loseInst_running (hr : (s.entry i).state = .running) (hn : s.engineOf i = some e) (he : t.entry i = s.entry i)
    (hen : t.engineOf i = s.engineOf i) :
    t.loseInst i = (t.setEntry i { s.entry i with live := false }).loseRun e i := by
  have hgo : t.loseInst i = (t.modEntry i fun x => { x with live := false }).loseRun e i := by
    unfold State.loseInst
    dsimp only
    rw [he, hr, hen, hn]
  rw [hgo, State.modEntry, he]

theorem drainingFor_of_stack {st : List (Fin 64)} (heng : t.engine e = { s.engine e with stack := st }) (y : Entry) (r : DrainReason) :
    (t.setEntry i y).drainingFor e r = s.drainingFor e r := by
  have h : (t.setEntry i y).engine e = { s.engine e with stack := st } := heng
  rw [State.drainingFor, h]
  rfl

/-- R108: a run of the link is lost and its instance FAULTED. -/
theorem lossStep_faulted (ho : s.onLink l i = true) (hr : (s.entry i).state = .running) (hn : s.engineOf i = some e)
    (hret : s.drainingFor e .retire = false) (hreq : s.drainingFor e .requalify = false) (he : t.entry i = s.entry i)
    (hen : t.engineOf i = s.engineOf i) {st : List (Fin 64)} (heng : t.engine e = { s.engine e with stack := st }) :
    s.LossStep l i t (t.loseInst i) := by
  have haway : ∀ r, s.lostDraining l r i = s.drainingFor e r := lostDraining_of_run ho hr hn
  have hinst : t.loseInst i = t.runLost i e (s.faultedEntry i) 0 t.cardPort t.chassisPort := by
    rw [loseInst_running hr hn he hen, State.loseRun, drainingFor_of_stack heng, drainingFor_of_stack heng, hret, hreq]
    simp [State.becomeFaulted, State.modEntry, State.vacate, State.modEngine, Engine.vacated, State.runLost, State.setEntry, State.setEngine,
      State.faultedEntry]
  rw [hinst]
  exact lossStep_of_runLost ho hr hn (by simp [lossPlan, haway, hret, hreq, State.losesWork, ho, hr])
    (by simp [lossPlan, haway, hreq]) fun p => by rw [haway, hret]; rfl

/-- R19, R97: a run that drains for RETIRE is RETIRED; its link is DOWN, and no FENCE is sent. -/
theorem lossStep_retired (ho : s.onLink l i = true) (hr : (s.entry i).state = .running) (hn : s.engineOf i = some e)
    (hret : s.drainingFor e .retire = true) (hdown : t.linkUp l = false) (hnow : t.now = s.now) (he : t.entry i = s.entry i)
    (hen : t.engineOf i = s.engineOf i) {st : List (Fin 64)} (heng : t.engine e = { s.engine e with stack := st }) :
    s.LossStep l i t (t.loseInst i) := by
  have haway : ∀ r, s.lostDraining l r i = s.drainingFor e r := lostDraining_of_run ho hr hn
  obtain ⟨d, hd, hl⟩ : ∃ d, (s.entry i).descriptor = some d ∧ d.link = l := by
    simpa [State.onLink, State.linkOf] using ho
  obtain ⟨w, hw⟩ : ∃ w, w = (t.setEntry i { s.entry i with live := false }).writePosition i .zero := ⟨_, rfl⟩
  have hwup : w.linkUp d.link = false := by rw [hw, hl]; exact hdown
  have hwentry : w.entry i = { s.entry i with live := false, run := { (s.entry i).run with position := .zero } } := by
    rw [hw]
    simp [State.writePosition]
  have hwnow : w.now = s.now := by rw [hw]; exact hnow
  have hlink : ∀ y, (w.setEntry i y).setLink d.link (w.link d.link) = w.setEntry i y := fun y =>
    setLink_self (w.setEntry i y) d.link
  have hinst : t.loseInst i = t.runLost i e (s.retiredEntry i) 0
      { t.cardPort with notices := t.cardPort.notices.raise (.verdict (maskBit i)) }
      { t.chassisPort with notices := t.chassisPort.notices.raise (.verdict (maskBit i)) } := by
    rw [loseInst_running hr hn he hen, State.loseRun, drainingFor_of_stack heng, hret, if_pos rfl, ← hw,
      becomeRetired_eq (d := d) (by rw [hwentry]; exact hd), if_neg (by rw [hwup]; simp), hlink, hwentry, hwnow, hw]
    simp [State.vacate, State.modEngine, Engine.vacated, State.runLost, State.setEntry, State.setEngine, State.writePosition,
      State.modEntry, State.retiredEntry, State.raiseBoth, State.raise, State.modPort, State.setPort, State.port]
  rw [hinst]
  exact lossStep_of_runLost ho hr hn (by simp [lossPlan, haway, hret]) (by
      have hreq : s.drainingFor e .requalify = false := by
        rw [State.drainingFor, Bool.and_eq_true_iff, beq_iff_eq] at hret
        rw [State.drainingFor, (beq_iff_eq.1 hret.2)]
        simp
      simp [lossPlan, haway, hreq])
    fun p => by
      rw [haway, hret]
      cases p <;> rfl

/-- R21, R97, R162: a run that drains for REQUALIFY is reset. -/
theorem lossStep_reset (ho : s.onLink l i = true) (hr : (s.entry i).state = .running) (hn : s.engineOf i = some e)
    (hret : s.drainingFor e .retire = false) (hreq : s.drainingFor e .requalify = true) (hsec : t.storeSection i = s.storeSection i)
    (he : t.entry i = s.entry i) (hen : t.engineOf i = s.engineOf i) {st : List (Fin 64)}
    (heng : t.engine e = { s.engine e with stack := st }) : s.LossStep l i t (t.loseInst i) := by
  have haway : ∀ r, s.lostDraining l r i = s.drainingFor e r := lostDraining_of_run ho hr hn
  obtain ⟨d, hd⟩ : ∃ d, (s.entry i).descriptor = some d := by
    cases hd : (s.entry i).descriptor with
    | none => simp [State.onLink, State.linkOf, hd] at ho
    | some d => exact ⟨d, rfl⟩
  obtain ⟨w, hw⟩ : ∃ w, w = (t.setEntry i { s.entry i with live := false }).dropFollowUp i := ⟨_, rfl⟩
  have hsection : (t.setEntry i { s.entry i with live := false }).reloadSection e i = (s.engine e).reload.getD (s.storeSection i) := by
    have h : (t.setEntry i { s.entry i with live := false }).engine e = { s.engine e with stack := st } := heng
    rw [State.reloadSection, h, ← hsec]
    rfl
  have hwentry : w.entry i = { s.entry i with live := false, followUp := none } := by
    rw [hw]
    simp [State.dropFollowUp]
  have hinst : t.loseInst i = t.runLost i e (s.lostReset i) (s.entry i).failLog.length t.cardPort t.chassisPort := by
    rw [loseInst_running hr hn he hen, State.loseRun, drainingFor_of_stack heng, drainingFor_of_stack heng, hret, hreq, if_neg (by simp),
      if_pos rfl, hsection, ← hw, requalifyReset_eq (d := d) (by rw [hwentry]; exact hd), hwentry,
      requalified_congr _ ({ s.entry i with live := false }) d _ none rfl, hw]
    simp [State.vacate, State.modEngine, Engine.vacated, State.runLost, State.setEntry, State.setEngine, State.dropFollowUp,
      State.modEntry, State.lostReset, hd, hn]
  rw [hinst]
  exact lossStep_of_runLost ho hr hn (by simp [lossPlan, haway, hret, hreq]) (by simp [lossPlan, haway, hreq])
    fun p => by rw [haway, hret]; rfl

end Steps

end Sys2Proof.Machine
end

section
/-!
PROOF. The loss of a link (R97, R108, R109) over all instances.
-/

namespace Sys2Proof.Machine

open Sys2Proof

section Loss

variable {s t u : State} {L : List (Fin 64)} {i : Fin 64} {e : Fin 6} {l : Fin 4} {r : DownReason}

/-- R19: the instances of `L` that a loss of link `l` makes RETIRED. -/
def State.retiredAmong (s : State) (l : Fin 4) (L : List (Fin 64)) : Mask :=
  maskOf fun i => decide (i ∈ L) && s.lostDraining l .retire i

/-- R108: where the loss of link `l` has come to when the instances of `L` have been passed. -/
structure State.Lost (s : State) (l : Fin 4) (L : List (Fin 64)) (t : State) : Prop where
  swept : s.Swept (lossPlan s l) L t
  analysisQueue : t.analysisQueue = s.analysisQueue
  analysing : t.analysing = s.analysing
  raised : s.verdictRaised t (s.retiredAmong l L) (s.retiredAmong l L != 0)

/-- R108: the step of each instance goes by the plan. -/
theorem State.Lost.lossStep (h : s.Lost l L t) (hi : i ∉ L) (hdown : s.linkUp l = false) :
    s.LossStep l i t (if s.linkOf i = some l then t.loseInst i else t) := by
  have he := h.swept.todo i hi
  have hen := h.swept.engineOf (lossPlan_fits s l) hi
  by_cases ho : s.linkOf i = some l
  · rw [if_pos ho]
    have hon : s.onLink l i = true := beq_iff_eq.2 ho
    have htdown : t.linkUp l = false := by rw [State.linkUp, h.swept.link l]; exact hdown
    by_cases hr : (s.entry i).state = .running
    · cases hn : s.engineOf i with
      | none => exact lossStep_unheld hon hr hn he hen
      | some e =>
        have heng := h.swept.engine hi hn
        cases hret : s.drainingFor e .retire with
        | true => exact lossStep_retired hon hr hn hret htdown h.swept.now he hen heng
        | false =>
          cases hreq : s.drainingFor e .requalify with
          | true => exact lossStep_reset hon hr hn hret hreq (h.swept.storeSection i) he hen heng
          | false => exact lossStep_faulted hon hr hn hret hreq he hen heng
    · by_cases hw : (s.entry i).state = .queued ∨ (s.entry i).state = .suspended ∨ (s.entry i).state = .parked
      · exact lossStep_waiting hon he hw
      · rw [not_or, not_or] at hw
        obtain ⟨hq, hs, hp⟩ := hw
        exact lossStep_idle hon he hq hs hp hr
  · rw [if_neg ho]
    exact lossStep_passed (by simpa [State.onLink] using ho) he fun e hn => ⟨_, h.swept.engine hi hn⟩

/-- R171: a raised VERDICT joins those raised before. -/
theorem raise_verdict_raise (n : NoticeSet) (a b : Mask) : (n.raise (.verdict a)).raise (.verdict b) = n.raise (.verdict (a ||| b)) := by
  cases h : n.verdict with
  | none => simp [NoticeSet.raise, joinMask, h]
  | some m => simp [NoticeSet.raise, joinMask, h, BitVec.or_assoc]

theorem retiredAmong_one_more (s : State) (l : Fin 4) (L : List (Fin 64)) (i : Fin 64) :
    s.retiredAmong l (L ++ [i]) = if s.lostDraining l .retire i = true then s.retiredAmong l L ||| maskBit i else s.retiredAmong l L := by
  refine mask_ext fun j => ?_
  by_cases hj : j = i
  · subst hj
    split <;> simp [State.retiredAmong, *]
  · split <;> simp [State.retiredAmong, hj]

theorem or_maskBit_ne_zero (m : Mask) (i : Fin 64) : m ||| maskBit i ≠ 0 := fun h => by
  have hi : inMask (m ||| maskBit i) i = inMask (0 : Mask) i := by rw [h]
  simp at hi

theorem State.Lost.step (h : s.Lost l L t) (hi : i ∉ L) (k : s.LossStep l i t u) : s.Lost l (L ++ [i]) u where
  swept := h.swept.step (lossPlan_fits s l) hi k.steps
  analysisQueue := k.analysisQueue.trans h.analysisQueue
  analysing := k.analysing.trans h.analysing
  raised p := by
    rw [k.raised p, h.raised p, retiredAmong_one_more]
    cases hret : s.lostDraining l .retire i with
    | false => simp
    | true =>
      have hne : (s.retiredAmong l L ||| maskBit i != 0) = true := bne_iff_ne.2 (or_maskBit_ne_zero _ i)
      rw [if_pos rfl, if_pos rfl, if_pos hne]
      by_cases hz : s.retiredAmong l L = 0
      · rw [if_neg (by simp [hz]), hz]
        simp
      · rw [if_pos (bne_iff_ne.2 hz), raise_verdict_raise]

/-- R108: the loss of a link that is DOWN already has passed every instance. -/
theorem lost_all (hdown : s.linkUp l = false) :
    s.Lost l allInsts (allInsts.foldl (fun t i => if s.linkOf i = some l then t.loseInst i else t) s) :=
  foldl_insts ⟨swept_nothing s _, rfl, rfl, fun p => by simp [State.retiredAmong, (maskOf_eq_zero fun _ => false).2]⟩
    fun _ _ _ hi h => h.step hi (h.lossStep hi hdown)

/-- R108: link `l` of state `s`, cut off. -/
def State.cutOff (s : State) (l : Fin 4) (r : DownReason) : State :=
  s.setLink l { s.link l with down := some r, tags := [], loads := [], pulls := [], slots := [] }

theorem cutOff_down (s : State) (l : Fin 4) (r : DownReason) : (s.cutOff l r).linkUp l = false := by
  rw [State.linkUp, State.cutOff, State.link_setLink, if_pos rfl]
  rfl

/-- R108, R109: a link's loss: the instances in turn, then the engines, then the notices. -/
theorem linkDown_eq (s : State) (l : Fin 4) (r : DownReason) : s.linkDown l r =
    ((((allInsts.foldl (fun t i => if (s.cutOff l r).linkOf i = some l then t.loseInst i else t) (s.cutOff l r)).turnAll).raiseBoth
      (.link (linkBit l))).raiseBoth (.fault (s.faultMask l))) := rfl

/-- R108 step 5, R109: what becomes FAULTED. -/
theorem faultsOnLoss_iff (s : State) (l : Fin 4) (i : Fin 64) : (s.linkOf i == some l && s.faultsOnLoss i) = s.losesWork l i := by
  have haway : ∀ o : Option (Fin 6), o.any s.drainsAway = (o.any (s.drainingFor · .retire) || o.any (s.drainingFor · .requalify)) := by
    intro o
    cases o <;> rfl
  unfold State.losesWork State.lostDraining State.onLink State.faultsOnLoss
  cases hl : s.linkOf i == some l with
  | false => simp
  | true =>
    cases hs : (s.entry i).state with
    | running =>
      simp [haway, State.drainingFor, Bool.not_or]
    | _ => rfl

end Loss

end Sys2Proof.Machine
end

section
/-!
PROOF. The bytes of a RESULT (R103, R175, section 11.5): what is spelled and what is read are the same.
-/

namespace Sys2Proof.Machine

open Sys2Proof

/-! ### Bits and bytes -/

section Bits

/-- Section 11.5: the eight bits of a byte, bit 7 first. -/
def bitsOfByte (b : Byte) : List Bool := [7, 6, 5, 4, 3, 2, 1, 0].map b.getLsbD

theorem bitsOf_cons (b : Byte) (l : List Byte) : bitsOf (b :: l) = bitsOfByte b ++ bitsOf l := rfl

theorem length_bitsOf (l : List Byte) : (bitsOf l).length = 8 * l.length := by
  induction l with
  | nil => rfl
  | cons b l ih =>
    rw [bitsOf_cons, List.length_append, ih, List.length_cons]
    simp [bitsOfByte]
    omega

/-- A byte spells the eight bits it is made of. -/
theorem bitsOfByte_packByte (l : List Bool) : bitsOfByte (packByte l) = (List.range 8).map fun k => l.getD k false := by
  have bits : ∀ a b c d e f g h : Bool,
      bitsOfByte (BitVec.ofNat 8 (2 * (2 * (2 * (2 * (2 * (2 * (2 * (2 * 0 + a.toNat) + b.toNat) + c.toNat) + d.toNat) + e.toNat) +
        f.toNat) + g.toNat) + h.toNat)) = [a, b, c, d, e, f, g, h] := by decide
  exact bits ..

theorem bitsOfByte_inj : ∀ {a b : Byte}, bitsOfByte a = bitsOfByte b → a = b := by
  intro a b h
  have hb : ∀ k, k < 8 → a.getLsbD k = b.getLsbD k := by
    simp only [bitsOfByte, List.map_cons, List.map_nil, List.cons.injEq, and_true] at h
    obtain ⟨h7, h6, h5, h4, h3, h2, h1, h0⟩ := h
    intro k hk
    interval_cases k <;> assumption
  exact BitVec.eq_of_getLsbD_eq hb

theorem bitsOf_inj : ∀ {l m : List Byte}, bitsOf l = bitsOf m → l = m
  | [], [], _ => rfl
  | [], b :: m, h => nomatch h
  | a :: l, [], h => nomatch h
  | a :: l, b :: m, h => by
    obtain ⟨hab, hlm⟩ := List.append_inj h rfl
    rw [bitsOfByte_inj hab, bitsOf_inj hlm]

/-- Eight places of a list, filled up with zeros. -/
theorem range_getD (v : List Bool) :
    ((List.range 8).map fun k => v.getD k false) = v.take 8 ++ List.replicate (8 - v.length) false := by
  refine List.ext_getElem (by simp; omega) fun k hk _ => ?_
  have hk8 : k < 8 := by simpa using hk
  rw [List.getElem_map, List.getElem_range]
  by_cases hv : k < v.length
  · rw [List.getElem_append_left (by simp; omega), List.getElem_take, List.getD_eq_getElem _ _ hv]
  · rw [List.getElem_append_right (by simp; omega), List.getElem_replicate, List.getD_eq_default _ _ (by omega)]

/-- Section 11.5: the bytes of some bits spell them, unused low bits 0. -/
theorem bitsOf_packBits (n : Nat) (v : List Bool) (h : v.length ≤ 8 * n) :
    bitsOf (packBits n v) = v ++ List.replicate (8 * n - v.length) false := by
  induction n generalizing v with
  | zero =>
    obtain rfl : v = [] := List.length_eq_zero_iff.1 (by omega)
    rfl
  | succ n ih =>
    have hpad : 8 - min 8 v.length = 8 - v.length := by omega
    rw [packBits, bitsOf_cons, ih (v.drop 8) (by rw [List.length_drop]; omega), bitsOfByte_packByte, range_getD, List.length_drop,
      List.take_take, Nat.min_self, List.length_take, hpad]
    by_cases hv : 8 ≤ v.length
    · rw [Nat.sub_eq_zero_of_le hv, List.replicate_zero, List.append_nil, ← List.append_assoc, List.take_append_drop]
      congr 2
      omega
    · rw [List.take_of_length_le (by omega), List.drop_eq_nil_of_le (by omega), List.nil_append, List.append_assoc,
        List.replicate_append_replicate]
      congr 2
      omega

theorem length_packBits (n : Nat) (v : List Bool) : (packBits n v).length = n := by
  induction n generalizing v with
  | zero => rfl
  | succ n ih => rw [packBits, List.length_cons, ih]

/-- R175: what a mismatch vector is read from. -/
theorem vectorOf_eq_some {w : Nat} {l : List Byte} {v : List Bool} (hl : l.length = vectorBytes w) :
    vectorOf w l = some v ↔ l = packBits ((v.length + 7) / 8) v ∧ v.length = w := by
  have hlen := length_bitsOf l
  have hw : w ≤ 8 * l.length := by rw [hl, vectorBytes]; omega
  unfold vectorOf
  dsimp only
  constructor
  · intro h
    split at h
    · cases h
    · rename_i hz
      obtain rfl := Option.some.inj h
      have hvlen : ((bitsOf l).take w).length = w := by rw [List.length_take]; omega
      refine ⟨bitsOf_inj ?_, hvlen⟩
      rw [hvlen, bitsOf_packBits _ _ (by rw [hvlen]; omega), hvlen]
      have hdrop : (bitsOf l).drop w = List.replicate (8 * ((w + 7) / 8) - w) false := by
        refine List.eq_replicate_iff.2 ⟨?_, fun b hb => ?_⟩
        · rw [List.length_drop, hlen, hl, vectorBytes]
        · simpa using fun hb' => hz (List.any_eq_true.2 ⟨b, hb, hb'⟩)
      rw [← hdrop, List.take_append_drop]
  · rintro ⟨hlv, rfl⟩
    rw [hlv, bitsOf_packBits _ _ (by omega)]
    simp

end Bits

end Sys2Proof.Machine
end

section
/-!
PROOF. The entries of a RESULT (R103, R175, section 11.5): a list is read exactly from the bytes that spell it.
-/

namespace Sys2Proof.Machine

open Sys2Proof

section Numbers

theorem numberAt_byte (b : Byte) (l : List Byte) : numberAt (b :: l) 0 1 = b.toNat := by
  simp [numberAt, numberOf]

theorem bytesOf_two_numberOf (a b : Byte) : bytesOf 2 (numberOf [a, b]) = [a, b] := by
  have ha := a.isLt
  have hb := b.isLt
  have h : numberOf [a, b] = 256 * a.toNat + b.toNat := by simp [numberOf]
  rw [h, bytesOf_two]
  congr
  · exact BitVec.eq_of_toNat_eq (by rw [BitVec.toNat_ofNat]; omega)
  · exact BitVec.eq_of_toNat_eq (by rw [BitVec.toNat_ofNat]; omega)

theorem bytesOf_three_numberOf (a b c : Byte) : bytesOf 3 (numberOf [a, b, c]) = [a, b, c] := by
  have ha := a.isLt
  have hb := b.isLt
  have hc := c.isLt
  have h : numberOf [a, b, c] = 256 * (256 * a.toNat + b.toNat) + c.toNat := by simp [numberOf]
  rw [h, bytesOf_three]
  congr
  · exact BitVec.eq_of_toNat_eq (by rw [BitVec.toNat_ofNat]; omega)
  · exact BitVec.eq_of_toNat_eq (by rw [BitVec.toNat_ofNat]; omega)
  · exact BitVec.eq_of_toNat_eq (by rw [BitVec.toNat_ofNat]; omega)

theorem numberOf_two_lt (a b : Byte) : numberOf [a, b] < 65536 := by
  have ha := a.isLt
  have hb := b.isLt
  simp only [numberOf, List.foldl_cons, List.foldl_nil]
  omega

theorem numberOf_three_lt (a b c : Byte) : numberOf [a, b, c] < 16777216 := by
  have ha := a.isLt
  have hb := b.isLt
  have hc := c.isLt
  simp only [numberOf, List.foldl_cons, List.foldl_nil]
  omega

end Numbers

section Entries

/-- Section 11.5: the bytes of one entry of a RESULT's list. -/
def entryBytes (m : Mismatch) : List Byte :=
  bytesOf 2 m.column ++ (m.vector.elim [] fun v => packBits ((v.length + 7) / 8) v)

/-- R103: an entry has the shape of a burst with this read-check flag and width. -/
def entryShaped (readCheck : Bool) (w : Nat) (m : Mismatch) : Prop :=
  m.column < 65536 ∧ if readCheck = true then m.vector = none else ∃ v, m.vector = some v ∧ v.length = w

variable {rc : Bool} {w : Nat}

theorem length_entryBytes {m : Mismatch} (h : entryShaped rc w m) : (entryBytes m).length = mismatchBytes rc w := by
  obtain ⟨-, hv⟩ := h
  unfold entryBytes mismatchBytes
  rw [bytesOf_two]
  cases rc with
  | true =>
    rw [if_pos rfl] at hv
    rw [hv]
    rfl
  | false =>
    rw [if_neg (by simp)] at hv
    obtain ⟨v, hv, hlen⟩ := hv
    rw [hv]
    simp only [Option.elim_some, List.length_append, List.length_cons, List.length_nil, length_packBits, hlen, vectorBytes]
    rfl

/-- R175: an entry is read from the bytes that spell it, and from no others. -/
theorem mismatchOf_eq_some {l : List Byte} (hl : l.length = mismatchBytes rc w) {m : Mismatch} :
    mismatchOf rc w l = some m ↔ l = entryBytes m ∧ entryShaped rc w m := by
  obtain ⟨a, b, t, rfl⟩ : ∃ a b t, l = a :: b :: t := by
    match l, hl with
    | [], hl => simp [mismatchBytes] at hl; split at hl <;> omega
    | [a], hl => simp [mismatchBytes] at hl; split at hl <;> omega
    | a :: b :: t, _ => exact ⟨a, b, t, rfl⟩
  have hcol : numberAt (a :: b :: t) 0 2 = numberOf [a, b] := rfl
  have hbytes : ∀ c, c < 65536 → bytesOf 2 c = [a, b] → c = numberOf [a, b] := fun c hc h => by
    rw [← h, numberOf_bytesOf_two hc]
  obtain ⟨c, v⟩ := m
  unfold mismatchOf entryBytes entryShaped
  rw [hcol]
  cases rc with
  | true =>
    have ht : t = [] := by
      rw [mismatchBytes, if_pos rfl] at hl
      simpa using hl
    subst ht
    rw [if_pos rfl, if_pos rfl]
    constructor
    · intro h
      cases h
      exact ⟨by simp [bytesOf_two_numberOf], numberOf_two_lt a b, rfl⟩
    · rintro ⟨h, hc, rfl⟩
      rw [hbytes c hc (by simpa using h.symm)]
  | false =>
    have ht : t.length = vectorBytes w := by
      rw [mismatchBytes, if_neg (by simp)] at hl
      simp only [List.length_cons] at hl
      omega
    rw [if_neg (by simp), if_neg (by simp)]
    constructor
    · intro h
      obtain ⟨x, hx, hm⟩ := Option.map_eq_some_iff.1 h
      obtain ⟨hspell, hlen⟩ := (vectorOf_eq_some ht).1 hx
      cases hm
      exact ⟨by rw [bytesOf_two_numberOf]; exact congrArg (a :: b :: ·) hspell, numberOf_two_lt a b, x, rfl, hlen⟩
    · rintro ⟨h, hc, x, rfl, hlen⟩
      obtain ⟨hab, hspell⟩ := List.append_inj (s₁ := [a, b]) h (by rw [bytesOf_two]; rfl)
      rw [hbytes c hc hab.symm]
      exact Option.map_eq_some_iff.2 ⟨x, (vectorOf_eq_some ht).2 ⟨hspell, hlen⟩, rfl⟩

/-- Records of one size, read one after another. -/
theorem mapM_chunks_eq_some {α : Type} {f : List Byte → Option α} {enc : α → List Byte} {ok : α → Prop} {k : Nat}
    (hlen : ∀ x, ok x → (enc x).length = k) (hf : ∀ c, c.length = k → ∀ x, f c = some x ↔ c = enc x ∧ ok x) (n : Nat) (l : List Byte)
    (hl : l.length = k * n) (xs : List α) :
    ((List.range n).mapM fun j => f ((l.drop (k * j)).take k)) = some xs ↔
      xs.length = n ∧ l = xs.flatMap enc ∧ ∀ x ∈ xs, ok x := by
  induction n generalizing l xs with
  | zero =>
    obtain rfl : l = [] := List.length_eq_zero_iff.1 hl
    cases xs <;> simp
  | succ n ih =>
    have hk : k * (n + 1) = k + k * n := by rw [Nat.mul_succ, Nat.add_comm]
    have hhead : (l.take k).length = k := by rw [List.length_take]; omega
    have htail : (l.drop k).length = k * n := by rw [List.length_drop]; omega
    have hrest : (List.map Nat.succ (List.range n)).mapM (fun j => f ((l.drop (k * j)).take k)) =
        (List.range n).mapM fun j => f (((l.drop k).drop (k * j)).take k) := by
      rw [List.mapM_map]
      congr 1
      funext j
      rw [Function.comp, List.drop_drop, Nat.mul_succ, Nat.add_comm]
    rw [List.range_succ_eq_map, List.mapM_cons, hrest]
    constructor
    · intro h
      simp only [bind, Option.bind_eq_some_iff, pure, Option.some.injEq, Nat.mul_zero, List.drop_zero] at h
      obtain ⟨x, hx, ys, hys, rfl⟩ := h
      obtain ⟨hspell, hok⟩ := (hf _ hhead x).1 hx
      obtain ⟨hlen', hspells, hoks⟩ := (ih _ htail ys).1 hys
      refine ⟨by rw [List.length_cons, hlen'], ?_, List.forall_mem_cons.2 ⟨hok, hoks⟩⟩
      rw [List.flatMap_cons, ← hspell, ← hspells, List.take_append_drop]
    · rintro ⟨hlen', hspell, hok⟩
      cases xs with
      | nil => cases hlen'
      | cons x ys =>
        obtain ⟨hx, hys⟩ := List.forall_mem_cons.1 hok
        rw [List.flatMap_cons] at hspell
        have htake : l.take k = enc x := by rw [hspell, List.take_left' (hlen x hx)]
        have hdrop : l.drop k = ys.flatMap enc := by rw [hspell, List.drop_left' (hlen x hx)]
        simp only [bind, Option.bind_eq_some_iff, pure, Option.some.injEq, Nat.mul_zero, List.drop_zero]
        exact ⟨x, (hf _ hhead x).2 ⟨htake, hx⟩, ys, (ih _ htail ys).2 ⟨Nat.succ.inj hlen', hdrop, hys⟩, rfl⟩

theorem length_flatMap_entries {ms : List Mismatch} (h : ∀ m ∈ ms, entryShaped rc w m) :
    (ms.flatMap entryBytes).length = mismatchBytes rc w * ms.length := by
  induction ms with
  | nil => rfl
  | cons m ms ih =>
    obtain ⟨hm, hms⟩ := List.forall_mem_cons.1 h
    rw [List.flatMap_cons, List.length_append, length_entryBytes hm, ih hms, List.length_cons, Nat.mul_succ, Nat.add_comm]

/-- R175: a RESULT's list is read from the bytes that spell it, and from no others. -/
theorem mismatchesOf_eq_some {a b c n : Byte} {l : List Byte} {ms : List Mismatch} :
    mismatchesOf rc w (a :: b :: c :: n :: l) = some ms ↔
      n.toNat = ms.length ∧ ms.length ≤ 64 ∧ l = ms.flatMap entryBytes ∧ ∀ m ∈ ms, entryShaped rc w m := by
  have hn : numberAt (a :: b :: c :: n :: l) 3 1 = n.toNat := numberAt_byte n l
  have hread : ∀ j, ((a :: b :: c :: n :: l).drop (4 + mismatchBytes rc w * j)).take (mismatchBytes rc w) =
      (l.drop (mismatchBytes rc w * j)).take (mismatchBytes rc w) := fun j => by
    rw [← List.drop_drop]
    rfl
  unfold mismatchesOf
  dsimp only
  simp only [hn, hread, List.length_cons]
  constructor
  · intro h
    split at h
    · rename_i hsize
      obtain ⟨h64, hlen⟩ := hsize
      obtain ⟨hms, hspell, hok⟩ := (mapM_chunks_eq_some (fun _ => length_entryBytes) (fun _ hc _ => mismatchOf_eq_some hc) n.toNat l
        (by omega) ms).1 h
      exact ⟨hms.symm, by omega, hspell, hok⟩
    · cases h
  · rintro ⟨hms, h64, hspell, hok⟩
    have hlen : l.length = mismatchBytes rc w * n.toNat := by rw [hspell, length_flatMap_entries hok, hms]
    rw [if_pos ⟨by omega, by omega⟩]
    exact (mapM_chunks_eq_some (fun _ => length_entryBytes) (fun _ hc _ => mismatchOf_eq_some hc) n.toNat l hlen ms).2
      ⟨hms.symm, hspell, hok⟩

end Entries

end Sys2Proof.Machine
end

section
/-!
PROOF. The messages that a link takes (R103, R105, R175): exactly those that are not malformed.
-/

namespace Sys2Proof.Machine

open Sys2Proof

section Messages

variable {s : State} {l : Fin 4}

/-- R103: a RESULT that is well formed names a burst that it fits. -/
theorem resultWellFormed_iff {tag : Fin 8} {o : ResultOutcome} {ms : List Mismatch} :
    s.resultWellFormed l tag o ms = true ↔ ∃ e i d b, s.resultBurst l tag = some (e, i, d, b) ∧ resultFits d b o ms = true := by
  simp [State.resultWellFormed, Option.any_eq_true]

/-- R103: the entries of a fitting list have the burst's shape. -/
theorem resultFits_shaped {d : Descriptor} {b : Burst} {o : ResultOutcome} {ms : List Mismatch} (h : resultFits d b o ms = true)
    (hc : ∀ m ∈ ms, m.column < 65536) : ms.length ≤ 64 ∧ ∀ m ∈ ms, entryShaped b.readCheck d.width m := by
  unfold resultFits at h
  cases o with
  | pass =>
    have hnil : ms = [] := by simpa using h
    subst hnil
    exact ⟨Nat.zero_le _, fun m hm => nomatch hm⟩
  | fail =>
    simp only [Bool.and_eq_true, decide_eq_true_eq, List.all_eq_true] at h
    obtain ⟨⟨⟨⟨-, h64⟩, -⟩, -⟩, hall⟩ := h
    refine ⟨h64, fun m hm => ⟨hc m hm, ?_⟩⟩
    have hv := (hall m hm).2
    cases hmv : m.vector with
    | none =>
      rw [hmv] at hv
      rw [if_pos hv]
    | some v =>
      rw [hmv] at hv
      simp only [Bool.and_eq_true, Bool.not_eq_true', beq_iff_eq] at hv
      rw [if_neg (by rw [hv.1]; simp)]
      exact ⟨v, rfl, hv.2⟩

theorem outcomeOf_eq_some {n : Nat} {o : ResultOutcome} : outcomeOf n = some o ↔ n = if o = .fail then 1 else 0 := by
  unfold outcomeOf
  cases o <;> split <;> simp_all

/-- R175: what a RESULT's command is read from. -/
theorem resultCommand_eq_some {b0 b1 b2 b3 : Byte} {rest : List Byte} {c : Instr} :
    s.resultCommand l (b0 :: b1 :: b2 :: b3 :: rest) = some c ↔
      ∃ (h : b1.toNat < 8) (o : ResultOutcome) (e : Fin 6) (i : Fin 64) (d : Descriptor) (b : Burst) (ms : List Mismatch),
        outcomeOf b2.toNat = some o ∧ s.resultBurst l ⟨b1.toNat, h⟩ = some (e, i, d, b) ∧
          mismatchesOf b.readCheck d.width (b0 :: b1 :: b2 :: b3 :: rest) = some ms ∧ c = .result l ⟨b1.toNat, h⟩ o ms := by
  have h1 : numberAt (b0 :: b1 :: b2 :: b3 :: rest) 1 1 = b1.toNat := numberAt_byte b1 _
  have h2 : numberAt (b0 :: b1 :: b2 :: b3 :: rest) 2 1 = b2.toNat := numberAt_byte b2 _
  unfold State.resultCommand
  simp only [h1, h2]
  constructor
  · intro h
    split at h
    · rename_i hlt
      split at h
      · rename_i o e i d b ho hb
        obtain ⟨ms, hms, hc⟩ := Option.map_eq_some_iff.1 h
        exact ⟨hlt, o, e, i, d, b, ms, ho, hb, hms, hc.symm⟩
      · cases h
    · cases h
  · rintro ⟨hlt, o, e, i, d, b, ms, ho, hb, hms, rfl⟩
    rw [dif_pos hlt]
    simp only [ho, hb, hms]
    rfl

theorem entryBytes_eq (ms : List Mismatch) :
    (ms.flatMap fun m => bytesOf 2 m.column ++ (m.vector.elim [] fun v => packBits ((v.length + 7) / 8) v)) = ms.flatMap entryBytes := rfl

/-- Section 11.5: the fields of a RESULT's bytes. -/
theorem resultBytes_eq_iff {b1 b2 b3 : Byte} {rest : List Byte} {tag : Fin 8} {o : ResultOutcome} {ms : List Mismatch}
    (h64 : ms.length ≤ 64) :
    17 :: b1 :: b2 :: b3 :: rest = resultBytes tag o ms ↔
      b1.toNat = tag.val ∧ outcomeOf b2.toNat = some o ∧ b3.toNat = ms.length ∧ rest = ms.flatMap entryBytes := by
  have hb1 : b1 = BitVec.ofNat 8 tag.val ↔ b1.toNat = tag.val := by
    rw [← BitVec.toNat_inj, BitVec.toNat_ofNat, Nat.mod_eq_of_lt (by omega)]
  have hb2 : (b2 = if o = .fail then 1 else 0) ↔ b2.toNat = if o = .fail then 1 else 0 := by
    rw [← BitVec.toNat_inj]
    split <;> rfl
  have hb3 : b3 = BitVec.ofNat 8 ms.length ↔ b3.toNat = ms.length := by
    rw [← BitVec.toNat_inj, BitVec.toNat_ofNat, Nat.mod_eq_of_lt (by omega)]
  unfold resultBytes
  rw [entryBytes_eq, outcomeOf_eq_some, ← hb1, ← hb2, ← hb3]
  simp

/-- R103, R175: a RESULT's bytes are taken exactly when they spell a well-formed RESULT. -/
theorem takesResult_iff {b1 b2 b3 : Byte} {rest : List Byte} :
    (∃ tag o ms, s.resultWellFormed l tag o ms = true ∧ (∀ x ∈ ms, x.column < 65536) ∧
        17 :: b1 :: b2 :: b3 :: rest = resultBytes tag o ms) ↔
      ∃ tag o ms, s.resultCommand l (17 :: b1 :: b2 :: b3 :: rest) = some (.result l tag o ms) ∧ s.resultWellFormed l tag o ms = true := by
  constructor
  · rintro ⟨tag, o, ms, hw, hc, hbs⟩
    obtain ⟨e, i, d, b, hb, hfit⟩ := resultWellFormed_iff.1 hw
    obtain ⟨h64, hshape⟩ := resultFits_shaped hfit hc
    obtain ⟨htag, ho, hn, hrest⟩ := (resultBytes_eq_iff h64).1 hbs
    have hlt : b1.toNat < 8 := htag ▸ tag.isLt
    obtain rfl : tag = ⟨b1.toNat, hlt⟩ := Fin.ext htag.symm
    exact ⟨_, o, ms, resultCommand_eq_some.2 ⟨hlt, o, e, i, d, b, ms, ho, hb, mismatchesOf_eq_some.2 ⟨hn, h64, hrest, hshape⟩, rfl⟩, hw⟩
  · rintro ⟨tag, o, ms, hcmd, hw⟩
    obtain ⟨hlt, o', e, i, d, b, ms', ho, -, hms, heq⟩ := resultCommand_eq_some.1 hcmd
    obtain ⟨-, rfl, rfl, rfl⟩ := Instr.result.inj heq
    obtain ⟨hn, h64, hrest, hshape⟩ := mismatchesOf_eq_some.1 hms
    exact ⟨_, o, ms, hw, fun x hx => (hshape x hx).1, (resultBytes_eq_iff h64).2 ⟨rfl, ho, hn, hrest⟩⟩

end Messages

end Sys2Proof.Machine
end

section
/-!
PROOF. The messages that a link takes (R105, R175), by their codes.
-/

namespace Sys2Proof.Machine

open Sys2Proof

section Messages

variable {s : State} {l : Fin 4}

theorem byte_of_toNat {b : Byte} {n : Nat} (h : b.toNat = n) : b = BitVec.ofNat 8 n := by rw [← h, BitVec.ofNat_toNat, BitVec.setWidth_eq]

/-- A message of a device that carries nothing that can be wrong. -/
def plainMessage (bs : List Byte) : Prop :=
  bs = [19] ∨ bs = [20] ∨ ∃ m : Byte, bs = [21, m] ∨ bs = [22, m] ∨ bs = [23, m]

/-- Section 11.5: the bytes of a device's GUARD. -/
def guardMessage (bs : List Byte) : Prop :=
  ∃ (m set : Byte) (a b : Nat), a < 16777216 ∧ b < 16777216 ∧ (set = 0 ∨ set = 1) ∧ bs = [24, m] ++ bytesOf 3 a ++ bytesOf 3 b ++ [set]

theorem takesMessage_iff (s : State) (l : Fin 4) (bs : List Byte) :
    s.takesMessage l bs ↔ plainMessage bs ∨ (∃ u ∈ (s.link l).loads, bs = [18, BitVec.ofNat 8 u.memId.val]) ∨ guardMessage bs ∨
      ∃ tag o ms, s.resultWellFormed l tag o ms = true ∧ (∀ x ∈ ms, x.column < 65536) ∧ bs = resultBytes tag o ms := by
  unfold State.takesMessage plainMessage guardMessage
  rw [or_assoc, or_assoc]

/-- R103 to R105: the link takes the command that a message spells. -/
def State.takesCommand (s : State) (l : Fin 4) : Instr → Prop
  | .result _ tag o ms => s.resultWellFormed l tag o ms = true
  | .loadDone _ m => ∃ u ∈ (s.link l).loads, u.memId = m
  | _ => True

theorem loadFor_isNone {m : Fin 256} : (s.loadFor l m).isNone = false ↔ ∃ u ∈ (s.link l).loads, u.memId = m := by
  rw [Option.isNone_eq_false_iff]
  simp [State.loadFor, List.find?_isSome]

/-- R105: a message is not malformed when it spells a command that the link takes. -/
theorem isMalformed_eq_false {bs : List Byte} :
    s.isMalformed l bs = false ↔ ∃ c, s.deviceCommand l bs = some c ∧ s.takesCommand l c := by
  unfold State.isMalformed
  cases s.deviceCommand l bs with
  | none => simp
  | some c =>
    simp only [Option.some.injEq, exists_eq_left']
    cases c with
    | result l' tag o ms => exact Iff.of_eq (Bool.not_eq_false' _)
    | loadDone l' m => exact loadFor_isNone
    | _ => exact iff_of_true rfl trivial

/-- R105: every message that is taken is not malformed. -/
theorem isMalformed_of_takesMessage {bs : List Byte} (h : s.takesMessage l bs) : s.isMalformed l bs = false := by
  rcases (takesMessage_iff s l bs).1 h with h | ⟨u, hu, rfl⟩ | ⟨m, set, a, b, ha, hb, hset, rfl⟩ | ⟨tag, o, ms, hw, hc, rfl⟩
  · rcases h with rfl | rfl | ⟨m, rfl | rfl | rfl⟩ <;> rfl
  · refine isMalformed_eq_false.2 ⟨.loadDone l (memIdAt [18, BitVec.ofNat 8 u.memId.val]), rfl, u, hu, Fin.ext ?_⟩
    exact (Nat.mod_eq_of_lt u.memId.isLt).symm
  · rw [bytesOf_three, bytesOf_three]
    rcases hset with rfl | rfl <;> rfl
  · obtain ⟨b1, b2, b3, rest, hbs⟩ : ∃ b1 b2 b3 rest, resultBytes tag o ms = 17 :: b1 :: b2 :: b3 :: rest := ⟨_, _, _, _, rfl⟩
    rw [hbs]
    obtain ⟨tag', o', ms', hcmd, hw'⟩ := takesResult_iff.1 ⟨tag, o, ms, hw, hc, hbs.symm⟩
    exact isMalformed_eq_false.2 ⟨.result l tag' o' ms', hcmd, hw'⟩

/-- R105: every message that is not malformed is taken. -/
theorem takesMessage_of_not_malformed {bs : List Byte} (h : s.isMalformed l bs = false) : s.takesMessage l bs := by
  obtain ⟨c, hc, htakes⟩ := isMalformed_eq_false.1 h
  rw [takesMessage_iff]
  have hcode : ∀ (b : Byte) (t : List Byte) (n : Nat), numberAt (b :: t) 0 1 = n → b = BitVec.ofNat 8 n := fun b t n h =>
    byte_of_toNat ((numberAt_byte b t).symm.trans h)
  unfold State.deviceCommand at hc
  split at hc
  case h_1 hx =>
    split at hc
    case isTrue h4 =>
      match bs, h4 with
      | b0 :: b1 :: b2 :: b3 :: rest, _ =>
        obtain rfl := hcode b0 _ 17 hx
        obtain ⟨hlt, o, -, -, -, -, ms, -, -, -, rfl⟩ := resultCommand_eq_some.1 hc
        exact .inr (.inr (.inr (takesResult_iff.2 ⟨_, o, ms, hc, htakes⟩)))
    case isFalse => cases hc
  case h_2 hx hn =>
    obtain ⟨x, m, rfl⟩ := List.length_eq_two.1 hn
    obtain rfl := hcode x _ 18 hx
    obtain rfl := Option.some.inj hc
    obtain ⟨u, hu, hm⟩ := htakes
    exact .inr (.inl ⟨u, hu, by rw [hm]; exact congrArg (fun b => [18, b]) (byte_of_toNat rfl)⟩)
  case h_3 hx hn =>
    obtain ⟨x, rfl⟩ := List.length_eq_one_iff.1 hn
    exact .inl (.inl (by rw [hcode x _ 19 hx]; rfl))
  case h_4 hx hn =>
    obtain ⟨x, rfl⟩ := List.length_eq_one_iff.1 hn
    exact .inl (.inr (.inl (by rw [hcode x _ 20 hx]; rfl)))
  case h_5 hx hn =>
    obtain ⟨x, m, rfl⟩ := List.length_eq_two.1 hn
    exact .inl (.inr (.inr ⟨m, .inl (by rw [hcode x _ 21 hx]; rfl)⟩))
  case h_6 hx hn =>
    obtain ⟨x, m, rfl⟩ := List.length_eq_two.1 hn
    exact .inl (.inr (.inr ⟨m, .inr (.inl (by rw [hcode x _ 22 hx]; rfl))⟩))
  case h_7 hx hn =>
    obtain ⟨x, m, rfl⟩ := List.length_eq_two.1 hn
    exact .inl (.inr (.inr ⟨m, .inr (.inr (by rw [hcode x _ 23 hx]; rfl))⟩))
  case h_8 hx hn =>
    split at hc
    case isTrue hset =>
      match bs, hn with
      | [x, m, a1, a2, a3, b1, b2, b3, set], _ =>
        have hset' : set.toNat ≤ 1 := (numberAt_byte set []) ▸ hset
        refine .inr (.inr (.inl ⟨m, set, numberOf [a1, a2, a3], numberOf [b1, b2, b3], numberOf_three_lt .., numberOf_three_lt .., ?_, ?_⟩))
        · rcases Nat.le_one_iff_eq_zero_or_eq_one.1 hset' with h0 | h1
          · exact .inl (byte_of_toNat h0)
          · exact .inr (byte_of_toNat h1)
        · rw [bytesOf_three_numberOf, bytesOf_three_numberOf, hcode x _ 24 hx]
          rfl
    case isFalse => cases hc
  case h_9 => cases hc

/-- R105: what is malformed is what the link does not take. -/
theorem isMalformed_iff {bs : List Byte} : s.isMalformed l bs = true ↔ ¬s.takesMessage l bs := by
  rw [← Bool.not_eq_false]
  exact not_congr ⟨takesMessage_of_not_malformed, isMalformed_of_takesMessage⟩

/-- R105, R106, R107: whatever takes an UP link DOWN. -/
theorem exec_of_linkLoss {c : Instr} {r : DownReason} (hup : s.linkUp l = true) (h : LinkLoss s l c r) :
    exec c s = .next (s.linkDown l r) := by
  cases h with
  | resetNotice => exact congrArg Host.Outcome.next (if_pos hup)
  | malformed bs h => exact congrArg Host.Outcome.next (if_pos (by rw [hup, isMalformed_iff.2 h]; rfl))
  | result tag o ms h =>
    refine congrArg Host.Outcome.next ((if_pos hup).trans ?_)
    unfold State.resultWellFormed at h
    cases hb : s.resultBurst l tag with
    | none => rfl
    | some x =>
      obtain ⟨e, i, d, b⟩ := x
      rw [hb] at h
      exact if_neg (Bool.eq_false_iff.1 h)
  | loadDone m h =>
    refine congrArg Host.Outcome.next ((if_pos hup).trans ?_)
    cases hf : s.loadFor l m with
    | none => rfl
    | some u =>
      obtain ⟨u', hu', hm⟩ := loadFor_isNone.1 (Option.isNone_eq_false_iff.2 (Option.isSome_of_eq_some hf))
      exact absurd hm (h u' hu')
  | burstTimeout u hu due =>
    have hdue : s.burstDue l = true := by
      rw [State.burstDue, hup]
      exact List.any_eq_true.2 ⟨u, hu, beq_iff_eq.2 due⟩
    exact congrArg Host.Outcome.next (if_pos hdue)
  | loadTimeout u hu due =>
    have hdue : s.loadDue l = true := by
      rw [State.loadDue, hup]
      exact List.any_eq_true.2 ⟨u, hu, beq_iff_eq.2 due⟩
    exact congrArg Host.Outcome.next (if_pos hdue)

end Messages

end Sys2Proof.Machine
end

section
/-!
PROOF. LINK LOSS (R97, R105 to R109): the statement.
-/

namespace Sys2Proof.Machine

open Sys2Proof

section Loss

variable {s t u : State} {i : Fin 64} {e : Fin 6} {l : Fin 4} {r : DownReason}

/-- R108: the slots that a loss of link `l` leaves on another link. -/
theorem slots_of_other {m : Fin 4} (hm : m ≠ l) (q : List SlotHolder) :
    (q.filter fun h => !((s.onLink l h.inst && (s.entry h.inst).state == .queued) && s.linkOf h.inst == some m)) = q := by
  refine List.filter_eq_self.2 fun h _ => ?_
  by_cases hl : s.linkOf h.inst = some l
  · simp [State.onLink, hl, Ne.symm hm]
  · simp [State.onLink, hl]

/-- R97, R162: the entry of a run reset by the loss of its link. -/
theorem lostReset_requalifiedTo {d : Descriptor} (he : s.engineOf i = some e) (hd : (s.entry i).descriptor = some d) :
    ({ s.entry i with live := false } : Entry).requalifiedTo ((s.engine e).reload.getD (s.storeSection i)) d (s.lostReset i) := by
  rw [State.lostReset, hd, he]
  exact requalified_requalifiedTo (x := { s.entry i with live := false }) hd _

/-- R93, R95: a run drains for one reason. -/
theorem lostDraining_requalify_not_retire (h : s.lostDraining l .requalify i = true) : s.lostDraining l .retire i = false := by
  cases hn : s.engineOf i with
  | none => simp [State.lostDraining, hn]
  | some e =>
    simp only [State.lostDraining, hn, Option.any_some, Bool.and_eq_true, beq_iff_eq] at h
    obtain ⟨-, -, hr⟩ := h
    simp [State.lostDraining, hn, hr]

end Loss

end Sys2Proof.Machine

open Sys2Proof Sys2Proof.Machine

/-- Settles O48: what is no message of the link; the instances' steps by the plan of a loss, and the engines then turn. -/
theorem linkLossFaultsItsWork : Obligations.LinkLossFaultsItsWork := by
  intro l s hup
  refine ⟨fun bs h => congrArg Host.Outcome.next (if_neg (by simp [isMalformed_of_takesMessage h])), fun c r hloss => ?_⟩
  intro on away gone reset lost stack
  have hexec := exec_of_linkLoss hup hloss
  rw [linkDown_eq] at hexec
  obtain ⟨m, hm, hmask⟩ : ∃ m, s.faultMask l = m ∧ ∀ i, inMask m i = lost i :=
    ⟨_, rfl, fun i => (inMask_maskOf ..).trans (faultsOnLoss_iff s l i)⟩
  rw [hm] at hexec
  have h := lost_all (cutOff_down s l r)
  generalize allInsts.foldl (fun t i => if (s.cutOff l r).linkOf i = some l then t.loseInst i else t) (s.cutOff l r) = u at h hexec
  have hretired : ∀ i, inMask ((s.cutOff l r).retiredAmong l allInsts) i = gone i := fun i =>
    (inMask_maskOf ..).trans (by rw [decide_eq_true (mem_allInsts i), Bool.true_and]; rfl)
  obtain ⟨⟨hdone, -, hpool, hwork, hpark, hlink, hidle, hbusy, hframe⟩, hqueue, hana, hraised⟩ := h
  generalize (s.cutOff l r).retiredAmong l allInsts = retired at hretired hraised
  simp only [mem_allInsts, decide_true, Bool.true_and, stack_all, forall_true_left] at hdone hwork hpark hlink hidle hbusy
  refine ⟨u, u.turnAll, m, retired, hexec, hmask, hretired, turnAll_turnAllTo u, ?_⟩
  have hplan : lossPlan (s.cutOff l r) l = lossPlan s l := rfl
  rw [hplan] at hdone hpool hwork hpark hlink hidle hbusy
  clear hexec hmask hm hplan
  have hentry : ∀ i, u.entry i =
      if gone i then s.retiredEntry i else if reset i then s.lostReset i else if lost i then s.faultedEntry i
        else if on i then { s.entry i with live := false } else s.entry i := hdone
  refine ⟨?link, ?links, ?lost, ?gone, ?reset, ?passed, ?pool, ?work, ?park, ?engines, ?ports, ?frame⟩
  case link =>
    refine (hlink l).trans ?_
    rw [State.cutOff, State.link_setLink, if_pos rfl]
    rfl
  case links =>
    intro k hk
    refine (hlink k).trans ?_
    rw [State.cutOff, State.link_setLink, if_neg hk]
    exact congrArg (fun q => { s.link k with slots := q }) (slots_of_other hk _)
  case lost =>
    intro i hi
    have hloses : (!gone i && !reset i) = true := by
      have h := hi
      simp only [lost, Bool.and_eq_true] at h ⊢
      obtain ⟨⟨⟨-, hg⟩, hr⟩, -⟩ := h
      exact ⟨hg, hr⟩
    rw [Bool.and_eq_true, Bool.not_eq_true', Bool.not_eq_true'] at hloses
    rw [hentry i, hloses.1, hloses.2, hi]
    rfl
  case gone => exact fun i hi => (hentry i).trans (if_pos hi)
  case reset =>
    intro i e d hi he hd
    have hg : gone i = false := lostDraining_requalify_not_retire hi
    rw [hentry i, hg, hi]
    exact lostReset_requalifiedTo he hd
  case passed => exact fun i hl hg hr => (hentry i).trans (by rw [hl, hg, hr]; rfl)
  case pool =>
    have hfreed : (lossPlan s l).freed = fun i => if reset i then (s.entry i).failLog.length else 0 := rfl
    rw [hpool, hfreed, sum_map_ite, allInsts]
    rfl
  case work => exact hwork
  case park => exact hpark
  case engines =>
    intro e
    split
    · rename_i hb
      obtain ⟨i, hon, hr, he⟩ := hb
      exact (hbusy i e hr he).trans (congrArg (fun en : Engine => { en with stack := stack e }) (if_pos hon))
    · rename_i hb
      by_cases hrun : ∃ i, (s.entry i).state = .running ∧ s.engineOf i = some e
      · obtain ⟨i, hr, he⟩ := hrun
        exact (hbusy i e hr he).trans
          (congrArg (fun en : Engine => { en with stack := stack e }) (if_neg fun hon => hb ⟨i, hon, hr, he⟩))
      · exact hidle e fun i hr he => hrun ⟨i, hr, he⟩
  case ports =>
    intro p
    rw [hraised p]
    by_cases hz : retired = 0
    · rw [if_pos hz, if_neg (by simp [hz])]
      rfl
    · rw [if_neg hz, if_pos (bne_iff_ne.2 hz)]
      rfl
  case frame =>
    rw [hframe, hqueue, hana]
    rfl
end

section
/-!
PROOF. What a turn leaves of the links (R71, R73, R74): the pending pulls.
-/

namespace Sys2Proof.Machine

open Sys2Proof

section Pulls

variable {s t u : State} {e : Fin 6} {i : Fin 64} {l : Fin 4}

/-- R113: no Pending Pull List has changed. -/
def State.pullsKept (s t : State) : Prop := ∀ l, (t.link l).pulls = (s.link l).pulls

theorem State.pullsKept.trans (h : s.pullsKept t) (k : t.pullsKept u) : s.pullsKept u := fun l => (k l).trans (h l)

theorem pullsKept_refl (s : State) : s.pullsKept s := fun _ => rfl

theorem modLink_pullsKept {f : Link → Link} (hf : ∀ k, (f k).pulls = k.pulls) : s.pullsKept (s.modLink l f) := by
  intro m
  rw [State.link_modLink]
  split
  · rename_i h
    rw [hf, h]
  · rfl

theorem modEngine_pullsKept {f : Engine → Engine} : s.pullsKept (s.modEngine e f) := fun _ => rfl

theorem send_pullsKept (m : LinkMsg) : s.pullsKept (s.send l m) := by
  unfold State.send
  split
  · exact modLink_pullsKept fun _ => rfl
  · exact pullsKept_refl s

theorem takeSlot_pullsKept : s.pullsKept (s.takeSlot i) := by
  unfold State.takeSlot
  split
  · exact pullsKept_refl s
  · exact modLink_pullsKept fun _ => rfl

theorem releaseSlot_pullsKept : s.pullsKept (s.releaseSlot i) := by
  unfold State.releaseSlot
  split
  · exact pullsKept_refl s
  · exact modLink_pullsKept fun _ => rfl

theorem beginLoad_pullsKept : s.pullsKept (s.beginLoad e i) := by
  unfold State.beginLoad
  split
  · exact pullsKept_refl s
  · rename_i d _
    have hsend := send_pullsKept (s := s) (l := d.link) (.mapLoad d.memId (s.entry i).repairMap)
    refine (hsend.trans ?_).trans modEngine_pullsKept
    exact modLink_pullsKept fun _ => rfl

theorem parkRun_pullsKept (p : Position) (w : Time) : s.pullsKept (s.parkRun e i p w) :=
  releaseSlot_pullsKept (s := (s.writePosition i p).modEntry i fun x => { x with state := .parked })

theorem completeRun_pullsKept (p : Position) : s.pullsKept (s.completeRun e i p) :=
  releaseSlot_pullsKept (s := s.writePosition i p)

/-- R53: reaching an element leaves the pending pulls. -/
theorem reach_pullsKept (k : Nat) (p : Nat × Nat) : s.pullsKept (s.reach e k p).1 := by
  unfold State.reach
  split
  · exact pullsKept_refl s
  · split
    · exact pullsKept_refl s
    · dsimp only
      split
      · exact pullsKept_refl s
      · exact parkRun_pullsKept _ _
      · exact completeRun_pullsKept _

theorem dispatchRun_pullsKept (q : QueueEntry) : s.pullsKept (s.dispatchRun e q).1 := by
  have htake : s.pullsKept ((({ s with workQueue := s.workQueue.filter fun x => x.inst != q.inst } : State).takeSlot q.inst).modEngine e
      fun en => { en with current := some q.inst, dispatchStamp := some s.now, preemptible := q.cls.preemptible }) :=
    takeSlot_pullsKept (s := { s with workQueue := s.workQueue.filter fun x => x.inst != q.inst })
  unfold State.dispatchRun
  dsimp only
  split
  · exact htake.trans (reach_pullsKept (s := State.modEngine (State.modEntry _ _ _) _ _) _ _)
  · exact htake.trans (beginLoad_pullsKept (s := State.modEntry (State.emptyLog _ _) _ _))

theorem resumeRun_pullsKept : s.pullsKept (s.resumeRun e i).1 := by
  have htake : s.pullsKept (s.takeSlot i) := takeSlot_pullsKept
  unfold State.resumeRun
  dsimp only
  split
  · exact htake.trans (beginLoad_pullsKept (s := State.modEngine (State.modEntry _ _ _) _ _))
  · exact htake
  · exact htake.trans (reach_pullsKept (s := State.modEngine (State.modEntry _ _ _) _ _) _ _)

theorem waitFor_pullsKept : s.pullsKept (s.waitFor e i).1 := by
  unfold State.waitFor
  dsimp only
  split
  · exact resumeRun_pullsKept (s := s.modEngine e _)
  · exact pullsKept_refl s

theorem turnOnce_pullsKept : s.pullsKept (s.turnOnce e).1 := by
  unfold State.turnOnce
  dsimp only
  split
  · split
    · exact dispatchRun_pullsKept _
    · split
      · exact pullsKept_refl s
      · exact waitFor_pullsKept
  · split
    · exact pullsKept_refl s
    · split
      · exact pullsKept_refl s
      · exact waitFor_pullsKept
  · exact pullsKept_refl s

theorem turnFor_pullsKept (n : Nat) : s.pullsKept (State.turnFor e n s) := by
  induction n generalizing s with
  | zero => exact pullsKept_refl s
  | succ n ih =>
    rw [State.turnFor]
    split
    · exact turnOnce_pullsKept.trans ih
    · exact turnOnce_pullsKept

/-- R71, R73, R74: the engines' turns answer no pull. -/
theorem turnAll_pullsKept : s.pullsKept s.turnAll := by
  have go : ∀ (es : List (Fin 6)) (t : State), t.pullsKept (es.foldl State.turn t) := by
    intro es
    induction es with
    | nil => exact pullsKept_refl
    | cons e es ih => exact fun t => (turnFor_pullsKept _).trans (ih (t.turn e))
  exact go allEngines s

theorem raiseBoth_link (s : State) (n : Notice) (l : Fin 4) : (s.raiseBoth n).link l = s.link l := rfl

/-- R108: a link that goes DOWN keeps no pull. -/
theorem linkDown_pulls (s : State) (l : Fin 4) (r : DownReason) : ((s.linkDown l r).link l).pulls = [] := by
  have hlost := (lost_all (cutOff_down s l r)).swept.link l
  rw [linkDown_eq, raiseBoth_link, raiseBoth_link]
  generalize allInsts.foldl (fun t i => if (s.cutOff l r).linkOf i = some l then t.loseInst i else t) (s.cutOff l r) = u at hlost ⊢
  have hturn := (turnAll_pullsKept (s := u)) l
  rw [hlost, State.cutOff, State.link_setLink, if_pos rfl] at hturn
  exact hturn

theorem linkDown_down (s : State) (l : Fin 4) (r : DownReason) : (s.linkDown l r).linkUp l = false := by
  have h := (Kept.linkDown s l r).down l
  rw [State.linkUp, h, State.link_modLink, if_pos rfl]
  rfl

end Pulls

end Sys2Proof.Machine
end

section
/-!
PROOF. READY (R110, R111).
-/

namespace Sys2Proof.Machine

open Sys2Proof

section Ready

variable {s t u : State} {i : Fin 64} {l : Fin 4} {L : List (Fin 64)}

/-- R110: the instance is defined and stands on the link. -/
def State.definedOn (s : State) (l : Fin 4) (i : Fin 64) : Bool := s.linkOf i == some l && (s.entry i).state != .vacant

/-- R110: a READY's pull of the instance finds it not settled. -/
def State.pullsLater (s : State) (l : Fin 4) (i : Fin 64) : Bool := s.definedOn l i && !(s.entry i).state.settled

/-- R110, R115: the answers to a READY's pull of the instance. -/
def State.pullAnswers (s : State) (l : Fin 4) (i : Fin 64) : List LinkMsg :=
  if s.definedOn l i then (s.entry i).descriptor.elim [] fun d => answersTo d (s.entry i) else []

/-- R110: link `l` when the instances of `L` have been pulled. -/
def State.pulled (s : State) (l : Fin 4) (L : List (Fin 64)) : State :=
  s.setLink l { s.link l with pulls := L.filter (s.pullsLater l), sent := (s.link l).sent ++ L.flatMap (s.pullAnswers l) }

theorem answersTo_of_not_settled {d : Descriptor} {x : Entry} (h : x.state.settled = false) : answersTo d x = [] := by
  unfold answersTo
  cases hx : x.state <;> simp_all [InstState.settled]

/-- R110: one more instance is pulled. -/
theorem pulled_step (hup : s.linkUp l = true) (hi : i ∉ L) :
    (if s.linkOf i = some l ∧ (s.entry i).state ≠ .vacant then (s.pulled l L).takePull l i else s.pulled l L) = s.pulled l (L ++ [i]) := by
  have hlink : (s.pulled l L).link l =
      { s.link l with pulls := L.filter (s.pullsLater l), sent := (s.link l).sent ++ L.flatMap (s.pullAnswers l) } :=
    (State.link_setLink ..).trans (if_pos rfl)
  have hentry : (s.pulled l L).entry i = s.entry i := rfl
  have hdef : s.definedOn l i = true ↔ s.linkOf i = some l ∧ (s.entry i).state ≠ .vacant := by simp [State.definedOn]
  have hone : s.pulled l (L ++ [i]) = (s.pulled l L).setLink l
      { s.link l with
        pulls := L.filter (s.pullsLater l) ++ (if s.pullsLater l i then [i] else [])
        sent := (s.link l).sent ++ L.flatMap (s.pullAnswers l) ++ s.pullAnswers l i } := by
    unfold State.pulled
    rw [setLink_setLink, List.filter_append, List.filter_singleton, List.flatMap_append, List.flatMap_singleton, List.append_assoc]
    cases s.pullsLater l i <;> rfl
  by_cases hon : s.linkOf i = some l ∧ (s.entry i).state ≠ .vacant
  · rw [if_pos hon]
    have hd := hdef.2 hon
    obtain ⟨d, hdesc, hdl⟩ := linkOf_eq_some.1 hon.1
    have hans : s.pullAnswers l i = answersTo d (s.entry i) := by simp [State.pullAnswers, hd, hdesc]
    unfold State.takePull
    rw [hentry]
    split
    · rename_i hset
      have hlater : s.pullsLater l i = false := by simp [State.pullsLater, hset]
      have hanswer := answerPull_up (s := s.pulled l L) (d := d) hdesc (by rw [State.linkUp, hdl, hlink]; exact hup)
      rw [hanswer, hdl, hlink, hentry, hone, hans, hlater]
      simp
    · rename_i hset
      rw [Bool.not_eq_true] at hset
      have hlater : s.pullsLater l i = true := by simp [State.pullsLater, hset, hd]
      have hnot : ((s.pulled l L).link l).pulls.contains i = false := by
        rw [hlink]
        simp [hi]
      rw [if_neg (by rw [hnot]; simp), State.modLink, hlink, hone, hans, hlater, answersTo_of_not_settled hset]
      simp
  · rw [if_neg hon]
    have hd : s.definedOn l i = false := Bool.eq_false_iff.2 fun h => hon (hdef.1 h)
    have hlater : s.pullsLater l i = false := by simp [State.pullsLater, hd]
    have hans : s.pullAnswers l i = [] := by simp [State.pullAnswers, hd]
    rw [hone, hans, hlater, if_neg (by simp), List.append_nil, List.append_nil, ← hlink, setLink_self]

/-- R110 step 3: every defined instance of the link is pulled. -/
theorem recordPulls_eq (hup : s.linkUp l = true) (hp : (s.link l).pulls = []) : s.recordPulls l = s.pulled l allInsts := by
  refine foldl_insts (Inv := fun L t => t = s.pulled l L) ?_ fun L t i hi h => ?_
  · have hself : ({ s.link l with pulls := [], sent := (s.link l).sent ++ [] } : Link) = s.link l := by
      rw [List.append_nil, ← hp]
    exact ((congrArg (s.setLink l) hself).trans (setLink_self ..)).symm
  · rw [h]
    exact pulled_step hup hi

/-- R110: FAULTED instances of the link become DEFINED. -/
theorem clearFaults_spec (s : State) (l : Fin 4) :
    (∀ i, (s.clearFaults l).entry i =
      if s.linkOf i = some l ∧ (s.entry i).state = .faulted then { s.entry i with state := .defined } else s.entry i) ∧
      s.clearFaults l = { s with table := (s.clearFaults l).table } := by
  have hfold : s.clearFaults l = allInsts.foldl
      (fun t i => if decide (s.linkOf i = some l ∧ (s.entry i).state = .faulted) then t.modEntry i fun x => { x with state := .defined } else t)
      s := by
    simp only [decide_eq_true_eq]
    rfl
  refine ⟨fun i => ?_, ?_⟩
  · rw [hfold]
    refine (entry_foldl_modEntry _ _ allInsts (List.nodup_finRange 64) s i).trans ?_
    simp only [mem_allInsts, true_and, decide_eq_true_eq]
  · obtain ⟨tb, htb⟩ := table_foldl_modEntry (fun i => decide (s.linkOf i = some l ∧ (s.entry i).state = .faulted))
      (fun x => { x with state := .defined }) allInsts s
    rw [hfold, htb]

/-- R110: clearing a link's faults changes nothing that its pulls look at. -/
theorem pulls_clearFaults {w : State} (h : ∀ i, w.entry i =
    if s.linkOf i = some l ∧ (s.entry i).state = .faulted then { s.entry i with state := .defined } else s.entry i) (i : Fin 64) :
    w.pullsLater l i = s.pullsLater l i ∧ w.pullAnswers l i = s.pullAnswers l i := by
  unfold State.pullsLater State.pullAnswers State.definedOn State.linkOf
  rw [h i]
  split
  · rename_i hf
    rw [hf.2]
    exact ⟨rfl, by simp [answersTo, hf.2]⟩
  · exact ⟨rfl, rfl⟩

end Ready

end Sys2Proof.Machine

open Sys2Proof Sys2Proof.Machine

/-- Settles O47: the FAULTED instances cleared, then each defined one pulled; and a READY on an UP link goes by the link's loss. -/
theorem readyBringsLinkUp : Obligations.ReadyBringsLinkUp := by
  intro l s
  refine ⟨fun hdown hpulls => ?down, fun hup => ?up⟩
  case up =>
    have hlost := linkDown_down s l .reset
    have hready : exec (.ready l) (s.linkDown l .reset) = .next ((s.linkDown l .reset).linkReady l) :=
      congrArg Host.Outcome.next (if_neg (by rw [hlost]; simp))
    exact ⟨s.linkDown l .reset, (s.linkDown l .reset).linkReady l, congrArg Host.Outcome.next (if_pos hup), hready,
      congrArg Host.Outcome.next (if_pos hup), hlost, linkDown_pulls s l .reset⟩
  case down =>
    obtain ⟨w, hw⟩ : ∃ w, w = (s.setLink l { s.link l with down := none }).clearFaults l := ⟨_, rfl⟩
    obtain ⟨hentry, hframe⟩ := clearFaults_spec (s.setLink l { s.link l with down := none }) l
    rw [← hw] at hentry hframe
    have hlink : ∀ m, w.link m = if m = l then { s.link l with down := none } else s.link m := fun m => by
      rw [hframe]
      exact State.link_setLink ..
    have hself := (hlink l).trans (if_pos rfl)
    have hup : w.linkUp l = true := by rw [State.linkUp, hself]; rfl
    have hrecord := recordPulls_eq hup (by rw [hself]; exact hpulls)
    have hexec : exec (.ready l) s = .next ((w.pulled l allInsts).raiseBoth (.link (linkBit l))) := by
      refine congrArg Host.Outcome.next ((if_neg (by rw [hdown]; simp)).trans ?_)
      rw [← hrecord, hw]
      rfl
    refine ⟨_, hexec, ?link, ?links, ?entries, ?told, ?frame⟩
    case link =>
      intro on
      have hlater : w.pullsLater l = s.pullsLater l := funext fun i => (pulls_clearFaults hentry i).1
      have hans : w.pullAnswers l = s.pullAnswers l := funext fun i => (pulls_clearFaults hentry i).2
      rw [raiseBoth_link]
      refine (State.link_setLink ..).trans ((if_pos rfl).trans ?_)
      rw [hlater, hans, hself]
      rfl
    case links =>
      intro m hm
      rw [raiseBoth_link]
      exact (State.link_setLink ..).trans ((if_neg hm).trans ((hlink m).trans (if_neg hm)))
    case entries => exact hentry
    case told =>
      have hports : s.told (s.raiseBoth (.link (linkBit l))) (.link (linkBit l)) := told_raiseBoth s _
      intro p
      refine Eq.trans ?_ (hports p)
      rw [hframe]
      cases p <;> rfl
    case frame =>
      rw [hframe]
      rfl
end

section
/-!
PROOF. What the completion of an analysis writes (R64, R136, R147, R148).
-/

namespace Sys2Proof.Machine

open Sys2Proof

section Settles

variable {s : State} {i : Fin 64} {d : Descriptor} {rest : List AnalysisEntry} {y e : Entry}

/-- R148: link `k` when the pull of instance `i`, settled with entry `e`, is answered if one is pending. -/
def Link.pullAnswered (k : Link) (up : Bool) (i : Fin 64) (d : Descriptor) (e : Entry) : Link :=
  if up = true ∧ i ∈ k.pulls then { k with pulls := k.pulls.filter (· != i), sent := k.sent ++ answersTo d e } else k

/-- R114, R148: a pending pull of a settled instance is answered and removed. -/
theorem answerPending_eq (hd : (s.entry i).descriptor = some d) :
    s.answerPending i = s.setLink d.link ((s.link d.link).pullAnswered (s.linkUp d.link) i d (s.entry i)) := by
  unfold State.answerPending Link.pullAnswered
  rw [linkOf_some hd]
  dsimp only
  by_cases h : s.linkUp d.link = true ∧ i ∈ (s.link d.link).pulls
  · have hpend : (s.linkUp d.link && (s.link d.link).pulls.contains i) = true := by simpa using h
    rw [if_pos hpend, if_pos h, answerPull_up s hd h.1, State.modLink, State.link_setLink, if_pos rfl, setLink_setLink]
  · have hpend : ¬(s.linkUp d.link && (s.link d.link).pulls.contains i) = true := by simpa using h
    rw [if_neg hpend, if_neg h, setLink_self]

/-- R148: an instance that leaves the analyser with entry `e` settles as such. -/
theorem settled_settlesAs (hd : e.descriptor = some d) (t : State)
    (ht : t = (((({ s with analysisQueue := rest, analysing := false } : State).setEntry i e).answerPending i).raiseBoth
      (.verdict (maskBit i))).takeFollowUp i) : s.settlesAs t i d rest e := by
  obtain ⟨w, hw⟩ : ∃ w, w = ({ s with analysisQueue := rest, analysing := false } : State).setEntry i e := ⟨_, rfl⟩
  rw [← hw] at ht
  have hentry : w.entry i = e := by rw [hw]; exact (State.entry_setEntry ..).trans (if_pos rfl)
  have hlink : w.link d.link = s.link d.link := by rw [hw]; rfl
  have hup : w.linkUp d.link = s.linkUp d.link := by rw [hw]; rfl
  rw [answerPending_eq (by rw [hentry]; exact hd), hentry, hlink, hup] at ht
  obtain ⟨k, hk⟩ : ∃ k, (s.link d.link).pullAnswered (s.linkUp d.link) i d e = k := ⟨_, rfl⟩
  have hkdown : k.down = (s.link d.link).down := by
    rw [← hk, Link.pullAnswered]
    split <;> rfl
  rw [hk] at ht
  obtain ⟨g, hg⟩ : ∃ g, g = (w.setLink d.link k).raiseBoth (.verdict (maskBit i)) := ⟨_, rfl⟩
  rw [← hg] at ht
  have hgentry : g.entry i = e := by rw [hg]; exact hentry
  have hglink : ∀ l, g.link l = if l = d.link then k else s.link l := fun l => by
    rw [hg, raiseBoth_link, State.link_setLink, hw]
    rfl
  have hgup : g.linkUp d.link = s.linkUp d.link := by rw [State.linkUp, hglink, if_pos rfl, hkdown]; rfl
  have hgdesc : (g.entry i).descriptor = some d := by rw [hgentry]; exact hd
  have hshape : ∃ z q, t = { g.setEntry i z with workQueue := q } := by
    rw [ht]
    cases hf : e.followUp with
    | none =>
      rw [takeFollowUp_none (by rw [hgentry]; exact hf)]
      exact ⟨g.entry i, g.workQueue, by rw [setEntry_self]⟩
    | some f =>
      cases hu : s.linkUp d.link with
      | true => exact ⟨_, _, takeFollowUp_up (by rw [hgentry]; exact hf) hgdesc (hgup.trans hu)⟩
      | false => exact ⟨_, _, takeFollowUp_dropped hgdesc (.inr (hgup.trans hu))⟩
  have hworkQueue : g.workQueue = s.workQueue := by rw [hg, hw]; rfl
  have hnow : g.now = s.now := by rw [hg, hw]; rfl
  refine ⟨?entry, ?queue, ?parts⟩
  case entry =>
    cases hf : e.followUp with
    | none =>
      rw [ht, takeFollowUp_none (by rw [hgentry]; exact hf)]
      exact hgentry
    | some f =>
      cases hu : s.linkUp d.link with
      | true =>
        rw [ht, takeFollowUp_up (by rw [hgentry]; exact hf) hgdesc (hgup.trans hu), hgentry]
        exact (State.entry_setEntry ..).trans (if_pos rfl)
      | false =>
        rw [ht, takeFollowUp_dropped hgdesc (.inr (hgup.trans hu)), hgentry]
        exact (State.entry_setEntry ..).trans (if_pos rfl)
  case queue =>
    cases hf : e.followUp with
    | none =>
      rw [ht, takeFollowUp_none (by rw [hgentry]; exact hf), hworkQueue]
      exact (List.append_nil _).symm
    | some f =>
      cases hu : s.linkUp d.link with
      | true =>
        rw [ht, takeFollowUp_up (by rw [hgentry]; exact hf) hgdesc (hgup.trans hu), hworkQueue, hnow]
        rfl
      | false =>
        rw [ht, takeFollowUp_dropped hgdesc (.inr (hgup.trans hu))]
        exact hworkQueue.trans (List.append_nil _).symm
  case parts =>
    obtain ⟨z, q, rfl⟩ := hshape
    refine ⟨((hglink d.link).trans (if_pos rfl)).trans hk.symm, fun l hl => (hglink l).trans (if_neg hl), fun p => ?told, ?aq, ?analysing,
      fun j hj => ?others, ?frame⟩
    case told =>
      have hports := told_raiseBoth s (.verdict (maskBit i)) p
      refine Eq.trans ?_ hports
      cases p <;> rw [hg, hw] <;> rfl
    case aq => rw [hg, hw]; rfl
    case analysing => rw [hg, hw]; rfl
    case others =>
      refine (State.entry_setEntry ..).trans ((if_neg hj).trans ?_)
      rw [hg, hw]
      exact (State.entry_setEntry ..).trans (if_neg hj)
    case frame =>
      rw [hg, hw]
      rfl

end Settles

end Sys2Proof.Machine
end

section
/-!
PROOF. ANALYSIS_COMPLETE (R136 to R148): how what the analysis comes to is applied.
-/

namespace Sys2Proof.Machine

open Sys2Proof

section Complete

variable {s : State} {a : AnalysisEntry} {d : Descriptor} {rest : List AnalysisEntry}

/-- R136: what the analysis at the head of the queue comes to. -/
def State.headResult (s : State) (a : AnalysisEntry) (d : Descriptor) : AnalysisResult :=
  analyse (s.entry a.inst) d.verify a.fresh (s.linkUp d.link)

/-- R136: the entry of an instance with the map and the spares of its analysis. -/
def AnalysisResult.applied (r : AnalysisResult) (x : Entry) : Entry :=
  { x with repairMap := r.repairMap, rowSpares := r.rowSpares, columnSpares := r.columnSpares }

theorem exec_analysisComplete (han : s.analysing = true) (hq : s.analysisQueue = a :: rest) :
    exec .analysisComplete s = .next (s.completeAnalysis a rest) := by
  refine congrArg Host.Outcome.next ?_
  rw [hq]
  exact if_pos han

/-- R136, R148: an analysis that comes to a verdict settles its instance. -/
theorem completeAnalysis_settles (hd : (s.entry a.inst).descriptor = some d) {st : InstState} {reason : VerdictReason}
    (hf : (s.headResult a d).finding = .settle st reason) :
    s.settlesAs (s.completeAnalysis a rest) a.inst d rest
      { (s.headResult a d).applied (s.entry a.inst) with state := st, reason := reason, endStamp := some s.now } := by
  have hres : analyse (s.entry a.inst) ((s.entry a.inst).descriptor.any Descriptor.verify) a.fresh (s.instLinkUp a.inst) =
      s.headResult a d := by rw [hd, instLinkUp_of hd]; rfl
  refine settled_settlesAs (by exact hd) _ ?_
  unfold State.completeAnalysis
  dsimp only
  rw [hres, hf]
  simp [State.settleVerdict, State.modEntry, State.setEntry, AnalysisResult.applied]

/-- R136, R147: an analysis that comes to a verification run orders it. -/
theorem completeAnalysis_verifies (hd : (s.entry a.inst).descriptor = some d) {q : Fin 32}
    (hq : (s.entry a.inst).run.jobSequence = some q) (hf : (s.headResult a d).finding = .verifyRun) :
    s.completeAnalysis a rest =
      { s.setEntry a.inst { (s.headResult a d).applied (s.entry a.inst) with state := .queued } with
        workQueue := s.workQueue ++ [⟨a.inst, q, .verify, .part, s.now, none⟩]
        analysisQueue := rest
        analysing := false } := by
  have hres : analyse (s.entry a.inst) ((s.entry a.inst).descriptor.any Descriptor.verify) a.fresh (s.instLinkUp a.inst) =
      s.headResult a d := by rw [hd, instLinkUp_of hd]; rfl
  unfold State.completeAnalysis
  dsimp only
  rw [hres, hf]
  simp [State.orderVerify, State.enqueue, State.modEntry, State.setEntry, AnalysisResult.applied, hq]

end Complete

/-! ### What an analysis comes to (R137 to R146) -/

section Analyse

variable {x : Entry} {verify up : Bool}

/-- R137: a closing analysis settles ABANDONED and changes no map. -/
theorem analyse_closing : analyse x verify false up = ⟨x.repairMap, x.rowSpares, x.columnSpares, .settle .abandoned x.reason⟩ := rfl

/-- R138: a fresh analysis of an overflow settles UNREPAIRABLE. -/
theorem analyse_overflow (h : x.reason = .overflow) :
    analyse x verify true up = ⟨x.repairMap, x.rowSpares, x.columnSpares, .settle .unrepairable .overflow⟩ :=
  if_pos h

/-- R139: the records of the map whose spares stay. -/
def Entry.keptRecords (x : Entry) : List RepairRecord := survivors x.repairMap x.failLog

/-- R139: the records of the map whose spares are found faulty. -/
def Entry.faultyRecords (x : Entry) : List RepairRecord := Machine.faultyRecords x.repairMap x.failLog

/-- R139, R140: the spares, judged, before the allocation. -/
def Entry.judgedSpares (x : Entry) : Allocation :=
  ⟨markBad .row x.faultyRecords x.rowSpares, markBad .column x.faultyRecords x.columnSpares, []⟩

/-- R140: the lines of a kind that must be repaired, from the faulty records and those of the log. -/
def Entry.requiredLines (x : Entry) : LineKind → List Nat
  | .row => lineSet (linesOf .row x.faultyRecords ++ rowLines x.failLog)
  | .column => lineSet (linesOf .column x.faultyRecords ++ columnLines x.failLog)

/-- R142: the map when some records have joined it. -/
def Entry.joinedMap (x : Entry) (n : Allocation) : List RepairRecord := orderMap (x.keptRecords ++ n.added.map (touchRecord x.guards))

/-- R139, R140: the allocation that an analysis makes. -/
def Entry.allocation (x : Entry) : Option Allocation := allocate x x.faultyRecords x.keptRecords

/-- R140: when spares run short, the instance settles UNREPAIRABLE for SPARES. -/
theorem analyse_short (h : x.reason ≠ .overflow) (ha : x.allocation = none) :
    analyse x verify true up =
      ⟨x.keptRecords, x.judgedSpares.rowSpares, x.judgedSpares.columnSpares, .settle .unrepairable .spares⟩ := by
  refine (if_neg h).trans ?_
  have hb : allocate x (Machine.faultyRecords x.repairMap x.failLog) (survivors x.repairMap x.failLog) = none := ha
  dsimp only
  rw [hb]
  rfl

theorem analyse_partial {n : Allocation} (h : x.reason ≠ .overflow) (ha : x.allocation = some n) (hp : x.flags.partialRun = true) :
    analyse x verify true up = ⟨x.joinedMap n, n.rowSpares, n.columnSpares, .settle .abandoned x.reason⟩ := by
  refine (if_neg h).trans ?_
  have hb : allocate x (Machine.faultyRecords x.repairMap x.failLog) (survivors x.repairMap x.failLog) = some n := ha
  dsimp only
  rw [hb]
  exact if_pos hp

theorem analyse_clean {n : Allocation} (h : x.reason ≠ .overflow) (ha : x.allocation = some n) (hp : x.flags.partialRun = false)
    (hn : n.added = []) :
    analyse x verify true up =
      ⟨(x.joinedMap n).map fun r => { r with verified := true }, n.rowSpares, n.columnSpares, cleanFinding (x.joinedMap n)⟩ := by
  refine (if_neg h).trans ?_
  have hb : allocate x (Machine.faultyRecords x.repairMap x.failLog) (survivors x.repairMap x.failLog) = some n := ha
  dsimp only
  rw [hb]
  exact (if_neg (by simp [hp])).trans (if_pos (by simp [hn]))

theorem analyse_added {n : Allocation} (h : x.reason ≠ .overflow) (ha : x.allocation = some n) (hp : x.flags.partialRun = false)
    (hn : n.added ≠ []) :
    analyse x verify true up = ⟨x.joinedMap n, n.rowSpares, n.columnSpares, addedFinding verify x.run.runCount up⟩ := by
  refine (if_neg h).trans ?_
  have hb : allocate x (Machine.faultyRecords x.repairMap x.failLog) (survivors x.repairMap x.failLog) = some n := ha
  dsimp only
  rw [hb]
  exact (if_neg (by simp [hp])).trans (if_neg (by simpa using hn))

/-! ### The verdict after a complete run (R144 to R146) -/

theorem addedFinding_off (c : Nat) : addedFinding false c up = .settle .repaired .none := rfl

theorem addedFinding_limit {c : Nat} (h : 3 ≤ c) : addedFinding true c up = .settle .unrepairable .verifyLimit := if_pos h

theorem addedFinding_down {c : Nat} (h : c < 3) : addedFinding true c false = .settle .repaired .none := if_neg (Nat.not_le.2 h)

theorem addedFinding_up {c : Nat} (h : c < 3) : addedFinding true c true = .verifyRun := if_neg (Nat.not_le.2 h)

theorem cleanFinding_eq (rs : List RepairRecord) :
    cleanFinding rs = .settle (if rs.any (fun r => r.origin == .found) then .repaired else .clean) .none := by
  unfold cleanFinding
  split <;> rfl

end Analyse

end Sys2Proof.Machine
end

section
/-!
PROOF. The lines that an analysis must repair, and what its allocation comes to (R139 to R142).
-/

namespace Sys2Proof.Machine

open Sys2Proof

/-! ### Line sets (R140) -/

section Lines

theorem mem_insertLine {n m : Nat} {l : List Nat} : m ∈ insertLine n l ↔ m = n ∨ m ∈ l := by
  induction l with
  | nil => simp [insertLine]
  | cons h t ih =>
    unfold insertLine
    split
    · simp
    · split
      · rename_i hn
        subst hn
        simp
      · simp only [List.mem_cons, ih]
        exact or_left_comm

theorem insertLine_sorted {n : Nat} {l : List Nat} (h : l.Pairwise (· < ·)) : (insertLine n l).Pairwise (· < ·) := by
  induction l with
  | nil => simp [insertLine]
  | cons a t ih =>
    obtain ⟨ha, ht⟩ := List.pairwise_cons.1 h
    unfold insertLine
    split
    · rename_i hn
      refine List.pairwise_cons.2 ⟨fun m hm => ?_, h⟩
      rcases List.mem_cons.1 hm with rfl | hm
      · exact hn
      · exact Nat.lt_trans hn (ha m hm)
    · split
      · exact h
      · rename_i hn hne
        refine List.pairwise_cons.2 ⟨fun m hm => ?_, ih ht⟩
        rcases mem_insertLine.1 hm with rfl | hm
        · omega
        · exact ha m hm

theorem mem_lineSet {n : Nat} {l : List Nat} : n ∈ lineSet l ↔ n ∈ l := by
  induction l with
  | nil => exact Iff.rfl
  | cons a t ih => exact mem_insertLine.trans ((or_congr_right ih).trans List.mem_cons.symm)

theorem lineSet_sorted (l : List Nat) : (lineSet l).Pairwise (· < ·) := by
  induction l with
  | nil => exact List.Pairwise.nil
  | cons a t ih => exact insertLine_sorted ih

theorem mem_rowLines {log : List FailRecord} {n : Nat} : n ∈ rowLines log ↔ ∃ f ∈ log, f.place = .rowLine n := by
  unfold rowLines
  rw [List.mem_filterMap]
  refine exists_congr fun f => and_congr_right fun _ => ?_
  cases f.place <;> simp

theorem mem_columnLines {log : List FailRecord} {n : Nat} : n ∈ columnLines log ↔ ∃ f ∈ log, f.place = .columnLine n := by
  unfold columnLines
  rw [List.mem_filterMap]
  refine exists_congr fun f => and_congr_right fun _ => ?_
  cases f.place <;> simp

theorem mem_linesOf {k : LineKind} {rs : List RepairRecord} {n : Nat} : n ∈ linesOf k rs ↔ ∃ r ∈ rs, r.kind = k ∧ r.line = n := by
  simp [linesOf, and_assoc]

end Lines

/-! ### Faulty spares (R139) -/

section Faulty

/-- R139: the record's spare is blamed by a fail. -/
theorem faultySpare_eq (log : List FailRecord) (r : RepairRecord) : faultySpare log r = log.any fun f => f.attribution == r.blame := by
  unfold faultySpare RepairRecord.blame
  cases r.kind <;> rfl

theorem faultySpare_of_uncovered {log : List FailRecord} (h : ∀ f ∈ log, f.attribution = .uncovered) (r : RepairRecord) :
    faultySpare log r = false := by
  rw [faultySpare_eq, List.any_eq_false]
  intro f hf
  rw [h f hf]
  unfold RepairRecord.blame
  cases r.kind <;> simp

/-- R139: the spares of a kind with those of faulty records BAD. -/
theorem markBad_faulty (x : Entry) (k : LineKind) (l : List SpareState) :
    markBad k x.faultyRecords l =
      l.mapIdx fun n v => if ∃ r ∈ x.repairMap, r.kind = k ∧ r.spare = n ∧ (x.failLog.any fun f => f.attribution == r.blame) = true then .bad
        else v := by
  rw [markBad_eq]
  refine List.ext_getElem? fun n => ?_
  have hnames : NamesSpare x.faultyRecords k n ↔
      ∃ r ∈ x.repairMap, r.kind = k ∧ r.spare = n ∧ (x.failLog.any fun f => f.attribution == r.blame) = true := by
    simp only [NamesSpare, Entry.faultyRecords, faultyRecords, List.mem_filter, faultySpare_eq]
    exact ⟨fun ⟨r, ⟨hr, hf⟩, hk, hs⟩ => ⟨r, hr, hk, hs, hf⟩, fun ⟨r, hr, hk, hs, hf⟩ => ⟨r, ⟨hr, hf⟩, hk, hs⟩⟩
  rw [List.getElem?_mapIdx]
  by_cases hn : NamesSpare x.faultyRecords k n
  · by_cases hl : n < l.length
    · rw [nameSpares_getElem_named hn _ hl, List.getElem?_eq_getElem hl, Option.map_some, if_pos (hnames.1 hn)]
    · rw [List.getElem?_eq_none (by simpa using hl), List.getElem?_eq_none (by simpa using hl)]
      rfl
  · simp only [nameSpares_getElem_not hn, if_neg (mt hnames.2 hn), Option.map_id']

/-- R139: without a blamed spare all is as it was. -/
theorem faultyRecords_of_uncovered {x : Entry} (h : ∀ f ∈ x.failLog, f.attribution = .uncovered) :
    x.faultyRecords = [] ∧ x.keptRecords = x.repairMap := by
  refine ⟨List.filter_eq_nil_iff.2 fun r _ => ?_, List.filter_eq_self.2 fun r _ => ?_⟩
  · rw [faultySpare_of_uncovered h]
    simp
  · rw [faultySpare_of_uncovered h]
    rfl

theorem judgedSpares_of_uncovered {x : Entry} (h : ∀ f ∈ x.failLog, f.attribution = .uncovered) :
    x.judgedSpares = ⟨x.rowSpares, x.columnSpares, []⟩ := by
  rw [Entry.judgedSpares, (faultyRecords_of_uncovered h).1]
  rfl

end Faulty

end Sys2Proof.Machine
end

section
/-!
PROOF. What an analysis's allocation comes to (R140, R141).
-/

namespace Sys2Proof.Machine

open Sys2Proof

section Allocations

variable {x : Entry} {rows columns : List Nat} {a b : Allocation} {k : LineKind}

/-- R140: the spares of a kind that stay FREE when one is taken. -/
theorem freeCount_set_used {l : List SpareState} {n : Nat} (h : l[n]? = some .free) : freeCount (l.set n .used) + 1 = freeCount l := by
  obtain ⟨hn, hf⟩ := List.getElem?_eq_some_iff.1 h
  have hpos : 0 < freeCount l := List.countP_pos_iff.2 ⟨l[n], List.getElem_mem hn, by rw [hf]; rfl⟩
  unfold freeCount at *
  rw [List.countP_set hn]
  simp only [hf, beq_self_eq_true, if_true]
  have : (SpareState.used == SpareState.free) = false := rfl
  simp only [this, Bool.false_eq_true, if_false]
  omega

theorem hasFree_iff : a.hasFree k ↔ 0 < freeCount (a.spares k) := by
  unfold Allocation.hasFree freeCount
  rw [List.countP_pos_iff]
  simp

/-- R140: a line that takes a spare leaves one FREE spare less of its kind. -/
theorem takes_freeCount {n : Nat} (h : a.takes k n b) :
    freeCount (b.spares k) + 1 = freeCount (a.spares k) ∧ ∀ j, j ≠ k → b.spares j = a.spares j := by
  obtain ⟨spare, hfree, -, rfl⟩ := h
  cases k with
  | row => exact ⟨freeCount_set_used hfree, fun j hj => by cases j with
    | row => exact absurd rfl hj
    | column => rfl⟩
  | column => exact ⟨freeCount_set_used hfree, fun j hj => by cases j with
    | row => rfl
    | column => exact absurd rfl hj⟩

/-- R140: with a FREE spare for every line, every line takes one. -/
theorem giveAll_of_enough {l : List Nat} (h : l.length ≤ freeCount (a.spares k)) :
    ∃ b, Allocation.giveAll k l a = some b ∧ ∀ j, j ≠ k → b.spares j = a.spares j := by
  induction l generalizing a with
  | nil => exact ⟨a, rfl, fun _ _ => rfl⟩
  | cons n t ih =>
    rw [List.length_cons] at h
    have hfree : a.hasFree k := hasFree_iff.2 (by omega)
    cases hg : a.give k n with
    | none => exact absurd hfree ((give_none a k n).1 hg)
    | some c =>
      obtain ⟨hcount, hother⟩ := takes_freeCount (give_some a k n hg)
      obtain ⟨b, hb, hbother⟩ := ih (a := c) (by omega)
      refine ⟨b, ?_, fun j hj => (hbother j hj).trans (hother j hj)⟩
      unfold Allocation.giveAll
      rw [hg]
      exact hb

/-- R140: the required lines find spares, unless they run short. -/
theorem allocateRequired_spec (rows columns : List Nat) (a : Allocation) :
    ((freeCount a.rowSpares < rows.length ∨ freeCount a.columnSpares < columns.length) → allocateRequired rows columns a = none) ∧
      (¬(freeCount a.rowSpares < rows.length ∨ freeCount a.columnSpares < columns.length) →
        ∃ m, allocateRequired rows columns a = some m ∧ TakeAll (rows.map (fun n => (.row, n)) ++ columns.map (fun n => (.column, n))) a m) := by
  refine ⟨fun h => if_pos h, fun h => ?_⟩
  obtain ⟨hr, hc⟩ := not_or.1 h
  obtain ⟨b, hb, hother⟩ := giveAll_of_enough (a := a) (k := .row) (Nat.not_lt.1 hr)
  have hcols : b.spares .column = a.spares .column := hother .column (by simp)
  obtain ⟨m, hm, -⟩ := giveAll_of_enough (a := b) (k := .column) (l := columns) (by rw [hcols]; exact Nat.not_lt.1 hc)
  refine ⟨m, (if_neg h).trans ?_, (giveAll_takeAll _ _ hb).append (giveAll_takeAll _ _ hm)⟩
  rw [hb]
  exact hm

/-- R140: the required lines of both kinds, rows first. -/
def Entry.linesToTake (x : Entry) : List (LineKind × Nat) :=
  (x.requiredLines .row).map (fun n => (.row, n)) ++ (x.requiredLines .column).map fun n => (.column, n)

/-- R140: the required lines are more than the FREE spares of their kind. -/
def Entry.runsShort (x : Entry) : Prop :=
  freeCount x.judgedSpares.rowSpares < (x.requiredLines .row).length ∨ freeCount x.judgedSpares.columnSpares < (x.requiredLines .column).length

/-- R141: the cells that the required lines leave. -/
def Entry.cellsLeft (x : Entry) (m : Allocation) : List (Nat × Nat) := remainingCells x.failLog (x.keptRecords ++ m.added)

/-- R140, R141: the required lines take spares, and then lines cover the cells left. -/
theorem allocation_eq (x : Entry) :
    x.allocation = (allocateRequired (x.requiredLines .row) (x.requiredLines .column) x.judgedSpares).bind fun m =>
      coverCells (x.cellsLeft m).length (x.cellsLeft m) m := by
  show allocate x x.faultyRecords x.keptRecords = _
  unfold allocate
  dsimp only
  cases h : allocateRequired (x.requiredLines .row) (x.requiredLines .column) x.judgedSpares with
  | none =>
    have h' : allocateRequired (lineSet (linesOf .row x.faultyRecords ++ rowLines x.failLog))
        (lineSet (linesOf .column x.faultyRecords ++ columnLines x.failLog))
        ⟨markBad .row x.faultyRecords x.rowSpares, markBad .column x.faultyRecords x.columnSpares, []⟩ = none := h
    rw [h']
    rfl
  | some m =>
    have h' : allocateRequired (lineSet (linesOf .row x.faultyRecords ++ rowLines x.failLog))
        (lineSet (linesOf .column x.faultyRecords ++ columnLines x.failLog))
        ⟨markBad .row x.faultyRecords x.rowSpares, markBad .column x.faultyRecords x.columnSpares, []⟩ = some m := h
    rw [h']
    rfl

/-- R140: the spares run short of the required lines. -/
theorem allocation_of_short (h : x.runsShort) : x.allocation = none := by
  rw [allocation_eq, (allocateRequired_spec _ _ _).1 h]
  rfl

/-- R140, R141: the required lines have taken spares, and the cells left are covered or not. -/
theorem allocation_of_enough (h : ¬x.runsShort) :
    ∃ m, TakeAll x.linesToTake x.judgedSpares m ∧ (∀ n, x.allocation = some n → Covers (x.cellsLeft m) m n) ∧
      (x.allocation = none → CoverFails (x.cellsLeft m) m) := by
  obtain ⟨m, hm, htake⟩ := (allocateRequired_spec (x.requiredLines .row) (x.requiredLines .column) x.judgedSpares).2 h
  have halloc : x.allocation = coverCells (x.cellsLeft m).length (x.cellsLeft m) m := by
    rw [allocation_eq, hm]
    rfl
  obtain ⟨hcovers, hfails⟩ := coverCells_spec _ (x.cellsLeft m) m le_rfl
  rw [← halloc] at hcovers hfails
  exact ⟨m, htake, hcovers, hfails⟩

end Allocations

/-! ### The parts of an allocation, as the rules say them -/

section Parts

variable {x : Entry}

/-- R140: the place of a fail record that asks for the whole line. -/
def linePlace (k : LineKind) (n : Nat) : FailPlace :=
  match k with
  | .row => .rowLine n
  | .column => .columnLine n

/-- R140: what must be repaired. -/
theorem requiredLines_spec (x : Entry) (k : LineKind) :
    (x.requiredLines k).Pairwise (· < ·) ∧ ∀ n, n ∈ x.requiredLines k ↔
      (∃ r ∈ x.repairMap, r.kind = k ∧ r.line = n ∧ (x.failLog.any fun f => f.attribution == r.blame) = true) ∨
        ∃ f ∈ x.failLog, f.place = linePlace k n := by
  have hfaulty : ∀ n, (∃ r ∈ x.faultyRecords, r.kind = k ∧ r.line = n) ↔
      ∃ r ∈ x.repairMap, r.kind = k ∧ r.line = n ∧ (x.failLog.any fun f => f.attribution == r.blame) = true := fun n => by
    simp only [Entry.faultyRecords, faultyRecords, List.mem_filter, faultySpare_eq]
    exact ⟨fun ⟨r, ⟨hr, hf⟩, hk, hl⟩ => ⟨r, hr, hk, hl, hf⟩, fun ⟨r, hr, hk, hl, hf⟩ => ⟨r, ⟨hr, hf⟩, hk, hl⟩⟩
  cases k with
  | row =>
    refine ⟨lineSet_sorted _, fun n => ?_⟩
    rw [Entry.requiredLines, mem_lineSet, List.mem_append, mem_linesOf, mem_rowLines, hfaulty]
    rfl
  | column =>
    refine ⟨lineSet_sorted _, fun n => ?_⟩
    rw [Entry.requiredLines, mem_lineSet, List.mem_append, mem_linesOf, mem_columnLines, hfaulty]
    rfl

/-- R142: the records that an allocation adds are in the map. -/
theorem joinedMap_spec (x : Entry) (n : Allocation) :
    (x.joinedMap n).Perm
        (x.repairMap.filter (fun r => !(x.failLog.any fun f => f.attribution == r.blame)) ++
          n.added.map fun r =>
            { r with guardTouched := if r.kind = .row then guarded x.guards r.line else decide (x.guards ≠ []) }) ∧
      (x.joinedMap n).Pairwise fun r q => r.before q = true := by
  refine ⟨?_, orderMap_sorted _⟩
  have hkept : x.keptRecords = x.repairMap.filter fun r => !(x.failLog.any fun f => f.attribution == r.blame) :=
    List.filter_congr fun r _ => by rw [faultySpare_eq]
  have htouch : touchRecord x.guards =
      fun r => { r with guardTouched := if r.kind = .row then guarded x.guards r.line else decide (x.guards ≠ []) } := by
    funext r
    unfold touchRecord
    cases hk : r.kind with
    | row => rfl
    | column =>
      cases x.guards <;> rfl
  rw [← hkept, ← htouch]
  exact orderMap_perm _

end Parts

end Sys2Proof.Machine
end

section
/-!
PROOF. ANALYSIS (R135 to R148): the statement.
-/

namespace Sys2Proof.Machine

open Sys2Proof

section Analysis

variable {s : State} {a : AnalysisEntry} {d : Descriptor} {rest : List AnalysisEntry} {x : Entry}

/-- R136, R148: the completion of an analysis that comes to this verdict. -/
theorem settles_of_result (han : s.analysing = true) (hq : s.analysisQueue = a :: rest) (hd : (s.entry a.inst).descriptor = some d)
    {map : List RepairRecord} {rs cs : List SpareState} {st : InstState} {reason : VerdictReason}
    (h : s.headResult a d = ⟨map, rs, cs, .settle st reason⟩) :
    ∃ t, exec .analysisComplete s = .next t ∧ s.settlesAs t a.inst d rest
      { s.entry a.inst with
        repairMap := map, rowSpares := rs, columnSpares := cs, state := st, reason := reason, endStamp := some s.now } := by
  have hsettles := completeAnalysis_settles (rest := rest) hd (st := st) (reason := reason) (by rw [h])
  rw [h] at hsettles
  exact ⟨_, exec_analysisComplete han hq, hsettles⟩

/-- R141: no record covers the cell. -/
theorem not_mem_linesOf_iff (rs : List RepairRecord) (r c : Nat) :
    (r ∉ linesOf .row rs ∧ c ∉ linesOf .column rs) ↔ ∀ y ∈ rs, ¬(y.kind = .row ∧ y.line = r) ∧ ¬(y.kind = .column ∧ y.line = c) := by
  rw [mem_linesOf, mem_linesOf]
  constructor
  · rintro ⟨hr, hc⟩ y hy
    exact ⟨fun h => hr ⟨y, hy, h⟩, fun h => hc ⟨y, hy, h⟩⟩
  · intro h
    exact ⟨fun ⟨y, hy, hk⟩ => (h y hy).1 hk, fun ⟨y, hy, hk⟩ => (h y hy).2 hk⟩

/-- R140: more row lines than FREE row spares run short, when no spare is blamed. -/
theorem runsShort_of_rows (hu : ∀ f ∈ x.failLog, f.attribution = .uncovered) {rows : List Nat} (hn : rows.Nodup)
    (hrows : ∀ n ∈ rows, ∃ f ∈ x.failLog, f.place = .rowLine n) (hfree : freeCount x.rowSpares < rows.length) : x.runsShort := by
  have hsub : rows ⊆ x.requiredLines .row := fun n hr => ((requiredLines_spec x .row).2 n).2 (.inr (hrows n hr))
  have hlen := (List.subperm_of_subset hn hsub).length_le
  refine .inl ?_
  rw [judgedSpares_of_uncovered hu]
  exact Nat.lt_of_lt_of_le hfree hlen

/-- R140, R141: an empty log needs no spare. -/
theorem allocation_of_empty (h : x.failLog = []) : x.allocation = some ⟨x.rowSpares, x.columnSpares, []⟩ := by
  have hu : ∀ f ∈ x.failLog, f.attribution = .uncovered := fun f hf => by
    rw [h] at hf
    cases hf
  have hlines : ∀ k, x.requiredLines k = [] := fun k => by
    refine List.eq_nil_iff_forall_not_mem.2 fun n hn => ?_
    have hspec := ((requiredLines_spec x k).2 n).1 hn
    rw [h] at hspec
    rcases hspec with ⟨r, -, -, -, hr⟩ | ⟨f, hf, -⟩
    · cases hr
    · cases hf
  have hcells : ∀ m, x.cellsLeft m = [] := fun m => by
    rw [Entry.cellsLeft, h]
    rfl
  rw [allocation_eq, hlines, hlines, judgedSpares_of_uncovered hu]
  have hreq : allocateRequired [] [] ⟨x.rowSpares, x.columnSpares, []⟩ = some ⟨x.rowSpares, x.columnSpares, []⟩ := by
    rw [allocateRequired, if_neg (by simp)]
    rfl
  rw [hreq, Option.bind_some, hcells]
  rfl

theorem joinedMap_of_empty (h : x.failLog = []) (ho : x.repairMap.Pairwise fun r n => r.before n = true) {n : Allocation}
    (hn : n.added = []) : x.joinedMap n = x.repairMap := by
  have hkept : x.keptRecords = x.repairMap := (faultyRecords_of_uncovered fun f hf => by
    rw [h] at hf
    cases hf).2
  rw [Entry.joinedMap, hkept, hn, List.map_nil, List.append_nil, orderMap_of_sorted ho]

end Analysis

end Sys2Proof.Machine

open Sys2Proof Sys2Proof.Machine

/-- Settles O49: the verdicts that an analysis comes to, and what its completion then writes. -/
theorem analysisSettlesVerdicts : Obligations.AnalysisSettlesVerdicts := by
  intro s
  refine ⟨fun han hq => ?begin, fun h => ?noBegin, fun h => ?noComplete, fun a rest d han hq hd => ?complete⟩
  case begin => exact congrArg Host.Outcome.next (if_neg (by simp [han, hq]))
  case noBegin => exact congrArg Host.Outcome.next (if_pos (by simpa using h))
  case noComplete =>
    refine congrArg Host.Outcome.next ?_
    cases hq : s.analysisQueue with
    | nil => rfl
    | cons a rest => exact if_neg (by simpa [hq] using h)
  case complete =>
    intro x settles faulty kept judged start required remaining inOrder
    have hset : ∀ map rs cs st reason, s.headResult a d = ⟨map, rs, cs, .settle st reason⟩ →
        settles { x with repairMap := map, rowSpares := rs, columnSpares := cs, state := st, reason := reason } :=
      fun _ _ _ _ _ h => settles_of_result han hq hd h
    have hhead : a.fresh = true → s.headResult a d = analyse x d.verify true (s.linkUp d.link) := fun hf => by
      rw [State.headResult, hf]
    refine ⟨fun hf => ?closing, fun hf ho => ?overflow, fun hf ho hu hrows => ?rows, fun hf ho hlog hord => ?clean, fun hf ho => ?fresh⟩
    case closing => exact hset _ _ _ _ _ (by rw [State.headResult, hf, analyse_closing])
    case overflow =>
      have h := (hhead hf).trans (analyse_overflow ho)
      rw [← ho] at h
      exact hset _ _ _ _ _ h
    case rows =>
      obtain ⟨rows, hn, hmem, hfree⟩ := hrows
      have h := (hhead hf).trans (analyse_short ho (allocation_of_short (runsShort_of_rows hu hn hmem hfree)))
      rw [judgedSpares_of_uncovered hu, (faultyRecords_of_uncovered hu).2] at h
      exact hset _ _ _ _ _ h
    case clean =>
      have halloc := allocation_of_empty hlog
      have hmap : x.joinedMap ⟨x.rowSpares, x.columnSpares, []⟩ = x.repairMap := joinedMap_of_empty hlog hord rfl
      refine ⟨fun hp => ?_, fun hp => ?_⟩
      · have h := (hhead hf).trans (analyse_partial ho halloc hp)
        rw [hmap] at h
        exact hset _ _ _ _ _ h
      · have h := (hhead hf).trans (analyse_clean ho halloc hp rfl)
        rw [hmap, cleanFinding_eq] at h
        exact hset _ _ _ _ _ h
    case fresh =>
      have hstart : start = x.judgedSpares :=
        congrArg₂ (fun r c => (⟨r, c, []⟩ : Allocation)) (markBad_faulty x .row x.rowSpares).symm (markBad_faulty x .column x.columnSpares).symm
      have hkept : kept = x.keptRecords := List.filter_congr fun r _ => by rw [faultySpare_eq]
      have hremaining : ∀ m, remaining m = x.cellsLeft m := fun m => by
        refine List.filterMap_congr fun f _ => ?_
        rw [← hkept]
        cases f.place with
        | cell r c => simp only [not_mem_linesOf_iff]
        | _ => rfl
      refine ⟨x.requiredLines .row, x.requiredLines .column, requiredLines_spec x .row, requiredLines_spec x .column, ?_⟩
      intro short lines
      have hshort : short ↔ x.runsShort := by
        simp only [short, hstart]
        rfl
      by_cases hs : x.runsShort
      · have h := (hhead hf).trans (analyse_short ho (allocation_of_short hs))
        rw [← hstart, ← hkept] at h
        exact .inl ⟨.inl (hshort.2 hs), hset _ _ _ _ _ h⟩
      · obtain ⟨m, htake, hcovers, hfails⟩ := allocation_of_enough hs
        cases halloc : x.allocation with
        | none =>
          have h := (hhead hf).trans (analyse_short ho halloc)
          rw [← hstart, ← hkept] at h
          exact .inl ⟨.inr ⟨m, by rw [hstart]; exact htake, by rw [hremaining]; exact hfails halloc⟩, hset _ _ _ _ _ h⟩
        | some n =>
          obtain ⟨hperm, hsorted⟩ := joinedMap_spec x n
          refine .inr ⟨m, n, x.joinedMap n, mt hshort.1 hs, by rw [hstart]; exact htake, by rw [hremaining]; exact hcovers n halloc,
            hperm, hsorted, fun hp => ?_, fun hp hn => ?_, fun hp hn => ?_⟩
          · exact hset _ _ _ _ _ ((hhead hf).trans (analyse_partial ho halloc hp))
          · have h := (hhead hf).trans (analyse_clean ho halloc hp hn)
            rw [cleanFinding_eq] at h
            exact hset _ _ _ _ _ h
          · have h := (hhead hf).trans (analyse_added ho halloc hp hn)
            refine ⟨fun hv => ?_, fun hv hc => ?_, fun hv hc hu => ?_, fun q hv hc hu hjob => ?_⟩
            · rw [hv, addedFinding_off] at h
              exact hset _ _ _ _ _ h
            · rw [hv, addedFinding_limit hc] at h
              exact hset _ _ _ _ _ h
            · rw [hv, hu, addedFinding_down hc] at h
              exact hset _ _ _ _ _ h
            · rw [hv, hu, addedFinding_up hc] at h
              have hverify := completeAnalysis_verifies (rest := rest) hd hjob (by rw [h])
              rw [h] at hverify
              rw [exec_analysisComplete han hq, hverify]
              rfl
end

section
/-!
PROOF. An analysis that repairs one row (R139 to R145, R147).
-/

namespace Sys2Proof.Machine

open Sys2Proof

section OneRow

variable {s : State} {x : Entry} {f : FailRecord} {row k : Nat} {a : Allocation}

/-- Section 8.5: the spare scan returns the first FREE spare. -/
theorem scan_of_first (hk : x.rowSpares[k]? = some .free) (hfirst : ∀ j, j < k → x.rowSpares[j]? ≠ some .free) {cs : List SpareState}
    {added : List RepairRecord} : (⟨x.rowSpares, cs, added⟩ : Allocation).scan .row = some k := by
  obtain ⟨hlt, hfree⟩ := List.getElem?_eq_some_iff.1 hk
  refine List.findIdx?_eq_some_iff_getElem.2 ⟨hlt, beq_iff_eq.2 hfree, fun j hj => ?_⟩
  have hne := hfirst j hj
  rw [List.getElem?_eq_getElem (by omega)] at hne
  exact fun h => hne (congrArg some (beq_iff_eq.1 h))

/-- R140: the only line to repair takes the first FREE spare. -/
theorem allocation_of_one_row (hlog : x.failLog = [f]) (hplace : f.place = .rowLine row) (hu : f.attribution = .uncovered)
    (hk : x.rowSpares[k]? = some .free) (hfirst : ∀ j, j < k → x.rowSpares[j]? ≠ some .free) :
    x.allocation = some ⟨x.rowSpares.set k .used, x.columnSpares, [⟨.row, row, k, .found, false, false⟩]⟩ := by
  have huncovered : ∀ g ∈ x.failLog, g.attribution = .uncovered := fun g hg => by
    rw [hlog, List.mem_singleton] at hg
    rw [hg, hu]
  have hrows : x.requiredLines .row = [row] := by
    rw [Entry.requiredLines, (faultyRecords_of_uncovered huncovered).1, hlog]
    simp [linesOf, rowLines, hplace, lineSet, insertLine]
  have hcolumns : x.requiredLines .column = [] := by
    rw [Entry.requiredLines, (faultyRecords_of_uncovered huncovered).1, hlog]
    simp [linesOf, columnLines, hplace, lineSet]
  have hcells : ∀ m, x.cellsLeft m = [] := fun m => by
    rw [Entry.cellsLeft, hlog]
    simp [remainingCells, hplace]
  have hfree : ¬(freeCount x.rowSpares < [row].length ∨ freeCount x.columnSpares < ([] : List Nat).length) := by
    have hset := freeCount_set_used hk
    simp only [List.length_singleton, List.length_nil]
    omega
  have hreq : allocateRequired [row] [] ⟨x.rowSpares, x.columnSpares, []⟩ =
      some ⟨x.rowSpares.set k .used, x.columnSpares, [⟨.row, row, k, .found, false, false⟩]⟩ := by
    rw [allocateRequired, if_neg hfree]
    simp [Allocation.giveAll, Allocation.give, scan_of_first hk hfirst, setSpare]
  rw [allocation_eq, hrows, hcolumns, judgedSpares_of_uncovered huncovered, hreq, Option.bind_some, hcells]
  rfl

end OneRow

end Sys2Proof.Machine

open Sys2Proof Sys2Proof.Machine

/-- Settles O50: the row takes its spare, and the verdict is that of an analysis that added a record. -/
theorem analysisRepairsARow : Obligations.AnalysisRepairsARow := by
  intro a rest d f row k s x han hq hf hd ho hlog hplace hu hk hfirst
  have halloc := allocation_of_one_row hlog hplace hu hk hfirst
  obtain ⟨n, hn⟩ : ∃ n : Allocation, n = ⟨x.rowSpares.set k .used, x.columnSpares, [⟨.row, row, k, .found, false, false⟩]⟩ := ⟨_, rfl⟩
  have hadded : n.added = [⟨.row, row, k, .found, false, false⟩] := by rw [hn]
  have hrs : n.rowSpares = x.rowSpares.set k .used := by rw [hn]
  have hcs : n.columnSpares = x.columnSpares := by rw [hn]
  rw [← hn] at halloc
  have hhead : s.headResult a d = analyse x d.verify true (s.linkUp d.link) := by rw [State.headResult, hf]
  have hkept : x.keptRecords = x.repairMap := (faultyRecords_of_uncovered fun g hg => by
    rw [hlog, List.mem_singleton] at hg
    rw [hg, hu]).2
  have hjoin : x.joinedMap n = orderMap (x.repairMap ++ [⟨.row, row, k, .found, false, guarded x.guards row⟩]) := by
    rw [Entry.joinedMap, hkept, hadded]
    rfl
  refine ⟨s.completeAnalysis a rest, x.joinedMap n, exec_analysisComplete han hq, ?perm, orderMap_sorted _, ?_⟩
  case perm =>
    rw [hjoin]
    exact (orderMap_perm _).trans List.perm_append_comm
  intro repaired settles
  have hset : ∀ st reason, s.headResult a d = ⟨x.joinedMap n, n.rowSpares, n.columnSpares, .settle st reason⟩ → settles st reason :=
    fun st reason h => by
      have hsettles := completeAnalysis_settles (rest := rest) hd (st := st) (reason := reason) (by rw [h])
      rw [h, hrs, hcs] at hsettles
      exact hsettles
  refine ⟨fun hp => hset _ _ (hhead.trans (analyse_partial ho halloc hp)), fun hp => ?_⟩
  have h := hhead.trans (analyse_added ho halloc hp (by rw [hadded]; simp))
  refine ⟨fun hv => ?off, fun hv hc => ?limit, fun hv hc hup => ?down, fun q hv hc hup hjob => ?verify⟩
  case off =>
    rw [hv, addedFinding_off] at h
    exact hset _ _ h
  case limit =>
    rw [hv, addedFinding_limit hc] at h
    exact hset _ _ h
  case down =>
    rw [hv, hup, addedFinding_down hc] at h
    exact hset _ _ h
  case verify =>
    rw [hv, hup, addedFinding_up hc] at h
    have hverify := completeAnalysis_verifies (rest := rest) hd hjob (by rw [h])
    rw [h, hrs, hcs] at hverify
    rw [hverify]
    exact ⟨(State.entry_setEntry ..).trans (if_pos rfl), fun j hj => (State.entry_setEntry ..).trans (if_neg hj), rfl, rfl, rfl, rfl⟩
end
